-- ==== Sys2Proof/Word.lean ====
section
/-! DEFINITION. The word types of IDCT-RE (00_scope.md R8; 20_memory.md R71, R74). -/

namespace Sys2Proof

/-- A register or a memory word: 32 bits (R8). -/
abbrev Word := BitVec 32

/-- One byte of memory; a picture sample is one (R74). -/
abbrev Byte := BitVec 8

end Sys2Proof
end

