-- ==== Sys2Proof/Config.lean ====
section
/-! DEFINITION. What an implementation fixes and what the spec leaves free: the parameters of 00_scope.md R9, R10,
R11, R13 and R14, and the free values of 93_implementation_defined.md part 2. A constant written `opaque` has no body:
no proof can learn a value of it, and a claim holds whatever it is. -/

namespace Sys2Proof.Config

/-- The three planes of a picture, in the order every rule processes them (R113). -/
inductive PlaneId where
  | y | cb | cr
  deriving DecidableEq, Repr

/-- KIND of a request to ExtMC (42_dispatcher.md R236). -/
inductive McKind where
  | skipCopy | inter | inter4v | bidir
  deriving DecidableEq, Repr

/-- A motion vector: its horizontal and vertical component as integers (30_encoding.md R117, 42_dispatcher.md R256).
Integers, so that a derived vector needs no narrowing the spec does not state (log entry 5). -/
structure MotionVector where
  x : Int
  y : Int
  deriving DecidableEq, Repr

/-- The request record of 42_dispatcher.md R236. Addresses are those the registers hold; `x`, `y` is the top-left
luma sample of the 16x16 target square. -/
structure McRequest where
  kind     : McKind
  overlap  : Bool
  umv      : Bool
  rru      : Bool
  quadrant : Nat
  target   : Word
  ref      : Word
  ref2     : Word
  mbDesc   : Nat
  x        : Nat
  y        : Nat
  mv       : List MotionVector
  deriving DecidableEq, Repr

/-- ExtMC, the external motion-compensation function of 00_scope.md R13: a total function of the request and of the
memory contents at the time of the request, giving the sample at column `x`, row `y` of the predicted array of one
plane (16x16 for Y, 8x8 for Cb and Cr). No law constrains it (log entry 4). -/
opaque extMC : McRequest → List (Nat × Byte) → PlaneId → (x y : Nat) → Byte

/-- Which ExtMC is attached: the open function, or the zero-motion fixture ExtMC0 that 95_test_vectors.md fixes
(93_implementation_defined.md U7: a model quantifies over ExtMC or fixes ExtMC0) (log entry 4). -/
inductive McAgent where
  | external | zeroMotion
  deriving DecidableEq, Repr

/-- The base types a legacy H.261 tag may behave as (R14). -/
inductive BaseType where
  | skip | inter | interQ | inter4v | intra | intraQ
  deriving DecidableEq, Repr

/-- LEGACY261 of 00_scope.md R14 as data: the tags that behave as a base type, with that type; every tag not listed is
unknown (log entry 20). -/
abbrev LegacyMap := List (Byte × BaseType)

/-- LEGACY261(tag) (R14). -/
def legacy261 (legacy : LegacyMap) (tag : Byte) : Option BaseType := legacy.lookup tag

/-- The configuration functions a machine is built with (R11): the spec's defaults, or others, of which the model knows
the required properties only (log entry 19). -/
inductive TableSource where
  | standard | replaced
  deriving DecidableEq, Repr

/-- The rise of a replaced RECLEVEL(Q, ·) from amplitude n to n + 1 (40_idct_engine.md R144; log entry 19). -/
opaque replacedRise : (q n : Nat) → Nat

/-- A replaced T(c, u, v, i, j), where its required properties do not fix it (40_idct_engine.md R146; log entry 19). -/
opaque replacedBasis : (c : Int) → (u v i j : Nat) → Int

/-- A replaced SCAN[s], used where it has the required properties (40_idct_engine.md R143; log entry 19). -/
opaque replacedScan : (s : Nat) → List Nat

/-- The correction of a replaced DBKTAB(q, d) by |d|, before the limit |d| (41_deblocking.md R203; log entry 19). -/
opaque replacedCorrection : (q size : Nat) → Int

/-- Bits 14..0 of a replaced COLORTAB[idx10][y6] (43_formatter.md R296; log entry 19). -/
opaque replacedColor : (idx10 y6 : Nat) → BitVec 15

/-- Free value, per sum: what an accumulator holds when a replaced T drives the sum beyond 32 bits. 40_idct_engine.md R149
gives no result there, and no such sum exists under the default T (R189; log entry 19). -/
opaque accOverflow : Int → BitVec 32

/-- The implementation parameters a machine is built with (92_eei_decisions.md part 7). No step changes them (log entry
3). -/
structure Params where
  /-- MEMSIZE - 1, the last address of the memory space (R9) -/
  lastAddress : BitVec 32
  /-- AIC_COLS - 1, the last column of the advanced-intra cache (R10) -/
  lastColumn  : Nat
  /-- the ExtMC attached (R13) -/
  agent       : McAgent
  /-- the configuration functions (R11) -/
  tables      : TableSource
  /-- LEGACY261 (R14) -/
  legacy      : LegacyMap
  deriving DecidableEq, Repr

/-- MEMSIZE (R9): 1 ≤ MEMSIZE ≤ 2^32, whatever the parameters. -/
def Params.memSize (p : Params) : Nat := p.lastAddress.toNat + 1

/-- AIC_COLS (R10), at least 1. -/
def Params.aicCols (p : Params) : Nat := p.lastColumn + 1

/-- The values the test vectors use: MEMSIZE 0x10000 (DESIGN CHOICE, log entry 3), AIC_COLS 88 (R10), the default
configuration functions (R11) and every legacy tag unknown (R14); ExtMC is the open function (R13). -/
def defaultParams : Params :=
  { lastAddress := 0xFFFF, lastColumn := 87, agent := .external, tables := .standard, legacy := [] }

/-- Free value: what a host read of a register returns that the running command may write (10_state.md R22, V1). -/
opaque busyRead : Nat → Word

/-- Free value, per draw and address: a byte the host reads, or stores, in memory that the running command uses
(20_memory.md R89, V2; log entry 9). -/
opaque raceByte : Nat → Nat → Byte

/-- Free value, per draw and address: a byte of memory that a command abandoned by a reset could write
(70_reset_and_hazards.md R373, V8; log entry 10). -/
opaque abandonedByte : Nat → Nat → Byte

end Sys2Proof.Config
end

