-- ==== Sys2Proof/Syntax.lean ====
section
/-! DEFINITION. The instructions of IDCT-RE, one constructor per row of spec/opcode_table.json: seventeen commands
(30_encoding.md R102, R103) and the seven rows of macroblock type tags (30_encoding.md R121), which play the role of
a second-level opcode inside DECODE_GOB (R100). -/

namespace Sys2Proof

/-- The syntax. A command's operands are registers read as they stand (R104); what the word itself carries is its
flags (R103). -/
inductive Instr where
  /-- NOP, opcode 0x00 (R142) -/
  | nop
  /-- INIT_TABLES, opcode 0x01 (R141) -/
  | initTables
  /-- AIC_FLUSH, opcode 0x02 (R184) -/
  | aicFlush
  /-- RECON, opcode 0x10, flag DC8 (R152) -/
  | recon (dc8 : Bool)
  /-- RECON_ADD, opcode 0x11, flag DC8 (R156) -/
  | reconAdd (dc8 : Bool)
  /-- RECON_S16, opcode 0x12, flag DC8 (R158) -/
  | reconS16 (dc8 : Bool)
  /-- RECON_AIC, opcode 0x13, flag DC8 (R178) -/
  | reconAic (dc8 : Bool)
  /-- RRU_UPADD, opcode 0x14, flags NOPRED and SMALL (R160) -/
  | rruUpadd (nopred small : Bool)
  /-- DBK_EDGE, opcode 0x20 (R206) -/
  | dbkEdge
  /-- DBK_EDGE_RRU, opcode 0x21 (R212) -/
  | dbkEdgeRru
  /-- DEBLOCK_PIC, opcode 0x22 (R208) -/
  | deblockPic
  /-- DEBLOCK_RRU_PIC, opcode 0x23 (R214) -/
  | deblockRruPic
  /-- DECODE_GOB, opcode 0x30 (R240) -/
  | decodeGob
  /-- CONCEAL_GOB, opcode 0x31 (R270) -/
  | concealGob
  /-- CONVERT_RGB555, opcode 0x40, flag SEL (R300) -/
  | convertRgb555 (sel : Bool)
  /-- CONVERT_YUY2, opcode 0x41 (R310) -/
  | convertYuy2
  /-- CONVERT_YVU9, opcode 0x42 (R314) -/
  | convertYvu9
  /-- MB.SKIP, type tag 0 (R248) -/
  | mbSkip
  /-- MB.INTER, type tag 1 (R250) -/
  | mbInter
  /-- MB.INTER_Q, type tag 2 (R251) -/
  | mbInterQ
  /-- MB.INTER4V, type tag 3 (R252) -/
  | mbInter4v
  /-- MB.INTRA, type tag 4 (R253) -/
  | mbIntra
  /-- MB.INTRA_Q, type tag 5 (R254) -/
  | mbIntraQ
  /-- MB.UNKNOWN, every tag that names no handler (R262) -/
  | mbUnknown (tag : Byte)
  deriving DecidableEq, Repr

end Sys2Proof
end

