-- ==== Sys2Proof/WellFormed.lean ====
section
/-! DEFINITION. Which terms of Instr some encoding stands for, on a machine with a given LEGACY261. -/

namespace Sys2Proof

/-- An unknown tag is one of 16..255, or of 6..15 with LEGACY261 giving no base type (30_encoding.md R121, R122).
Every other constructor is well formed with any flags. -/
def Instr.wellFormed (legacy : Config.LegacyMap) : Instr → Bool
  | .mbUnknown tag => 6 ≤ tag.toNat && (15 < tag.toNat || (Config.legacy261 legacy tag).isNone)
  | _ => true

end Sys2Proof
end

