-- ==== Sys2Proof/Decode.lean ====
section
/-! DEFINITION. The decoder of command words and type tags, total on every word and byte (30_encoding.md R101 to
R106, R121), and the encoder, written from the same tables. -/

namespace Sys2Proof

/-- Why a command word is illegal (30_encoding.md R105). -/
inductive DecodeError where
  /-- bits 31..10 are not all 0 -/
  | zeroField
  /-- OPC is none of the seventeen opcodes -/
  | unknownOpcode
  /-- a flag bit is 1 that the opcode does not define (R103) -/
  | undefinedFlag
  deriving DecidableEq, Repr

/-- One code the machine decodes: a word written to CMD, or the type tag of a macroblock descriptor (R100). -/
inductive Code where
  | command (w : Word)
  | tag (t : Byte)
  deriving DecidableEq, Repr

/-- OPC, bits 7..0 of a command word (R101). -/
def cmdOpc (w : Word) : Nat := w.toNat % 256
/-- F0, bit 8 of a command word (R101). -/
def cmdF0 (w : Word) : Bool := w.getLsbD 8
/-- F1, bit 9 of a command word (R101). -/
def cmdF1 (w : Word) : Bool := w.getLsbD 9
/-- ZERO, bits 31..10 of a command word (R101). -/
def cmdZero (w : Word) : Nat := w.toNat / 1024

/-- A command that defines no flag (R103). -/
def withNoFlag (f0 f1 : Bool) (i : Instr) : Except DecodeError Instr :=
  if f0 || f1 then .error .undefinedFlag else .ok i

/-- A command that defines F0 only (R103). -/
def withF0 (f0 f1 : Bool) (i : Bool → Instr) : Except DecodeError Instr :=
  if f1 then .error .undefinedFlag else .ok (i f0)

/-- The opcode map of 30_encoding.md R102 with the flags of R103. -/
def decodeOpc (opc : Nat) (f0 f1 : Bool) : Except DecodeError Instr :=
  match opc with
  | 0x00 => withNoFlag f0 f1 .nop
  | 0x01 => withNoFlag f0 f1 .initTables
  | 0x02 => withNoFlag f0 f1 .aicFlush
  | 0x10 => withF0 f0 f1 .recon
  | 0x11 => withF0 f0 f1 .reconAdd
  | 0x12 => withF0 f0 f1 .reconS16
  | 0x13 => withF0 f0 f1 .reconAic
  | 0x14 => .ok (.rruUpadd f0 f1)
  | 0x20 => withNoFlag f0 f1 .dbkEdge
  | 0x21 => withNoFlag f0 f1 .dbkEdgeRru
  | 0x22 => withNoFlag f0 f1 .deblockPic
  | 0x23 => withNoFlag f0 f1 .deblockRruPic
  | 0x30 => withNoFlag f0 f1 .decodeGob
  | 0x31 => withNoFlag f0 f1 .concealGob
  | 0x40 => withF0 f0 f1 .convertRgb555
  | 0x41 => withNoFlag f0 f1 .convertYuy2
  | 0x42 => withNoFlag f0 f1 .convertYvu9
  | _ => .error .unknownOpcode

/-- Decoding of a command word, total (30_encoding.md R106). -/
def decodeCommand (w : Word) : Except DecodeError Instr :=
  if cmdZero w ≠ 0 then .error .zeroField else decodeOpc (cmdOpc w) (cmdF0 w) (cmdF1 w)

/-- The handler a legacy tag's base type names (30_encoding.md R122). -/
def baseInstr : Config.BaseType → Instr
  | .skip => .mbSkip
  | .inter => .mbInter
  | .interQ => .mbInterQ
  | .inter4v => .mbInter4v
  | .intra => .mbIntra
  | .intraQ => .mbIntraQ

/-- Decoding of a macroblock type tag, total (30_encoding.md R121, R122); a tag of 6..15 is what LEGACY261 says. -/
def decodeTag (legacy : Config.LegacyMap) (t : Byte) : Instr :=
  match t.toNat with
  | 0 => .mbSkip
  | 1 => .mbInter
  | 2 => .mbInterQ
  | 3 => .mbInter4v
  | 4 => .mbIntra
  | 5 => .mbIntraQ
  | n => if n ≤ 15 then ((Config.legacy261 legacy t).map baseInstr).getD (.mbUnknown t) else .mbUnknown t

/-- The decoder: every command word and every tag is one instruction or illegal for a named reason. -/
def decode (legacy : Config.LegacyMap) : Code → Except DecodeError Instr
  | .command w => decodeCommand w
  | .tag t => .ok (decodeTag legacy t)

/-- A command word from its opcode and flags (R101). -/
def cmdWord (opc : Nat) (f0 f1 : Bool) : Word :=
  BitVec.ofNat 32 (opc + (if f0 then 256 else 0) + (if f1 then 512 else 0))

/-- The encoder: the code of an instruction, from 30_encoding.md R102, R103 and R121. -/
def encode : Instr → Code
  | .nop => .command (cmdWord 0x00 false false)
  | .initTables => .command (cmdWord 0x01 false false)
  | .aicFlush => .command (cmdWord 0x02 false false)
  | .recon dc8 => .command (cmdWord 0x10 dc8 false)
  | .reconAdd dc8 => .command (cmdWord 0x11 dc8 false)
  | .reconS16 dc8 => .command (cmdWord 0x12 dc8 false)
  | .reconAic dc8 => .command (cmdWord 0x13 dc8 false)
  | .rruUpadd nopred small => .command (cmdWord 0x14 nopred small)
  | .dbkEdge => .command (cmdWord 0x20 false false)
  | .dbkEdgeRru => .command (cmdWord 0x21 false false)
  | .deblockPic => .command (cmdWord 0x22 false false)
  | .deblockRruPic => .command (cmdWord 0x23 false false)
  | .decodeGob => .command (cmdWord 0x30 false false)
  | .concealGob => .command (cmdWord 0x31 false false)
  | .convertRgb555 sel => .command (cmdWord 0x40 sel false)
  | .convertYuy2 => .command (cmdWord 0x41 false false)
  | .convertYvu9 => .command (cmdWord 0x42 false false)
  | .mbSkip => .tag 0
  | .mbInter => .tag 1
  | .mbInterQ => .tag 2
  | .mbInter4v => .tag 3
  | .mbIntra => .tag 4
  | .mbIntraQ => .tag 5
  | .mbUnknown tag => .tag tag

/-- The instruction the decoder reads from a code of `nbits` bits whose bits are `w`: a command word has 32 bits, a
type tag 8, and there is no other code (R100). LEGACY261 is the default, as in the machine after reset. -/
def decodeTableWord (nbits w : Nat) : Option Instr :=
  if nbits = 32 then (decode Config.defaultParams.legacy (.command (BitVec.ofNat 32 w))).toOption
  else if nbits = 8 then (decode Config.defaultParams.legacy (.tag (BitVec.ofNat 8 w))).toOption
  else none

end Sys2Proof
end

