-- ==== Sys2Proof/Machine/Bits.lean ====
section
/-! DEFINITION. The arithmetic and bit-field primitives of 00_scope.md section 5. Arithmetic is over unbounded
integers and is narrowed only where a rule says so. -/

namespace Sys2Proof.Machine

/-- `v[hi:lo]` of an unsigned value, as `width` bits from bit `lo`. -/
def field (v lo width : Nat) : Nat := v / 2 ^ lo % 2 ^ width

/-- `v[n]` of an unsigned value. -/
def bit (v n : Nat) : Bool := v / 2 ^ n % 2 = 1

/-- `sext_16(v)` of the low 16 bits of v. -/
def sext16 (v : Nat) : Int := (BitVec.ofNat 16 v).toInt

/-- `a >>a n`: floor(a / 2^n), negative a included. -/
def asr (a : Int) (n : Nat) : Int := a / 2 ^ n

/-- `div_tz(a, b)`: division truncating toward zero. -/
def divTz (a b : Int) : Int := Int.tdiv a b

/-- `rnd_hafz(n, s)`: n / 2^s to the nearest integer, halves away from zero. -/
def rndHafz (n : Int) (s : Nat) : Int :=
  if 0 ≤ n then asr (n + 2 ^ (s - 1)) s else -(asr (-n + 2 ^ (s - 1)) s)

/-- `clip255(v)`. -/
def clip255 (v : Int) : Int := min (max v 0) 255

/-- `clipS(v, m)`. -/
def clipS (v m : Int) : Int := min (max v (-m)) m

/-- `trunc_32(v)`. -/
def trunc32 (v : Int) : Word := BitVec.ofInt 32 v

/-- The byte that holds a sample value 0..255 (20_memory.md R74). -/
def sampleByte (v : Int) : Byte := BitVec.ofInt 8 v

/-- The two bytes of trunc_16(v), the lower address first (20_memory.md R71). -/
def halfBytes (v : Int) : List Byte :=
  [(BitVec.ofInt 16 v).extractLsb' 0 8, (BitVec.ofInt 16 v).extractLsb' 8 8]

/-- A word with the `width` bits from bit `lo` of v replaced by f. -/
def setField (v lo width f : Nat) : Nat := v % 2 ^ lo + f % 2 ^ width * 2 ^ lo + v / 2 ^ (lo + width) * 2 ^ (lo + width)

/-- The positions (x, y) of a rectangle of w columns and h rows in row order (20_memory.md R84). -/
def grid (w h : Nat) : List (Nat × Nat) :=
  (List.range h).flatMap fun y => (List.range w).map fun x => (x, y)

end Sys2Proof.Machine
end

