-- ==== Sys2Proof/Machine/State.lean ====
section
/-! DEFINITION. The state of IDCT-RE as plain data (10_state.md R20), the stops of the model, and the state after
reset (10_state.md R50). -/

namespace Sys2Proof.Machine

open Sys2Proof.Config

/-- RESULT, the way the last command ended (10_state.md R27). -/
inductive ResultCode where
  | none | ok | suspended | gobAborted | passFailed | faulted
  deriving DecidableEq, Repr

/-- LASTCASE, the coefficient-pattern case of the last block reconstruction (10_state.md R40). -/
inductive PatternCase where
  | dcOnly | dcH1 | dcV1 | dcH1V1 | general
  deriving DecidableEq, Repr

/-- FMT_PATH, the scaling path of the last CONVERT_RGB555 (10_state.md R41). -/
inductive ScalePath where
  | direct | fast2x | fast1p5x | generic
  deriving DecidableEq, Repr

/-- The fourteen faults of the device (60_exceptions.md R331). They are latched in registers, not stops of the
model. -/
inductive FaultName where
  | opcode | noTables | quant | symCount | symRange | addr | align | aicArg | aicBound | gobDesc | picDesc | fmtArg
  | mode | edgeArg
  deriving DecidableEq, Repr

/-- CTRL, the interrupt enables (10_state.md R24). Bit 31 SOFTRESET always reads 0 and is not stored. -/
structure Control where
  ieDone  : Bool
  ieFault : Bool
  ieSusp  : Bool
  deriving DecidableEq, Repr

/-- IRQSTAT, the pending interrupt causes (10_state.md R29). -/
structure IrqStat where
  done  : Bool
  fault : Bool
  susp  : Bool
  deriving DecidableEq, Repr

/-- STATUS.FAULT, FAULTCODE and FAULTINFO (10_state.md R25, R28). -/
structure FaultLatch where
  pending : Bool
  code    : Word
  info    : Word
  deriving DecidableEq, Repr

/-- Operand registers of unit I (10_state.md R30). -/
structure RegsI where
  symPtr      : Word
  symCnt      : Word
  quant       : Word
  pred        : Word
  dest        : Word
  stride      : Word
  aicPos      : Word
  upSrc       : Word
  upSrcStride : Word
  deriving DecidableEq, Repr

/-- Operand registers of unit K (10_state.md R31). -/
structure RegsK where
  dbkPic       : Word
  dbkMbBase    : Word
  dbkGeom      : Word
  dbkRowStride : Word
  edgeAddr     : Word
  edgeAlong    : Word
  edgeAcross   : Word
  edgeQ        : Word
  edgeLen      : Word
  deriving DecidableEq, Repr

/-- Operand registers of unit D (10_state.md R32); DMODE keeps its four named bits (R21, log entry 13). -/
structure RegsD where
  gobPtr : Word
  mbBase : Word
  budget : Word
  picNew : Word
  picOld : Word
  picB   : Word
  dmode  : BitVec 4
  deriving DecidableEq, Repr

/-- Operand registers of unit F (10_state.md R33). -/
structure RegsF where
  fmtSrc       : Word
  fmtDst       : Word
  fmtDstStride : Word
  fmtDstW      : Word
  fmtDstH      : Word
  fmtMask      : Word
  fmtMaskStep  : Word
  fmtMaskPitch : Word
  deriving DecidableEq, Repr

/-- The checkpoint cursor CK (10_state.md R36). -/
structure Checkpoint where
  loop  : Word
  mbNum : Word
  col   : Word
  work  : Word
  valid : Bool
  deriving DecidableEq, Repr

/-- The STAT counters (10_state.md R34). -/
structure Stats where
  mbDone    : Word
  badType   : Word
  geomFail  : Word
  concealed : Word
  deriving DecidableEq, Repr

/-- One block slot of an entry of the advanced-intra cache (10_state.md R45): eight coefficients each, every one in
-2047..2047. -/
structure AicSlot where
  valid : Bool
  row   : List Int
  colv  : List Int
  deriving DecidableEq, Repr

/-- One entry AICC[c]: the six block slots of a macroblock column (10_state.md R45). -/
abbrev AicEntry := List AicSlot

/-- A PlaneDescr as read (30_encoding.md R112). -/
structure Plane where
  base   : Nat
  width  : Nat
  height : Nat
  stride : Nat
  deriving DecidableEq, Repr

/-- The planes of a PictureDescr as read (30_encoding.md R113). Planes a command does not read are all zero. -/
structure Picture where
  y  : Plane
  cb : Plane
  cr : Plane
  deriving DecidableEq, Repr

/-- A GobDescr as read (30_encoding.md R123). -/
structure GobDescr where
  firstRow  : Nat
  firstCol  : Nat
  mbPerRow  : Nat
  rowStride : Nat
  mbCount   : Nat
  deriving DecidableEq, Repr

/-- What DECODE_GOB and CONCEAL_GOB hold after the start checks of 42_dispatcher.md R232: its variables g, NEW, OLD,
B, COLOR, useB and geomfail, and the cursor it entered its loop with, whose WORK is work0 of R240 (log entries 15,
31). -/
structure GobRun where
  gob      : GobDescr
  newPic   : Picture
  oldPic   : Picture
  bPic     : Picture
  color    : Bool
  useB     : Bool
  geomFail : Bool
  entry    : Checkpoint
  deriving DecidableEq, Repr

/-- The running command (10_state.md R25, R26, R35): none; one that a CMD write started and that has not yet acted; or
a DECODE_GOB inside its macroblock loop (log entry 2). -/
inductive Run where
  | idle
  | command (w : Word)
  | gob (c : GobRun)
  deriving DecidableEq, Repr

/-- An operation of the host or of the platform (30_encoding.md R130; 70_reset_and_hazards.md R371, R375). -/
inductive HostOp where
  /-- an aligned 32-bit write of the register window -/
  | write (offset : BitVec 9) (value : Word)
  /-- an aligned 32-bit read of the register window -/
  | read (offset : BitVec 9)
  /-- a byte or halfword access to the register window (20_memory.md R72) -/
  | narrow (offset : BitVec 9) (bytes : Nat)
  /-- host stores of consecutive bytes of memory -/
  | store (addr : Nat) (bytes : List Byte)
  /-- a host load of one byte of memory -/
  | load (addr : Nat)
  /-- the host polls STATUS until BUSY = 0 -/
  | wait
  /-- the host lets the device have one turn -/
  | pause
  /-- the reset input is asserted and released (70_reset_and_hazards.md R371) -/
  | hardReset
  deriving DecidableEq, Repr

/-- Memory: the listed bytes, addresses strictly rising, none equal to what an unlisted address reads as. -/
abbrev Memory := List Host.Cell

/-- The state of the machine (10_state.md R20). The last five fields stand outside the device or are the model's own. -/
structure State where
  ctrl        : Control
  tablesValid : Bool
  lastCase    : PatternCase
  result      : ResultCode
  fault       : FaultLatch
  irq         : IrqStat
  regI        : RegsI
  regK        : RegsK
  regD        : RegsD
  regF        : RegsF
  ck          : Checkpoint
  stats       : Stats
  /-- DBK_Q, the quantiser the deblocking table was last built for (10_state.md R44) -/
  dbkQ        : Word
  fmtPath     : ScalePath
  /-- AICC, the advanced-intra cache, one entry per macroblock column (10_state.md R45) -/
  aicc        : List AicEntry
  /-- ACC, cell [pu][pv][j][i] at index 32*pu + 16*pv + 4*j + i (10_state.md R42) -/
  acc         : List (BitVec 32)
  /-- RRUBUF, element [y][x] at index 16*y + x (10_state.md R46) -/
  rrubuf      : List (BitVec 16)
  run         : Run
  mem         : Memory
  /-- the implementation parameters, which no step changes (log entry 3) -/
  params      : Params
  /-- what the host does next (log entry 1) -/
  script      : List HostOp
  /-- the word the last host read returned (log entry 22) -/
  readData    : Word
  /-- how many free values have been drawn (log entry 22) -/
  freeCount   : Nat
  deriving DecidableEq, Repr

/-- Where the model stops with a fault. The device's own faults are not here: they are latched and the machine goes
on. -/
inductive Fault where
  /-- Raised by a host store or load with a byte at or above MEMSIZE: no such byte exists (20_memory.md R70). Safe: the
  host's own path is outside the device and no rule says what it returns there (log entry 12). -/
  | hostAddress (addr : Nat)
  deriving DecidableEq, Repr

/-- Where the model gives a step no meaning. -/
inductive Refusal where
  /-- Raised by an arm of exec whose instruction has no meaning yet. Safe: the run stops. -/
  | notModelled (mnemonic : String)
  /-- Raised by a byte, halfword or misaligned access to the register window: 20_memory.md R72 has a model refuse it.
  Safe (log entry 11). -/
  | windowAccess (offset : BitVec 9)
  /-- Raised by the meaning of a type tag where no DECODE_GOB is running: a tag is fetched only by that command's loop
  (42_dispatcher.md R240). Safe: no step does it (log entry 26). -/
  | tagOutsideGob
  deriving DecidableEq, Repr

/-- A slot of AICC after reset: not valid; its coefficients are unspecified and never read while invalid
(10_state.md R50; 0 by DESIGN CHOICE, log entry 7). -/
def AicSlot.reset : AicSlot := { valid := false, row := List.replicate 8 0, colv := List.replicate 8 0 }

/-- AICC after reset, for a cache of `cols` columns (10_state.md R50). -/
def aiccReset (cols : Nat) : List AicEntry := List.replicate cols (List.replicate 6 AicSlot.reset)

/-- The state right after reset: 10_state.md R50 for every register; ACC, RRUBUF and the contents of AICC are
unspecified there and 0 here (log entry 7). -/
def State.reset : State where
  ctrl := { ieDone := false, ieFault := false, ieSusp := false }
  tablesValid := false
  lastCase := .dcOnly
  result := .none
  fault := { pending := false, code := 0, info := 0 }
  irq := { done := false, fault := false, susp := false }
  regI := { symPtr := 0, symCnt := 0, quant := 0, pred := 0, dest := 0, stride := 0, aicPos := 0, upSrc := 0,
            upSrcStride := 0 }
  regK := { dbkPic := 0, dbkMbBase := 0, dbkGeom := 0, dbkRowStride := 0, edgeAddr := 0, edgeAlong := 0,
            edgeAcross := 0, edgeQ := 0, edgeLen := 0 }
  regD := { gobPtr := 0, mbBase := 0, budget := 0, picNew := 0, picOld := 0, picB := 0, dmode := 0 }
  regF := { fmtSrc := 0, fmtDst := 0, fmtDstStride := 0, fmtDstW := 0, fmtDstH := 0, fmtMask := 0, fmtMaskStep := 0,
            fmtMaskPitch := 0 }
  ck := { loop := 0, mbNum := 0, col := 0, work := 0, valid := false }
  stats := { mbDone := 0, badType := 0, geomFail := 0, concealed := 0 }
  dbkQ := 0
  fmtPath := .direct
  aicc := aiccReset defaultParams.aicCols
  acc := List.replicate 64 0
  rrubuf := List.replicate 256 0
  run := .idle
  mem := []
  params := defaultParams
  script := []
  readData := 0
  freeCount := 0

end Sys2Proof.Machine
end

