-- ==== Sys2Proof/Machine/Ops.lean ====
section
/-! DEFINITION. The shared operations: memory, the checks of 20_memory.md R75 and R76, ending a command, taking a fault
and acknowledging it (60_exceptions.md R333, R334, R336), reset (70_reset_and_hazards.md R371 to R373). -/

namespace Sys2Proof.Machine

open Sys2Proof.Config

/-! ### Memory -/

/-- What a byte of memory that is not listed reads as (DESIGN CHOICE, log entry 6). -/
def unlistedByte : Byte := 0

/-- The byte at an address. -/
def Memory.read : Memory → Nat → Byte
  | [], _ => unlistedByte
  | (b, v) :: rest, a => if a = b then v else Memory.read rest a

/-- A memory with a byte put in front, unless it is what an unlisted address reads as. -/
def Memory.put (a : Nat) (v : Byte) (rest : Memory) : Memory :=
  if v = unlistedByte then rest else (a, v) :: rest

/-- One byte written, keeping the canonical form. -/
def Memory.write : Memory → Nat → Byte → Memory
  | [], a, v => Memory.put a v []
  | (b, w) :: rest, a, v =>
    if a < b then Memory.put a v ((b, w) :: rest)
    else if a = b then Memory.put a v rest
    else (b, w) :: Memory.write rest a v

/-- The canonical form: addresses strictly rising, no entry equal to what an unlisted address reads as. -/
abbrev Memory.wf (m : Memory) : Prop :=
  m.Pairwise (fun p q => p.1 < q.1) ∧ ∀ p ∈ m, p.2 ≠ unlistedByte

/-- Bytes written one after another. -/
def Memory.writeAll (m : Memory) (l : List (Nat × Byte)) : Memory :=
  l.foldl (fun m p => m.write p.1 p.2) m

/-- The n bytes at a .. a+n-1 assembled little-endian (20_memory.md R71). -/
def Memory.readLE (m : Memory) (a : Nat) : Nat → Nat
  | 0 => 0
  | n + 1 => (m.read a).toNat + 256 * m.readLE (a + 1) n

/-- The n low bytes of v with their addresses, little-endian from a (20_memory.md R71). -/
def bytesLE (a : Nat) : Nat → Nat → List (Nat × Byte)
  | 0, _ => []
  | n + 1, v => (a, BitVec.ofNat 8 v) :: bytesLE (a + 1) n (v / 256)

/-! ### Raising, and accesses that may raise -/

/-- A fault a command raises: its name and information word (60_exceptions.md R331, R334). -/
structure Raise where
  name : FaultName
  info : Word
  deriving DecidableEq, Repr

/-- The checks of one access of n bytes at the unbounded integer a: range first, then alignment, each with
FAULTINFO = trunc_32(a) (20_memory.md R75, R76). -/
def access (s : State) (a : Int) (n : Nat) : Except Raise Nat :=
  if a < 0 ∨ (s.params.memSize : Int) < a + n then .error ⟨.addr, trunc32 a⟩
  else if a % n ≠ 0 then .error ⟨.align, trunc32 a⟩
  else .ok a.toNat

/-- The checks of accesses of n bytes each, in order; the first that fails is reported. -/
def accessAll (s : State) (n : Nat) : List Int → Except Raise (List Nat)
  | [] => .ok []
  | a :: rest => do
    let x ← access s a n
    let xs ← accessAll s n rest
    .ok (x :: xs)

/-- MemRead(a, n) (00_scope.md section 5). -/
def memRead (s : State) (a : Int) (n : Nat) : Except Raise Nat := do
  let x ← access s a n
  .ok (s.mem.readLE x n)

/-- MemRead of each address in order. -/
def memReadAll (s : State) (n : Nat) : List Int → Except Raise (List Nat)
  | [] => .ok []
  | a :: rest => do
    let x ← memRead s a n
    let xs ← memReadAll s n rest
    .ok (x :: xs)

/-- Bytes stored one after another in the memory of a state. -/
def State.store (s : State) (l : List (Nat × Byte)) : State := { s with mem := s.mem.writeAll l }

/-- MemWrite(a, n, v) (00_scope.md section 5). -/
def memWrite (s : State) (a : Int) (n v : Nat) : Except Raise State := do
  let x ← access s a n
  .ok (s.store (bytesLE x n v))

/-- Bytes at consecutive addresses from a. -/
def placed (a : Nat) (bytes : List Byte) : List (Nat × Byte) := bytes.zipIdx.map fun q => (a + q.2, q.1)

/-- Every destination checked, then each item stored, in order (20_memory.md R84): an item is an address and the bytes
stored there, `n` bytes each. -/
def checkThenStore (s : State) (n : Nat) (items : List (Int × List Byte)) : Except Raise State := do
  let addrs ← accessAll s n (items.map (·.1))
  .ok (s.store ((addrs.zip (items.map (·.2))).flatMap fun p => placed p.1 p.2))

/-- Every destination checked, then each item stored in order, its bytes read from memory at that moment, so that an
item sees what the items before it stored (20_memory.md R83). -/
def checkThenCopy (s : State) (n : Nat) (items : List (Int × (Memory → List Byte))) : Except Raise State := do
  let addrs ← accessAll s n (items.map (·.1))
  .ok { s with mem := (addrs.zip (items.map (·.2))).foldl (fun m p => m.writeAll (placed p.1 (p.2 m))) s.mem }

/-! ### The end of a command -/

/-- STATUS.BUSY (10_state.md R25). -/
def State.busy (s : State) : Bool :=
  match s.run with
  | .idle => false
  | _ => true

/-- The code of a fault (60_exceptions.md R331). -/
def FaultName.code : FaultName → Word
  | .opcode => 0x01
  | .noTables => 0x02
  | .quant => 0x03
  | .symCount => 0x04
  | .symRange => 0x05
  | .addr => 0x06
  | .align => 0x07
  | .aicArg => 0x08
  | .aicBound => 0x09
  | .gobDesc => 0x0A
  | .picDesc => 0x0B
  | .fmtArg => 0x0C
  | .mode => 0x0D
  | .edgeArg => 0x0E

/-- `finish(code)` (60_exceptions.md R333): RESULT, one IRQSTAT bit, BUSY. -/
def finish (code : ResultCode) (s : State) : State :=
  { s with
    result := code
    irq := if code = .suspended then { s.irq with susp := true } else { s.irq with done := true }
    run := .idle }

/-- `raise E(info)`, taking a fault (60_exceptions.md R334): the one operation every fault goes through. -/
def raise (e : Raise) (s : State) : State :=
  { s with
    fault := { pending := true, code := e.name.code, info := e.info }
    result := .faulted
    irq := { s.irq with fault := true }
    run := .idle }

/-- CK.VALID <- v. -/
def setCkValid (v : Bool) (s : State) : State := { s with ck := { s.ck with valid := v } }

/-- A raise inside a macroblock loop also clears CK.VALID (60_exceptions.md R334, 42_dispatcher.md R268). -/
def raiseInLoop (e : Raise) (s : State) : State := raise e (setCkValid false s)

/-- The return from a fault: what a write of IRQSTAT with bit 1 set does (60_exceptions.md R336). -/
def acknowledge (s : State) : State :=
  { s with
    irq := { s.irq with fault := false }
    fault := { pending := false, code := 0, info := 0 } }

/-- The outcome of a step. -/
abbrev Result := Host.Outcome State Fault Refusal

/-- The end of a command that makes all its checks before its first write: OK with its effect, or the fault with no
effect (60_exceptions.md R335). -/
def endCommand (s : State) (r : Except Raise State) : Result :=
  match r with
  | .ok t => .next (finish .ok t)
  | .error e => .next (raise e s)

/-- The check that opens every command but NOP, INIT_TABLES and AIC_FLUSH (10_state.md R43). -/
def needTables (s : State) : Except Raise Unit :=
  if s.tablesValid then .ok () else .error ⟨.noTables, 0⟩

/-- A condition under which a command raises. -/
def raiseIf (c : Prop) [Decidable c] (name : FaultName) (info : Int) : Except Raise Unit :=
  if c then .error ⟨name, trunc32 info⟩ else .ok ()

/-! ### The advanced-intra cache -/

/-- A slot with its VALID bit cleared. -/
def AicSlot.invalidate (x : AicSlot) : AicSlot := { x with valid := false }

/-- Every VALID bit of AICC cleared (40_idct_engine.md R182, R184). -/
def clearAicc (s : State) : State := { s with aicc := s.aicc.map fun e => e.map AicSlot.invalidate }

/-- The six VALID bits of AICC[col] cleared, for col < AIC_COLS (40_idct_engine.md R182). -/
def clearAiccColumn (col : Nat) (s : State) : State :=
  { s with aicc := s.aicc.modify col fun e => e.map AicSlot.invalidate }

/-- AICC[col], slot b, if it is available: its column exists and its VALID bit is 1 (40_idct_engine.md R172). -/
def aicSlot (s : State) (col b : Nat) : Option AicSlot :=
  ((s.aicc[col]?).bind fun e => e[b]?).filter (·.valid)

/-- AICC[col] slot b written with its VALID bit set (40_idct_engine.md R178, R180). -/
def writeAicSlot (col b : Nat) (row colv : List Int) (s : State) : State :=
  { s with aicc := s.aicc.modify col fun e => e.set b { valid := true, row := row, colv := colv } }

/-! ### Reset and free values -/

/-- A memory whose bytes below `n` with a property hold given values instead (70_reset_and_hazards.md R373). -/
def Memory.overlay (m : Memory) (n : Nat) (p : Nat → Bool) (value : Nat → Byte) : Memory :=
  m.writeAll (((List.range n).filter p).map fun a => (a, value a))

/-- The device state at the values of 10_state.md R50, memory given; the parameters, the host's script and the model's
own fields stay (70_reset_and_hazards.md R371, R372). -/
def resetDevice (s : State) (mem : Memory) : State :=
  { State.reset with
    aicc := aiccReset s.params.aicCols
    mem := mem
    params := s.params
    script := s.script
    readData := s.readData
    freeCount := s.freeCount }

/-- One free value drawn. -/
def drawn (s : State) : State := { s with freeCount := s.freeCount + 1 }

end Sys2Proof.Machine
end

