-- ==== Sys2Proof/Machine/Flags.lean ====
section
/-! DEFINITION. The flags as words: STATUS, CTRL, IRQSTAT, CKCTL, RESULT, FMT_PATH (10_state.md R24 to R29, R36, R40,
R41), the interrupt line (60_exceptions.md R341), and the two informational classes: the coefficient pattern
(40_idct_engine.md R150) and the scaling path (43_formatter.md R302). -/

namespace Sys2Proof.Machine

/-- The value of one bit of a register. -/
def flagBit (b : Bool) (n : Nat) : Nat := if b then 2 ^ n else 0

/-- The code of LASTCASE (10_state.md R40). -/
def PatternCase.code : PatternCase → Nat
  | .dcOnly => 0
  | .dcH1 => 1
  | .dcV1 => 2
  | .dcH1V1 => 3
  | .general => 4

/-- The code of RESULT (10_state.md R27). -/
def ResultCode.code : ResultCode → Nat
  | .none => 0
  | .ok => 1
  | .suspended => 2
  | .gobAborted => 3
  | .passFailed => 4
  | .faulted => 5

/-- The code of FMT_PATH (10_state.md R41). -/
def ScalePath.code : ScalePath → Nat
  | .direct => 0
  | .fast2x => 1
  | .fast1p5x => 2
  | .generic => 3

/-- STATUS as a word (10_state.md R25). -/
def statusWord (s : State) : Word :=
  BitVec.ofNat 32 (flagBit s.busy 0 + flagBit s.tablesValid 1 + flagBit s.fault.pending 2 + flagBit s.ck.valid 3
    + 16 * s.lastCase.code)

/-- The bits of STATUS that keep their true value while a command runs: all but TABLES_VALID, CK_VALID and LASTCASE
(10_state.md R22). -/
def statusTrueMask : Word := 0xFFFFFF85

/-- CTRL as a word (10_state.md R24). -/
def ctrlWord (c : Control) : Word :=
  BitVec.ofNat 32 (flagBit c.ieDone 0 + flagBit c.ieFault 1 + flagBit c.ieSusp 2)

/-- The enables a written word gives CTRL (10_state.md R24). -/
def ctrlOfWord (v : Word) : Control :=
  { ieDone := v.getLsbD 0, ieFault := v.getLsbD 1, ieSusp := v.getLsbD 2 }

/-- IRQSTAT as a word (10_state.md R29). -/
def irqWord (i : IrqStat) : Word :=
  BitVec.ofNat 32 (flagBit i.done 0 + flagBit i.fault 1 + flagBit i.susp 2)

/-- The interrupt line (60_exceptions.md R341). -/
def interruptLine (s : State) : Bool :=
  (s.irq.done && s.ctrl.ieDone) || (s.irq.fault && s.ctrl.ieFault) || (s.irq.susp && s.ctrl.ieSusp)

/-- The pattern case of a list of SKIP values (40_idct_engine.md R150). -/
def patternCase (skips : List Nat) : PatternCase :=
  match skips with
  | [0] => .dcOnly
  | [0, 0] => .dcH1
  | [0, 1] => .dcV1
  | [0, 0, 0] => .dcH1V1
  | _ => .general

/-- path(W, H, DW, DH) (43_formatter.md R302). -/
def scalePath (w h dw dh : Nat) : ScalePath :=
  if dw = w ∧ dh = h then .direct
  else if dw = 2 * w ∧ dh = 2 * h then .fast2x
  else if 2 * dw = 3 * w ∧ 2 * dh = 3 * h then .fast1p5x
  else .generic

end Sys2Proof.Machine
end

