-- ==== Sys2Proof/Machine/Operands.lean ====
section
/-! DEFINITION. The operands: the register window (10_state.md R21 to R34) and the data structures of memory
(30_encoding.md R110 to R126). -/

namespace Sys2Proof.Machine

/-! ### The register window -/

/-- The registers of the table of 10_state.md R21. -/
inductive RegName where
  | id | ctrl | status | cmd | result | faultCode | faultInfo | irqStat
  | symPtr | symCnt | quant | pred | dest | stride | aicPos | upSrc | upSrcStride
  | dbkPic | dbkMbBase | dbkGeom | dbkRowStride | dbkQ | edgeAddr | edgeAlong | edgeAcross | edgeQ | edgeLen
  | gobPtr | mbBase | budget | picNew | picOld | picB | dmode
  | ckLoop | ckMbNum | ckCol | ckWork | ckCtl
  | statMbDone | statBadType | statGeomFail | statConcealed
  | fmtSrc | fmtDst | fmtDstStride | fmtDstW | fmtDstH | fmtMask | fmtMaskStep | fmtMaskPitch | fmtPath
  deriving DecidableEq, Repr

/-- The byte offset of a register in the window (10_state.md R21). -/
def RegName.offset : RegName → Nat
  | .id => 0x000 | .ctrl => 0x004 | .status => 0x008 | .cmd => 0x00C
  | .result => 0x010 | .faultCode => 0x014 | .faultInfo => 0x018 | .irqStat => 0x01C
  | .symPtr => 0x020 | .symCnt => 0x024 | .quant => 0x028 | .pred => 0x02C
  | .dest => 0x030 | .stride => 0x034 | .aicPos => 0x038 | .upSrc => 0x03C | .upSrcStride => 0x040
  | .dbkPic => 0x050 | .dbkMbBase => 0x054 | .dbkGeom => 0x058 | .dbkRowStride => 0x05C | .dbkQ => 0x060
  | .edgeAddr => 0x064 | .edgeAlong => 0x068 | .edgeAcross => 0x06C | .edgeQ => 0x070 | .edgeLen => 0x074
  | .gobPtr => 0x080 | .mbBase => 0x084 | .budget => 0x088 | .picNew => 0x08C | .picOld => 0x090 | .picB => 0x094
  | .dmode => 0x098
  | .ckLoop => 0x0A0 | .ckMbNum => 0x0A4 | .ckCol => 0x0A8 | .ckWork => 0x0AC | .ckCtl => 0x0B0
  | .statMbDone => 0x0C0 | .statBadType => 0x0C4 | .statGeomFail => 0x0C8 | .statConcealed => 0x0CC
  | .fmtSrc => 0x100 | .fmtDst => 0x104 | .fmtDstStride => 0x108 | .fmtDstW => 0x10C | .fmtDstH => 0x110
  | .fmtMask => 0x114 | .fmtMaskStep => 0x118 | .fmtMaskPitch => 0x11C | .fmtPath => 0x120

/-- Every register of the table, in the table's order. -/
def RegName.all : List RegName :=
  [.id, .ctrl, .status, .cmd, .result, .faultCode, .faultInfo, .irqStat] ++
  [.symPtr, .symCnt, .quant, .pred, .dest, .stride, .aicPos, .upSrc, .upSrcStride] ++
  [.dbkPic, .dbkMbBase, .dbkGeom, .dbkRowStride, .dbkQ, .edgeAddr, .edgeAlong, .edgeAcross, .edgeQ, .edgeLen] ++
  [.gobPtr, .mbBase, .budget, .picNew, .picOld, .picB, .dmode] ++
  [.ckLoop, .ckMbNum, .ckCol, .ckWork, .ckCtl, .statMbDone, .statBadType, .statGeomFail, .statConcealed] ++
  [.fmtSrc, .fmtDst, .fmtDstStride, .fmtDstW, .fmtDstH, .fmtMask, .fmtMaskStep, .fmtMaskPitch, .fmtPath]

/-- The register at an offset of the window, if there is one. -/
def regAt (offset : BitVec 9) : Option RegName := RegName.all.find? fun r => r.offset == offset.toNat

/-- The true value of a register (10_state.md R21, R23 to R41). -/
def regValue (r : RegName) (s : State) : Word :=
  match r with
  | .id => 0x49444354
  | .ctrl => ctrlWord s.ctrl
  | .status => statusWord s
  | .cmd => 0
  | .result => BitVec.ofNat 32 s.result.code
  | .faultCode => s.fault.code
  | .faultInfo => s.fault.info
  | .irqStat => irqWord s.irq
  | .symPtr => s.regI.symPtr
  | .symCnt => s.regI.symCnt
  | .quant => s.regI.quant
  | .pred => s.regI.pred
  | .dest => s.regI.dest
  | .stride => s.regI.stride
  | .aicPos => s.regI.aicPos
  | .upSrc => s.regI.upSrc
  | .upSrcStride => s.regI.upSrcStride
  | .dbkPic => s.regK.dbkPic
  | .dbkMbBase => s.regK.dbkMbBase
  | .dbkGeom => s.regK.dbkGeom
  | .dbkRowStride => s.regK.dbkRowStride
  | .dbkQ => s.dbkQ
  | .edgeAddr => s.regK.edgeAddr
  | .edgeAlong => s.regK.edgeAlong
  | .edgeAcross => s.regK.edgeAcross
  | .edgeQ => s.regK.edgeQ
  | .edgeLen => s.regK.edgeLen
  | .gobPtr => s.regD.gobPtr
  | .mbBase => s.regD.mbBase
  | .budget => s.regD.budget
  | .picNew => s.regD.picNew
  | .picOld => s.regD.picOld
  | .picB => s.regD.picB
  | .dmode => s.regD.dmode.setWidth 32
  | .ckLoop => s.ck.loop
  | .ckMbNum => s.ck.mbNum
  | .ckCol => s.ck.col
  | .ckWork => s.ck.work
  | .ckCtl => BitVec.ofNat 32 (flagBit s.ck.valid 0)
  | .statMbDone => s.stats.mbDone
  | .statBadType => s.stats.badType
  | .statGeomFail => s.stats.geomFail
  | .statConcealed => s.stats.concealed
  | .fmtSrc => s.regF.fmtSrc
  | .fmtDst => s.regF.fmtDst
  | .fmtDstStride => s.regF.fmtDstStride
  | .fmtDstW => s.regF.fmtDstW
  | .fmtDstH => s.regF.fmtDstH
  | .fmtMask => s.regF.fmtMask
  | .fmtMaskStep => s.regF.fmtMaskStep
  | .fmtMaskPitch => s.regF.fmtMaskPitch
  | .fmtPath => BitVec.ofNat 32 s.fmtPath.code

/-- The registers whose whole value a running command may change, so that a read while BUSY returns any value
(10_state.md R22). STATUS is one in part only. -/
def RegName.volatile : RegName → Bool
  | .ckLoop | .ckMbNum | .ckCol | .ckWork | .ckCtl => true
  | .statMbDone | .statBadType | .statGeomFail | .statConcealed => true
  | .dbkQ | .fmtPath | .result | .faultCode | .faultInfo => true
  | _ => false

/-- What a host read of a register returns: its value, or while a command runs a free value where 10_state.md R22 says
so, in whole or, for STATUS, in the fields it names. -/
def regRead (r : RegName) (s : State) : Word :=
  if s.busy then
    if r.volatile then Config.busyRead s.freeCount
    else if r = .status then (statusWord s &&& statusTrueMask) ||| (Config.busyRead s.freeCount &&& ~~~statusTrueMask)
    else regValue r s
  else regValue r s

/-- The effect of a host write to an idle register that is plain storage (10_state.md R21: RW rows); a write to any
other register changes nothing here. CTRL, CMD and IRQSTAT have operations of their own. -/
def regStore (r : RegName) (v : Word) (s : State) : State :=
  match r with
  | .symPtr => { s with regI := { s.regI with symPtr := v } }
  | .symCnt => { s with regI := { s.regI with symCnt := v } }
  | .quant => { s with regI := { s.regI with quant := v } }
  | .pred => { s with regI := { s.regI with pred := v } }
  | .dest => { s with regI := { s.regI with dest := v } }
  | .stride => { s with regI := { s.regI with stride := v } }
  | .aicPos => { s with regI := { s.regI with aicPos := v } }
  | .upSrc => { s with regI := { s.regI with upSrc := v } }
  | .upSrcStride => { s with regI := { s.regI with upSrcStride := v } }
  | .dbkPic => { s with regK := { s.regK with dbkPic := v } }
  | .dbkMbBase => { s with regK := { s.regK with dbkMbBase := v } }
  | .dbkGeom => { s with regK := { s.regK with dbkGeom := v } }
  | .dbkRowStride => { s with regK := { s.regK with dbkRowStride := v } }
  | .edgeAddr => { s with regK := { s.regK with edgeAddr := v } }
  | .edgeAlong => { s with regK := { s.regK with edgeAlong := v } }
  | .edgeAcross => { s with regK := { s.regK with edgeAcross := v } }
  | .edgeQ => { s with regK := { s.regK with edgeQ := v } }
  | .edgeLen => { s with regK := { s.regK with edgeLen := v } }
  | .gobPtr => { s with regD := { s.regD with gobPtr := v } }
  | .mbBase => { s with regD := { s.regD with mbBase := v } }
  | .budget => { s with regD := { s.regD with budget := v } }
  | .picNew => { s with regD := { s.regD with picNew := v } }
  | .picOld => { s with regD := { s.regD with picOld := v } }
  | .picB => { s with regD := { s.regD with picB := v } }
  | .dmode => { s with regD := { s.regD with dmode := v.setWidth 4 } }
  | .ckLoop => { s with ck := { s.ck with loop := v } }
  | .ckMbNum => { s with ck := { s.ck with mbNum := v } }
  | .ckCol => { s with ck := { s.ck with col := v } }
  | .ckWork => { s with ck := { s.ck with work := v } }
  | .ckCtl => setCkValid (v.getLsbD 0) s
  | .statMbDone => { s with stats := { s.stats with mbDone := v } }
  | .statBadType => { s with stats := { s.stats with badType := v } }
  | .statGeomFail => { s with stats := { s.stats with geomFail := v } }
  | .statConcealed => { s with stats := { s.stats with concealed := v } }
  | .fmtSrc => { s with regF := { s.regF with fmtSrc := v } }
  | .fmtDst => { s with regF := { s.regF with fmtDst := v } }
  | .fmtDstStride => { s with regF := { s.regF with fmtDstStride := v } }
  | .fmtDstW => { s with regF := { s.regF with fmtDstW := v } }
  | .fmtDstH => { s with regF := { s.regF with fmtDstH := v } }
  | .fmtMask => { s with regF := { s.regF with fmtMask := v } }
  | .fmtMaskStep => { s with regF := { s.regF with fmtMaskStep := v } }
  | .fmtMaskPitch => { s with regF := { s.regF with fmtMaskPitch := v } }
  | .id | .ctrl | .status | .cmd | .result | .faultCode | .faultInfo | .irqStat | .dbkQ | .fmtPath => s

/-- A host write to IRQSTAT: each written 1 clears its bit, and bit 1 also acknowledges the fault (10_state.md R29,
60_exceptions.md R336). -/
def writeIrqStat (v : Word) (s : State) : State :=
  let t := if v.getLsbD 1 then acknowledge s else s
  { t with irq := { t.irq with done := t.irq.done && !v.getLsbD 0, susp := t.irq.susp && !v.getLsbD 2 } }

/-- A host write to CMD: starts a command when idle with no fault latched, and is ignored otherwise (10_state.md
R26). -/
def writeCmd (v : Word) (s : State) : State :=
  if s.busy || s.fault.pending then s else { s with run := .command v }

/-! ### DMODE (10_state.md R21, R32) -/

/-- DMODE.PB -/
def State.modePb (s : State) : Bool := s.regD.dmode.getLsbD 0
/-- DMODE.AIC -/
def State.modeAic (s : State) : Bool := s.regD.dmode.getLsbD 1
/-- DMODE.RRU -/
def State.modeRru (s : State) : Bool := s.regD.dmode.getLsbD 2
/-- DMODE.UMV -/
def State.modeUmv (s : State) : Bool := s.regD.dmode.getLsbD 3

/-! ### Planes and pictures (30_encoding.md R112, R113; 20_memory.md R78) -/

/-- A plane no command reads. -/
def Plane.unread : Plane := { base := 0, width := 0, height := 0, stride := 0 }

/-- The PlaneDescr at an address, its words from the lowest up (R112). -/
def readPlane (s : State) (a : Nat) : Except Raise Plane := do
  let base ← memRead s a 4
  let width ← memRead s (a + 4) 4
  let height ← memRead s (a + 8) 4
  let stride ← memRead s (a + 12) 4
  .ok { base := base, width := width, height := height, stride := stride }

/-- The Cb and Cr PlaneDescr of the picture at an address when `color`, and nothing otherwise (R113). -/
def readChroma (s : State) (a : Nat) (color : Bool) : Except Raise (Plane × Plane) :=
  if color then do
    let cb ← readPlane s (a + 16)
    let cr ← readPlane s (a + 32)
    .ok (cb, cr)
  else .ok (Plane.unread, Plane.unread)

/-- A PictureDescr with its own COLOR flag: the Y PlaneDescr, PFLAGS, then the chroma PlaneDescr when COLOR = 1 (R113,
R207; log entry 14). -/
def readPicture (s : State) (a : Nat) : Except Raise (Picture × Bool) := do
  let y ← readPlane s a
  let pflags ← memRead s (a + 48) 4
  let (cb, cr) ← readChroma s a (bit pflags 0)
  .ok ({ y := y, cb := cb, cr := cr }, bit pflags 0)

/-- One plane of a picture. -/
def Picture.plane (p : Picture) : Config.PlaneId → Plane
  | .y => p.y
  | .cb => p.cb
  | .cr => p.cr

/-- The offset of a PlaneDescr in its PictureDescr (R113). -/
def planeOffset : Config.PlaneId → Nat
  | .y => 0
  | .cb => 16
  | .cr => 32

/-- The planes in use: Y, and Cb and Cr when COLOR = 1 (R113, R231). -/
def planesInUse (color : Bool) : List Config.PlaneId :=
  if color then [.y, .cb, .cr] else [.y]

/-- A size given for luma, as it is for a plane (chroma has half of it; 00_scope.md section 6). -/
def planeSize (id : Config.PlaneId) (luma : Nat) : Nat :=
  match id with
  | .y => luma
  | _ => luma / 2

/-- The address of sample (x, y) of a plane (20_memory.md R78). -/
def Plane.at (p : Plane) (x y : Nat) : Nat := p.base + y * p.stride + x

/-- A plane whose STRIDE is below its WIDTH is invalid (R112); the address is that of its PlaneDescr. -/
def checkStride (p : Plane) (descr : Nat) : Except Raise Unit :=
  raiseIf (p.stride < p.width) .picDesc descr

/-- The extent check of a plane used for `width` x `height` samples (41_deblocking.md R207, 42_dispatcher.md R232,
43_formatter.md R291). -/
def checkExtent (s : State) (p : Plane) (width height : Nat) : Except Raise Unit :=
  let sum : Int := (p.base : Int) + ((height : Int) - 1) * p.stride + width
  raiseIf (0 < height ∧ (s.params.memSize : Int) < sum) .addr (sum - 1)

/-- One check after another. -/
def checkEach {α : Type} (f : α → Except Raise Unit) : List α → Except Raise Unit
  | [] => .ok ()
  | a :: rest => do
    f a
    checkEach f rest

/-! ### The GOB descriptor (30_encoding.md R123, R124) -/

/-- The three words of the GobDescr at an address. -/
def readGob (s : State) (a : Nat) : Except Raise GobDescr := do
  let w0 ← memRead s a 4
  let w1 ← memRead s (a + 4) 4
  let w2 ← memRead s (a + 8) 4
  .ok { firstRow := field w0 0 16, firstCol := field w0 16 16, mbPerRow := field w1 0 16, rowStride := field w1 16 16,
        mbCount := field w2 0 16 }

/-- A GobDescr is valid (R124). -/
def GobDescr.valid (g : GobDescr) : Bool := 1 ≤ g.mbPerRow && g.firstCol + g.mbPerRow ≤ g.rowStride

/-! ### The macroblock descriptor (30_encoding.md R115 to R120, R125) -/

/-- The address of the descriptor with absolute macroblock number n (R125). -/
def mbAddr (base : Word) (n : Nat) : Nat := base.toNat + 128 * n

/-- Word k of the descriptor at d. -/
def mbWord (s : State) (d k : Nat) : Except Raise Nat := memRead s (d + 4 * k) 4

/-- TYPE, word 1 bits 7..0. -/
def mbType (s : State) (d : Nat) : Except Raise Byte := do
  let w ← mbWord s d 1
  .ok (BitVec.ofNat 8 w)

/-- QUANT, word 1 bits 15..8. -/
def mbQuant (s : State) (d : Nat) : Except Raise Nat := do
  let w ← mbWord s d 1
  .ok (field w 8 8)

/-- BQUANT, word 1 bits 23..16. -/
def mbBQuant (s : State) (d : Nat) : Except Raise Nat := do
  let w ← mbWord s d 1
  .ok (field w 16 8)

/-- AICMODE, word 1 bits 31..24. -/
def mbAicMode (s : State) (d : Nat) : Except Raise Nat := do
  let w ← mbWord s d 1
  .ok (field w 24 8)

/-- CBP[n], word 2 bit n, n = 0..5. -/
def mbCbp (s : State) (d n : Nat) : Except Raise Bool := do
  let w ← mbWord s d 2
  .ok (bit w n)

/-- CBPB[n], word 2 bit 8+n, n = 0..5. -/
def mbCbpB (s : State) (d n : Nat) : Except Raise Bool := do
  let w ← mbWord s d 2
  .ok (bit w (8 + n))

/-- FLAGS.OVERLAP, word 2 bit 16 (R120). -/
def mbOverlap (s : State) (d : Nat) : Except Raise Bool := do
  let w ← mbWord s d 2
  .ok (bit w 16)

/-- FLAGS.BREQ, word 2 bit 17 (R120). -/
def mbBreq (s : State) (d : Nat) : Except Raise Bool := do
  let w ← mbWord s d 2
  .ok (bit w 17)

/-- MV[k], word 3+k (R117). -/
def mbMv (s : State) (d k : Nat) : Except Raise Config.MotionVector := do
  let w ← mbWord s d (3 + k)
  .ok { x := sext16 (field w 0 16), y := sext16 (field w 16 16) }

/-- A BlockDescr (R114). -/
structure BlockDescr where
  symPtr : Nat
  count  : Nat
  dc8    : Bool
  deriving DecidableEq, Repr

/-- BLOCK[n], words 8+2n and 9+2n (R114, R115; log entry 16). -/
def mbBlock (s : State) (d n : Nat) : Except Raise BlockDescr := do
  let w0 ← mbWord s d (8 + 2 * n)
  let w1 ← mbWord s d (9 + 2 * n)
  .ok { symPtr := w0, count := field w1 0 8, dc8 := bit w1 8 }

/-- TYPE written by reading word 1, replacing bits 7..0 and writing it back (20_memory.md R80). -/
def writeMbType (s : State) (d t : Nat) : Except Raise State := do
  let w ← mbWord s d 1
  memWrite s (d + 4) 4 (setField w 0 8 t)

/-- SCRATCH written by reading word 2, replacing bits 31..24 and writing it back (20_memory.md R80). -/
def writeMbScratch (s : State) (d v : Nat) : Except Raise State := do
  let w ← mbWord s d 2
  memWrite s (d + 8) 4 (setField w 24 8 v)

/-- MBX and MBY written by one 4-byte store (42_dispatcher.md R243). -/
def writeMbPosition (s : State) (d col row : Nat) : Except Raise State :=
  memWrite s d 4 (col % 2 ^ 16 + row % 2 ^ 16 * 2 ^ 16)

end Sys2Proof.Machine
end

