-- ==== Sys2Proof/Machine/Tables.lean ====
section
/-! DEFINITION. The tables of unit T, the configuration functions of 00_scope.md R11: at the spec's defaults, exact
integer formulas, or replaced by any that have the properties the rules require (log entry 19); and the work-cost
constants (00_scope.md R12; log entry 21). -/

namespace Sys2Proof.Machine

open Sys2Proof.Config

/-- COST_SKIP (R12). -/
def costSkip : Nat := 1
/-- COST_IDCT (R12). -/
def costIdct : Nat := 1
/-- COST_OVERLAP (R12). -/
def costOverlap : Nat := 2
/-- COST_RRU_QUADRANT (R12). -/
def costRruQuadrant : Nat := 4

/-- SCAN[0], the zig-zag scan (40_idct_engine.md R143). -/
def scanZigzag : List Nat :=
  [0, 1, 8, 16, 9, 2, 3, 10, 17, 24, 32, 25, 18, 11, 4, 5, 12, 19, 26, 33, 40, 48] ++
  [41, 34, 27, 20, 13, 6, 7, 14, 21, 28, 35, 42, 49, 56, 57, 50, 43, 36, 29, 22, 15, 23] ++
  [30, 37, 44, 51, 58, 59, 52, 45, 38, 31, 39, 46, 53, 60, 61, 54, 47, 55, 62, 63]

/-- SCAN[1], alternate-horizontal (40_idct_engine.md R143). -/
def scanHorizontal : List Nat :=
  [0, 1, 2, 3, 8, 9, 16, 17, 10, 11, 4, 5, 6, 7, 15, 14, 13, 12, 19, 18, 24, 25] ++
  [32, 33, 26, 27, 20, 21, 22, 23, 28, 29, 30, 31, 34, 35, 40, 41, 48, 49, 42, 43, 36, 37] ++
  [38, 39, 44, 45, 46, 47, 50, 51, 56, 57, 58, 59, 52, 53, 54, 55, 60, 61, 62, 63]

/-- SCAN[2], alternate-vertical (40_idct_engine.md R143). -/
def scanVertical : List Nat :=
  [0, 8, 16, 24, 1, 9, 2, 10, 17, 25, 32, 40, 48, 56, 57, 49, 41, 33, 26, 18, 3, 11] ++
  [4, 12, 19, 27, 34, 42, 50, 58, 35, 43, 51, 59, 20, 28, 5, 13, 6, 14, 21, 29, 36, 44] ++
  [52, 60, 37, 45, 53, 61, 22, 30, 7, 15, 23, 31, 38, 46, 54, 62, 39, 47, 55, 63]

/-- The default SCAN[s] (40_idct_engine.md R143). -/
def scanDefault (s : Nat) : List Nat :=
  match s with
  | 0 => scanZigzag
  | 1 => scanHorizontal
  | _ => scanVertical

/-- The required properties of a scan: a permutation of 0..63 that starts with 0 (40_idct_engine.md R143). -/
abbrev scanLegal (l : List Nat) : Prop := l.Perm (List.range 64) ∧ l.getD 0 0 = 0

/-- SCAN[s] (40_idct_engine.md R143). A replaced list without the required properties is no scan; the default then
stands. -/
def scanTable (tb : TableSource) (s : Nat) : List Nat :=
  match tb with
  | .standard => scanDefault s
  | .replaced => if scanLegal (replacedScan s) then replacedScan s else scanDefault s

/-- SCAN[s][pos], the raster index 8*v + u (40_idct_engine.md R143). -/
def scanAt (tb : TableSource) (s pos : Nat) : Nat := (scanTable tb s).getD pos 0

/-- The default RECLEVEL(Q, idx) (40_idct_engine.md R144). -/
def recLevelDefault (q : Nat) (idx : Int) : Int :=
  if idx = 0 then 0
  else
    let m : Int := q * (2 * |idx| + 1) - (if q % 2 = 0 then 1 else 0)
    Int.sign idx * min m 2047

/-- A replaced RECLEVEL(Q, n) for n ≥ 0, the sum of its rises: any non-decreasing one that is 0 at 0. -/
def replacedLevel (q : Nat) : Nat → Nat
  | 0 => 0
  | n + 1 => replacedLevel q n + replacedRise q n

/-- RECLEVEL(Q, idx) (40_idct_engine.md R144): the default, or any other that is non-decreasing, odd and in -2047..2047. -/
def recLevel (tb : TableSource) (q : Nat) (idx : Int) : Int :=
  match tb with
  | .standard => recLevelDefault q idx
  | .replaced => Int.sign idx * min (replacedLevel q idx.natAbs : Int) 2047

/-- level(Q, idx, pos, dc8) (40_idct_engine.md R145). -/
def level (tb : TableSource) (q : Nat) (idx : Int) (pos : Nat) (dc8 : Bool) : Int :=
  if pos = 0 && dc8 then clipS (8 * idx) 2047 else recLevel tb q idx

/-- W30[k] = round(2^30 * cos(k*pi/16)) (40_idct_engine.md R147). -/
def w30 (k : Nat) : Int :=
  [1073741824, 1053110176, 992008094, 892783698, 759250125, 596538995, 410903207, 209476638, 0].getD k 0

/-- G(u, i) (40_idct_engine.md R147). -/
def basisG (u i : Nat) : Int :=
  if u = 0 then w30 4
  else
    let k0 := (2 * i + 1) * u % 32
    let k := if 16 < k0 then 32 - k0 else k0
    if 8 < k then -w30 (16 - k) else w30 k

/-- The default T(c, u, v, i, j) (40_idct_engine.md R146). -/
def basisDefault (c : Int) (u v i j : Nat) : Int := rndHafz (c * basisG u i * basisG v j) 56

/-- T(c, u, v, i, j), the contribution of one coefficient to one accumulator cell (40_idct_engine.md R146): the default,
or any other that is 0 at c = 0 and 8c at u = v = 0 for |c| ≤ 2047. -/
def basisT (tb : TableSource) (c : Int) (u v i j : Nat) : Int :=
  match tb with
  | .standard => basisDefault c u v i j
  | .replaced =>
    if c = 0 then 0 else if u = 0 ∧ v = 0 ∧ |c| ≤ 2047 then 8 * c else replacedBasis c u v i j

/-- STRENGTH[q], q = 1..31 (41_deblocking.md R204). -/
def strength (q : Nat) : Int :=
  [0, 1, 1, 2, 2, 3, 3, 4, 4, 4, 5, 5, 6, 6, 7, 7, 7, 8, 8, 8, 9, 9, 9, 10, 10, 10, 11, 11, 11, 12, 12, 12].getD q 0

/-- The default DBKTAB(q, d), the up-down ramp (41_deblocking.md R203). -/
def dbkTabDefault (q : Nat) (d : Int) : Int :=
  Int.sign d * max 0 (|d| - max 0 (2 * (|d| - strength q)))

/-- DBKTAB(q, d) (41_deblocking.md R203): the default, or any other that is odd and never exceeds |d|. -/
def dbkTab (tb : TableSource) (q : Nat) (d : Int) : Int :=
  match tb with
  | .standard => dbkTabDefault q d
  | .replaced => Int.sign d * clipS (replacedCorrection q d.natAbs) |d|

/-- The default COLORTAB[idx10][y6], a 16-bit RGB555 pixel (43_formatter.md R296). -/
def colorTabDefault (idx10 y6 : Nat) : Int :=
  let c : Int := 4 * y6 - 16
  let d : Int := 8 * (idx10 / 32 : Nat) - 128
  let e : Int := 8 * (idx10 % 32 : Nat) - 128
  let r := clip255 (asr (298 * c + 409 * e + 128) 8)
  let g := clip255 (asr (298 * c - 100 * d - 208 * e + 128) 8)
  let b := clip255 (asr (298 * c + 516 * d + 128) 8)
  asr r 3 * 1024 + asr g 3 * 32 + asr b 3

/-- COLORTAB[idx10][y6] (43_formatter.md R296): the default, or any other whose bit 15 is 0. -/
def colorTab (tb : TableSource) (idx10 y6 : Nat) : Int :=
  match tb with
  | .standard => colorTabDefault idx10 y6
  | .replaced => (replacedColor idx10 y6).toNat

/-- rgb555(y, cb, cr) (43_formatter.md R297). -/
def rgb555 (tb : TableSource) (y cb cr : Nat) : Int := colorTab tb (cb / 8 * 32 + cr / 8) (y / 4)

end Sys2Proof.Machine
end

