-- ==== Sys2Proof/Machine/UnitI.lean ====
section
/-! DEFINITION. Unit I, the IDCT reconstruction engine (40_idct_engine.md R140 to R190): the stages of a block
reconstruction, and RECON, RECON_ADD, RECON_S16, RECON_AIC and RRU_UPADD. -/

namespace Sys2Proof.Machine

open Sys2Proof.Config

/-! ### The stages -/

/-- A coefficient: frequency (u, v) and level c. -/
structure Coef where
  u : Nat
  v : Nat
  c : Int
  deriving DecidableEq, Repr

/-- What the walk yields for one symbol: its SKIP field and its coefficient. -/
structure Walked where
  skip : Nat
  coef : Coef
  deriving DecidableEq, Repr

/-- The walk's checks of the quantiser and the count (40_idct_engine.md R148). -/
def checkQuantCount (q n : Nat) : Except Raise Unit := do
  raiseIf (q < 1 ∨ 31 < q) .quant q
  raiseIf (64 < n) .symCount n

/-- The loop of the symbol walk (40_idct_engine.md R148) from symbol k at scan position pos; the first argument counts
the symbols left. -/
def walkFrom (s : State) (sp q : Nat) (dc8 : Bool) (scan : Nat) : Nat → Nat → Nat → Except Raise (List Walked)
  | 0, _, _ => .ok []
  | left + 1, k, pos => do
    let w ← memRead s (sp + 4 * k) 4
    let skip := field w 16 16
    let at' := pos + skip
    raiseIf (63 < at') .symRange k
    let ras := scanAt s.params.tables scan at'
    let rest ← walkFrom s sp q dc8 scan left (k + 1) (at' + 1)
    let c := level s.params.tables q (sext16 (field w 0 16)) at' dc8
    .ok ({ skip := skip, coef := { u := ras % 8, v := ras / 8, c := c } } :: rest)

/-- The symbol loop over a whole list (40_idct_engine.md R148), after its checks of Q and N. -/
def walkSymbols (s : State) (sp n q : Nat) (dc8 : Bool) (scan : Nat) : Except Raise (List Walked) :=
  walkFrom s sp q dc8 scan n 0 0

/-- The sum for accumulator cell [pu][pv][j][i] over a list of coefficients (40_idct_engine.md R149). -/
def accSum (tb : TableSource) (l : List Coef) (pu pv j i : Nat) : Int :=
  (l.map fun k => if k.u % 2 = pu ∧ k.v % 2 = pv then basisT tb k.c k.u k.v i j else 0).sum

/-- A sum as an accumulator of 32 bits holds it (10_state.md R42); beyond them the value is free (log entry 19). -/
def accWord (v : Int) : BitVec 32 :=
  if -2 ^ 31 ≤ v ∧ v < 2 ^ 31 then BitVec.ofInt 32 v else accOverflow v

/-- The superposition: the 64 accumulators, 32 bits each (40_idct_engine.md R149, 10_state.md R42). -/
def superpose (tb : TableSource) (l : List Coef) : List (BitVec 32) :=
  (List.range 64).map fun n => accWord (accSum tb l (n / 32) (n / 16 % 2) (n / 4 % 4) (n % 4))

/-- A cell of ACC as a signed value. -/
def accCell (acc : List (BitVec 32)) (pu pv j i : Nat) : Int :=
  (acc.getD (32 * pu + 16 * pv + 4 * j + i) 0).toInt

/-- S(x, y), the butterfly (40_idct_engine.md R151). -/
def butterfly (acc : List (BitVec 32)) (x y : Nat) : Int :=
  let i := if x < 4 then x else 7 - x
  let sx : Int := if x < 4 then 1 else -1
  let j := if y < 4 then y else 7 - y
  let sy : Int := if y < 4 then 1 else -1
  accCell acc 0 0 j i + sx * accCell acc 1 0 j i + sy * accCell acc 0 1 j i + sx * sy * accCell acc 1 1 j i

/-- r(x, y), the residual after rounding and dropping 6 fraction bits (40_idct_engine.md R151). -/
def residual (acc : List (BitVec 32)) (x y : Nat) : Int := asr (butterfly acc x y + 32) 6

/-- The addresses of an 8x8 block in row order, samples `size` bytes apart (20_memory.md R79). -/
def blockAddrs (top : Int) (stride size : Nat) : List Int :=
  (grid 8 8).map fun p => top + p.2 * stride + size * p.1

/-! ### The block bodies, shared by the commands and by unit D -/

/-- Where a block's symbols are and how they are dequantised: the registers of 10_state.md R30, or the BlockDescr of
42_dispatcher.md section 4. -/
structure BlockArgs where
  symPtr : Nat
  count  : Nat
  quant  : Nat
  dc8    : Bool
  deriving DecidableEq, Repr

/-- ACC and LASTCASE as a completed block reconstruction leaves them. -/
def noteBlock (acc : List (BitVec 32)) (c : PatternCase) (s : State) : State :=
  { s with acc := acc, lastCase := c }

/-- The checks and the walk of a plain block, in the order of 40_idct_engine.md R154 (zig-zag scan). -/
def walkBlock (s : State) (b : BlockArgs) : Except Raise (List Walked) := do
  needTables s
  checkQuantCount b.quant b.count
  walkSymbols s b.symPtr b.count b.quant b.dc8 0

/-- The body of RECON (40_idct_engine.md R152): no prediction, clipped. -/
def reconBody (b : BlockArgs) (dest : Int) (stride : Nat) (s : State) : Except Raise State := do
  let l ← walkBlock s b
  let acc := superpose s.params.tables (l.map (·.coef))
  let t ← checkThenStore s 1 ((blockAddrs dest stride 1).zip
    ((grid 8 8).map fun p => [sampleByte (clip255 (residual acc p.1 p.2))]))
  .ok (noteBlock acc (patternCase (l.map (·.skip))) t)

/-- The body of RECON_ADD (40_idct_engine.md R156): summed onto a prediction, clipped. -/
def reconAddBody (b : BlockArgs) (pred dest : Int) (stride : Nat) (s : State) : Except Raise State := do
  let l ← walkBlock s b
  let acc := superpose s.params.tables (l.map (·.coef))
  let p ← memReadAll s 1 (blockAddrs pred stride 1)
  let t ← checkThenStore s 1 ((blockAddrs dest stride 1).zip
    ((p.zip (grid 8 8)).map fun q => [sampleByte (clip255 (q.1 + residual acc q.2.1 q.2.2))]))
  .ok (noteBlock acc (patternCase (l.map (·.skip))) t)

/-- The body of RECON_S16 (40_idct_engine.md R158): signed 16-bit, not clipped. -/
def reconS16Body (b : BlockArgs) (dest : Int) (stride : Nat) (s : State) : Except Raise State := do
  let l ← walkBlock s b
  let acc := superpose s.params.tables (l.map (·.coef))
  let t ← checkThenStore s 2 ((blockAddrs dest stride 2).zip
    ((grid 8 8).map fun p => halfBytes (residual acc p.1 p.2)))
  .ok (noteBlock acc (patternCase (l.map (·.skip))) t)

/-! ### Advanced intra (40_idct_engine.md R170 to R182) -/

/-- The block above slot b of column col (R172): column and slot. -/
def aboveOf (col b : Nat) : Nat × Nat :=
  match b with
  | 0 => (col, 2)
  | 1 => (col, 3)
  | 2 => (col, 0)
  | 3 => (col, 1)
  | n => (col, n)

/-- The block to the left of slot b of column col (R172), or none left of column 0. -/
def leftOf (col b : Nat) : Option (Nat × Nat) :=
  let before (n : Nat) : Option (Nat × Nat) := if col = 0 then none else some (col - 1, n)
  match b with
  | 0 => before 1
  | 1 => some (col, 0)
  | 2 => before 3
  | 3 => some (col, 2)
  | n => before n

/-- The available entry above (R172). -/
def aboveEntry (s : State) (col b : Nat) : Option AicSlot := aicSlot s (aboveOf col b).1 (aboveOf col b).2

/-- The available entry to the left (R172). -/
def leftEntry (s : State) (col b : Nat) : Option AicSlot := (leftOf col b).bind fun p => aicSlot s p.1 p.2

/-- What the prediction adds to coef[v][u] (40_idct_engine.md R174). -/
def aicPrediction (mode : Nat) (above left : Option AicSlot) (u v : Nat) : Int :=
  match mode with
  | 0 =>
    if u = 0 ∧ v = 0 then
      match above, left with
      | some a, some l => asr (a.row.getD 0 0 + l.colv.getD 0 0 + 1) 1
      | some a, none => a.row.getD 0 0
      | none, some l => l.colv.getD 0 0
      | none, none => 1024
    else 0
  | 1 =>
    match above with
    | some a => if v = 0 then a.row.getD u 0 else 0
    | none => if u = 0 ∧ v = 0 then 1024 else 0
  | _ =>
    match left with
    | some l => if u = 0 then l.colv.getD v 0 else 0
    | none => if u = 0 ∧ v = 0 then 1024 else 0

/-- The level the walk gives frequency (u, v), 0 where no symbol fell (40_idct_engine.md R174). -/
def levelAt (l : List Walked) (u v : Nat) : Int :=
  ((l.find? fun w => w.coef.u = u ∧ w.coef.v = v).map (·.coef.c)).getD 0

/-- The final coefficient coef[v][u]: level plus prediction, clipped (40_idct_engine.md R174). -/
def aicCoef (mode : Nat) (above left : Option AicSlot) (l : List Walked) (u v : Nat) : Int :=
  clipS (levelAt l u v + aicPrediction mode above left u v) 2047

/-- The body of RECON_AIC (40_idct_engine.md R178). `argInfo` is what E_AICARG reports. -/
def reconAicBody (b : BlockArgs) (col blk mode : Nat) (argInfo : Int) (dest : Int) (stride : Nat) (s : State) :
    Except Raise State := do
  needTables s
  checkQuantCount b.quant b.count
  raiseIf (3 ≤ mode ∨ 5 < blk) .aicArg argInfo
  raiseIf (s.params.aicCols ≤ col) .aicBound col
  let l ← walkSymbols s b.symPtr b.count b.quant b.dc8 mode
  let coef := aicCoef mode (aboveEntry s col blk) (leftEntry s col blk) l
  let l8 := ((grid 8 8).map fun p => { u := p.1, v := p.2, c := coef p.1 p.2 }).filter fun k => k.c ≠ 0
  let acc := superpose s.params.tables l8
  let t ← checkThenStore s 1 ((blockAddrs dest stride 1).zip
    ((grid 8 8).map fun p => [sampleByte (clip255 (residual acc p.1 p.2))]))
  .ok (noteBlock acc .general
    (writeAicSlot col blk ((List.range 8).map fun u => coef u 0) ((List.range 8).map fun v => coef 0 v) t))

/-! ### Up-sampling (40_idct_engine.md R160, R161) -/

/-- The neighbour index of R161: the next one for an odd position, the one before for an even one, clamped. -/
def neighbour (n pos : Nat) : Nat :=
  if pos % 2 = 1 then min (pos / 2 + 1) (n - 1) else pos / 2 - 1

/-- U[Y][X] of UP(R, N), R given by rows (40_idct_engine.md R161). -/
def upSample (r : List Int) (n x y : Nat) : Int :=
  let at' (j i : Nat) : Int := r.getD (n * j + i) 0
  let i := x / 2
  let j := y / 2
  let i2 := neighbour n x
  let j2 := neighbour n y
  asr (9 * at' j i + 3 * at' j i2 + 3 * at' j2 i + at' j2 i2 + 8) 4

/-! ### The commands -/

/-- The block arguments the registers of unit I give a command (10_state.md R30). -/
def regBlock (s : State) (dc8 : Bool) : BlockArgs :=
  { symPtr := s.regI.symPtr.toNat, count := s.regI.symCnt.toNat, quant := s.regI.quant.toNat, dc8 := dc8 }

/-- RECON (40_idct_engine.md R152). -/
def execRecon (dc8 : Bool) (s : State) : Result :=
  endCommand s (reconBody (regBlock s dc8) s.regI.dest.toNat s.regI.stride.toNat s)

/-- RECON_ADD (40_idct_engine.md R156). -/
def execReconAdd (dc8 : Bool) (s : State) : Result :=
  endCommand s (reconAddBody (regBlock s dc8) s.regI.pred.toNat s.regI.dest.toNat s.regI.stride.toNat s)

/-- RECON_S16 (40_idct_engine.md R158). -/
def execReconS16 (dc8 : Bool) (s : State) : Result :=
  endCommand s (reconS16Body (regBlock s dc8) s.regI.dest.toNat s.regI.stride.toNat s)

/-- RECON_AIC (40_idct_engine.md R178): COL, BLK and MODE are fields of AICPOS. -/
def execReconAic (dc8 : Bool) (s : State) : Result :=
  let pos := s.regI.aicPos.toNat
  endCommand s (reconAicBody (regBlock s dc8) (field pos 0 16) (field pos 16 3) (field pos 20 2) pos
    s.regI.dest.toNat s.regI.stride.toNat s)

/-- The body of RRU_UPADD (40_idct_engine.md R160) for a source array of n x n. -/
def upAddBody (n : Nat) (nopred : Bool) (s : State) : Except Raise State := do
  needTables s
  let halves ← memReadAll s 2 ((grid n n).map fun p =>
    (s.regI.upSrc.toNat : Int) + p.2 * s.regI.upSrcStride.toNat + 2 * p.1)
  let r := halves.map sext16
  let square := grid (2 * n) (2 * n)
  let addr (top : Word) (p : Nat × Nat) : Int := top.toNat + p.2 * s.regI.stride.toNat + p.1
  let p ← if nopred then .ok (square.map fun _ => 0) else memReadAll s 1 (square.map (addr s.regI.pred))
  checkThenStore s 1 ((square.map (addr s.regI.dest)).zip
    ((p.zip square).map fun q => [sampleByte (clip255 (q.1 + upSample r n q.2.1 q.2.2))]))

/-- RRU_UPADD (40_idct_engine.md R160): SMALL chooses an 8x8 source array, otherwise 16x16. -/
def execRruUpadd (nopred small : Bool) (s : State) : Result :=
  endCommand s (upAddBody (if small then 8 else 16) nopred s)

end Sys2Proof.Machine
end

