-- ==== Sys2Proof/Machine/UnitD.lean ====
section
/-! DEFINITION. Unit D, the macroblock/GOB dispatcher (42_dispatcher.md R230 to R272): DECODE_GOB and its loop, the
handlers of the macroblock type tags, and CONCEAL_GOB. -/

namespace Sys2Proof.Machine

open Sys2Proof.Config

/-! ### Operations inside a macroblock loop

An operation either has its whole effect or raises and has none (42_dispatcher.md R268); a sequence that raises keeps
what the operations before it did. -/

/-- One operation of a macroblock. -/
abbrev Op := State → Except Raise State

/-- A raise together with the state it leaves. -/
abbrev Partial (α : Type) := Except (Raise × State) α

/-- A check or a read made in a state. -/
def inState {α : Type} (s : State) (r : Except Raise α) : Partial α :=
  match r with
  | .ok a => .ok a
  | .error e => .error (e, s)

/-- Operations one after another. -/
def runOps : List Op → State → Partial State
  | [], s => .ok s
  | op :: rest, s =>
    match op s with
    | .ok t => runOps rest t
    | .error e => .error (e, s)

/-! ### Geometry (42_dispatcher.md R231) -/

/-- U, the macroblock size in luma samples (R231). -/
def unitSize (s : State) : Nat := if s.modeRru then 32 else 16

/-- The macroblock in hand: the command's variables, the descriptor's address d, and the grid column and row. -/
structure Mb where
  run : GobRun
  d   : Nat
  col : Nat
  row : Nat
  deriving DecidableEq, Repr

/-- The macroblock the cursor names (42_dispatcher.md R240). -/
def cursorMb (c : GobRun) (s : State) : Mb :=
  { run := c, d := mbAddr s.regD.mbBase s.ck.mbNum.toNat, col := s.ck.col.toNat,
    row := s.ck.mbNum.toNat / c.gob.rowStride }

/-- The addresses of a square of a plane in row order. -/
def squareAddrs (p : Plane) (x y side : Nat) : List Int :=
  (grid side side).map fun q => (p.at (x + q.1) (y + q.2) : Int)

/-- The addresses of the macroblock's square in one plane (R231), u being U. -/
def mbSquare (m : Mb) (u : Nat) (pic : Picture) (id : PlaneId) : List Int :=
  squareAddrs (pic.plane id) (planeSize id u * m.col) (planeSize id u * m.row) (planeSize id u)

/-- Fill of the macroblock's square of one plane of NEW with 128 (42_dispatcher.md R266, R270). -/
def fillPlane (m : Mb) (u : Nat) (id : PlaneId) : Op := fun s =>
  checkThenStore s 1 ((mbSquare m u m.run.newPic id).map fun a => (a, [128]))

/-- Copy of the macroblock's square of one plane: all samples read in row order, then all written (42_dispatcher.md
R248, R270). -/
def copyPlane (m : Mb) (u : Nat) (src dst : Picture) (id : PlaneId) : Op := fun s => do
  let v ← memReadAll s 1 (mbSquare m u src id)
  checkThenStore s 1 ((mbSquare m u dst id).zip (v.map fun x => [BitVec.ofNat 8 x]))

/-- The fit check before a macroblock is processed (42_dispatcher.md R233). -/
def fitCheck (m : Mb) (s : State) : Except Raise Unit :=
  checkEach (fun id =>
    let p := m.run.newPic.plane id
    let u := planeSize id (unitSize s)
    raiseIf (p.width < u * (m.col + 1) ∨ p.height < u * (m.row + 1)) .picDesc s.ck.mbNum.toNat)
    (planesInUse m.run.color)

/-! ### ExtMC (42_dispatcher.md R236) -/

/-- ExtMC0 of 95_test_vectors.md: motion compensation at zero motion, reading the picture at an address. -/
def zeroMotionSample (mem : Memory) (pic : Nat) (req : McRequest) (id : PlaneId) (x y : Nat) : Nat :=
  let word (o : Nat) : Nat := mem.readLE (pic + o) 4
  let base := word (planeOffset id)
  let stride := word (planeOffset id + 12)
  if id = .y || bit (word 48) 0 then (mem.read (base + (planeSize id req.y + y) * stride + planeSize id req.x + x)).toNat
  else 128

/-- The sample the attached ExtMC answers (00_scope.md R13; log entry 4). -/
def mcSample (s : State) (req : McRequest) (id : PlaneId) (x y : Nat) : Byte :=
  match s.params.agent with
  | .external => extMC req s.mem id x y
  | .zeroMotion =>
    let a := zeroMotionSample s.mem req.ref.toNat req id x y
    if req.kind = .bidir then BitVec.ofNat 8 ((a + zeroMotionSample s.mem req.ref2.toNat req id x y + 1) / 2)
    else BitVec.ofNat 8 a

/-- One request: ExtMC answers from the memory as it stands, then the arrays are stored to the target squares
(42_dispatcher.md R236). -/
def requestMc (req : McRequest) (target : Picture) (color : Bool) : Op := fun s =>
  checkThenStore s 1 ((planesInUse color).flatMap fun id =>
    (grid (planeSize id 16) (planeSize id 16)).map fun p =>
      (((target.plane id).at (planeSize id req.x + p.1) (planeSize id req.y + p.2) : Int), [mcSample s req id p.1 p.2]))

/-- The four vectors of a descriptor (30_encoding.md R117). -/
def readVectors (s : State) (d : Nat) : Except Raise (List MotionVector) := do
  let v0 ← mbMv s d 0
  let v1 ← mbMv s d 1
  let v2 ← mbMv s d 2
  let v3 ← mbMv s d 3
  .ok [v0, v1, v2, v3]

/-- FLAGS.OVERLAP of the descriptor for the kinds that carry it, 0 for SKIPCOPY and BIDIR (42_dispatcher.md R236). -/
def requestOverlap (s : State) (d : Nat) (kind : McKind) : Except Raise Bool :=
  if kind = .inter ∨ kind = .inter4v then mbOverlap s d else .ok false

/-- The request of the normal-resolution handlers and of the B path (42_dispatcher.md R248, R250, R255). -/
def mcNormal (m : Mb) (kind : McKind) : Op := fun s => do
  let overlap ← requestOverlap s m.d kind
  let mv ← readVectors s m.d
  let bidir := decide (kind = .bidir)
  requestMc
    { kind := kind, overlap := overlap, umv := s.modeUmv, rru := false, quadrant := 0,
      target := if bidir then s.regD.picB else s.regD.picNew,
      ref := s.regD.picOld, ref2 := if bidir then s.regD.picNew else 0,
      mbDesc := m.d, x := 16 * m.col, y := 16 * m.row, mv := mv }
    (if bidir then m.run.bPic else m.run.newPic) m.run.color s

/-- One component of the derived reduced-resolution vector (42_dispatcher.md R256). -/
def deriveComponent (m : Int) : Int := if m = 0 then 0 else Int.sign m * (2 * |m| - 1)

/-- The derived reduced-resolution vector (42_dispatcher.md R256). -/
def deriveVector (v : MotionVector) : MotionVector := { x := deriveComponent v.x, y := deriveComponent v.y }

/-- The request for quadrant k of a reduced-resolution unit (42_dispatcher.md R256, R257). -/
def mcQuadrant (m : Mb) (kind : McKind) (k : Nat) : Op := fun s => do
  let overlap ← requestOverlap s m.d kind
  let v ← mbMv s m.d (if kind = .inter4v then k else 0)
  requestMc
    { kind := kind, overlap := overlap, umv := s.modeUmv, rru := true, quadrant := k,
      target := s.regD.picNew, ref := s.regD.picOld, ref2 := 0, mbDesc := m.d,
      x := 32 * m.col + 16 * (k % 2), y := 32 * m.row + 16 * (k / 2), mv := List.replicate 4 (deriveVector v) }
    m.run.newPic m.run.color s

/-! ### Block reconstructions (42_dispatcher.md section 4) -/

/-- The blocks of a macroblock: 0..5, without the chroma ones when COLOR = 0 (R231). -/
def blocksInUse (color : Bool) : List Nat := if color then [0, 1, 2, 3, 4, 5] else [0, 1, 2, 3]

/-- The plane block b (0..5) lies in (R231). -/
def blockPlane (b : Nat) : PlaneId :=
  match b with
  | 4 => .cb
  | 5 => .cr
  | _ => .y

/-- The address of the top-left sample of block b (0..5) in a picture, U = 16 (R231). -/
def blockTop (m : Mb) (pic : Picture) (b : Nat) : Nat :=
  let p := pic.plane (blockPlane b)
  if b < 4 then p.at (16 * m.col + 8 * (b % 2)) (16 * m.row + 8 * (b / 2)) else p.at (8 * m.col) (8 * m.row)

/-- The arguments of a block reconstruction with BLOCK[n] and quantiser q (section 4). -/
def blockArgs (s : State) (m : Mb) (n q : Nat) : Except Raise BlockArgs := do
  let b ← mbBlock s m.d n
  .ok { symPtr := b.symPtr, count := b.count, quant := q, dc8 := b.dc8 }

/-- blk_add(n, q, PIC) with block b = n mod 6 (section 4). -/
def blkAdd (m : Mb) (n q : Nat) (pic : Picture) : Op := fun s => do
  let a ← blockArgs s m n q
  reconAddBody a (blockTop m pic (n % 6)) (blockTop m pic (n % 6)) (pic.plane (blockPlane (n % 6))).stride s

/-- blk_intra(n, q, PIC) (section 4). -/
def blkIntra (m : Mb) (n q : Nat) (pic : Picture) : Op := fun s => do
  let a ← blockArgs s m n q
  reconBody a (blockTop m pic n) (pic.plane (blockPlane n)).stride s

/-- blk_aic(n, q, PIC) (section 4). -/
def blkAic (m : Mb) (n q : Nat) (pic : Picture) : Op := fun s => do
  let a ← blockArgs s m n q
  let mode ← mbAicMode s m.d
  reconAicBody a m.col n mode mode (blockTop m pic n) (pic.plane (blockPlane n)).stride s

/-- `if CBP[n] = 1: blk_add(n, QUANT, NEW)` (R250). -/
def addIfCoded (m : Mb) (n : Nat) : Op := fun s => do
  let coded ← mbCbp s m.d n
  if coded then do
    let q ← mbQuant s m.d
    blkAdd m n q m.run.newPic s
  else .ok s

/-- `if CBPB[n] = 1: blk_add(6 + n, BQUANT, B)` (R255). -/
def addIfCodedB (m : Mb) (n : Nat) : Op := fun s => do
  let coded ← mbCbpB s m.d n
  if coded then do
    let q ← mbBQuant s m.d
    blkAdd m (6 + n) q m.run.bPic s
  else .ok s

/-- One block of an intra macroblock, by DMODE.AIC (R253). -/
def intraBlock (m : Mb) (n : Nat) : Op := fun s => do
  let q ← mbQuant s m.d
  if s.modeAic then blkAic m n q m.run.newPic s else blkIntra m n q m.run.newPic s

/-- The B path (42_dispatcher.md R255); the fallback does not run it (R266). -/
def bPath (m : Mb) (s : State) : Partial State :=
  if m.run.useB && !m.run.geomFail then
    match mbBreq s m.d with
    | .error e => .error (e, s)
    | .ok false => .ok s
    | .ok true => runOps (mcNormal m .bidir :: (blocksInUse m.run.color).map (addIfCodedB m)) s
  else .ok s

/-! ### Reduced resolution (42_dispatcher.md R256 to R258) -/

/-- RRUBUF with the 8x8 square at column x0, row y0 replaced. -/
def setRruSquare (buf : List (BitVec 16)) (x0 y0 : Nat) (v : Nat → Nat → Int) : List (BitVec 16) :=
  (grid 8 8).foldl (fun b p => b.set (16 * (y0 + p.2) + (x0 + p.1)) (BitVec.ofInt 16 (v p.1 p.2))) buf

/-- RRUBUF <- all 0 (R258). -/
def clearRrubuf : Op := fun s => .ok { s with rrubuf := List.replicate 256 0 }

/-- Whether block n is coded: its CBP bit, or every block of an intra unit (R257). -/
def rruCoded (m : Mb) (intra : Bool) (n : Nat) (s : State) : Except Raise Bool :=
  if intra then .ok true else mbCbp s m.d n

/-- The residual of BLOCK[n] put into RRUBUF at (x0, y0); where the block is not coded, `clear` says whether the square
becomes 0 (chroma) or stays as it is (luma, already 0) (R258). -/
def rruBlock (m : Mb) (intra clear : Bool) (n x0 y0 : Nat) : Op := fun s => do
  let coded ← rruCoded m intra n s
  if coded then do
    let q ← mbQuant s m.d
    let a ← blockArgs s m n q
    let l ← walkBlock s a
    let acc := superpose s.params.tables (l.map (·.coef))
    .ok (noteBlock acc (patternCase (l.map (·.skip)))
      { s with rrubuf := setRruSquare s.rrubuf x0 y0 fun x y => residual acc x y })
  else .ok (if clear then { s with rrubuf := setRruSquare s.rrubuf x0 y0 fun _ _ => 0 } else s)

/-- The top-left n x n of RRUBUF, by rows, as signed values. -/
def rruArray (s : State) (n : Nat) : List Int :=
  (grid n n).map fun p => (s.rrubuf.getD (16 * p.2 + p.1) 0).toInt

/-- The up-sampled residual added onto, or with `nopred` stored as, the unit's square of one plane of NEW (R258); n is
the size of the residual array, 16 for Y and 8 for chroma. -/
def rruSum (m : Mb) (nopred : Bool) (id : PlaneId) : Op := fun s => do
  let n := planeSize id 16
  let addrs := mbSquare m 32 m.run.newPic id
  let r := rruArray s n
  let p ← if nopred then .ok (addrs.map fun _ => 0) else memReadAll s 1 addrs
  checkThenStore s 1 (addrs.zip
    ((p.zip (grid (2 * n) (2 * n))).map fun q => [sampleByte (clip255 (q.1 + upSample r n q.2.1 q.2.2))]))

/-- rru_residual (42_dispatcher.md R258); for an intra unit all blocks are coded and there is no prediction. -/
def rruResidual (m : Mb) (intra : Bool) : List Op :=
  [clearRrubuf, rruBlock m intra false 0 0 0, rruBlock m intra false 1 8 0, rruBlock m intra false 2 0 8,
    rruBlock m intra false 3 8 8, rruSum m intra .y]
  ++ if m.run.color then
      [rruBlock m intra true 4 0 0, rruSum m intra .cb, rruBlock m intra true 5 0 0, rruSum m intra .cr]
    else []

/-! ### The type handlers (42_dispatcher.md R247 to R257, R266) -/

/-- The fill of the fallback: luma, then Cb, then Cr (R266). -/
def grayFill (m : Mb) (u : Nat) : List Op := (planesInUse m.run.color).map (fillPlane m u)

/-- The predictions of an inter or SKIP macroblock, by mode: the gray fill of the fallback, four quadrants in
reduced-resolution mode, one request otherwise (R248, R250, R257, R266). -/
def predictOps (m : Mb) (rru : Bool) (kind : McKind) : List Op :=
  if m.run.geomFail then grayFill m (if rru then 32 else 16)
  else if rru then (List.range 4).map (mcQuadrant m kind)
  else [mcNormal m kind]

/-- The cost of a coded macroblock (R247). -/
def codedCost (rru overlap : Bool) : Nat :=
  (if rru then 4 * costRruQuadrant else costIdct) + (if overlap then costOverlap else 0)

/-- The SKIP handler (R248, R257, R266): the prediction, and its replication into B when the B path is enabled. -/
def skipHandler (m : Mb) (s : State) : Partial (State × Nat) := do
  let rru := s.modeRru
  let replicate : List Op :=
    if m.run.useB && !m.run.geomFail then
      (planesInUse m.run.color).map (copyPlane m 16 m.run.newPic m.run.bPic)
    else []
  let s1 ← runOps (predictOps m rru .skipCopy ++ replicate) s
  .ok (clearAiccColumn m.col s1, costSkip)

/-- The handler of INTER, INTER_Q and INTER4V (R250 to R252, R257, R266). -/
def interHandler (kind : McKind) (m : Mb) (s : State) : Partial (State × Nat) := do
  let rru := s.modeRru
  let residualOps := if rru then rruResidual m false else (blocksInUse m.run.color).map (addIfCoded m)
  let s1 ← runOps (predictOps m rru kind ++ residualOps) s
  let s2 ← bPath m s1
  let s3 := clearAiccColumn m.col s2
  let overlap ← inState s3 (mbOverlap s3 m.d)
  .ok (s3, codedCost rru overlap)

/-- FLAGS.OVERLAP as the cost of an INTRA macroblock takes it: ignored at normal resolution, where R253 returns COST_IDCT,
and counted in reduced-resolution mode, where 90_conflicts.md C9 and R247 add COST_OVERLAP (log entry 30). -/
def intraOverlap (rru : Bool) (s : State) (d : Nat) : Except Raise Bool :=
  if rru then mbOverlap s d else .ok false

/-- The handler of INTRA and INTRA_Q (R253, R254, R257). -/
def intraHandler (m : Mb) (s : State) : Partial (State × Nat) := do
  let rru := s.modeRru
  let s1 ← runOps (if rru then rruResidual m true else (blocksInUse m.run.color).map (intraBlock m)) s
  let s2 ← bPath m s1
  let s3 := if s.modeAic && !rru then s2 else clearAiccColumn m.col s2
  let overlap ← inState s3 (intraOverlap rru s3 m.d)
  .ok (s3, codedCost rru overlap)

/-- The dirty flags of a macroblock (R264): SCRATCH 0x00 for a SKIP at matching geometry with a zero MV[0] word, 0x0F
otherwise. -/
def writeDirty (m : Mb) (skip : Bool) : Op := fun s => do
  let clean ← if skip && !m.run.geomFail then do
      let w ← mbWord s m.d 3
      .ok (w == 0)
    else .ok false
  writeMbScratch s m.d (if clean then 0x00 else 0x0F)

/-! ### The cursor (42_dispatcher.md R240 to R246) -/

/-- The cursor at the first macroblock of a GOB (R241); CK.WORK and CK.VALID as they are. -/
def startCursor (g : GobDescr) (ck : Checkpoint) : Checkpoint :=
  { ck with loop := 0, col := BitVec.ofNat 32 g.firstCol,
            mbNum := BitVec.ofNat 32 (g.firstRow * g.rowStride + g.firstCol) }

/-- Advancing the cursor after a macroblock (R244). -/
def advance (g : GobDescr) (ck : Checkpoint) : Checkpoint :=
  let col := ck.col + 1
  let mbNum := ck.mbNum + 1
  if col = BitVec.ofNat 32 (g.firstCol + g.mbPerRow) then
    { ck with loop := ck.loop + 1, col := BitVec.ofNat 32 g.firstCol,
              mbNum := mbNum + BitVec.ofNat 32 g.rowStride - BitVec.ofNat 32 g.mbPerRow }
  else { ck with loop := ck.loop + 1, col := col, mbNum := mbNum }

/-- A macroblock remains to be processed: CK.LOOP < MBCOUNT (R240). -/
def moreMacroblocks (c : GobRun) (s : State) : Bool := s.ck.loop.toNat < c.gob.mbCount

/-- Work, statistics and cursor after a macroblock whose handler completed (R240, R242, R244). -/
def countMacroblock (c : GobRun) (cost : Nat) (s : State) : State :=
  { s with
    ck := advance c.gob { s.ck with work := s.ck.work + BitVec.ofNat 32 cost }
    stats := { s.stats with mbDone := s.stats.mbDone + 1 } }

/-- The budget of this command is used up with macroblocks remaining (R240, R245). -/
def budgetSpent (c : GobRun) (s : State) : Bool :=
  s.regD.budget ≠ 0 && s.regD.budget ≤ s.ck.work - c.entry.work && moreMacroblocks c s

/-- The end of a macroblock: count it, then suspend if the budget is used up (R240, R245). -/
def endMacroblock (c : GobRun) (cost : Nat) (s : State) : State :=
  let t := countMacroblock c cost s
  if budgetSpent c t then finish .suspended (setCkValid true t) else t

/-- Completion of a GOB (R246, R266). -/
def completeGob (c : GobRun) (s : State) : State :=
  finish (if c.geomFail then .passFailed else .ok) (setCkValid false s)

/-- The rest of a macroblock once its handler has ended: dirty flags, then the end of the macroblock. -/
def settleMacroblock (c : GobRun) (m : Mb) (skip : Bool) (r : Partial (State × Nat)) : Result :=
  match r with
  | .error (e, t) => .next (raiseInLoop e t)
  | .ok (t, cost) =>
    match writeDirty m skip t with
    | .error e => .next (raiseInLoop e t)
    | .ok t' => .next (endMacroblock c cost t')

/-- A type tag run by the loop of DECODE_GOB: its handler on the macroblock the cursor names. -/
def runTag (skip : Bool) (handler : Mb → State → Partial (State × Nat)) (s : State) : Result :=
  match s.run with
  | .gob c => settleMacroblock c (cursorMb c s) skip (handler (cursorMb c s) s)
  | _ => .refused .tagOutsideGob

/-- MB.SKIP (42_dispatcher.md R248). -/
def execMbSkip (s : State) : Result := runTag true skipHandler s

/-- MB.INTER (42_dispatcher.md R250). -/
def execMbInter (s : State) : Result := runTag false (interHandler .inter) s

/-- MB.INTER_Q (42_dispatcher.md R251): as INTER, with KIND = INTER. -/
def execMbInterQ (s : State) : Result := runTag false (interHandler .inter) s

/-- MB.INTER4V (42_dispatcher.md R252): KIND = INTER4V. -/
def execMbInter4v (s : State) : Result := runTag false (interHandler .inter4v) s

/-- MB.INTRA (42_dispatcher.md R253). -/
def execMbIntra (s : State) : Result := runTag false intraHandler s

/-- MB.INTRA_Q (42_dispatcher.md R254): as INTRA. -/
def execMbIntraQ (s : State) : Result := runTag false intraHandler s

/-- MB.UNKNOWN (42_dispatcher.md R262): the GOB is aborted, without a fault. The tag itself plays no part. -/
def execMbUnknown (_tag : Byte) (s : State) : Result :=
  match s.run with
  | .gob _ => .next (finish .gobAborted (setCkValid false
      { s with stats := { s.stats with badType := s.stats.badType + 1 } }))
  | _ => .refused .tagOutsideGob

/-! ### The start checks (42_dispatcher.md R232) -/

/-- The picture at an address with another picture's COLOR flag: its planes in use (R232). PFLAGS of OLD and of B is no
word the command needs (20_memory.md R80), so it is not read and cannot raise: the model's reading of R232, which names the
whole PictureDescr (DEDUCED, log entry 14). -/
def readPlanes (s : State) (a : Nat) (color : Bool) : Except Raise Picture := do
  let y ← readPlane s a
  let (cb, cr) ← readChroma s a color
  .ok { y := y, cb := cb, cr := cr }

/-- OLD, and geomfail: when the luma size differs from NEW's nothing above the HEIGHT word is read (R232; log entry
14). -/
def readOld (s : State) (a : Nat) (color : Bool) (newY : Plane) : Except Raise (Picture × Bool) := do
  let _ ← memRead s a 4
  let width ← memRead s (a + 4) 4
  let height ← memRead s (a + 8) 4
  if width ≠ newY.width ∨ height ≠ newY.height then
    .ok ({ y := { Plane.unread with width := width, height := height }, cb := Plane.unread, cr := Plane.unread }, true)
  else do
    let pic ← readPlanes s a color
    .ok (pic, false)

/-- The check of one plane of a picture at an address (R232). -/
def checkGobPlane (s : State) (pic : Picture) (a : Nat) (id : PlaneId) : Except Raise Unit := do
  let p := pic.plane id
  checkStride p (a + planeOffset id)
  checkExtent s p p.width p.height

/-- Two pictures agree in the WIDTH and HEIGHT of every plane in use (R232). -/
def sameSizes (color : Bool) (p q : Picture) : Bool :=
  (planesInUse color).all fun id =>
    (p.plane id).width = (q.plane id).width && (p.plane id).height = (q.plane id).height

/-- The lines of R232 that are DECODE_GOB's only: the mode and the advanced-intra bound. -/
def checkModes (s : State) (g : GobDescr) : Except Raise Unit := do
  raiseIf (s.modeRru = true ∧ (s.modePb = true ∨ s.modeAic = true)) .mode s.regD.dmode.toNat
  raiseIf (s.modeAic = true ∧ s.params.aicCols < g.firstCol + g.mbPerRow) .aicBound ((g.firstCol + g.mbPerRow : Nat) : Int)

/-- A check made only under a condition. -/
def checkWhen (c : Bool) (r : Except Raise Unit) : Except Raise Unit := if c then r else .ok ()

/-- A picture read only under a condition. -/
def readWhen (c : Bool) (r : Except Raise Picture) : Except Raise Picture :=
  if c then r else .ok { y := Plane.unread, cb := Plane.unread, cr := Plane.unread }

/-- The start checks of DECODE_GOB (`conceal` false) and CONCEAL_GOB (`conceal` true), in the order of R232. -/
def startChecks (conceal : Bool) (s : State) : Except Raise GobRun := do
  needTables s
  let g ← readGob s s.regD.gobPtr.toNat
  raiseIf (g.valid = false) .gobDesc s.regD.gobPtr.toNat
  checkWhen (!conceal) (checkModes s g)
  let (newPic, color) ← readPicture s s.regD.picNew.toNat
  let (oldPic, geomFail) ← readOld s s.regD.picOld.toNat color newPic.y
  let useB := !conceal && s.modePb && s.regD.picB ≠ 0
  let bPic ← readWhen useB (readPlanes s s.regD.picB.toNat color)
  checkEach (checkGobPlane s newPic s.regD.picNew.toNat) (planesInUse color)
  checkWhen (!geomFail) (checkEach (checkGobPlane s oldPic s.regD.picOld.toNat) (planesInUse color))
  checkWhen useB (checkEach (checkGobPlane s bPic s.regD.picB.toNat) (planesInUse color))
  raiseIf (geomFail = false ∧ sameSizes color oldPic newPic = false) .picDesc s.regD.picOld.toNat
  raiseIf (useB = true ∧ sameSizes color bPic newPic = false) .picDesc s.regD.picB.toNat
  raiseIf (s.ck.valid = true ∧ (s.ck.col.toNat < g.firstCol ∨ g.firstCol + g.mbPerRow ≤ s.ck.col.toNat)) .gobDesc
    s.regD.gobPtr.toNat
  .ok { gob := g, newPic := newPic, oldPic := oldPic, bPic := bPic, color := color, useB := useB,
        geomFail := geomFail, entry := s.ck }

/-! ### DECODE_GOB (42_dispatcher.md R240, R241) -/

/-- A geometry-mismatch command counts itself in STAT_GEOMFAIL (R240, R266). -/
def noteGeomFail (c : GobRun) (s : State) : State :=
  if c.geomFail then { s with stats := { s.stats with geomFail := s.stats.geomFail + 1 } } else s

/-- The fresh start of a GOB (R241): cursor and work reset, AICC invalidated. -/
def freshStart (c : GobRun) (s : State) : State :=
  clearAicc { s with ck := startCursor c.gob { s.ck with work := 0 } }

/-- DECODE_GOB up to its loop, with the checks passed (R240): the command is then inside the loop, which `gobTurn`
continues one macroblock at a time (log entry 2). -/
def enterGob (c : GobRun) (s : State) : State :=
  let t := noteGeomFail c s
  let u := if s.ck.valid then t else freshStart c t
  { u with run := .gob { c with entry := u.ck } }

/-- DECODE_GOB (42_dispatcher.md R240). -/
def execDecodeGob (s : State) : Result :=
  match startChecks false s with
  | .error e => .next (raise e s)
  | .ok c => .next (enterGob c s)

/-! ### CONCEAL_GOB (42_dispatcher.md R270) -/

/-- The operations on one concealed macroblock, in order (R270). -/
def concealOps (m : Mb) (u : Nat) : List Op :=
  [fun s => do fitCheck m s; .ok s,
   fun s => writeMbPosition s m.d m.col m.row,
   fun s => writeMbType s m.d 0]
  ++ (if m.run.geomFail then grayFill m u
      else (planesInUse m.run.color).map (copyPlane m u m.run.oldPic m.run.newPic))
  ++ [fun s => writeMbScratch s m.d (if m.run.geomFail then 0x0F else 0x00)]

/-- STAT_CONCEALED and the cursor after a concealed macroblock (R270). -/
def countConcealed (c : GobRun) (s : State) : State :=
  { s with
    ck := advance c.gob s.ck
    stats := { s.stats with concealed := s.stats.concealed + 1 } }

/-- The loop of CONCEAL_GOB; the first argument is the number of macroblocks left (R270). -/
def concealLoop (c : GobRun) : Nat → State → Partial State
  | 0, s => .ok s
  | left + 1, s => do
    let t ← runOps (concealOps (cursorMb c s) (unitSize s)) s
    concealLoop c left (countConcealed c t)

/-- CONCEAL_GOB with its checks passed, up to its loop: the cursor starts afresh unless a checkpoint is valid (R270). So
the concealment of a GOB left suspended goes on from where it stopped, and that of one for which no DECODE_GOB was issued
covers it whole (R272). -/
def enterConceal (c : GobRun) (s : State) : State :=
  if s.ck.valid then s else { s with ck := startCursor c.gob s.ck }

/-- CONCEAL_GOB (42_dispatcher.md R270, R272). -/
def execConcealGob (s : State) : Result :=
  match startChecks true s with
  | .error e => .next (raise e s)
  | .ok c =>
    let t := enterConceal c s
    match concealLoop c (c.gob.mbCount - t.ck.loop.toNat) t with
    | .error (e, u) => .next (raiseInLoop e u)
    | .ok u => .next (finish .ok (clearAicc (setCkValid false u)))

end Sys2Proof.Machine
end

