-- ==== Sys2Proof/Machine/UnitF.lean ====
section
/-! DEFINITION. Unit F, the presentation formatter (43_formatter.md R290 to R318): CONVERT_RGB555, CONVERT_YUY2 and
CONVERT_YVU9. -/

namespace Sys2Proof.Machine

open Sys2Proof.Config

/-! ### The resampler -/

/-- resample1d(line, SN, DN) in 16.16 fixed point, SN the length of the line (43_formatter.md R294). -/
def resample1d (line : List Nat) (dn : Nat) : List Nat :=
  let sn := line.length
  let step := sn * 65536 / dn
  (List.range dn).map fun t =>
    let p := t * step
    let i := p / 65536
    let f := p % 65536
    (line.getD i 0 * (65536 - f) + line.getD (min (i + 1) (sn - 1)) 0 * f + 32768) / 65536

/-- The columns of a plane given by rows, each row `w` long. -/
def columns (w : Nat) (rows : List (List Nat)) : List (List Nat) :=
  (List.range w).map fun x => rows.map fun row => row.getD x 0

/-- The two passes: every row to dw samples, then every column to dh samples; the result by rows (43_formatter.md
R295). -/
def resample (rows : List (List Nat)) (dw dh : Nat) : List (List Nat) :=
  columns dh ((columns dw (rows.map fun row => resample1d row dw)).map fun col => resample1d col dh)

/-- The sample at column x, row y of a plane given by rows. -/
def samplePos (rows : List (List Nat)) (x y : Nat) : Nat := (rows.getD y []).getD x 0

/-! ### The common checks -/

/-- What the checks leave for a conversion: the source picture, its COLOR flag, and the source and target sizes
(43_formatter.md R291). A conversion whose output lies over its PictureDescr goes on with these and does not read the
words again by 20_memory.md R80: the model's reading (DEDUCED, log entry 15). -/
structure FormatRun where
  pic   : Picture
  color : Bool
  w     : Nat
  h     : Nat
  dw    : Nat
  dh    : Nat
  deriving DecidableEq, Repr

/-- A width or height unit F refuses (43_formatter.md R291). -/
def badSize (n : Nat) : Bool := n < 2 || n % 2 = 1 || 65534 < n

/-- The check of one plane (43_formatter.md R291). -/
def checkFormatPlane (s : State) (pic : Picture) (w h : Nat) (id : PlaneId) : Except Raise Unit := do
  let p := pic.plane id
  raiseIf (p.stride < p.width ∨ p.width < planeSize id w ∨ p.height < planeSize id h) .picDesc
    (s.regF.fmtSrc.toNat + planeOffset id)
  checkExtent s p (planeSize id w) (planeSize id h)

/-- The checks common to the three commands (43_formatter.md R291). The words of the PictureDescr are read here and kept
for the command (DEDUCED, log entry 15). -/
def formatChecks (s : State) : Except Raise FormatRun := do
  needTables s
  let (pic, color) ← readPicture s s.regF.fmtSrc.toNat
  let w := pic.y.width
  let h := pic.y.height
  raiseIf (badSize w || badSize h) .fmtArg s.regF.fmtSrc.toNat
  let dw := s.regF.fmtDstW.toNat
  let dh := s.regF.fmtDstH.toNat
  raiseIf (badSize dw || badSize dh) .fmtArg (dw + dh * 65536)
  checkEach (checkFormatPlane s pic w h) (planesInUse color)
  .ok { pic := pic, color := color, w := w, h := h, dw := dw, dh := dh }

/-- The check of an output buffer whose last byte is at `sum` - 1 (43_formatter.md R300, R310, R314). -/
def checkOutput (s : State) (sum : Nat) : Except Raise Unit :=
  raiseIf (s.params.memSize < sum) .addr ((sum : Int) - 1)

/-- The sample at column x, row y of a plane of the source, read from a memory: 128 for a chroma plane of a luma-only
picture (43_formatter.md R291, 30_encoding.md R113). -/
def FormatRun.sample (f : FormatRun) (m : Memory) (id : PlaneId) (x y : Nat) : Nat :=
  if id = .y || f.color then (m.read ((f.pic.plane id).at x y)).toNat else 128

/-- The source's top-left samples of a plane, by rows (43_formatter.md R291). -/
def FormatRun.samples (f : FormatRun) (m : Memory) (id : PlaneId) : List (List Nat) :=
  (List.range (planeSize id f.h)).map fun y => (List.range (planeSize id f.w)).map fun x => f.sample m id x y

/-! ### RGB555 -/

/-- The address of the output pixel at column x of output row r (43_formatter.md R300). -/
def pixelAddr (s : State) (x r : Nat) : Int :=
  s.regF.fmtDst.toNat + r * s.regF.fmtDstStride.toNat + 2 * x

/-- The pixel at column x of row y of the resampled picture (43_formatter.md R297, R300). -/
def pixelAt (tb : TableSource) (ys cbs crs : List (List Nat)) (x y : Nat) : Int :=
  rgb555 tb (samplePos ys x y) (samplePos cbs (x / 2) (y / 2)) (samplePos crs (x / 2) (y / 2))

/-- The pixel of source position (x, y), its samples read from a memory (43_formatter.md R297, R306). -/
def FormatRun.pixel (tb : TableSource) (f : FormatRun) (m : Memory) (x y : Nat) : Int :=
  rgb555 tb (f.sample m .y x y) (f.sample m .cb (x / 2) (y / 2)) (f.sample m .cr (x / 2) (y / 2))

/-- The checks of CONVERT_RGB555 (43_formatter.md R291, R300). -/
def rgbChecks (s : State) : Except Raise FormatRun := do
  let f ← formatChecks s
  let dst := s.regF.fmtDst.toNat
  let stride := s.regF.fmtDstStride.toNat
  raiseIf (stride < 2 * f.dw) .fmtArg stride
  checkOutput s (dst + (f.dh - 1) * stride + 2 * f.dw)
  raiseIf (dst % 2 ≠ 0) .align dst
  raiseIf (stride % 2 ≠ 0) .align (dst + stride)
  .ok f

/-- The whole-picture conversion: resample, flip, convert, store (43_formatter.md R293, R300). -/
def rgbWhole (f : FormatRun) (s : State) : Except Raise State :=
  let ys := resample (f.samples s.mem .y) f.dw f.dh
  let cbs := resample (f.samples s.mem .cb) (f.dw / 2) (f.dh / 2)
  let crs := resample (f.samples s.mem .cr) (f.dw / 2) (f.dh / 2)
  checkThenStore s 2 ((grid f.dw f.dh).map fun p =>
    (pixelAddr s p.1 p.2, halfBytes (pixelAt s.params.tables ys cbs crs p.1 (f.dh - 1 - p.2))))

/-- The source positions of the dirty regions, in the order of 43_formatter.md R306; the mask bytes are by macroblock
rows, `mw` a row. -/
def dirtyPositions (mw mh : Nat) (mask : List Nat) : List (Nat × Nat) :=
  (grid mw mh).flatMap fun mb =>
    (List.range 4).flatMap fun b =>
      if bit (mask.getD (mw * mb.2 + mb.1) 0) b then
        (grid 8 8).map fun p => (16 * mb.1 + 8 * (b % 2) + p.1, 16 * mb.2 + 8 * (b / 2) + p.2)
      else []

/-- Selective update (43_formatter.md R306): every mask byte is read before the first pixel is written. -/
def rgbSelective (f : FormatRun) (s : State) : Except Raise State := do
  raiseIf (f.w % 16 ≠ 0 ∨ f.h % 16 ≠ 0) .fmtArg s.regF.fmtSrc.toNat
  let mask ← memReadAll s 1 ((grid (f.w / 16) (f.h / 16)).map fun mb =>
    (s.regF.fmtMask.toNat : Int) + (mb.2 * s.regF.fmtMaskPitch.toNat + mb.1) * s.regF.fmtMaskStep.toNat)
  checkThenCopy s 2 ((dirtyPositions (f.w / 16) (f.h / 16) mask).map fun p =>
    (pixelAddr s p.1 (f.h - 1 - p.2), fun m => halfBytes (f.pixel s.params.tables m p.1 p.2)))

/-- CONVERT_RGB555 (43_formatter.md R300). FMT_PATH is written after the checks of R300 and before the selective
update's own (log entry 17). -/
def execConvertRgb555 (sel : Bool) (s : State) : Result :=
  match rgbChecks s with
  | .error e => .next (raise e s)
  | .ok f =>
    let path := scalePath f.w f.h f.dw f.dh
    let t := { s with fmtPath := path }
    endCommand t (if sel && path = .direct then rgbSelective f t else rgbWhole f t)

/-! ### YUY2 and YVU9 -/

/-- The body of CONVERT_YUY2 (43_formatter.md R310). -/
def yuy2Body (s : State) : Except Raise State := do
  let f ← formatChecks s
  let dst := s.regF.fmtDst.toNat
  let stride := s.regF.fmtDstStride.toNat
  raiseIf (f.dw ≠ f.w ∨ f.dh ≠ f.h) .fmtArg (f.dw + f.dh * 65536)
  raiseIf (stride < 2 * f.w) .fmtArg stride
  checkOutput s (dst + (f.h - 1) * stride + 2 * f.w)
  checkThenCopy s 1 ((grid (f.w / 2) f.h).flatMap fun p =>
    let row := f.h - 1 - p.2
    let a : Int := dst + p.2 * stride + 4 * p.1
    [(a, fun m => [sampleByte (f.sample m .y (2 * p.1) row)]),
     (a + 1, fun m => [sampleByte (f.sample m .cb p.1 (row / 2))]),
     (a + 2, fun m => [sampleByte (f.sample m .y (2 * p.1 + 1) row)]),
     (a + 3, fun m => [sampleByte (f.sample m .cr p.1 (row / 2))])])

/-- CONVERT_YUY2 (43_formatter.md R310). -/
def execConvertYuy2 (s : State) : Result := endCommand s (yuy2Body s)

/-- One decimated chroma plane of YVU9 at an address: every second sample of every second row of the flipped plane
(43_formatter.md R314). -/
def yvu9Chroma (f : FormatRun) (top : Nat) (id : PlaneId) : List (Int × (Memory → List Byte)) :=
  (grid (f.w / 4) (f.h / 4)).map fun p =>
    ((top : Int) + p.2 * (f.w / 4 : Nat) + p.1, fun m =>
      [sampleByte (f.sample m id (2 * p.1) (f.h / 2 - 1 - 2 * p.2))])

/-- The body of CONVERT_YVU9 (43_formatter.md R314): Y, then V (Cr), then U (Cb), contiguous. -/
def yvu9Body (s : State) : Except Raise State := do
  let f ← formatChecks s
  let dst := s.regF.fmtDst.toNat
  raiseIf (f.dw ≠ f.w ∨ f.dh ≠ f.h) .fmtArg (f.dw + f.dh * 65536)
  raiseIf (f.w % 4 ≠ 0 ∨ f.h % 4 ≠ 0) .fmtArg s.regF.fmtSrc.toNat
  raiseIf (s.regF.fmtDstStride.toNat ≠ f.w) .fmtArg s.regF.fmtDstStride.toNat
  let q := f.w / 4 * (f.h / 4)
  checkOutput s (dst + f.w * f.h + 2 * q)
  checkThenCopy s 1
    (((grid f.w f.h).map fun p =>
        ((dst : Int) + p.2 * f.w + p.1, fun m => [sampleByte (f.sample m .y p.1 (f.h - 1 - p.2))]))
      ++ yvu9Chroma f (dst + f.w * f.h) .cr
      ++ yvu9Chroma f (dst + f.w * f.h + q) .cb)

/-- CONVERT_YVU9 (43_formatter.md R314). -/
def execConvertYvu9 (s : State) : Result := endCommand s (yvu9Body s)

end Sys2Proof.Machine
end

