-- ==== Sys2Proof/Machine/UnitK.lean ====
section
/-! DEFINITION. Unit K, the deblocking filters (41_deblocking.md R200 to R216): DBK_EDGE, DBK_EDGE_RRU, DEBLOCK_PIC and
DEBLOCK_RRU_PIC. -/

namespace Sys2Proof.Machine

open Sys2Proof.Config

/-- An edge: the address of C of its first position, the step along it and the step across it (41_deblocking.md
R201). -/
structure Edge where
  start  : Int
  along  : Int
  across : Int
  deriving DecidableEq, Repr

/-- The address of sample C at position k (R201). -/
def Edge.c (e : Edge) (k : Nat) : Int := e.start + k * e.along
/-- The address of sample B at position k (R201). -/
def Edge.b (e : Edge) (k : Nat) : Int := e.start + k * e.along - e.across
/-- The address of sample A at position k (R201). -/
def Edge.a (e : Edge) (k : Nat) : Int := e.start + k * e.along - 2 * e.across
/-- The address of sample D at position k (R201). -/
def Edge.d (e : Edge) (k : Nat) : Int := e.start + k * e.along + e.across

/-- dbk_pair(A, B, C, D, q): the new B and C (41_deblocking.md R202). -/
def dbkPair (tb : TableSource) (a b c d : Int) (q : Nat) : Int × Int :=
  let t := dbkTab tb q (divTz (a - 4 * b + 4 * c - d) 8)
  (clip255 (b + t), clip255 (c - t))

/-- rru_pair(B, C): the new B and C (41_deblocking.md R211). -/
def rruPair (b c : Int) : Int × Int := (asr (3 * b + c + 2) 2, asr (b + 3 * c + 2) 2)

/-- The sample at a checked address. -/
def sampleAt (m : Memory) (a : Int) : Int := (m.read a.toNat).toNat

/-- One position of the normal filter, in place. -/
def filterPosition (tb : TableSource) (e : Edge) (q : Nat) (m : Memory) (k : Nat) : Memory :=
  let p := dbkPair tb (sampleAt m (e.a k)) (sampleAt m (e.b k)) (sampleAt m (e.c k)) (sampleAt m (e.d k)) q
  (m.write (e.b k).toNat (sampleByte p.1)).write (e.c k).toNat (sampleByte p.2)

/-- One position of the reduced-resolution blend, in place. -/
def blendPosition (e : Edge) (m : Memory) (k : Nat) : Memory :=
  let p := rruPair (sampleAt m (e.b k)) (sampleAt m (e.c k))
  (m.write (e.b k).toNat (sampleByte p.1)).write (e.c k).toNat (sampleByte p.2)

/-- The addresses of the eight positions of the normal filter, in the order they are checked (41_deblocking.md R206). -/
def edgeAddrs (e : Edge) : List Int := (List.range 8).flatMap fun k => [e.a k, e.b k, e.c k, e.d k]

/-- The addresses of n positions of the blend, in the order they are checked (41_deblocking.md R212). -/
def blendAddrs (e : Edge) (n : Nat) : List Int := (List.range n).flatMap fun k => [e.b k, e.c k]

/-- filter_edge: the range check, DBK_Q <- q, then the eight positions in order (41_deblocking.md R205, R206; log
entry 27). -/
def filterEdge (e : Edge) (q : Nat) (s : State) : Except Raise State := do
  let _ ← accessAll s 1 (edgeAddrs e)
  .ok { s with dbkQ := BitVec.ofNat 32 q, mem := (List.range 8).foldl (filterPosition s.params.tables e q) s.mem }

/-- blend_edge: the range check, then the n positions in order (41_deblocking.md R212; log entry 27). -/
def blendEdge (e : Edge) (n : Nat) (s : State) : Except Raise State := do
  let _ ← accessAll s 1 (blendAddrs e n)
  .ok { s with mem := (List.range n).foldl (blendPosition e) s.mem }

/-- The edge the registers name; the steps are read as sext_32 (10_state.md R31). -/
def regEdge (s : State) : Edge :=
  { start := s.regK.edgeAddr.toNat, along := s.regK.edgeAlong.toInt, across := s.regK.edgeAcross.toInt }

/-- The body of DBK_EDGE (41_deblocking.md R206). -/
def dbkEdgeBody (s : State) : Except Raise State := do
  needTables s
  let q := s.regK.edgeQ.toNat
  raiseIf (q < 1 ∨ 31 < q) .quant q
  filterEdge (regEdge s) q s

/-- DBK_EDGE (41_deblocking.md R206). -/
def execDbkEdge (s : State) : Result := endCommand s (dbkEdgeBody s)

/-- The body of DBK_EDGE_RRU (41_deblocking.md R212). -/
def dbkEdgeRruBody (s : State) : Except Raise State := do
  needTables s
  let n := s.regK.edgeLen.toNat
  raiseIf (n ≠ 8 ∧ n ≠ 16 ∧ n ≠ 32) .edgeArg n
  blendEdge (regEdge s) n s

/-- DBK_EDGE_RRU (41_deblocking.md R212). -/
def execDbkEdgeRru (s : State) : Result := endCommand s (dbkEdgeRruBody s)

/-! ### Over a picture -/

/-- TYPE and QUANT of a grid cell (41_deblocking.md R207). -/
structure MbInfo where
  type  : Nat
  quant : Nat
  deriving DecidableEq, Repr

/-- What validation leaves for the filter: the planes, and TYPE and QUANT of the grid by rows (41_deblocking.md R207).
Where the command's own samples overwrite its PictureDescr, R207 says for TYPE and QUANT and not for BASE, STRIDE and
PFLAGS that the filter uses the words validation read; that it uses those of the PictureDescr too, and does not read them
again by 20_memory.md R80, is the model's reading (DEDUCED, log entry 15). -/
structure DeblockRun where
  pic   : Picture
  color : Bool
  cols  : Nat
  rows  : Nat
  mbs   : List MbInfo
  deriving DecidableEq, Repr

/-- The macroblock at row r, column c of the grid. -/
def DeblockRun.mb (d : DeblockRun) (r c : Nat) : MbInfo := d.mbs.getD (d.cols * r + c) { type := 0, quant := 0 }

/-- The check of one plane (41_deblocking.md R207). -/
def checkDeblockPlane (s : State) (pic : Picture) (u cols rows : Nat) (id : PlaneId) : Except Raise Unit := do
  let p := pic.plane id
  raiseIf (p.stride < p.width ∨ p.width < planeSize id u * cols ∨ p.height < planeSize id u * rows) .picDesc
    (s.regK.dbkPic.toNat + planeOffset id)
  checkExtent s p p.width p.height

/-- TYPE and QUANT of each grid cell, by rows; with `checkQ`, QUANT of a coded one must be in 1..31 (41_deblocking.md
R207). -/
def readMbInfos (s : State) (checkQ : Bool) (rowStride : Nat) : List (Nat × Nat) → Except Raise (List MbInfo)
  | [] => .ok []
  | (c, r) :: rest => do
    let w ← memRead s ((mbAddr s.regK.dbkMbBase (r * rowStride + c) : Nat) + 4) 4
    let q := field w 8 8
    raiseIf (checkQ = true ∧ field w 0 8 ≠ 0 ∧ (q < 1 ∨ 31 < q)) .quant q
    let l ← readMbInfos s checkQ rowStride rest
    .ok ({ type := field w 0 8, quant := q } :: l)

/-- The validation common to DEBLOCK_PIC and DEBLOCK_RRU_PIC (41_deblocking.md R207); u is the macroblock size in luma
samples. The words of the PictureDescr are read here and kept for the command (DEDUCED, log entry 15). -/
def validateDeblock (u : Nat) (checkQ : Bool) (s : State) : Except Raise DeblockRun := do
  needTables s
  let (pic, color) ← readPicture s s.regK.dbkPic.toNat
  let cols := field s.regK.dbkGeom.toNat 0 16
  let rows := field s.regK.dbkGeom.toNat 16 16
  let rowStride := s.regK.dbkRowStride.toNat
  raiseIf (rowStride < cols) .picDesc s.regK.dbkGeom.toNat
  checkEach (checkDeblockPlane s pic u cols rows) (planesInUse color)
  let mbs ← readMbInfos s checkQ rowStride (grid cols rows)
  .ok { pic := pic, color := color, cols := cols, rows := rows, mbs := mbs }

/-- edge_q(MP, MN): the quantiser an edge is filtered with, if it is (41_deblocking.md R209). -/
def edgeQ (p n : MbInfo) : Option Nat :=
  if p.type = 0 ∧ n.type = 0 then none
  else if n.type ≠ 0 then some n.quant
  else some p.quant

/-- The horizontal edge whose first sample below the boundary is (x, y) (41_deblocking.md R201). -/
def Plane.horizontalEdge (p : Plane) (x y : Nat) : Edge := { start := p.at x y, along := 1, across := p.stride }

/-- The vertical edge whose first sample right of the boundary is (x, y) (41_deblocking.md R201). -/
def Plane.verticalEdge (p : Plane) (x y : Nat) : Edge := { start := p.at x y, along := p.stride, across := 1 }

/-- Blocks per macroblock side: 2 for Y, 1 for chroma (41_deblocking.md R208). -/
def blocksPerSide (id : PlaneId) : Nat :=
  match id with
  | .y => 2
  | _ => 1

/-- Pass 1 of a plane: the horizontal edges to filter, top to bottom, left to right (41_deblocking.md R208). -/
def normalPass1 (d : DeblockRun) (id : PlaneId) : List (Edge × Nat) :=
  let m := blocksPerSide id
  (grid (m * d.cols) (m * d.rows)).filterMap fun b =>
    if b.2 = 0 then none
    else (edgeQ (d.mb ((b.2 - 1) / m) (b.1 / m)) (d.mb (b.2 / m) (b.1 / m))).map fun q =>
      ((d.pic.plane id).horizontalEdge (8 * b.1) (8 * b.2), q)

/-- Pass 2 of a plane: the vertical edges to filter, top to bottom, left to right (41_deblocking.md R208). -/
def normalPass2 (d : DeblockRun) (id : PlaneId) : List (Edge × Nat) :=
  let m := blocksPerSide id
  (grid (m * d.cols) (m * d.rows)).filterMap fun b =>
    if b.1 = 0 then none
    else (edgeQ (d.mb (b.2 / m) ((b.1 - 1) / m)) (d.mb (b.2 / m) (b.1 / m))).map fun q =>
      ((d.pic.plane id).verticalEdge (8 * b.1) (8 * b.2), q)

/-- The edges of a whole picture, in order (41_deblocking.md R208). -/
def normalEdges (d : DeblockRun) : List (Edge × Nat) :=
  (planesInUse d.color).flatMap fun id => normalPass1 d id ++ normalPass2 d id

/-- Edges filtered one after another. -/
def filterEdges : List (Edge × Nat) → State → Except Raise State
  | [], s => .ok s
  | (e, q) :: rest, s => do
    let t ← filterEdge e q s
    filterEdges rest t

/-- The body of DEBLOCK_PIC (41_deblocking.md R208). -/
def deblockPicBody (s : State) : Except Raise State := do
  let d ← validateDeblock 16 true s
  filterEdges (normalEdges d) s

/-- DEBLOCK_PIC (41_deblocking.md R208). -/
def execDeblockPic (s : State) : Result := endCommand s (deblockPicBody s)

/-- Positions of a cell boundary: 32 in luma, 16 in chroma (41_deblocking.md R213). -/
def cellSize (id : PlaneId) : Nat := planeSize id 32

/-- Pass 1 of a plane: the horizontal boundaries to blend (41_deblocking.md R214). -/
def rruPass1 (d : DeblockRun) (id : PlaneId) : List (Edge × Nat) :=
  let n := cellSize id
  (grid d.cols d.rows).filterMap fun c =>
    if c.2 ≠ 0 ∧ ((d.mb (c.2 - 1) c.1).type ≠ 0 ∨ (d.mb c.2 c.1).type ≠ 0) then
      some ((d.pic.plane id).horizontalEdge (n * c.1) (n * c.2), n)
    else none

/-- Pass 2 of a plane: the vertical boundaries to blend (41_deblocking.md R214). -/
def rruPass2 (d : DeblockRun) (id : PlaneId) : List (Edge × Nat) :=
  let n := cellSize id
  (grid d.cols d.rows).filterMap fun c =>
    if c.1 ≠ 0 ∧ ((d.mb c.2 (c.1 - 1)).type ≠ 0 ∨ (d.mb c.2 c.1).type ≠ 0) then
      some ((d.pic.plane id).verticalEdge (n * c.1) (n * c.2), n)
    else none

/-- The boundaries of a whole picture, in order, each with its number of positions (41_deblocking.md R214). -/
def rruEdges (d : DeblockRun) : List (Edge × Nat) :=
  (planesInUse d.color).flatMap fun id => rruPass1 d id ++ rruPass2 d id

/-- Boundaries blended one after another. -/
def blendEdges : List (Edge × Nat) → State → Except Raise State
  | [], s => .ok s
  | (e, n) :: rest, s => do
    let t ← blendEdge e n s
    blendEdges rest t

/-- The body of DEBLOCK_RRU_PIC (41_deblocking.md R214). -/
def deblockRruPicBody (s : State) : Except Raise State := do
  let d ← validateDeblock 32 false s
  blendEdges (rruEdges d) s

/-- DEBLOCK_RRU_PIC (41_deblocking.md R214). -/
def execDeblockRruPic (s : State) : Result := endCommand s (deblockRruPicBody s)

end Sys2Proof.Machine
end

