-- ==== Sys2Proof/Machine/UnitT.lean ====
section
/-! DEFINITION. The system commands: NOP, INIT_TABLES and AIC_FLUSH (40_idct_engine.md R141, R142, R184). -/

namespace Sys2Proof.Machine

/-- NOP (40_idct_engine.md R142). -/
def execNop (s : State) : Result := .next (finish .ok s)

/-- INIT_TABLES (40_idct_engine.md R141). -/
def execInitTables (s : State) : Result := .next (finish .ok { s with tablesValid := true })

/-- AIC_FLUSH (40_idct_engine.md R184). -/
def execAicFlush (s : State) : Result := .next (finish .ok (clearAicc s))

end Sys2Proof.Machine
end

