-- ==== Sys2Proof/Machine/Dispatch.lean ====
section
/-! DEFINITION. One arm per instruction. -/

namespace Sys2Proof.Machine

/-- The meaning of an instruction. -/
def exec (i : Instr) (s : State) : Host.Outcome State Fault Refusal :=
  match i with
  | .nop => Sys2Proof.Machine.execNop s
  | .initTables => Sys2Proof.Machine.execInitTables s
  | .aicFlush => Sys2Proof.Machine.execAicFlush s
  | .recon dc8 => Sys2Proof.Machine.execRecon dc8 s
  | .reconAdd dc8 => Sys2Proof.Machine.execReconAdd dc8 s
  | .reconS16 dc8 => Sys2Proof.Machine.execReconS16 dc8 s
  | .reconAic dc8 => Sys2Proof.Machine.execReconAic dc8 s
  | .rruUpadd nopred small => Sys2Proof.Machine.execRruUpadd nopred small s
  | .dbkEdge => Sys2Proof.Machine.execDbkEdge s
  | .dbkEdgeRru => Sys2Proof.Machine.execDbkEdgeRru s
  | .deblockPic => Sys2Proof.Machine.execDeblockPic s
  | .deblockRruPic => Sys2Proof.Machine.execDeblockRruPic s
  | .decodeGob => Sys2Proof.Machine.execDecodeGob s
  | .concealGob => Sys2Proof.Machine.execConcealGob s
  | .convertRgb555 sel => Sys2Proof.Machine.execConvertRgb555 sel s
  | .convertYuy2 => Sys2Proof.Machine.execConvertYuy2 s
  | .convertYvu9 => Sys2Proof.Machine.execConvertYvu9 s
  | .mbSkip => Sys2Proof.Machine.execMbSkip s
  | .mbInter => Sys2Proof.Machine.execMbInter s
  | .mbInterQ => Sys2Proof.Machine.execMbInterQ s
  | .mbInter4v => Sys2Proof.Machine.execMbInter4v s
  | .mbIntra => Sys2Proof.Machine.execMbIntra s
  | .mbIntraQ => Sys2Proof.Machine.execMbIntraQ s
  | .mbUnknown tag => Sys2Proof.Machine.execMbUnknown tag s

end Sys2Proof.Machine
end

