-- ==== Sys2Proof/Machine/Turn.lean ====
section
/-! DEFINITION. One turn of the device: decoding and running the command a CMD write started (10_state.md R26), or
fetching and running the type tag of the next macroblock of a DECODE_GOB (42_dispatcher.md R240). -/

namespace Sys2Proof.Machine

/-- The turn in which a started command acts: an illegal word only raises E_OPCODE with FAULTINFO = the word
(30_encoding.md R105). -/
def commandTurn (w : Word) (s : State) : Result :=
  match decodeCommand w with
  | .error _ => .next (raise ⟨.opcode, w⟩ s)
  | .ok i => exec i s

/-- The steps of DECODE_GOB's loop before the tag is run: the fit check, the position written to word 0, and the tag
read (42_dispatcher.md R240, R243). -/
def fetchTag (m : Mb) (s : State) : Partial (Byte × State) := do
  inState s (fitCheck m s)
  let t ← inState s (writeMbPosition s m.d m.col m.row)
  let tag ← inState t (mbType t m.d)
  .ok (tag, t)

/-- One turn of a DECODE_GOB inside its loop: its next macroblock, or its completion when none remains
(42_dispatcher.md R240). -/
def gobTurn (c : GobRun) (s : State) : Result :=
  if moreMacroblocks c s then
    match fetchTag (cursorMb c s) s with
    | .error (e, t) => .next (raiseInLoop e t)
    | .ok (tag, t) => exec (decodeTag t.params.legacy tag) t
  else .next (completeGob c s)

/-- One turn of the device. An idle device waits (10_state.md R51, 60_exceptions.md R350), for any number of turns: it has
no time-out, and a GOB left suspended keeps its checkpoint until the host issues a command (42_dispatcher.md R272). -/
def deviceTurn (s : State) : Result :=
  match s.run with
  | .idle => .next s
  | .command w => commandTurn w s
  | .gob c => gobTurn c s

end Sys2Proof.Machine
end

