-- ==== Sys2Proof/Machine/Footprint.lean ====
section
/-! DEFINITION. The bytes a running command may read and may write: those 20_memory.md R89 keeps the host away from, and
those 70_reset_and_hazards.md R373 leaves open when a reset abandons the command. Every other byte of memory is the
host's while the command runs (20_memory.md R87; log entries 9, 10, 31). -/

namespace Sys2Proof.Machine

open Sys2Proof.Config

/-! ### Regions -/

/-- `rows` rows of `width` bytes each, `stride` bytes from the start of one to the start of the next (20_memory.md R78,
R79). -/
structure Region where
  base   : Nat
  rows   : Nat
  width  : Nat
  stride : Nat
  deriving DecidableEq, Repr

/-- A region holds the byte at an address. Of the rows that start at or below the address the last reaches farthest. -/
def Region.has (r : Region) (a : Nat) : Bool :=
  0 < r.rows && r.base ≤ a && a < r.base + min (r.rows - 1) ((a - r.base) / r.stride) * r.stride + r.width

/-- The n bytes from a. -/
def bytesFrom (a n : Nat) : Region := { base := a, rows := 1, width := n, stride := 0 }

/-- An n x n array of items of `size` bytes (20_memory.md R79). -/
def squareRegion (top stride size n : Nat) : Region := { base := top, rows := n, width := size * n, stride := stride }

/-- Single bytes at addresses that are not negative. -/
def byteRegions (l : List Int) : List Region := (l.filter fun a => 0 ≤ a).map fun a => bytesFrom a.toNat 1

/-- The samples of the top-left w x h of a picture, w and h given for luma, plane by plane. -/
def pictureRegions (pic : Picture) (color : Bool) (w h : Nat) : List Region :=
  (planesInUse color).map fun id =>
    let p := pic.plane id
    { base := p.base, rows := planeSize id h, width := planeSize id w, stride := p.stride }

/-- A PictureDescr up to PFLAGS (30_encoding.md R113). All 52 bytes count as read, those of Cb and Cr with COLOR = 0 and
those of a reference whose size alone is compared among them: DESIGN CHOICE, safe (log entry 31). -/
def pictureDescr (a : Word) : Region := bytesFrom a.toNat 52

/-- The symbol array of a block: no more than 64 symbols are read (40_idct_engine.md R148). -/
def symbolRegion (b : BlockArgs) : Region := bytesFrom b.symPtr (4 * min b.count 64)

/-- What a command may read and may write. `descriptors` are those of its GOB, which R373 counts among the regions an
abandoned command could write. -/
structure Footprint where
  reads       : List Region
  writes      : List Region
  descriptors : List Region
  deriving DecidableEq, Repr

/-- No memory at all. -/
def Footprint.none : Footprint := { reads := [], writes := [], descriptors := [] }

/-! ### Units I, K and F -/

/-- A block reconstruction by the registers of unit I, samples `size` bytes apart (40_idct_engine.md R152 to R158,
R178). -/
def reconFootprint (size : Nat) (pred : Bool) (s : State) : Footprint :=
  let stride := s.regI.stride.toNat
  { reads := symbolRegion (regBlock s false) :: (if pred then [squareRegion s.regI.pred.toNat stride 1 8] else [])
    writes := [squareRegion s.regI.dest.toNat stride size 8]
    descriptors := [] }

/-- RRU_UPADD with a source array of n x n (40_idct_engine.md R160). -/
def upAddFootprint (n : Nat) (nopred : Bool) (s : State) : Footprint :=
  let stride := s.regI.stride.toNat
  { reads := squareRegion s.regI.upSrc.toNat s.regI.upSrcStride.toNat 2 n ::
      (if nopred then [] else [squareRegion s.regI.pred.toNat stride 1 (2 * n)])
    writes := [squareRegion s.regI.dest.toNat stride 1 (2 * n)]
    descriptors := [] }

/-- DBK_EDGE (41_deblocking.md R206). -/
def edgeFootprint (s : State) : Footprint :=
  { reads := byteRegions (edgeAddrs (regEdge s)), writes := byteRegions (blendAddrs (regEdge s) 8), descriptors := [] }

/-- DBK_EDGE_RRU, of a length it accepts (41_deblocking.md R212). -/
def blendFootprint (s : State) : Footprint :=
  let n := s.regK.edgeLen.toNat
  let l := if n = 8 ∨ n = 16 ∨ n = 32 then byteRegions (blendAddrs (regEdge s) n) else []
  { reads := l, writes := l, descriptors := [] }

/-- DEBLOCK_PIC and DEBLOCK_RRU_PIC: the PictureDescr, word 1 of each descriptor of the grid, and the samples of the
grid area where validation passes (41_deblocking.md R207, R208, R215). -/
def deblockFootprint (u : Nat) (checkQ : Bool) (s : State) : Footprint :=
  let cols := field s.regK.dbkGeom.toNat 0 16
  let rows := field s.regK.dbkGeom.toNat 16 16
  let samples :=
    match validateDeblock u checkQ s with
    | .ok d => pictureRegions d.pic d.color (u * cols) (u * rows)
    | .error _ => []
  { reads := pictureDescr s.regK.dbkPic ::
      ((List.range rows).map fun r =>
        { base := mbAddr s.regK.dbkMbBase (r * s.regK.dbkRowStride.toNat) + 4, rows := cols, width := 4, stride := 128 })
      ++ samples
    writes := samples
    descriptors := [] }

/-- The bytes of the dirty map that a selective update reads, row by row (30_encoding.md R126, 43_formatter.md R306). -/
def maskRegions (f : FormatRun) (s : State) : List Region :=
  let step := s.regF.fmtMaskStep.toNat
  (List.range (f.h / 16)).map fun r =>
    { base := s.regF.fmtMask.toNat + r * s.regF.fmtMaskPitch.toNat * step, rows := f.w / 16, width := 1, stride := step }

/-- A conversion: the PictureDescr and, where the checks pass, the samples of the source and the output buffer
(43_formatter.md R291, R300, R310, R314). -/
def formatFootprint (checks : Except Raise FormatRun) (more output : FormatRun → List Region) (s : State) : Footprint :=
  let descr := pictureDescr s.regF.fmtSrc
  match checks with
  | .error _ => { reads := [descr], writes := [], descriptors := [] }
  | .ok f =>
    { reads := descr :: (pictureRegions f.pic f.color f.w f.h ++ more f), writes := output f, descriptors := [] }

/-- The output buffer of CONVERT_RGB555 (43_formatter.md R300). -/
def rgbOutput (s : State) (f : FormatRun) : List Region :=
  [{ base := s.regF.fmtDst.toNat, rows := f.dh, width := 2 * f.dw, stride := s.regF.fmtDstStride.toNat }]

/-- The output buffer of CONVERT_YUY2 (43_formatter.md R310). -/
def yuy2Output (s : State) (f : FormatRun) : List Region :=
  [{ base := s.regF.fmtDst.toNat, rows := f.h, width := 2 * f.w, stride := s.regF.fmtDstStride.toNat }]

/-- The output buffer of CONVERT_YVU9 (43_formatter.md R314). -/
def yvu9Output (s : State) (f : FormatRun) : List Region :=
  [bytesFrom s.regF.fmtDst.toNat (f.w * f.h + 2 * (f.w / 4 * (f.h / 4)))]

/-! ### Unit D -/

/-- The macroblocks a command comes to from a cursor, the first argument being how many (42_dispatcher.md R244). -/
def mbsFrom (c : GobRun) (s : State) : Nat → Checkpoint → List Mb
  | 0, _ => []
  | n + 1, ck => cursorMb c { s with ck := ck } :: mbsFrom c s n (advance c.gob ck)

/-- The macroblocks of a command that entered its loop at `c.entry`, those already done among them. -/
def gobMbs (c : GobRun) (s : State) : List Mb := mbsFrom c s (c.gob.mbCount - c.entry.loop.toNat) c.entry

/-- A macroblock passes the checks made before its first store: it fits the picture being built, and word 0 of its
descriptor exists (42_dispatcher.md R233, R240, R243). -/
def opens (m : Mb) (s : State) : Bool :=
  match fitCheck m s, access s m.d 4 with
  | .ok _, .ok _ => true
  | _, _ => false

/-- The macroblocks the command can come to: one that does not open raises and ends it (42_dispatcher.md R233, R268). -/
def reachedMbs (c : GobRun) (s : State) : List Mb := (gobMbs c s).takeWhile fun m => opens m s

/-- The samples of a macroblock in a picture (42_dispatcher.md R231). -/
def mbRegions (m : Mb) (u : Nat) (pic : Picture) : List Region :=
  (planesInUse m.run.color).map fun id =>
    squareRegion ((pic.plane id).at (planeSize id u * m.col) (planeSize id u * m.row)) (pic.plane id).stride 1
      (planeSize id u)

/-- The blocks of a macroblock that its type and coded-block patterns have reconstructed (42_dispatcher.md R248 to
R258). -/
def codedBlocks (m : Mb) (s : State) : List Nat :=
  let t := decodeTag s.params.legacy (s.mem.read (m.d + 4))
  let w := s.mem.readLE (m.d + 8) 4
  let blocks := blocksInUse m.run.color
  let inter := decide (t ∈ [.mbInter, .mbInterQ, .mbInter4v])
  let intra := decide (t ∈ [.mbIntra, .mbIntraQ])
  let b := (inter || intra) && m.run.useB && !m.run.geomFail && bit w 17
  (blocks.filter fun n => intra || (inter && bit w n)) ++ (blocks.filter fun n => b && bit w (8 + n)).map (6 + ·)

/-- The symbol arrays of a macroblock (30_encoding.md R114). -/
def mbSymbols (m : Mb) (s : State) : List Region :=
  (codedBlocks m s).map fun n =>
    bytesFrom (s.mem.readLE (m.d + 32 + 8 * n) 4) (4 * min (field (s.mem.readLE (m.d + 36 + 8 * n) 4) 0 8) 64)

/-- A picture with the padding of its rows, as ExtMC may read it (20_memory.md R78). -/
def paddedRegions (pic : Picture) (color : Bool) : List Region :=
  (planesInUse color).map fun id =>
    let p := pic.plane id
    { base := p.base, rows := p.height, width := p.stride, stride := p.stride }

/-- What the start checks may read (42_dispatcher.md R232). -/
def startReads (conceal : Bool) (s : State) : List Region :=
  bytesFrom s.regD.gobPtr.toNat 12 :: pictureDescr s.regD.picNew :: pictureDescr s.regD.picOld ::
    (if !conceal && s.modePb && s.regD.picB ≠ 0 then [pictureDescr s.regD.picB] else [])

/-- DECODE_GOB with its start checks passed: of the macroblocks it can come to, words 0 and 2 of the descriptors and
the samples in NEW and B are written, the descriptors and the symbol arrays read, and with them the reference pictures
(42_dispatcher.md R236, R240). -/
def decodeFootprint (c : GobRun) (s : State) : Footprint :=
  let mbs := reachedMbs c s
  let useB := c.useB && !c.geomFail
  { reads := startReads false s ++ (mbs.flatMap fun m => mbSymbols m s)
      ++ (if c.geomFail then [] else paddedRegions c.oldPic c.color)
      ++ (if useB then paddedRegions c.newPic c.color else [])
      ++ mbs.map fun m => bytesFrom m.d 128
    writes := mbs.flatMap fun m =>
      [bytesFrom m.d 4, bytesFrom (m.d + 8) 4] ++ mbRegions m (unitSize s) c.newPic
        ++ (if useB then mbRegions m 16 c.bPic else [])
    descriptors := (gobMbs c s).map fun m => bytesFrom m.d 128 }

/-- CONCEAL_GOB with its start checks passed: of the macroblocks it can come to, words 0 to 2 of the descriptors and the
samples in NEW are written, the samples in OLD read (42_dispatcher.md R270). -/
def concealFootprint (c : GobRun) (s : State) : Footprint :=
  let mbs := reachedMbs c s
  { reads := startReads true s ++ (if c.geomFail then [] else mbs.flatMap fun m => mbRegions m (unitSize s) c.oldPic)
    writes := mbs.flatMap fun m => bytesFrom m.d 12 :: mbRegions m (unitSize s) c.newPic
    descriptors := (gobMbs c s).map fun m => bytesFrom m.d 128 }

/-- A GOB command that has not yet acted. -/
def gobFootprint (conceal : Bool) (entered : GobRun → Footprint) (s : State) : Footprint :=
  match startChecks conceal s with
  | .ok c => entered c
  | .error _ => { reads := startReads conceal s, writes := [], descriptors := [] }

/-! ### The running command -/

/-- What a command may read and write, by its operands, when it acts in a state. A tag is not a command. 20_memory.md R89
does not say how closely `may` is drawn; where a rule touches only part of a region the whole counts: a PictureDescr
whatever COLOR is, the dirty map of a conversion with SEL whatever the scaling path (43_formatter.md R300 ignores the flag
on all but DIRECT), the output buffer of a selective update, the grid area of a deblocking command (DESIGN CHOICE, safe;
log entry 31). -/
def commandFootprint (i : Instr) (s : State) : Footprint :=
  match i with
  | .nop | .initTables | .aicFlush => .none
  | .recon _ => reconFootprint 1 false s
  | .reconAdd _ => reconFootprint 1 true s
  | .reconS16 _ => reconFootprint 2 false s
  | .reconAic _ => reconFootprint 1 false s
  | .rruUpadd nopred small => upAddFootprint (if small then 8 else 16) nopred s
  | .dbkEdge => edgeFootprint s
  | .dbkEdgeRru => blendFootprint s
  | .deblockPic => deblockFootprint 16 true s
  | .deblockRruPic => deblockFootprint 32 false s
  | .decodeGob => gobFootprint false (fun c => decodeFootprint { c with entry := (enterGob c s).ck } s) s
  | .concealGob => gobFootprint true (fun c => concealFootprint { c with entry := (enterConceal c s).ck } s) s
  | .convertRgb555 sel => formatFootprint (rgbChecks s) (fun f => if sel then maskRegions f s else []) (rgbOutput s) s
  | .convertYuy2 => formatFootprint (formatChecks s) (fun _ => []) (yuy2Output s) s
  | .convertYvu9 => formatFootprint (formatChecks s) (fun _ => []) (yvu9Output s) s
  | .mbSkip | .mbInter | .mbInterQ | .mbInter4v | .mbIntra | .mbIntraQ | .mbUnknown _ => .none

/-- The command works through macroblocks one after another, and keeps those before a fault (42_dispatcher.md R268). -/
def isGobCommand : Instr → Bool
  | .decodeGob | .concealGob => true
  | _ => false

/-- A command acts in this state only to raise; outside unit D it then writes nothing (20_memory.md R84, 60_exceptions.md
R335). -/
def onlyRaises (i : Instr) (s : State) : Bool :=
  !isGobCommand i &&
    match exec i s with
    | .next t => t.result = .faulted
    | _ => false

/-- What the running command may read and write: nothing when the device is idle or the word is illegal, and nothing is
written by a command that only raises. -/
def footprint (s : State) : Footprint :=
  match s.run with
  | .idle => .none
  | .command w =>
    match decodeCommand w with
    | .ok i => if onlyRaises i s then { commandFootprint i s with writes := [] } else commandFootprint i s
    | .error _ => .none
  | .gob c => decodeFootprint c s

/-- The running command may write the byte (20_memory.md R89). -/
def mayWrite (s : State) (a : Nat) : Bool := (footprint s).writes.any fun r => r.has a

/-- The running command may read or write the byte (20_memory.md R89). -/
def mayUse (s : State) (a : Nat) : Bool := mayWrite s a || (footprint s).reads.any fun r => r.has a

/-- The byte is unspecified when a reset abandons the running command (70_reset_and_hazards.md R373). -/
def mayLose (s : State) (a : Nat) : Bool := mayWrite s a || (footprint s).descriptors.any fun r => r.has a

end Sys2Proof.Machine
end

