-- ==== Sys2Proof/Machine/HostPort.lean ====
section
/-! DEFINITION. What the host and the platform do to the device: register accesses (10_state.md R22 to R29), memory
accesses (20_memory.md R70, R87, R89) and reset (70_reset_and_hazards.md R371 to R373). -/

namespace Sys2Proof.Machine

/-- Memory after a reset that strikes now: unchanged when the device is idle; otherwise every byte the abandoned command
could write holds a free value, and every other byte stays (70_reset_and_hazards.md R373; log entry 10). -/
def abandonedMemory (s : State) : Memory :=
  match s.run with
  | .idle => s.mem
  | _ => s.mem.overlay s.params.memSize (mayLose s) (Config.abandonedByte s.freeCount)

/-- Reset, hard or soft (70_reset_and_hazards.md R371, R372). -/
def resetNow (s : State) : State := drawn (resetDevice s (abandonedMemory s))

/-- A host write to CTRL: bit 31 resets the device and the other bits are discarded (10_state.md R24,
70_reset_and_hazards.md R372). -/
def writeCtrl (v : Word) (s : State) : State :=
  if v.getLsbD 31 then resetNow s else { s with ctrl := ctrlOfWord v }

/-- A host write to a register: while a command runs only CTRL and IRQSTAT take it (10_state.md R22, R26). -/
def regWrite (r : RegName) (v : Word) (s : State) : State :=
  match r with
  | .ctrl => writeCtrl v s
  | .irqStat => writeIrqStat v s
  | .cmd => writeCmd v s
  | _ => if s.busy then s else regStore r v s

/-- A host write to an offset of the window; an offset with no register ignores it (10_state.md R21). -/
def windowWrite (offset : BitVec 9) (v : Word) (s : State) : Result :=
  if offset.toNat % 4 ≠ 0 then .refused (.windowAccess offset)
  else
    match regAt offset with
    | some r => .next (regWrite r v s)
    | none => .next s

/-- A host read of an offset of the window; an offset with no register reads 0 (10_state.md R21). -/
def windowRead (offset : BitVec 9) (s : State) : Result :=
  if offset.toNat % 4 ≠ 0 then .refused (.windowAccess offset)
  else
    match regAt offset with
    | some r => .next { drawn s with readData := regRead r s }
    | none => .next { s with readData := 0 }

/-- Host stores: each byte as given, but where the running command uses the byte a free value: one for each address, so
that nothing ties the raced bytes of one store to each other (20_memory.md R87, R89, 70_reset_and_hazards.md R385; log
entries 9, 12). -/
def hostStore (addr : Nat) (bytes : List Byte) (s : State) : Result :=
  if s.params.memSize < addr + bytes.length then .fault (.hostAddress addr)
  else if s.busy then
    .next (drawn (s.store ((placed addr bytes).map fun p =>
      (p.1, if mayUse s p.1 then Config.raceByte s.freeCount p.1 else p.2))))
  else .next (s.store (placed addr bytes))

/-- A host load: the byte, but a free value where the running command may write it (20_memory.md R87, R89; log entries 9,
12). -/
def hostLoad (addr : Nat) (s : State) : Result :=
  if s.params.memSize ≤ addr then .fault (.hostAddress addr)
  else if s.busy then
    .next { drawn s with
      readData := (if mayWrite s addr then Config.raceByte s.freeCount addr else s.mem.read addr).setWidth 32 }
  else .next { s with readData := (s.mem.read addr).setWidth 32 }

/-- The next host operation is one the device takes no turn for. `wait` and `pause` are the scheduler's (Step). -/
def hostStep (op : HostOp) (s : State) : Result :=
  match op with
  | .write offset v => windowWrite offset v s
  | .read offset => windowRead offset s
  | .narrow offset _ => .refused (.windowAccess offset)
  | .store addr bytes => hostStore addr bytes s
  | .load addr => hostLoad addr s
  | .hardReset => .next (resetNow s)
  | .wait => .next s
  | .pause => .next s

/-- Who moves next, from the host's script (log entry 1): with an empty script the device; `pause` gives the device one
turn; `wait` gives it turns until BUSY = 0; any other operation is the host's, before the device moves again. -/
def schedule (s : State) : Result :=
  match s.script with
  | [] => deviceTurn s
  | .pause :: rest => deviceTurn { s with script := rest }
  | .wait :: rest => if s.busy then deviceTurn s else .next { s with script := rest }
  | op :: rest => hostStep op { s with script := rest }

end Sys2Proof.Machine
end

