-- ==== Sys2Proof/Machine/Placement.lean ====
section
/-! DEFINITION. Placing an instruction where the next step fetches it (log entry 2): a command in the command latch, a
type tag in the descriptor a running DECODE_GOB comes to next. -/

namespace Sys2Proof.Machine

/-- A command word as a CMD write starts it; the host has nothing else to do first. -/
def placeCommand (w : Word) (s : State) : State := { s with run := .command w, script := [] }

/-- A 16x16 luma-only picture with its plane at 0x1000, for a DECODE_GOB placed with a tag. -/
def placedPicture : Picture :=
  { y := { base := 0x1000, width := 16, height := 16, stride := 16 }, cb := Plane.unread, cr := Plane.unread }

/-- The variables of a DECODE_GOB of one macroblock over that picture. -/
def placedGob : GobRun :=
  { gob := { firstRow := 0, firstCol := 0, mbPerRow := 1, rowStride := 1, mbCount := 1 },
    newPic := placedPicture, oldPic := placedPicture, bPic := placedPicture,
    color := false, useB := false, geomFail := false,
    entry := { loop := 0, mbNum := 0, col := 0, work := 0, valid := false } }

/-- A type tag as the next one a running DECODE_GOB fetches: the command is inside its loop at its only macroblock,
whose descriptor stands at MBBASE = 0 with the tag in its TYPE byte. -/
def placeTag (t : Byte) (s : State) : State :=
  { s with
    run := .gob placedGob
    script := []
    tablesValid := true
    ck := { loop := 0, mbNum := 0, col := 0, work := 0, valid := false }
    regD := { s.regD with mbBase := 0 }
    mem := s.mem.write 4 t }

end Sys2Proof.Machine
end

