-- ==== Sys2Proof/Machine/Step.lean ====
section
/-! DEFINITION. One step of the machine, and a state whose next step runs a given instruction. -/

namespace Sys2Proof.Machine

/-- One step: an operation of the host or a turn of the device, as the host's script says. -/
def step (s : State) : Host.Outcome State Fault Refusal := schedule s

/-- The state whose very next step fetches and runs the instruction of `nbits` bits `w` (log entry 2): a type tag for 8
bits, a command word otherwise. -/
def State.withFetchWord (s : State) (nbits w : Nat) : State :=
  if nbits = 8 then placeTag (BitVec.ofNat 8 w) s else placeCommand (BitVec.ofNat 32 w) s

end Sys2Proof.Machine
end

