-- ==== Sys2Proof/Safety.lean ====
section
/-! DEFINITION. What the claims are stated in: the invariant of the machine's states, and, for each command, the
conditions under which the spec says it runs without a fault, with the data it then works on, as plain functions of
memory. None of these is used by the machine. -/

namespace Sys2Proof.Safety

open Sys2Proof.Machine Sys2Proof.Config

/-! ### The invariant -/

/-- Memory is in its canonical form and lists only bytes that exist (20_memory.md R70). -/
abbrev memorySound (s : State) : Prop :=
  s.mem.wf ∧ ∀ p ∈ s.mem, p.1 < s.params.memSize

/-- An AICC slot has eight coefficients in each list, each in -2047..2047 (10_state.md R45). -/
abbrev slotSound (x : AicSlot) : Prop :=
  x.row.length = 8 ∧ x.colv.length = 8 ∧ ∀ v ∈ x.row ++ x.colv, -2047 ≤ v ∧ v ≤ 2047

/-- The internal arrays have the sizes of 10_state.md R42, R45 and R46. -/
abbrev arraysSound (s : State) : Prop :=
  s.acc.length = 64 ∧ s.rrubuf.length = 256 ∧ s.aicc.length = s.params.aicCols ∧
    ∀ e ∈ s.aicc, e.length = 6 ∧ ∀ x ∈ e, slotSound x

/-- The fault latch: IRQSTAT.FAULT says whether a fault is latched; with one latched the device is idle, RESULT is
FAULTED and the code is one of the fourteen; without one both fault registers are 0 (10_state.md R28, 60_exceptions.md
R331, R334, R336, R337). -/
abbrev latchSound (s : State) : Prop :=
  s.irq.fault = s.fault.pending ∧
    if s.fault.pending then
      1 ≤ s.fault.code.toNat ∧ s.fault.code.toNat ≤ 14 ∧ s.result = .faulted ∧ s.run = .idle
    else s.fault.code = 0 ∧ s.fault.info = 0

/-- The GOB loop that is running, if one is. -/
def loops : Run → List GobRun
  | .gob c => [c]
  | _ => []

/-- The cursor after n macroblocks (42_dispatcher.md R244). -/
def advanceBy (g : GobDescr) : Nat → Checkpoint → Checkpoint
  | 0, ck => ck
  | n + 1, ck => advanceBy g n (advance g ck)

/-- The cursor stands where the walk of its command, from the cursor it entered its loop with, has come to
(42_dispatcher.md R244). -/
abbrev cursorSound (c : GobRun) (ck : Checkpoint) : Prop :=
  let e := advanceBy c.gob (ck.loop.toNat - c.entry.loop.toNat) c.entry
  c.entry.loop.toNat ≤ ck.loop.toNat ∧ ck.loop = e.loop ∧ ck.mbNum = e.mbNum ∧ ck.col = e.col

/-- An aligned word exists at a (20_memory.md R75, R76). -/
abbrev wordAt (s : State) (a : Nat) : Prop := a % 4 = 0 ∧ a + 4 ≤ s.params.memSize

/-- A macroblock at a grid position fits every plane in use of the picture being built, u being U (42_dispatcher.md
R233). -/
abbrev fits (c : GobRun) (u col row : Nat) : Prop :=
  ∀ id ∈ planesInUse c.color,
    planeSize id u * (col + 1) ≤ (c.newPic.plane id).width ∧ planeSize id u * (row + 1) ≤ (c.newPic.plane id).height

/-- A macroblock passes the checks made before its first store (42_dispatcher.md R233, R243). -/
abbrev mbOpens (s : State) (m : Mb) : Prop := fits m.run (unitSize s) m.col m.row ∧ wordAt s m.d

/-- The macroblock n places on in a command's walk. -/
def walkMb (c : GobRun) (s : State) (n : Nat) : Mb := cursorMb c { s with ck := advanceBy c.gob n c.entry }

/-- Inside a GOB loop the tables are built, the GobDescr is valid, its ROWSTRIDE and MBCOUNT have 16 bits, the cursor's
column is one of the GOB's, the cursor is on its command's walk, and the macroblocks before it have passed their checks
(30_encoding.md R123, R124, 42_dispatcher.md R232, R233, R244). -/
abbrev loopSound (s : State) : Prop :=
  ∀ c ∈ loops s.run, s.tablesValid = true ∧ c.gob.valid = true ∧
    (c.gob.rowStride < 2 ^ 16 ∧ c.gob.mbCount < 2 ^ 16 ∧ cursorSound c s.ck ∧
      ∀ k < s.ck.loop.toNat - c.entry.loop.toNat, mbOpens s (walkMb c s k)) ∧
    c.gob.firstCol ≤ s.ck.col.toNat ∧ s.ck.col.toNat < c.gob.firstCol + c.gob.mbPerRow

/-- The invariant of every state a machine reaches. -/
abbrev Inv (s : State) : Prop :=
  memorySound s ∧ arraysSound s ∧ latchSound s ∧ loopSound s ∧ s.dbkQ.toNat ≤ 31

/-! ### The command interface -/

/-- The next step of s is a turn of the device, which the device takes in u (log entry 1): the host has nothing to do,
waits for a running command, or lets the device have one turn. -/
def deviceMoves (s u : State) : Prop :=
  (s.script = [] ∧ u = s) ∨ (∃ rest, s.script = .wait :: rest ∧ s.busy = true ∧ u = s) ∨
    ∃ rest, s.script = .pause :: rest ∧ u = { s with script := rest }

/-- What n steps give, if each gives a next state. -/
def steps : Nat → State → Result
  | 0, s => .next s
  | n + 1, s =>
    match step s with
    | .next t => steps n t
    | r => r

/-- A command word that is not illegal (30_encoding.md R102, R103, R105). -/
abbrev legalWord (w : Word) : Prop :=
  w.toNat / 2 ^ 10 = 0 ∧
    ((w.toNat % 256 ∈ [0x00, 0x01, 0x02, 0x20, 0x21, 0x22, 0x23, 0x30, 0x31, 0x41, 0x42] ∧
        w.getLsbD 8 = false ∧ w.getLsbD 9 = false) ∨
      (w.toNat % 256 ∈ [0x10, 0x11, 0x12, 0x13, 0x40] ∧ w.getLsbD 9 = false) ∨
      w.toNat % 256 = 0x14)

/-- The table of 10_state.md R21: every register with its offset. -/
def windowTable : List (RegName × Nat) :=
  [(.id, 0x000), (.ctrl, 0x004), (.status, 0x008), (.cmd, 0x00C), (.result, 0x010), (.faultCode, 0x014),
    (.faultInfo, 0x018), (.irqStat, 0x01C)] ++
  [(.symPtr, 0x020), (.symCnt, 0x024), (.quant, 0x028), (.pred, 0x02C), (.dest, 0x030), (.stride, 0x034),
    (.aicPos, 0x038), (.upSrc, 0x03C), (.upSrcStride, 0x040)] ++
  [(.dbkPic, 0x050), (.dbkMbBase, 0x054), (.dbkGeom, 0x058), (.dbkRowStride, 0x05C), (.dbkQ, 0x060),
    (.edgeAddr, 0x064), (.edgeAlong, 0x068), (.edgeAcross, 0x06C), (.edgeQ, 0x070), (.edgeLen, 0x074)] ++
  [(.gobPtr, 0x080), (.mbBase, 0x084), (.budget, 0x088), (.picNew, 0x08C), (.picOld, 0x090), (.picB, 0x094),
    (.dmode, 0x098)] ++
  [(.ckLoop, 0x0A0), (.ckMbNum, 0x0A4), (.ckCol, 0x0A8), (.ckWork, 0x0AC), (.ckCtl, 0x0B0), (.statMbDone, 0x0C0),
    (.statBadType, 0x0C4), (.statGeomFail, 0x0C8), (.statConcealed, 0x0CC)] ++
  [(.fmtSrc, 0x100), (.fmtDst, 0x104), (.fmtDstStride, 0x108), (.fmtDstW, 0x10C), (.fmtDstH, 0x110),
    (.fmtMask, 0x114), (.fmtMaskStep, 0x118), (.fmtMaskPitch, 0x11C), (.fmtPath, 0x120)]

/-- The registers the host reads and writes (10_state.md R21, the RW rows of the table but CTRL), with the bits they
hold: that DMODE keeps four and AICPOS all 32 is the model's reading (log entry 13). -/
def writable : List (RegName × Word) :=
  [.symPtr, .symCnt, .quant, .pred, .dest, .stride, .aicPos, .upSrc, .upSrcStride, .dbkPic, .dbkMbBase, .dbkGeom,
    .dbkRowStride, .edgeAddr, .edgeAlong, .edgeAcross, .edgeQ, .edgeLen, .gobPtr, .mbBase, .budget, .picNew, .picOld,
    .picB, .ckLoop, .ckMbNum, .ckCol, .ckWork, .statMbDone, .statBadType, .statGeomFail, .statConcealed, .fmtSrc,
    .fmtDst, .fmtDstStride, .fmtDstW, .fmtDstH, .fmtMask, .fmtMaskStep, .fmtMaskPitch].map (fun r => (r, 0xFFFFFFFF))
  ++ [(.dmode, 0xF), (.ckCtl, 1)]

/-- The commands that need the tables: all but NOP, INIT_TABLES and AIC_FLUSH (10_state.md R43). -/
def needsTables : Instr → Bool
  | .recon _ | .reconAdd _ | .reconS16 _ | .reconAic _ | .rruUpadd _ _ => true
  | .dbkEdge | .dbkEdgeRru | .deblockPic | .deblockRruPic | .decodeGob | .concealGob => true
  | .convertRgb555 _ | .convertYuy2 | .convertYvu9 => true
  | .nop | .initTables | .aicFlush => false
  | .mbSkip | .mbInter | .mbInterQ | .mbInter4v | .mbIntra | .mbIntraQ | .mbUnknown _ => false

/-- The four commands that reconstruct one block (40_idct_engine.md R154). -/
def isRecon : Instr → Bool
  | .recon _ | .reconAdd _ | .reconS16 _ | .reconAic _ => true
  | _ => false

/-- The type tags. -/
def isTag : Instr → Bool
  | .mbSkip | .mbInter | .mbInterQ | .mbInter4v | .mbIntra | .mbIntraQ | .mbUnknown _ => true
  | _ => false

/-! ### Memory, words and samples -/

/-- The word at a (20_memory.md R71). -/
def word (s : State) (a : Nat) : Nat := s.mem.readLE a 4

/-- The plane's samples all exist and its stride covers its width (30_encoding.md R112, 42_dispatcher.md R232). -/
abbrev planeSound (s : State) (p : Plane) : Prop :=
  p.width ≤ p.stride ∧ (0 < p.height → p.base + (p.height - 1) * p.stride + p.width ≤ s.params.memSize)

/-- The PlaneDescr at a (30_encoding.md R112). -/
def planeAt (s : State) (a : Nat) : Plane :=
  { base := word s a, width := word s (a + 4), height := word s (a + 8), stride := word s (a + 12) }

/-- The COLOR flag of the PictureDescr at a (30_encoding.md R113). -/
def colorAt (s : State) (a : Nat) : Bool := bit (word s (a + 48)) 0

/-- The planes in use of the PictureDescr at a (30_encoding.md R113). -/
def pictureAt (s : State) (a : Nat) (color : Bool) : Picture :=
  { y := planeAt s a
    cb := if color then planeAt s (a + 16) else Plane.unread
    cr := if color then planeAt s (a + 32) else Plane.unread }

/-- A PictureDescr can be read at a, with its PFLAGS. -/
abbrev pictureReadable (s : State) (a : Nat) : Prop := a % 4 = 0 ∧ a + 52 ≤ s.params.memSize

/-! ### Unit I -/

/-- SKIP of symbol k of the array at sp (30_encoding.md R110). -/
def symSkip (m : Memory) (sp k : Nat) : Nat := field (m.readLE (sp + 4 * k) 4) 16 16

/-- AMP of symbol k of the array at sp (30_encoding.md R110). -/
def symAmp (m : Memory) (sp k : Nat) : Int := sext16 (field (m.readLE (sp + 4 * k) 4) 0 16)

/-- The scan position of symbol k (40_idct_engine.md R148): each symbol lies SKIP positions beyond the one after the
symbol before it. -/
def symPos (m : Memory) (sp : Nat) : Nat → Nat
  | 0 => symSkip m sp 0
  | k + 1 => symPos m sp k + 1 + symSkip m sp (k + 1)

/-- Symbol k as the walk yields it: its SKIP and its coefficient (40_idct_engine.md R148). -/
def symbolAt (tb : TableSource) (m : Memory) (b : BlockArgs) (scan k : Nat) : Walked :=
  let pos := symPos m b.symPtr k
  { skip := symSkip m b.symPtr k
    coef :=
      { u := scanAt tb scan pos % 8, v := scanAt tb scan pos / 8
        c := level tb b.quant (symAmp m b.symPtr k) pos b.dc8 } }

/-- The symbol list of a block (40_idct_engine.md R148). -/
def symbols (tb : TableSource) (m : Memory) (b : BlockArgs) (scan : Nat) : List Walked :=
  (List.range b.count).map (symbolAt tb m b scan)

/-- The coefficients of a symbol list. -/
def coefs (l : List Walked) : List Coef := l.map (·.coef)

/-- The sign a coefficient of frequency u has at position x (40_idct_engine.md R151). -/
def mirror (u x : Nat) : Int := if u % 2 = 1 ∧ 4 ≤ x then -1 else 1

/-- S(x, y) as an exact sum over a list of coefficients (40_idct_engine.md R149, R151). -/
def exactSum (tb : TableSource) (l : List Coef) (x y : Nat) : Int :=
  (l.map fun k => mirror k.u x * mirror k.v y *
    basisT tb k.c k.u k.v (if x < 4 then x else 7 - x) (if y < 4 then y else 7 - y)).sum

/-- The pattern case of a symbol list (40_idct_engine.md R150). -/
def caseOf (l : List Walked) : PatternCase := patternCase (l.map (·.skip))

/-- The symbols of a block can be walked: at most 64, readable, and none beyond scan position 63 (40_idct_engine.md
R148). An empty list is not read. -/
abbrev symbolsSound (s : State) (b : BlockArgs) : Prop :=
  b.count ≤ 64 ∧ (0 < b.count → b.symPtr % 4 = 0 ∧ b.symPtr + 4 * b.count ≤ s.params.memSize) ∧
    ∀ k < b.count, symPos s.mem b.symPtr k ≤ 63

/-- A block reconstruction passes its checks up to its destination (40_idct_engine.md R154). -/
abbrev blockSound (s : State) (b : BlockArgs) : Prop :=
  s.tablesValid = true ∧ 1 ≤ b.quant ∧ b.quant ≤ 31 ∧ symbolsSound s b

/-- The address of the item at column x, row y of an array of items of `size` bytes (20_memory.md R79). -/
def cell (top stride size : Nat) (p : Nat × Nat) : Nat := top + p.2 * stride + size * p.1

/-- An n x n array of items of `size` bytes lies in memory. -/
abbrev squareIn (s : State) (top stride size n : Nat) : Prop :=
  top + (n - 1) * stride + size * n ≤ s.params.memSize

/-- The clipped samples of a block with their addresses, in row order: `pred` is added to the residual
(40_idct_engine.md R152, R156). -/
def blockSamples (top stride : Nat) (acc : List (BitVec 32)) (pred : Nat × Nat → Int) : List (Nat × Byte) :=
  (grid 8 8).map fun p => (cell top stride 1 p, sampleByte (clip255 (pred p + residual acc p.1 p.2)))

/-- The halfwords of a residual with their bytes' addresses, in row order (40_idct_engine.md R158). -/
def blockHalves (top stride : Nat) (acc : List (BitVec 32)) : List (Nat × Byte) :=
  (grid 8 8).flatMap fun p => placed (cell top stride 2 p) (halfBytes (residual acc p.1 p.2))

/-- The coefficients that are not 0 of an 8x8 array coef[v][u] (40_idct_engine.md R178). -/
def coefList (coef : Nat → Nat → Int) : List Coef :=
  ((grid 8 8).map fun p => { u := p.1, v := p.2, c := coef p.1 p.2 }).filter fun k => k.c ≠ 0

/-- The cache with slot b of column col written from the first row and the first column of coef[v][u]
(40_idct_engine.md R178, R180). -/
def cached (aicc : List AicEntry) (col b : Nat) (coef : Nat → Nat → Int) : List AicEntry :=
  aicc.modify col fun e => e.set b
    { valid := true, row := (List.range 8).map fun u => coef u 0, colv := (List.range 8).map fun v => coef 0 v }

/-- An n x n array of signed halfwords (40_idct_engine.md R160). -/
def halvesAt (s : State) (top stride n : Nat) : List Int :=
  (grid n n).map fun p => sext16 (s.mem.readLE (cell top stride 2 p) 2)

/-- The samples RRU_UPADD stores with their addresses, in row order (40_idct_engine.md R160). -/
def upSamples (s : State) (n : Nat) (nopred : Bool) : List (Nat × Byte) :=
  let r := halvesAt s s.regI.upSrc.toNat s.regI.upSrcStride.toNat n
  let st := s.regI.stride.toNat
  (grid (2 * n) (2 * n)).map fun p =>
    let pred := if nopred then 0 else (s.mem.read (cell s.regI.pred.toNat st 1 p)).toNat
    (cell s.regI.dest.toNat st 1 p, sampleByte (clip255 (pred + upSample r n p.1 p.2)))

/-- The state after a command ended with OK (60_exceptions.md R333). -/
def ended (s : State) : State :=
  { s with result := .ok, irq := { s.irq with done := true }, run := .idle }

/-! ### Unit K -/

/-- Every address of a list exists. -/
abbrev allIn (s : State) (l : List Int) : Prop := ∀ a ∈ l, 0 ≤ a ∧ a < (s.params.memSize : Int)

/-- The bytes an edge of n positions may change: B and C of each (41_deblocking.md R202, R211). -/
def edgeTouches (e : Edge) (n : Nat) : List Nat := (blendAddrs e n).map Int.toNat

/-- COLS of DBK_GEOM (41_deblocking.md R207). -/
def dbkCols (s : State) : Nat := field s.regK.dbkGeom.toNat 0 16

/-- ROWS of DBK_GEOM (41_deblocking.md R207). -/
def dbkRows (s : State) : Nat := field s.regK.dbkGeom.toNat 16 16

/-- The address of word 1 of the descriptor of grid row r, column c (41_deblocking.md R207). -/
def dbkWord1 (s : State) (r c : Nat) : Nat :=
  s.regK.dbkMbBase.toNat + 128 * (r * s.regK.dbkRowStride.toNat + c) + 4

/-- What validation leaves for the filters (41_deblocking.md R207). -/
def dbkRun (s : State) : DeblockRun :=
  let a := s.regK.dbkPic.toNat
  { pic := pictureAt s a (colorAt s a), color := colorAt s a, cols := dbkCols s, rows := dbkRows s,
    mbs := (grid (dbkCols s) (dbkRows s)).map fun p =>
      { type := field (word s (dbkWord1 s p.2 p.1)) 0 8, quant := field (word s (dbkWord1 s p.2 p.1)) 8 8 } }

/-- A picture-level deblocking command passes its validation (41_deblocking.md R207); u is the macroblock size. -/
abbrev deblockSound (s : State) (u : Nat) (checkQ : Bool) : Prop :=
  s.tablesValid = true ∧ pictureReadable s s.regK.dbkPic.toNat ∧ dbkCols s ≤ s.regK.dbkRowStride.toNat ∧
    (∀ id ∈ planesInUse (dbkRun s).color,
      let p := (dbkRun s).pic.plane id
      planeSound s p ∧ planeSize id u * dbkCols s ≤ p.width ∧ planeSize id u * dbkRows s ≤ p.height) ∧
    ∀ p ∈ grid (dbkCols s) (dbkRows s), wordAt s (dbkWord1 s p.2 p.1) ∧
      (checkQ = true → field (word s (dbkWord1 s p.2 p.1)) 0 8 ≠ 0 →
        1 ≤ field (word s (dbkWord1 s p.2 p.1)) 8 8 ∧ field (word s (dbkWord1 s p.2 p.1)) 8 8 ≤ 31)

/-- TYPE of the macroblock at a place of the grid (41_deblocking.md R207). -/
def dbkType (s : State) (r c : Nat) : Nat := field (word s (dbkWord1 s r c)) 0 8

/-- QUANT of the macroblock at a place of the grid (41_deblocking.md R207). -/
def dbkQuant (s : State) (r c : Nat) : Nat := field (word s (dbkWord1 s r c)) 8 8

/-- An edge of a tiling of the planes: that above, or with `vertical` that to the left, of the tile at a row and a column
(41_deblocking.md R208, R209, R213). -/
structure EdgePlace where
  id       : PlaneId
  vertical : Bool
  row      : Nat
  col      : Nat
  deriving DecidableEq, Repr

/-- What the edges of a picture are ordered by: plane, pass, row, column (41_deblocking.md R208, R214). -/
def EdgePlace.rank (p : EdgePlace) : List Nat :=
  [match p.id with
    | .y => 0
    | .cb => 1
    | .cr => 2,
   if p.vertical then 1 else 0, p.row, p.col]

/-- The edge lies in a plane in use and inside the grid, each macroblock being `per` tiles wide and high
(41_deblocking.md R208, R209). -/
abbrev EdgePlace.inside (p : EdgePlace) (s : State) (per : Nat) : Prop :=
  p.id ∈ planesInUse (dbkRun s).color ∧ p.row < per * dbkRows s ∧ p.col < per * dbkCols s ∧
    0 < if p.vertical then p.col else p.row

/-- The grid row and column of the macroblock above or to the left of the edge (41_deblocking.md R209). -/
def EdgePlace.first (p : EdgePlace) (per : Nat) : Nat × Nat :=
  if p.vertical then (p.row / per, (p.col - 1) / per) else ((p.row - 1) / per, p.col / per)

/-- The grid row and column of the macroblock below or to the right of the edge (41_deblocking.md R209). -/
def EdgePlace.second (p : EdgePlace) (per : Nat) : Nat × Nat := (p.row / per, p.col / per)

/-- A macroblock on one side of the edge is coded (41_deblocking.md R209, R213). -/
abbrev EdgePlace.coded (p : EdgePlace) (s : State) (per : Nat) : Prop :=
  dbkType s (p.first per).1 (p.first per).2 ≠ 0 ∨ dbkType s (p.second per).1 (p.second per).2 ≠ 0

/-- The quantiser of the edge: the second macroblock's where it is coded, the first's otherwise (41_deblocking.md
R209). -/
def EdgePlace.quant (p : EdgePlace) (s : State) (per : Nat) : Nat :=
  if dbkType s (p.second per).1 (p.second per).2 ≠ 0 then dbkQuant s (p.second per).1 (p.second per).2
  else dbkQuant s (p.first per).1 (p.first per).2

/-- The edge in memory, a tile having n samples a side (41_deblocking.md R208, R214). -/
def EdgePlace.edge (p : EdgePlace) (s : State) (n : Nat) : Edge :=
  let q := (dbkRun s).pic.plane p.id
  { start := q.base + n * p.row * q.stride + n * p.col
    along := if p.vertical then q.stride else 1
    across := if p.vertical then 1 else q.stride }

/-- Memory after a list of edges is filtered in order. -/
def filtered (tb : TableSource) (l : List (Edge × Nat)) (m : Memory) : Memory :=
  l.foldl (fun m p => (List.range 8).foldl (filterPosition tb p.1 p.2) m) m

/-- Memory after a list of boundaries is blended in order. -/
def blended (l : List (Edge × Nat)) (m : Memory) : Memory :=
  l.foldl (fun m p => (List.range p.2).foldl (blendPosition p.1) m) m

/-- DBK_Q after a list of edges is filtered: the quantiser of the last, or what it was. -/
def lastQ (l : List (Edge × Nat)) (q : Word) : Word := l.foldl (fun _ p => BitVec.ofNat 32 p.2) q

/-! ### Unit D -/

/-- The GobDescr at GOBPTR (30_encoding.md R123). -/
def gobAt (s : State) : GobDescr :=
  let a := s.regD.gobPtr.toNat
  { firstRow := field (word s a) 0 16, firstCol := field (word s a) 16 16,
    mbPerRow := field (word s (a + 4)) 0 16, rowStride := field (word s (a + 4)) 16 16,
    mbCount := field (word s (a + 8)) 0 16 }

/-- COLOR of the picture being built (42_dispatcher.md R232). -/
def gobColor (s : State) : Bool := colorAt s s.regD.picNew.toNat

/-- The picture being built. -/
def gobNew (s : State) : Picture := pictureAt s s.regD.picNew.toNat (gobColor s)

/-- geomfail: the luma sizes of the reference and of the picture being built differ (42_dispatcher.md R232). -/
def gobGeomFail (s : State) : Bool :=
  word s (s.regD.picOld.toNat + 4) ≠ (gobNew s).y.width || word s (s.regD.picOld.toNat + 8) ≠ (gobNew s).y.height

/-- The reference picture; with geomfail only its luma size is known. -/
def gobOld (s : State) : Picture :=
  if gobGeomFail s then
    { y := { Plane.unread with width := word s (s.regD.picOld.toNat + 4), height := word s (s.regD.picOld.toNat + 8) }
      cb := Plane.unread, cr := Plane.unread }
  else pictureAt s s.regD.picOld.toNat (gobColor s)

/-- useB (42_dispatcher.md R232). -/
def gobUseB (conceal : Bool) (s : State) : Bool := !conceal && s.modePb && s.regD.picB ≠ 0

/-- The B picture, where it is used. -/
def gobB (conceal : Bool) (s : State) : Picture :=
  if gobUseB conceal s then pictureAt s s.regD.picB.toNat (gobColor s)
  else { y := Plane.unread, cb := Plane.unread, cr := Plane.unread }

/-- The variables the start checks leave (42_dispatcher.md R232). -/
def gobRun (conceal : Bool) (s : State) : GobRun :=
  { gob := gobAt s, newPic := gobNew s, oldPic := gobOld s, bPic := gobB conceal s, color := gobColor s,
    useB := gobUseB conceal s, geomFail := gobGeomFail s, entry := s.ck }

/-- The bytes of a PictureDescr that are read when its COLOR flag is another picture's. -/
def planesLength (color : Bool) : Nat := if color then 48 else 16

/-- Every plane in use is sound and has the size of the same plane of the picture being built. -/
abbrev matchesNew (s : State) (p : Picture) : Prop :=
  ∀ id ∈ planesInUse (gobColor s), planeSound s (p.plane id) ∧
    (p.plane id).width = ((gobNew s).plane id).width ∧ (p.plane id).height = ((gobNew s).plane id).height

/-- The start checks pass (42_dispatcher.md R232). -/
abbrev startSound (conceal : Bool) (s : State) : Prop :=
  s.tablesValid = true ∧
  (s.regD.gobPtr.toNat % 4 = 0 ∧ s.regD.gobPtr.toNat + 12 ≤ s.params.memSize) ∧
  (gobAt s).valid = true ∧
  (conceal = false →
    (s.modeRru = true → s.modePb = false ∧ s.modeAic = false) ∧
    (s.modeAic = true → (gobAt s).firstCol + (gobAt s).mbPerRow ≤ s.params.aicCols)) ∧
  pictureReadable s s.regD.picNew.toNat ∧
  (s.regD.picOld.toNat % 4 = 0 ∧
    s.regD.picOld.toNat + (if gobGeomFail s then 12 else planesLength (gobColor s)) ≤ s.params.memSize) ∧
  (gobUseB conceal s = true →
    s.regD.picB.toNat % 4 = 0 ∧ s.regD.picB.toNat + planesLength (gobColor s) ≤ s.params.memSize) ∧
  (∀ id ∈ planesInUse (gobColor s), planeSound s ((gobNew s).plane id)) ∧
  (gobGeomFail s = false → matchesNew s (gobOld s)) ∧
  (gobUseB conceal s = true → matchesNew s (gobB conceal s)) ∧
  (s.ck.valid = true →
    (gobAt s).firstCol ≤ s.ck.col.toNat ∧ s.ck.col.toNat < (gobAt s).firstCol + (gobAt s).mbPerRow)

/-- The cursor at the first macroblock of a GOB, CK.WORK and CK.VALID as they are (42_dispatcher.md R241, R270). -/
def gobStart (g : GobDescr) (ck : Checkpoint) : Checkpoint :=
  { loop := 0, mbNum := BitVec.ofNat 32 (g.firstRow * g.rowStride + g.firstCol), col := BitVec.ofNat 32 g.firstCol,
    work := ck.work, valid := ck.valid }

/-- The planes in use of a picture are sound. -/
abbrev pictureSound (s : State) (c : GobRun) (p : Picture) : Prop :=
  ∀ id ∈ planesInUse c.color, planeSound s (p.plane id)

/-- The addresses of a macroblock's samples in a picture, plane by plane in row order (42_dispatcher.md R231). -/
def mbSamples (m : Mb) (u : Nat) (pic : Picture) : List Nat :=
  (planesInUse m.run.color).flatMap fun id =>
    (grid (planeSize id u) (planeSize id u)).map fun p =>
      (pic.plane id).at (planeSize id u * m.col + p.1) (planeSize id u * m.row + p.2)

/-- The address of each sample of a picture that a macroblock covers, with the sample's address in a second picture. -/
def mbPairs (m : Mb) (u : Nat) (pic other : Picture) : List (Nat × Nat) := (mbSamples m u pic).zip (mbSamples m u other)

/-- The bytes of a descriptor that unit D writes: word 0, TYPE and SCRATCH (20_memory.md R80). -/
def mbWritten (m : Mb) : List Nat := [m.d, m.d + 1, m.d + 2, m.d + 3, m.d + 4, m.d + 11]

/-- The n bytes from a. -/
def bytesAt (a n : Nat) : List Nat := (List.range n).map (a + ·)

/-- The macroblocks a concealment covers, in order, from a cursor (42_dispatcher.md R244, R270). -/
def concealMbs (c : GobRun) (s : State) : Nat → Checkpoint → List Mb
  | 0, _ => []
  | n + 1, ck => cursorMb c { s with ck := ck } :: concealMbs c s n (advance c.gob ck)

/-- The BlockDescr number n of a descriptor, with a quantiser, as a block reconstruction takes it (30_encoding.md R114,
R115). -/
def blockOf (s : State) (m : Mb) (n q : Nat) : BlockArgs :=
  { symPtr := word s (m.d + 32 + 8 * n), count := field (word s (m.d + 36 + 8 * n)) 0 8, quant := q,
    dc8 := bit (word s (m.d + 36 + 8 * n)) 8 }

/-- QUANT of a descriptor (30_encoding.md R115). -/
def quantOf (s : State) (m : Mb) : Nat := field (word s (m.d + 4)) 8 8

/-- BQUANT of a descriptor (30_encoding.md R115). -/
def bQuantOf (s : State) (m : Mb) : Nat := field (word s (m.d + 4)) 16 8

/-- AICMODE of a descriptor (30_encoding.md R115). -/
def aicModeOf (s : State) (m : Mb) : Nat := field (word s (m.d + 4)) 24 8

/-- CBP and CBPB together: bit n says whether block n (0..5) or block n of the B set (8..13) is coded (30_encoding.md
R118). -/
def codedOf (s : State) (m : Mb) (n : Nat) : Bool := bit (word s (m.d + 8)) n

/-- FLAGS.OVERLAP of a descriptor (30_encoding.md R120). -/
def overlapOf (s : State) (m : Mb) : Bool := bit (word s (m.d + 8)) 16

/-- Whether the macroblock takes the B path (42_dispatcher.md R255, R266). -/
def takesB (s : State) (m : Mb) : Bool := m.run.useB && !m.run.geomFail && bit (word s (m.d + 8)) 17

/-- The macroblock in hand is one the handlers run on: its square fits, the planes they touch are sound, its descriptor
can be read, and no sample they store is a byte of the descriptor (42_dispatcher.md R232, R233; 20_memory.md R75,
R76; 70_reset_and_hazards.md R382). -/
abbrev mbSound (s : State) (m : Mb) : Prop :=
  m.d % 4 = 0 ∧ m.d + 128 ≤ s.params.memSize ∧ fits m.run (unitSize s) m.col m.row ∧
    pictureSound s m.run m.run.newPic ∧
    (m.run.useB = true → pictureSound s m.run m.run.bPic ∧ s.modeRru = false ∧ ∀ id ∈ planesInUse m.run.color,
      (m.run.bPic.plane id).width = (m.run.newPic.plane id).width ∧
      (m.run.bPic.plane id).height = (m.run.newPic.plane id).height) ∧
    ∀ a ∈ bytesAt m.d 128, a ∉ mbSamples m (unitSize s) m.run.newPic ∧
      (m.run.useB = true → a ∉ mbSamples m (unitSize s) m.run.bPic)

/-- A block of the macroblock can be reconstructed whatever the handler stored before it: it passes its checks and no
sample the handler stores is a byte of its symbol array (42_dispatcher.md section 4; 70_reset_and_hazards.md R382). -/
abbrev mbBlockSound (s : State) (m : Mb) (n q : Nat) : Prop :=
  blockSound s (blockOf s m n q) ∧
    ∀ a ∈ bytesAt (blockOf s m n q).symPtr (4 * (blockOf s m n q).count),
      a ∉ mbSamples m (unitSize s) m.run.newPic ∧ (m.run.useB = true → a ∉ mbSamples m (unitSize s) m.run.bPic)

/-- Every coded block of the B set can be reconstructed, when the macroblock takes the B path (42_dispatcher.md R255). -/
abbrev bBlocksSound (s : State) (m : Mb) : Prop :=
  takesB s m = true → ∀ n ∈ blocksInUse m.run.color, codedOf s m (8 + n) = true → mbBlockSound s m (6 + n) (bQuantOf s m)

/-- The vector of word 3 + k of a descriptor (30_encoding.md R117). -/
def vectorOf (s : State) (m : Mb) (k : Nat) : MotionVector :=
  { x := sext16 (field (word s (m.d + 12 + 4 * k)) 0 16), y := sext16 (field (word s (m.d + 12 + 4 * k)) 16 16) }

/-- The request of a normal-resolution macroblock (42_dispatcher.md R236, R248, R250, R255). -/
def requestOf (s : State) (m : Mb) (kind : McKind) : McRequest :=
  { kind := kind
    overlap := (kind = .inter || kind = .inter4v) && overlapOf s m
    umv := s.modeUmv
    rru := false
    quadrant := 0
    target := if kind = .bidir then s.regD.picB else s.regD.picNew
    ref := s.regD.picOld
    ref2 := if kind = .bidir then s.regD.picNew else 0
    mbDesc := m.d
    x := 16 * m.col
    y := 16 * m.row
    mv := (List.range 4).map (vectorOf s m) }

/-- The request of quadrant k of a reduced-resolution unit (42_dispatcher.md R236, R256, R257). -/
def quadrantOf (s : State) (m : Mb) (kind : McKind) (k : Nat) : McRequest :=
  { kind := kind
    overlap := (kind = .inter || kind = .inter4v) && overlapOf s m
    umv := s.modeUmv
    rru := true
    quadrant := k
    target := s.regD.picNew
    ref := s.regD.picOld
    ref2 := 0
    mbDesc := m.d
    x := 32 * m.col + 16 * (k % 2)
    y := 32 * m.row + 16 * (k / 2)
    mv := List.replicate 4 (deriveVector (vectorOf s m (if kind = .inter4v then k else 0))) }

/-- The bytes one request stores with their addresses, plane by plane in row order (42_dispatcher.md R236). -/
def answerOf (s : State) (req : McRequest) (target : Picture) (color : Bool) : List (Nat × Byte) :=
  (planesInUse color).flatMap fun id =>
    (grid (planeSize id 16) (planeSize id 16)).map fun p =>
      ((target.plane id).at (planeSize id req.x + p.1) (planeSize id req.y + p.2), mcSample s req id p.1 p.2)

/-- The state after k quadrants of a reduced-resolution unit are motion-compensated (42_dispatcher.md R257). -/
def afterQuadrants (s : State) (m : Mb) (kind : McKind) : Nat → State
  | 0 => s
  | k + 1 =>
    let t := afterQuadrants s m kind k
    t.store (answerOf t (quadrantOf s m kind k) m.run.newPic m.run.color)

/-- The address of sample (x, y) of the macroblock's square of one plane of a picture, u being U (42_dispatcher.md
R231). -/
def mbCell (m : Mb) (u : Nat) (pic : Picture) (id : PlaneId) (x y : Nat) : Nat :=
  (pic.plane id).at (planeSize id u * m.col + x) (planeSize id u * m.row + y)

/-- The residual of block n of a macroblock at its quantiser (40_idct_engine.md R148 to R151). -/
def blockResidual (s : State) (m : Mb) (n q x y : Nat) : Int :=
  residual (superpose s.params.tables (coefs (symbols s.params.tables s.mem (blockOf s m n q) 0))) x y

/-- The block of a plane's square that holds the sample (x, y) (42_dispatcher.md R231). -/
def blockAt (id : PlaneId) (x y : Nat) : Nat :=
  match id with
  | .y => 2 * (y / 8) + x / 8
  | .cb => 4
  | .cr => 5

/-- The prediction of a normal-resolution macroblock: ExtMC's answer, or the gray of the fallback (42_dispatcher.md
R250, R266). -/
def predictionOf (s : State) (m : Mb) (kind : McKind) (id : PlaneId) (x y : Nat) : Byte :=
  if m.run.geomFail then 128 else mcSample s (requestOf s m kind) id x y

/-- A sample of an INTER macroblock: the prediction, with the residual of its block where that is coded
(42_dispatcher.md R250 to R252). -/
def interSample (s : State) (m : Mb) (kind : McKind) (id : PlaneId) (x y : Nat) : Byte :=
  let p := predictionOf s m kind id x y
  let n := blockAt id x y
  if codedOf s m n then
    sampleByte (clip255 (p.toNat + blockResidual s m n (quantOf s m) (x % 8) (y % 8)))
  else p

/-- The coefficients of block n of an advanced-intra macroblock, predicted from the cache as it then is
(40_idct_engine.md R174, R178). -/
def aicCoefOf (s : State) (m : Mb) (aicc : List AicEntry) (n : Nat) : Nat → Nat → Int :=
  let t := { s with aicc := aicc }
  aicCoef (aicModeOf s m) (aboveEntry t m.col n) (leftEntry t m.col n)
    (symbols s.params.tables s.mem (blockOf s m n (quantOf s m)) (aicModeOf s m))

/-- The cache after the first k blocks of an advanced-intra macroblock (40_idct_engine.md R180). -/
def aicAfter (s : State) (m : Mb) : Nat → List AicEntry
  | 0 => s.aicc
  | k + 1 => cached (aicAfter s m k) m.col k (aicCoefOf s m (aicAfter s m k) k)

/-- A sample of an INTRA macroblock, by DMODE.AIC (42_dispatcher.md R253; 40_idct_engine.md R152, R178). -/
def intraSample (s : State) (m : Mb) (id : PlaneId) (x y : Nat) : Byte :=
  let n := blockAt id x y
  sampleByte (clip255 (
    if s.modeAic then residual (superpose s.params.tables (coefList (aicCoefOf s m (aicAfter s m n) n))) (x % 8) (y % 8)
    else blockResidual s m n (quantOf s m) (x % 8) (y % 8)))

/-- The state with the macroblock's squares of NEW holding given samples. -/
def withSquare (s : State) (m : Mb) (sample : PlaneId → Nat → Nat → Byte) : State :=
  s.store ((planesInUse m.run.color).flatMap fun id =>
    (grid (planeSize id 16) (planeSize id 16)).map fun p => (mbCell m 16 m.run.newPic id p.1 p.2, sample id p.1 p.2))

/-- A sample of the B picture on the B path: the answer to the BIDIR request, made once NEW holds the macroblock's
samples, with the residual of its block of the B set where that is coded (42_dispatcher.md R255). -/
def bSample (s : State) (m : Mb) (sample : PlaneId → Nat → Nat → Byte) (id : PlaneId) (x y : Nat) : Byte :=
  let p := mcSample (withSquare s m sample) (requestOf s m .bidir) id x y
  let n := blockAt id x y
  if codedOf s m (8 + n) then
    sampleByte (clip255 (p.toNat + blockResidual s m (6 + n) (bQuantOf s m) (x % 8) (y % 8)))
  else p

/-- The half-resolution residual array of one plane of a reduced-resolution unit, by rows, each value as the 16 bits of
an element of RRUBUF hold it (42_dispatcher.md R258, 10_state.md R46). -/
def unitResidual (s : State) (m : Mb) (intra : Bool) (id : PlaneId) : List Int :=
  (grid (planeSize id 16) (planeSize id 16)).map fun p =>
    if intra || codedOf s m (blockAt id p.1 p.2) then
      (BitVec.ofInt 16 (blockResidual s m (blockAt id p.1 p.2) (quantOf s m) (p.1 % 8) (p.2 % 8))).toInt
    else 0

/-- The prediction of a reduced-resolution unit: the answer for the quadrant, or the gray of the fallback
(42_dispatcher.md R257, R266). -/
def unitPrediction (s : State) (m : Mb) (kind : McKind) (id : PlaneId) (x y : Nat) : Byte :=
  let n := planeSize id 16
  let k := 2 * (y / n) + x / n
  if m.run.geomFail then 128 else mcSample (afterQuadrants s m kind k) (quadrantOf s m kind k) id (x % n) (y % n)

/-- The end of a macroblock whose handler completed with a cost: the counters, the cursor, and suspension when the
budget is used up with macroblocks remaining (42_dispatcher.md R240, R242, R244, R245). -/
def mbEnd (c : GobRun) (cost : Nat) (s : State) : State :=
  let ck := advance c.gob { s.ck with work := s.ck.work + BitVec.ofNat 32 cost }
  let t := { s with ck := ck, stats := { s.stats with mbDone := s.stats.mbDone + 1 } }
  if s.regD.budget ≠ 0 ∧ s.regD.budget.toNat ≤ (ck.work - c.entry.work).toNat ∧ ck.loop.toNat < c.gob.mbCount then
    { t with ck := { ck with valid := true }, result := .suspended, irq := { s.irq with susp := true }, run := .idle }
  else t

/-- The cost of a macroblock that is not SKIP (42_dispatcher.md R247). -/
def mbCost (rru overlap : Bool) : Nat := (if rru then 16 else 1) + (if overlap then 2 else 0)

/-- The six VALID bits of a column of the cache cleared (40_idct_engine.md R182). -/
def columnCleared (aicc : List AicEntry) (col : Nat) : List AicEntry :=
  aicc.modify col fun e => e.map fun x => { x with valid := false }

/-- A byte that a macroblock's handler may store: a sample of its square in NEW or, on the B path, in B, or SCRATCH. -/
abbrev mbStores (s : State) (m : Mb) (a : Nat) : Prop :=
  a ∈ mbSamples m (unitSize s) m.run.newPic ∨ (m.run.useB = true ∧ a ∈ mbSamples m (unitSize s) m.run.bPic) ∨
    a = m.d + 11

/-! ### Unit F -/

/-- What the common checks leave (43_formatter.md R291). -/
def fmtRun (s : State) : FormatRun :=
  let a := s.regF.fmtSrc.toNat
  { pic := pictureAt s a (colorAt s a), color := colorAt s a, w := (planeAt s a).width, h := (planeAt s a).height,
    dw := s.regF.fmtDstW.toNat, dh := s.regF.fmtDstH.toNat }

/-- A width or height unit F accepts (43_formatter.md R291). -/
abbrev goodSize (n : Nat) : Prop := 2 ≤ n ∧ n % 2 = 0 ∧ n ≤ 65534

/-- The common checks pass (43_formatter.md R291). -/
abbrev formatSound (s : State) : Prop :=
  s.tablesValid = true ∧ pictureReadable s s.regF.fmtSrc.toNat ∧
    goodSize (fmtRun s).w ∧ goodSize (fmtRun s).h ∧ goodSize (fmtRun s).dw ∧ goodSize (fmtRun s).dh ∧
    ∀ id ∈ planesInUse (fmtRun s).color,
      let p := (fmtRun s).pic.plane id
      p.width ≤ p.stride ∧ planeSize id (fmtRun s).w ≤ p.width ∧ planeSize id (fmtRun s).h ≤ p.height ∧
        p.base + (planeSize id (fmtRun s).h - 1) * p.stride + planeSize id (fmtRun s).w ≤ s.params.memSize

/-- The checks of CONVERT_RGB555 pass (43_formatter.md R300). -/
abbrev rgbSound (s : State) : Prop :=
  formatSound s ∧ 2 * (fmtRun s).dw ≤ s.regF.fmtDstStride.toNat ∧
    s.regF.fmtDst.toNat + ((fmtRun s).dh - 1) * s.regF.fmtDstStride.toNat + 2 * (fmtRun s).dw ≤ s.params.memSize ∧
    s.regF.fmtDst.toNat % 2 = 0 ∧ s.regF.fmtDstStride.toNat % 2 = 0

/-- The scaling path of a conversion (43_formatter.md R302). -/
def fmtPathOf (s : State) : ScalePath := scalePath (fmtRun s).w (fmtRun s).h (fmtRun s).dw (fmtRun s).dh

/-- The address of output pixel X of output row r (43_formatter.md R300). -/
def pixelCell (s : State) (x r : Nat) : Nat :=
  s.regF.fmtDst.toNat + r * s.regF.fmtDstStride.toNat + 2 * x

/-- The address of the mask byte of macroblock column c, row r (30_encoding.md R126). -/
def maskCell (s : State) (c r : Nat) : Nat :=
  s.regF.fmtMask.toNat + (r * s.regF.fmtMaskPitch.toNat + c) * s.regF.fmtMaskStep.toNat

/-- DIRTY of the 8x8 region that holds the source sample (x, y) (30_encoding.md R126, 43_formatter.md R306). -/
def dirtyAt (s : State) (x y : Nat) : Bool :=
  bit (s.mem.read (maskCell s (x / 16) (y / 16))).toNat (2 * (y / 8 % 2) + x / 8 % 2)

/-- The addresses of the source samples a conversion reads (43_formatter.md R291). -/
def sourceCells (f : FormatRun) : List Nat :=
  (planesInUse f.color).flatMap fun id =>
    (grid (planeSize id f.w) (planeSize id f.h)).map fun p => (f.pic.plane id).at p.1 p.2

end Sys2Proof.Safety
end

