-- ==== Sys2Proof/Certificates/Slice0/Obligations.lean ====
section
/-! DEFINITION. The statements for the provers, each over every state and operand it names. The data a statement speaks
of is that of Sys2Proof/Safety.lean, plain functions of memory and registers; a statement whose conclusion gives the
whole next state as an update of the state before says with it that every other field is unchanged. RECLEVEL, T, the
scans, DBKTAB and COLORTAB are those the machine is built with, the defaults of the spec or others with the required
properties; where a number of the defaults is meant, the statement says `standard` (log entry 19). -/

open Sys2Proof Sys2Proof.Machine Sys2Proof.Safety Sys2Proof.Config

/-! ### Encoding -/

/-- 30_encoding.md R101, R102, R103, R121: no bit of an instruction is dropped by its encoding, whatever LEGACY261 is
(log entry 20). -/
def Obligations.DecodeOfEncodeIsTheInstruction : Prop :=
  ∀ (legacy : LegacyMap) (i : Instr), i.wellFormed legacy = true → decode legacy (encode i) = .ok i

/-- 30_encoding.md R106, R122: what is decoded is well formed, and the code is its encoding, or a tag of 6..15 that
LEGACY261 makes a second tag of a base type (log entry 20). -/
def Obligations.LegalCodeIsTheEncodingOfItsInstruction : Prop :=
  ∀ (legacy : LegacyMap) (c : Code) (i : Instr), decode legacy c = .ok i →
    i.wellFormed legacy = true ∧
    (encode i = c ∨ ∃ tag b, c = .tag tag ∧ 6 ≤ tag.toNat ∧ tag.toNat ≤ 15 ∧ legacy261 legacy tag = some b ∧
      i = baseInstr b)

/-- 30_encoding.md R105: a word is illegal for the three reasons the rule names, and then, written to CMD of an idle
device with no fault latched, it starts a command whose turn only raises E_OPCODE with the word. -/
def Obligations.IllegalWordOnlyRaisesOpcodeFault : Prop :=
  ∀ (w : Word) (s : State) (rest : List HostOp),
    ((∃ i, decodeCommand w = .ok i) ↔ legalWord w) ∧
    (¬legalWord w → s.busy = false → s.fault.pending = false →
      let u : State := { s with run := .command w, script := rest }
      step { s with script := .write 0x00C w :: rest } = .next u ∧
      deviceTurn u = .next { u with
        fault := { pending := true, code := 0x01, info := w }
        result := .faulted
        irq := { u.irq with fault := true }
        run := .idle })

/-- Command words and type tags written out from the tables of 30_encoding.md R101 to R103 and R121. -/
def Obligations.WordsWrittenOutDecodeAsTheTablesSay : Prop :=
  decodeCommand 0x00000000 = .ok .nop ∧ decodeCommand 0x00000110 = .ok (.recon true) ∧
    decodeCommand 0x00000314 = .ok (.rruUpadd true true) ∧ decodeCommand 0x00000214 = .ok (.rruUpadd false true) ∧
    decodeCommand 0x00000020 = .ok .dbkEdge ∧ decodeCommand 0x00000031 = .ok .concealGob ∧
    decodeCommand 0x00000140 = .ok (.convertRgb555 true) ∧ decodeCommand 0x00000100 = .error .undefinedFlag ∧
    decodeCommand 0x00000410 = .error .zeroField ∧ decodeCommand 0x00000003 = .error .unknownOpcode ∧
    decodeTag [] 0x03 = .mbInter4v ∧ decodeTag [] 0x10 = .mbUnknown 0x10 ∧ decodeTag [] 0x07 = .mbUnknown 0x07 ∧
    decodeTag [(0x07, .intra)] 0x07 = .mbIntra

/-! ### Steps -/

/-- 10_state.md R26, R35: the turn after a CMD write runs the instruction the written word decodes to. That the command
acts in a turn of its own, and who moves next, is the model's (log entries 1, 2). -/
def Obligations.StepRunsTheStartedCommand : Prop :=
  ∀ (s u : State) (w : Word) (i : Instr),
    deviceMoves s u → u.run = .command w → decodeCommand w = .ok i → step s = exec i u

/-- 42_dispatcher.md R240, R243: a turn of a running DECODE_GOB whose macroblock fits and has a readable descriptor
stores the grid position in word 0 and runs the tag of word 1 on the macroblock the cursor names. A tag of 6..15 that
LEGACY261 gives a base type is handled exactly as that type (00_scope.md R14, 30_encoding.md R122). One macroblock a
turn is the model's (log entry 2). -/
def Obligations.StepRunsTheFetchedTag : Prop :=
  ∀ (s u : State) (c : GobRun),
    deviceMoves s u → u.run = .gob c → u.ck.loop.toNat < c.gob.mbCount →
    let d := u.regD.mbBase.toNat + 128 * u.ck.mbNum.toNat
    let col := u.ck.col.toNat
    let row := u.ck.mbNum.toNat / c.gob.rowStride
    fits c (unitSize u) col row → d % 4 = 0 → d + 8 ≤ u.params.memSize →
    let v := u.store (bytesLE d 4 (col % 2 ^ 16 + row % 2 ^ 16 * 2 ^ 16))
    let tag := v.mem.read (d + 4)
    step s = exec (decodeTag u.params.legacy tag) v ∧
    ∀ b, 6 ≤ tag.toNat → tag.toNat ≤ 15 → legacy261 u.params.legacy tag = some b → step s = exec (baseInstr b) v

/-- 42_dispatcher.md R233: a macroblock that does not fit ends the command with E_PICDESC and CK.MBNUM, before anything
is written. -/
def Obligations.MacroblockThatDoesNotFitRaises : Prop :=
  ∀ (s u : State) (c : GobRun),
    deviceMoves s u → u.run = .gob c → u.ck.loop.toNat < c.gob.mbCount →
    ¬fits c (unitSize u) u.ck.col.toNat (u.ck.mbNum.toNat / c.gob.rowStride) →
    step s = .next { u with
      fault := { pending := true, code := 0x0B, info := u.ck.mbNum }
      result := .faulted
      irq := { u.irq with fault := true }
      run := .idle
      ck := { u.ck with valid := false } }

/-- 42_dispatcher.md R246, R266: with no macroblock left the command ends, OK or PASS_FAILED, with CK.VALID 0 and the
other cursor fields as they are. -/
def Obligations.LoopEndCompletesTheGob : Prop :=
  ∀ (s u : State) (c : GobRun),
    deviceMoves s u → u.run = .gob c → c.gob.mbCount ≤ u.ck.loop.toNat →
    step s = .next { u with
      result := if c.geomFail then .passFailed else .ok
      irq := { u.irq with done := true }
      run := .idle
      ck := { u.ck with valid := false } }

/-- 10_state.md R51, 60_exceptions.md R350, 42_dispatcher.md R272: an idle device to which the host does nothing keeps
its state, for any number of turns: it has no time-out. A GOB left suspended so keeps its checkpoint until the host issues
a command, and the CONCEAL_GOB issued for it runs with that checkpoint (ConcealGobCompletes says that it goes on from its
cursor). -/
def Obligations.IdleDeviceKeepsItsState : Prop :=
  (∀ s u : State, deviceMoves s u → u.run = .idle → step s = .next u) ∧
  ∀ (s : State) (n : Nat) (rest : List HostOp), s.run = .idle →
    steps n { s with script := List.replicate n .pause ++ rest } = .next { s with script := rest } ∧
    (s.fault.pending = false →
      ∃ u, steps (n + 1) { s with script := List.replicate n .pause ++ .write 0x00C 0x31 :: rest } = .next u ∧
        u.ck = s.ck ∧ u.mem = s.mem ∧ u.regD = s.regD ∧ deviceTurn u = exec .concealGob u)

/-! ### The register window -/

/-- 10_state.md R23. -/
def Obligations.IdentificationIsConstant : Prop :=
  ∀ (s : State) (v : Word) (rest : List HostOp),
    regRead .id s = 0x49444354 ∧
    step { s with script := .write 0x000 v :: rest } = .next { s with script := rest }

/-- 10_state.md R26, 60_exceptions.md R337: a CMD write starts a command when the device is idle with no fault latched
and is ignored otherwise; CMD reads 0. -/
def Obligations.CmdWriteStartsOrIsIgnored : Prop :=
  ∀ (s : State) (v : Word) (rest : List HostOp),
    let u : State := { s with script := rest }
    (s.busy = false ∧ s.fault.pending = false →
      step { s with script := .write 0x00C v :: rest } = .next { u with run := .command v } ∧
      State.busy { u with run := .command v } = true) ∧
    (s.busy = true ∨ s.fault.pending = true → step { s with script := .write 0x00C v :: rest } = .next u) ∧
    regRead .cmd s = 0

/-- 10_state.md R22: while a command runs a register write other than to CTRL and IRQSTAT is ignored, a read changes
nothing in the device, and STATUS.BUSY, STATUS.FAULT, CTRL and IRQSTAT read true. -/
def Obligations.BusyDeviceIgnoresRegisterWrites : Prop :=
  ∀ (s : State) (offset : BitVec 9) (v : Word) (rest : List HostOp),
    s.busy = true → offset.toNat % 4 = 0 →
    (offset ≠ 0x004 → offset ≠ 0x01C →
      step { s with script := .write offset v :: rest } = .next { s with script := rest }) ∧
    (∃ x n, step { s with script := .read offset :: rest } =
      .next { s with script := rest, readData := x, freeCount := n } ∧
      ∀ r : RegName, r.offset = offset.toNat → x = regRead r s) ∧
    (regRead .status s).getLsbD 0 = true ∧ (regRead .status s).getLsbD 2 = s.fault.pending ∧
    regRead .ctrl s = ctrlWord s.ctrl ∧ regRead .irqStat s = irqWord s.irq

/-- 10_state.md R21, R22, R24, R37: the host's access at a register's offset of the table reaches that register; a CTRL
write with bit 31 clear, in a busy device too, sets the three enables and nothing else; a register the host may write
holds, while the device is idle, what was written in the bits it has, and no other register changes but STATUS, which
copies CKCTL. That DMODE holds four bits and AICPOS all 32 is the model's reading (log entry 13); the count of free values
is its own (log entry 22). -/
def Obligations.WrittenRegisterHoldsTheValue : Prop :=
  (∀ r : RegName, ∃ offset, (r, offset) ∈ windowTable) ∧
  ∀ (s : State) (v : Word) (rest : List HostOp),
    (∀ p ∈ windowTable,
      step { s with script := .write (BitVec.ofNat 9 p.2) v :: rest } = .next (regWrite p.1 v { s with script := rest }) ∧
      step { s with script := .read (BitVec.ofNat 9 p.2) :: rest } =
        .next { s with script := rest, readData := regRead p.1 s, freeCount := s.freeCount + 1 }) ∧
    (v.getLsbD 31 = false →
      let t := regWrite .ctrl v s
      t = { s with ctrl := { ieDone := v.getLsbD 0, ieFault := v.getLsbD 1, ieSusp := v.getLsbD 2 } } ∧
      regRead .ctrl t = v &&& 7) ∧
    ∀ q ∈ writable, s.busy = false →
      let t := regWrite q.1 v s
      regRead q.1 t = v &&& q.2 ∧
      (∀ r, r ≠ q.1 → r ≠ .status → regRead r t = regRead r s) ∧
      t.mem = s.mem ∧ t.acc = s.acc ∧ t.rrubuf = s.rrubuf ∧ t.aicc = s.aicc ∧ t.run = s.run

/-- 20_memory.md R72, 10_state.md R21: a byte, halfword or misaligned access to the window is refused; an aligned one
answers, and at an offset that holds no register a write is ignored and a read returns 0. -/
def Obligations.WindowAccessIsAlignedOrRefused : Prop :=
  ∀ (s : State) (offset : BitVec 9) (v : Word) (n : Nat) (rest : List HostOp),
    step { s with script := .narrow offset n :: rest } = .refused (.windowAccess offset) ∧
    (offset.toNat % 4 ≠ 0 →
      step { s with script := .write offset v :: rest } = .refused (.windowAccess offset) ∧
      step { s with script := .read offset :: rest } = .refused (.windowAccess offset)) ∧
    (offset.toNat % 4 = 0 →
      (∃ t, step { s with script := .write offset v :: rest } = .next t ∧
        ∀ r : RegName, r.offset = offset.toNat → t = regWrite r v { s with script := rest }) ∧
      (∃ t, step { s with script := .read offset :: rest } = .next t ∧
        ∀ r : RegName, r.offset = offset.toNat → t.readData = regRead r s) ∧
      ((∀ r : RegName, r.offset ≠ offset.toNat) →
        step { s with script := .write offset v :: rest } = .next { s with script := rest } ∧
        step { s with script := .read offset :: rest } = .next { s with script := rest, readData := 0 }))

/-- 60_exceptions.md R341: the interrupt line is asserted exactly when a pending cause is enabled. -/
def Obligations.InterruptLineIsPendingAndEnabled : Prop :=
  ∀ s : State, interruptLine s = true ↔
    (s.irq.done = true ∧ s.ctrl.ieDone = true) ∨ (s.irq.fault = true ∧ s.ctrl.ieFault = true) ∨
      (s.irq.susp = true ∧ s.ctrl.ieSusp = true)

/-- 60_exceptions.md R336, 10_state.md R29: a write to IRQSTAT clears the bits written 1, and with bit 1 set
acknowledges the fault; RESULT and everything else stay. -/
def Obligations.IrqStatWriteAcknowledges : Prop :=
  ∀ (s : State) (v : Word) (rest : List HostOp),
    step { s with script := .write 0x01C v :: rest } = .next { s with
      script := rest
      irq := { done := s.irq.done && !v.getLsbD 0, fault := s.irq.fault && !v.getLsbD 1,
               susp := s.irq.susp && !v.getLsbD 2 }
      fault := if v.getLsbD 1 then { pending := false, code := 0, info := 0 } else s.fault }

/-! ### Reset -/

/-- 10_state.md R50: every register, the interrupt line and the VALID bits of AICC at reset. -/
def Obligations.ResetValuesAreThoseOfTheTable : Prop :=
  (∀ r : RegName, regRead r State.reset = if r = .id then 0x49444354 else 0) ∧
    interruptLine State.reset = false ∧ State.reset.busy = false ∧ ∀ e ∈ State.reset.aicc, ∀ x ∈ e, x.valid = false

/-- 70_reset_and_hazards.md R372, R371: a CTRL write with bit 31 does what the reset input does, from any state; the
registers then read as after reset and every VALID bit of AICC is 0. -/
def Obligations.SoftResetIsAHardReset : Prop :=
  ∀ (s : State) (v : Word) (rest : List HostOp), v.getLsbD 31 = true →
    step { s with script := .write 0x004 v :: rest } = step { s with script := .hardReset :: rest } ∧
    ∃ t, step { s with script := .hardReset :: rest } = .next t ∧ t.busy = false ∧ interruptLine t = false ∧
      (∀ r : RegName, regRead r t = regRead r State.reset) ∧ (∀ e ∈ t.aicc, ∀ x ∈ e, x.valid = false) ∧
      t.params = s.params ∧ t.script = rest

/-- 70_reset_and_hazards.md R373: reset changes no byte of memory when the device is idle; where it abandons a command,
a byte the command could write, or of a descriptor of its GOB, holds a free value, and every other byte stays. Which
bytes those are is the model's reading, by the command's operands (log entries 10, 31): no turn writes another. -/
def Obligations.ResetKeepsMemoryByteByByte : Prop :=
  ∀ s : State, s.mem.wf →
    (∃ t, step { s with script := .hardReset :: s.script } = .next t ∧
      (s.busy = false → ∀ a, t.mem.read a = s.mem.read a) ∧
      (∀ a, mayLose s a = false → t.mem.read a = s.mem.read a) ∧
      ∀ a < s.params.memSize, mayLose s a = true → t.mem.read a = abandonedByte s.freeCount a) ∧
    (∀ a, mayWrite s a = true → mayLose s a = true) ∧
    ∀ u, Inv s → deviceTurn s = .next u → ∀ a, mayWrite s a = false → u.mem.read a = s.mem.read a

/-! ### Faults and ends -/

/-- 60_exceptions.md R334, R331: the trap entry of the device, inside a macroblock loop and outside it. -/
def Obligations.TakingAFaultLatchesCodeAndInfo : Prop :=
  ∀ (e : Raise) (s : State),
    raise e s = { s with
      fault := { pending := true, code := e.name.code, info := e.info }
      result := .faulted
      irq := { s.irq with fault := true }
      run := .idle } ∧
    raiseInLoop e s = { raise e s with ck := { s.ck with valid := false } } ∧
    State.busy (raise e s) = false ∧
    ([.opcode, .noTables, .quant, .symCount, .symRange, .addr, .align, .aicArg, .aicBound, .gobDesc, .picDesc, .fmtArg,
      .mode, .edgeArg].map FaultName.code = [1, 2, 3, 4, 5, 6, 7, 8, 9, 10, 11, 12, 13, 14])

/-- 60_exceptions.md R333: ending without a fault. -/
def Obligations.FinishSetsResultAndOneCause : Prop :=
  ∀ (c : ResultCode) (s : State),
    (c = .ok ∨ c = .gobAborted ∨ c = .passFailed →
      finish c s = { s with result := c, irq := { s.irq with done := true }, run := .idle }) ∧
    finish .suspended s = { s with result := .suspended, irq := { s.irq with susp := true }, run := .idle }

/-- 10_state.md R43: before INIT_TABLES every command but NOP, INIT_TABLES and AIC_FLUSH raises E_NOTABLES and changes
nothing else. -/
def Obligations.CommandsNeedTheTables : Prop :=
  ∀ (i : Instr) (s : State), needsTables i = true → s.tablesValid = false →
    exec i s = .next (raise ⟨.noTables, 0⟩ s)

/-- 60_exceptions.md R335: every command but DECODE_GOB and CONCEAL_GOB ends with OK, or with a fault that leaves
memory and every register and array as before the command; CONVERT_RGB555 may have written FMT_PATH. -/
def Obligations.FaultOfACommandLeavesTheStateAsBefore : Prop :=
  ∀ (i : Instr) (s : State), isTag i = false → i ≠ .decodeGob → i ≠ .concealGob →
    ∃ t, exec i s = .next t ∧
      ((t.result = .ok ∧ t.run = .idle ∧ t.fault = s.fault ∧ t.irq = { s.irq with done := true }) ∨
        ∃ e, t = raise e s ∨ ((∃ sel, i = .convertRgb555 sel) ∧ t = raise e { s with fmtPath := t.fmtPath }))

/-- 40_idct_engine.md R154, R148, R178: the order of the argument checks of the reconstruction commands. -/
def Obligations.ReconArgumentsAreCheckedInOrder : Prop :=
  ∀ (i : Instr) (s : State), isRecon i = true → s.tablesValid = true →
    let q := s.regI.quant
    let n := s.regI.symCnt
    let pos := s.regI.aicPos.toNat
    (q.toNat < 1 ∨ 31 < q.toNat → exec i s = .next (raise ⟨.quant, q⟩ s)) ∧
    (1 ≤ q.toNat → q.toNat ≤ 31 → 64 < n.toNat → exec i s = .next (raise ⟨.symCount, n⟩ s)) ∧
    (1 ≤ q.toNat → q.toNat ≤ 31 → n.toNat ≤ 64 → ∀ dc8, i = .reconAic dc8 →
      (pos / 2 ^ 20 % 4 = 3 ∨ 5 < pos / 2 ^ 16 % 8 → exec i s = .next (raise ⟨.aicArg, s.regI.aicPos⟩ s)) ∧
      (pos / 2 ^ 20 % 4 ≠ 3 → pos / 2 ^ 16 % 8 ≤ 5 → s.params.aicCols ≤ pos % 2 ^ 16 →
        exec i s = .next (raise ⟨.aicBound, BitVec.ofNat 32 (pos % 2 ^ 16)⟩ s)))

/-- 40_idct_engine.md R148, R154, R178: in each of the four reconstruction commands the first symbol that leaves the scan
range raises E_SYMRANGE with its index, and nothing is written. -/
def Obligations.SymbolBeyondTheScanRaises : Prop :=
  ∀ (i : Instr) (s : State) (k : Nat), isRecon i = true → s.tablesValid = true →
    let sp := s.regI.symPtr.toNat
    let pos := s.regI.aicPos.toNat
    (∀ dc8, i = .reconAic dc8 →
      pos / 2 ^ 20 % 4 ≠ 3 ∧ pos / 2 ^ 16 % 8 ≤ 5 ∧ pos % 2 ^ 16 < s.params.aicCols) →
    1 ≤ s.regI.quant.toNat → s.regI.quant.toNat ≤ 31 → s.regI.symCnt.toNat ≤ 64 → k < s.regI.symCnt.toNat →
    sp % 4 = 0 → sp + 4 * (k + 1) ≤ s.params.memSize →
    (∀ j < k, symPos s.mem sp j ≤ 63) → 63 < symPos s.mem sp k →
    exec i s = .next (raise ⟨.symRange, BitVec.ofNat 32 k⟩ s)

/-- 42_dispatcher.md R268, 60_exceptions.md R334: a macroblock of a DECODE_GOB that faults leaves the cursor naming it,
with CK.VALID 0, and CTRL, the operand registers, the counters, DBK_Q, FMT_PATH and the tables flag as they were. What
the blocks before the fault wrote (samples, LASTCASE, ACC, AICC) stays, and the statement does not speak of it. -/
def Obligations.FaultInTheLoopKeepsTheCursor : Prop :=
  ∀ (i : Instr) (s t : State) (c : GobRun), isTag i = true → s.run = .gob c → s.fault.pending = false →
    exec i s = .next t → t.fault.pending = true →
    t.ck = { s.ck with valid := false } ∧ t.result = .faulted ∧ t.run = .idle ∧ t.irq = { s.irq with fault := true } ∧
      t.stats = s.stats ∧ t.regI = s.regI ∧ t.regK = s.regK ∧ t.regD = s.regD ∧ t.regF = s.regF ∧ t.ctrl = s.ctrl ∧
      t.dbkQ = s.dbkQ ∧ t.fmtPath = s.fmtPath ∧ t.tablesValid = s.tablesValid

/-! ### Memory -/

/-- 20_memory.md R70, R71, R87, R89: words are little-endian and what was stored reads back, every other byte as before.
The host's own stores and loads are exact, but for the bytes of a race: a byte it stores that the running command uses,
or loads that the command may write, is a free value of its own. The fault above MEMSIZE, the free values and what a
command uses are the model's (log entries 9, 12, 31); the last clauses say it for an idle device, for RECON, which writes
nothing where it only raises, and for a running GOB, which comes to no macroblock after one that does not fit. -/
def Obligations.StoredWordReadsBackLittleEndian : Prop :=
  (∀ (m : Memory) (a n v : Nat), m.wf →
    (m.writeAll (bytesLE a n v)).readLE a n = v % 256 ^ n ∧
    (∀ b, b < a ∨ a + n ≤ b → (m.writeAll (bytesLE a n v)).read b = m.read b) ∧
    m.readLE a 4 = (m.read a).toNat + 256 * (m.read (a + 1)).toNat + 65536 * (m.read (a + 2)).toNat
      + 16777216 * (m.read (a + 3)).toNat) ∧
  (∀ (s : State) (addr : Nat) (bytes : List Byte), s.mem.wf →
    let stored := step { s with script := .store addr bytes :: s.script }
    let loaded := step { s with script := .load addr :: s.script }
    (s.params.memSize < addr + bytes.length → stored = .fault (.hostAddress addr)) ∧
    (s.params.memSize ≤ addr → loaded = .fault (.hostAddress addr)) ∧
    (addr + bytes.length ≤ s.params.memSize →
      ∃ t, stored = .next t ∧ t = { s with mem := t.mem, freeCount := t.freeCount } ∧
        (∀ a, a < addr ∨ addr + bytes.length ≤ a → t.mem.read a = s.mem.read a) ∧
        ∀ i < bytes.length, t.mem.read (addr + i) =
          if mayUse s (addr + i) then raceByte s.freeCount (addr + i) else bytes.getD i 0) ∧
    (addr < s.params.memSize →
      ∃ t, loaded = .next t ∧ t = { s with readData := t.readData, freeCount := t.freeCount } ∧
        t.readData = (if mayWrite s addr then raceByte s.freeCount addr else s.mem.read addr).setWidth 32)) ∧
  ∀ (s : State) (a : Nat),
    (mayWrite s a = true → mayUse s a = true) ∧
    (s.busy = false → mayUse s a = false) ∧
    (∀ w dc8, decodeCommand w = .ok (.recon dc8) → s.run = .command w →
      let r := regBlock s dc8
      let d := s.regI.dest.toNat
      let st := s.regI.stride.toNat
      (mayWrite s a = true ↔ blockSound s r ∧ squareIn s d st 1 8 ∧ ∃ p ∈ grid 8 8, a = cell d st 1 p) ∧
      (mayUse s a = true ↔ mayWrite s a = true ∨ a ∈ bytesAt r.symPtr (4 * min r.count 64))) ∧
    ∀ c, s.run = .gob c →
      let all := concealMbs c s (c.gob.mbCount - c.entry.loop.toNat) c.entry
      let ms := all.takeWhile fun m => decide (mbOpens s m)
      (mayWrite s a = true ↔ ∃ m ∈ ms, a ∈ bytesAt m.d 4 ∨ a ∈ bytesAt (m.d + 8) 4 ∨
        a ∈ mbSamples m (unitSize s) c.newPic ∨ (c.useB = true ∧ c.geomFail = false ∧ a ∈ mbSamples m 16 c.bPic)) ∧
      (mayLose s a = true ↔ mayWrite s a = true ∨ ∃ m ∈ all, a ∈ bytesAt m.d 128)

/-- 20_memory.md R75, R76: range first, then alignment, each with the address modulo 2^32; the address is an unbounded
integer. MEMSIZE lies in 1..2^32 (00_scope.md R9). -/
def Obligations.AccessChecksRangeThenAlignment : Prop :=
  ∀ (s : State) (a : Int) (n : Nat),
    (1 ≤ s.params.memSize ∧ s.params.memSize ≤ 2 ^ 32) ∧
    (a < 0 ∨ (s.params.memSize : Int) < a + n → access s a n = .error ⟨.addr, BitVec.ofInt 32 a⟩) ∧
    (0 ≤ a → a + n ≤ (s.params.memSize : Int) → a % n ≠ 0 → access s a n = .error ⟨.align, BitVec.ofInt 32 a⟩) ∧
    (0 ≤ a → a + n ≤ (s.params.memSize : Int) → a % n = 0 → access s a n = .ok a.toNat)

/-! ### The invariant -/

/-- 10_state.md R28, R42, R45, R46, 30_encoding.md R124, 60_exceptions.md R337, 42_dispatcher.md R233, R244: the
invariant holds of the state after reset. -/
def Obligations.InvariantHoldsAtReset : Prop := Inv State.reset

/-- The invariant is kept by every step, of the device and of the host, from every state that has it. -/
def Obligations.EveryStepKeepsTheInvariant : Prop :=
  ∀ s t : State, Inv s → step s = .next t → Inv t

/-! ### Unit T and unit I -/

/-- 40_idct_engine.md R141, R142, R184: the three commands that need no tables, with their words. -/
def Obligations.SystemCommandsComplete : Prop :=
  ∀ s : State,
    let t : State := { s with result := .ok, irq := { s.irq with done := true }, run := .idle }
    (decodeCommand 0x00000000 = .ok .nop ∧ exec .nop s = .next t) ∧
    (decodeCommand 0x00000001 = .ok .initTables ∧ exec .initTables s = .next { t with tablesValid := true }) ∧
    (decodeCommand 0x00000002 = .ok .aicFlush ∧
      exec .aicFlush s = .next { t with aicc := s.aicc.map fun e => e.map fun x => { x with valid := false } })

/-- 40_idct_engine.md R152, R148 to R151: RECON stores the clipped residual of its symbols, and no other byte, register
or array changes but ACC, LASTCASE and the end of the command. -/
def Obligations.ReconStoresTheClippedResidual : Prop :=
  ∀ (dc8 : Bool) (s : State),
    let b := regBlock s dc8
    let d := s.regI.dest.toNat
    let st := s.regI.stride.toNat
    let l := symbols s.params.tables s.mem b 0
    let acc := superpose s.params.tables (coefs l)
    let t := { ended s with
      mem := s.mem.writeAll (blockSamples d st acc fun _ => 0), acc := acc, lastCase := caseOf l }
    s.mem.wf → blockSound s b → squareIn s d st 1 8 →
    exec (.recon dc8) s = .next t ∧
    (∀ a, a ∉ (grid 8 8).map (cell d st 1) → t.mem.read a = s.mem.read a) ∧
    (8 ≤ st → ∀ x < 8, ∀ y < 8, t.mem.read (d + y * st + x) = sampleByte (clip255 (residual acc x y)))

/-- 40_idct_engine.md R156: RECON_ADD stores the clipped sum of prediction and residual; PRED may be DEST. -/
def Obligations.ReconAddSumsOntoThePrediction : Prop :=
  ∀ (dc8 : Bool) (s : State),
    let b := regBlock s dc8
    let p := s.regI.pred.toNat
    let d := s.regI.dest.toNat
    let st := s.regI.stride.toNat
    let l := symbols s.params.tables s.mem b 0
    let acc := superpose s.params.tables (coefs l)
    let t := { ended s with
      mem := s.mem.writeAll (blockSamples d st acc fun q => (s.mem.read (cell p st 1 q)).toNat)
      acc := acc
      lastCase := caseOf l }
    s.mem.wf → blockSound s b → squareIn s p st 1 8 → squareIn s d st 1 8 →
    exec (.reconAdd dc8) s = .next t ∧
    (∀ a, a ∉ (grid 8 8).map (cell d st 1) → t.mem.read a = s.mem.read a) ∧
    (8 ≤ st → ∀ x < 8, ∀ y < 8, t.mem.read (d + y * st + x) =
      sampleByte (clip255 ((s.mem.read (p + y * st + x)).toNat + residual acc x y)))

/-- 40_idct_engine.md R158: RECON_S16 stores the low 16 bits of the residual, unclipped; under the default T that is
without loss. -/
def Obligations.ReconS16StoresTheResidual : Prop :=
  ∀ (dc8 : Bool) (s : State),
    let b := regBlock s dc8
    let d := s.regI.dest.toNat
    let st := s.regI.stride.toNat
    let l := symbols s.params.tables s.mem b 0
    let acc := superpose s.params.tables (coefs l)
    let t := { ended s with mem := s.mem.writeAll (blockHalves d st acc), acc := acc, lastCase := caseOf l }
    s.mem.wf → blockSound s b → squareIn s d st 2 8 → d % 2 = 0 → st % 2 = 0 →
    exec (.reconS16 dc8) s = .next t ∧
    (∀ a, (∀ p ∈ grid 8 8, a ≠ cell d st 2 p ∧ a ≠ cell d st 2 p + 1) → t.mem.read a = s.mem.read a) ∧
    (16 ≤ st → ∀ x < 8, ∀ y < 8,
      sext16 (t.mem.readLE (d + y * st + 2 * x) 2) = (BitVec.ofInt 16 (residual acc x y)).toInt ∧
      (s.params.tables = .standard → sext16 (t.mem.readLE (d + y * st + 2 * x) 2) = residual acc x y))

/-- 40_idct_engine.md R178, R174, R180: RECON_AIC predicts from the cache, clips, stores the samples and writes the
slot's first row and column. -/
def Obligations.ReconAicPredictsAndCaches : Prop :=
  ∀ (dc8 : Bool) (s : State),
    let b := regBlock s dc8
    let col := s.regI.aicPos.toNat % 2 ^ 16
    let blk := s.regI.aicPos.toNat / 2 ^ 16 % 8
    let mode := s.regI.aicPos.toNat / 2 ^ 20 % 4
    let d := s.regI.dest.toNat
    let st := s.regI.stride.toNat
    let coef := aicCoef mode (aboveEntry s col blk) (leftEntry s col blk) (symbols s.params.tables s.mem b mode)
    let acc := superpose s.params.tables (coefList coef)
    let t := { ended s with
      mem := s.mem.writeAll (blockSamples d st acc fun _ => 0)
      acc := acc
      lastCase := .general
      aicc := cached s.aicc col blk coef }
    s.mem.wf → blockSound s b → mode ≠ 3 → blk ≤ 5 → col < s.params.aicCols → squareIn s d st 1 8 →
    exec (.reconAic dc8) s = .next t ∧
    (∀ a, a ∉ (grid 8 8).map (cell d st 1) → t.mem.read a = s.mem.read a) ∧
    (8 ≤ st → ∀ x < 8, ∀ y < 8, t.mem.read (d + y * st + x) = sampleByte (clip255 (residual acc x y))) ∧
    (arraysSound s →
      aicSlot t col blk = some { valid := true, row := (List.range 8).map fun u => coef u 0,
                                 colv := (List.range 8).map fun v => coef 0 v } ∧
      ∀ c n, c ≠ col ∨ n ≠ blk → aicSlot t c n = aicSlot s c n)

/-- 40_idct_engine.md R160, R161: RRU_UPADD stores the clipped sum of prediction, or nothing, and up-sampled residual. -/
def Obligations.RruUpaddAddsTheUpsampledResidual : Prop :=
  ∀ (nopred small : Bool) (s : State),
    let n := if small then 8 else 16
    let src := s.regI.upSrc.toNat
    let srcStride := s.regI.upSrcStride.toNat
    let p := s.regI.pred.toNat
    let d := s.regI.dest.toNat
    let st := s.regI.stride.toNat
    let t := { ended s with mem := s.mem.writeAll (upSamples s n nopred) }
    s.mem.wf → s.tablesValid = true → squareIn s src srcStride 2 n → src % 2 = 0 → srcStride % 2 = 0 →
    (nopred = false → squareIn s p st 1 (2 * n)) → squareIn s d st 1 (2 * n) →
    exec (.rruUpadd nopred small) s = .next t ∧
    (∀ a, a ∉ (grid (2 * n) (2 * n)).map (cell d st 1) → t.mem.read a = s.mem.read a) ∧
    (2 * n ≤ st → ∀ x < 2 * n, ∀ y < 2 * n, t.mem.read (d + y * st + x) =
      sampleByte (clip255 ((if nopred then 0 else ((s.mem.read (p + y * st + x)).toNat : Int))
        + upSample (halvesAt s src srcStride n) n x y)))

/-- 40_idct_engine.md R148, R149, R189: the list the walk yields has distinct frequencies and levels in range. Where the
sums fit the accumulators the butterfly gives them exactly; under the default T they fit for every such list, and the
residual fits 16 bits (R189, a derived law of the defaults). What a replaced T does beyond 32 bits is a free value (log
entry 19). -/
def Obligations.AccumulatorsHoldTheExactSums : Prop :=
  (∀ (s : State) (b : BlockArgs) (scan : Nat), scan ≤ 2 → 1 ≤ b.quant → b.quant ≤ 31 → symbolsSound s b →
    ((coefs (symbols s.params.tables s.mem b scan)).map fun k => (k.u, k.v)).Nodup ∧
    ∀ k ∈ coefs (symbols s.params.tables s.mem b scan), k.u < 8 ∧ k.v < 8 ∧ -2047 ≤ k.c ∧ k.c ≤ 2047) ∧
  (∀ (tb : TableSource) (l : List Coef),
    (∀ pu < 2, ∀ pv < 2, ∀ j < 4, ∀ i < 4, -2 ^ 31 ≤ accSum tb l pu pv j i ∧ accSum tb l pu pv j i < 2 ^ 31) →
    ∀ x < 8, ∀ y < 8, butterfly (superpose tb l) x y = exactSum tb l x y) ∧
  ∀ l : List Coef, (l.map fun k => (k.u, k.v)).Nodup →
    (∀ k ∈ l, k.u < 8 ∧ k.v < 8 ∧ -2047 ≤ k.c ∧ k.c ≤ 2047) →
    ∀ x < 8, ∀ y < 8, butterfly (superpose .standard l) x y = exactSum .standard l x y ∧
      |exactSum .standard l x y| ≤ 914348 + 64 ∧ |residual (superpose .standard l) x y| ≤ 14288

/-- 40_idct_engine.md R144, R188: RECLEVEL, the default or a replaced one, is non-decreasing, odd and in -2047..2047;
the default rises strictly until its clip, a derived law (log entry 19). -/
def Obligations.RecLevelIsMonotoneAndOdd : Prop :=
  ∀ (tb : TableSource) (q : Nat) (i j : Int), 1 ≤ q → q ≤ 31 →
    (i ≤ j → recLevel tb q i ≤ recLevel tb q j) ∧
    (tb = .standard → i < j → recLevel tb q i < 2047 → -2047 < recLevel tb q j → recLevel tb q i < recLevel tb q j) ∧
    recLevel tb q (-i) = -recLevel tb q i ∧ |recLevel tb q i| ≤ 2047

/-- 40_idct_engine.md R187, R150: the one-symbol list at scan position 0, whatever the configuration functions. -/
def Obligations.DcOnlyBlockIsFlat : Prop :=
  ∀ (s : State) (b : BlockArgs), 1 ≤ b.quant → b.quant ≤ 31 → b.count = 1 → symSkip s.mem b.symPtr 0 = 0 →
    let c := level s.params.tables b.quant (symAmp s.mem b.symPtr 0) 0 b.dc8
    let l := symbols s.params.tables s.mem b 0
    caseOf l = .dcOnly ∧ ∀ x < 8, ∀ y < 8,
      butterfly (superpose s.params.tables (coefs l)) x y = 8 * c ∧
      residual (superpose s.params.tables (coefs l)) x y = asr (8 * c + 32) 6 ∧
      asr (8 * c + 32) 6 = (c + 4) / 8

/-! ### Unit K -/

/-- 41_deblocking.md R206, R202, R205: DBK_EDGE changes B and C of its eight positions and DBK_Q only; where the 32
addresses are distinct each position's samples are those of the filter step. -/
def Obligations.DbkEdgeFiltersEightPositions : Prop :=
  ∀ s : State,
    let e := regEdge s
    let q := s.regK.edgeQ.toNat
    let t := { ended s with
      dbkQ := s.regK.edgeQ, mem := (List.range 8).foldl (filterPosition s.params.tables e q) s.mem }
    s.mem.wf → s.tablesValid = true →
    (q < 1 ∨ 31 < q → exec .dbkEdge s = .next (raise ⟨.quant, s.regK.edgeQ⟩ s)) ∧
    (1 ≤ q → q ≤ 31 → allIn s (edgeAddrs e) →
      exec .dbkEdge s = .next t ∧
      (∀ a, a ∉ edgeTouches e 8 → t.mem.read a = s.mem.read a) ∧
      ((edgeAddrs e).Nodup → ∀ k < 8, (sampleAt t.mem (e.b k), sampleAt t.mem (e.c k)) =
        dbkPair s.params.tables (sampleAt s.mem (e.a k)) (sampleAt s.mem (e.b k)) (sampleAt s.mem (e.c k))
          (sampleAt s.mem (e.d k)) q))

/-- 41_deblocking.md R212, R211, R205: DBK_EDGE_RRU changes B and C of its positions only. -/
def Obligations.DbkEdgeRruBlendsItsPositions : Prop :=
  ∀ s : State,
    let e := regEdge s
    let n := s.regK.edgeLen.toNat
    let t := { ended s with mem := (List.range n).foldl (blendPosition e) s.mem }
    s.mem.wf → s.tablesValid = true →
    (n ≠ 8 → n ≠ 16 → n ≠ 32 → exec .dbkEdgeRru s = .next (raise ⟨.edgeArg, s.regK.edgeLen⟩ s)) ∧
    (n = 8 ∨ n = 16 ∨ n = 32 → allIn s (blendAddrs e n) →
      exec .dbkEdgeRru s = .next t ∧
      (∀ a, a ∉ edgeTouches e n → t.mem.read a = s.mem.read a) ∧
      ((blendAddrs e n).Nodup → ∀ k < n, (sampleAt t.mem (e.b k), sampleAt t.mem (e.c k)) =
        rruPair (sampleAt s.mem (e.b k)) (sampleAt s.mem (e.c k))))

/-- 41_deblocking.md R203: the correction, the default or a replaced one, vanishes at 0, is odd and never exceeds the
difference; the default is the difference up to the strength and 0 from twice the strength on (log entry 19). -/
def Obligations.DeblockingCorrectionIsARamp : Prop :=
  ∀ (tb : TableSource) (q : Nat) (d : Int), 1 ≤ q → q ≤ 31 →
    dbkTab tb q 0 = 0 ∧ dbkTab tb q (-d) = -dbkTab tb q d ∧ |dbkTab tb q d| ≤ |d| ∧
    (tb = .standard → |d| ≤ strength q → dbkTab tb q d = d) ∧
    (tb = .standard → 2 * strength q ≤ |d| → dbkTab tb q d = 0)

/-- 41_deblocking.md R208, R207, R209: a validated DEBLOCK_PIC filters its edges in order and cannot fail; bytes no edge
touches, and a picture of SKIP macroblocks, stay as they are. The edges are those between two 8x8 blocks of a plane in
use of which one belongs to a coded macroblock, plane by plane, the horizontal ones first, in raster order, each with
the quantiser of the second macroblock where it is coded. That the PictureDescr is read once, by the validation, is the
model's reading (log entry 15). -/
def Obligations.DeblockPicFiltersItsEdges : Prop :=
  ∀ s : State,
    let l := normalEdges (dbkRun s)
    let t := { ended s with dbkQ := lastQ l s.dbkQ, mem := filtered s.params.tables l s.mem }
    let per := fun p : EdgePlace => planeSize p.id 16 / 8
    s.mem.wf → deblockSound s 16 true →
    exec .deblockPic s = .next t ∧
    (∀ a, (∀ p ∈ l, a ∉ edgeTouches p.1 8) → t.mem.read a = s.mem.read a) ∧
    ((∀ m ∈ (dbkRun s).mbs, m.type = 0) → exec .deblockPic s = .next (ended s)) ∧
    ∃ ps : List EdgePlace, ps.Pairwise (fun p q => p.rank < q.rank) ∧
      (∀ p, p ∈ ps ↔ p.inside s (per p) ∧ p.coded s (per p)) ∧
      l = ps.map fun p => (p.edge s 8, p.quant s (per p))

/-- 41_deblocking.md R214, R207, R213: the same for the boundaries of the reduced-resolution filter, those between two
cells of the grid of which one is coded, each with 32 positions in luma and 16 in chroma; DBK_Q stays. -/
def Obligations.DeblockRruPicBlendsItsBoundaries : Prop :=
  ∀ s : State,
    let l := rruEdges (dbkRun s)
    let t := { ended s with mem := blended l s.mem }
    s.mem.wf → deblockSound s 32 false →
    exec .deblockRruPic s = .next t ∧
    (∀ a, (∀ p ∈ l, a ∉ edgeTouches p.1 p.2) → t.mem.read a = s.mem.read a) ∧
    ((∀ m ∈ (dbkRun s).mbs, m.type = 0) → exec .deblockRruPic s = .next (ended s)) ∧
    ∃ ps : List EdgePlace, ps.Pairwise (fun p q => p.rank < q.rank) ∧
      (∀ p, p ∈ ps ↔ p.inside s 1 ∧ p.coded s 1) ∧
      l = ps.map fun p => (p.edge s (planeSize p.id 32), planeSize p.id 32)

/-! ### Unit F -/

/-- 43_formatter.md R294: resampling one line, each target sample the rounded interpolation, in 16.16 positions, between
the sample at its position and the next. -/
def Obligations.ResampledLineFollowsTheRule : Prop :=
  ∀ (row : List Nat) (dn : Nat), row ≠ [] → (∀ v ∈ row, v ≤ 255) →
    let sn := row.length
    (resample1d row dn).length = dn ∧ (∀ v ∈ resample1d row dn, v ≤ 255) ∧
    (∀ t < dn,
      let pos := t * (sn * 65536 / dn)
      let i := pos / 65536
      let f := pos % 65536
      i < sn ∧ (resample1d row dn)[t]? =
        some ((row.getD i 0 * (65536 - f) + row.getD (min (i + 1) (sn - 1)) 0 * f + 32768) / 65536)) ∧
    resample1d row sn = row ∧
    (∀ v, (∀ u ∈ row, u = v) → ∀ u ∈ resample1d row dn, u = v)

/-- 43_formatter.md R300, R293, R297, R302: a whole conversion writes every pixel of the target, flipped, and no other
byte, and cannot fail after its checks; with no scaling a pixel is that of the source position. -/
def Obligations.Rgb555ConvertsTheWholePicture : Prop :=
  ∀ (sel : Bool) (s : State),
    let f := fmtRun s
    let ys := resample (f.samples s.mem .y) f.dw f.dh
    let cbs := resample (f.samples s.mem .cb) (f.dw / 2) (f.dh / 2)
    let crs := resample (f.samples s.mem .cr) (f.dw / 2) (f.dh / 2)
    s.mem.wf → rgbSound s → (sel = true → fmtPathOf s ≠ .direct) →
    ∃ t, exec (.convertRgb555 sel) s = .next t ∧ t = { ended s with fmtPath := fmtPathOf s, mem := t.mem } ∧
      (∀ a, (∀ x < f.dw, ∀ r < f.dh, a ≠ pixelCell s x r ∧ a ≠ pixelCell s x r + 1) → t.mem.read a = s.mem.read a) ∧
      ∀ x < f.dw, ∀ r < f.dh,
        (t.mem.readLE (pixelCell s x r) 2 : Int) = pixelAt s.params.tables ys cbs crs x (f.dh - 1 - r) ∧
        (fmtPathOf s = .direct →
          pixelAt s.params.tables ys cbs crs x (f.dh - 1 - r) = f.pixel s.params.tables s.mem x (f.h - 1 - r))

/-- 43_formatter.md R306, 30_encoding.md R126: a selective update writes the pixels of the dirty regions and no other
byte; where the target lies apart from the source a dirty pixel is that of the source position. The target may lie over
the PictureDescr: that its words are those the checks read, and are not read again by 20_memory.md R80 after the
command's own stores, is the model's reading (log entry 15). -/
def Obligations.SelectiveUpdateConvertsDirtyRegions : Prop :=
  ∀ s : State,
    let f := fmtRun s
    s.mem.wf → rgbSound s → fmtPathOf s = .direct → f.w % 16 = 0 → f.h % 16 = 0 →
    (∀ c < f.w / 16, ∀ r < f.h / 16, maskCell s c r < s.params.memSize) →
    ∃ t, exec (.convertRgb555 true) s = .next t ∧ t = { ended s with fmtPath := .direct, mem := t.mem } ∧
      (∀ a, (∀ x < f.w, ∀ r < f.h, dirtyAt s x (f.h - 1 - r) = true →
        a ≠ pixelCell s x r ∧ a ≠ pixelCell s x r + 1) → t.mem.read a = s.mem.read a) ∧
      ((∀ a ∈ sourceCells f, ∀ x < f.w, ∀ r < f.h, a ≠ pixelCell s x r ∧ a ≠ pixelCell s x r + 1) →
        ∀ x < f.w, ∀ r < f.h, dirtyAt s x (f.h - 1 - r) = true →
          (t.mem.readLE (pixelCell s x r) 2 : Int) = f.pixel s.params.tables s.mem x (f.h - 1 - r))

/-- 43_formatter.md R308: a picture of 128 everywhere converts to one value, whatever the path: rgb555(128, 128, 128),
which is 0x4210 with the default COLORTAB (log entry 19). The target may lie over the PictureDescr: that a selective
update goes on with the words the checks read, and does not read them again by 20_memory.md R80 after its own stores, is
the model's reading (log entry 15). -/
def Obligations.GrayPictureConvertsToOneValue : Prop :=
  ∀ (sel : Bool) (s : State),
    let f := fmtRun s
    let gray := rgb555 s.params.tables 128 128 128
    s.mem.wf → rgbSound s → (∀ a ∈ sourceCells f, s.mem.read a = 128) →
    (s.params.tables = .standard → gray = 0x4210) ∧
    ∃ t, exec (.convertRgb555 sel) s = .next t ∧
      (sel = false ∨ fmtPathOf s ≠ .direct →
        ∀ x < f.dw, ∀ r < f.dh, (t.mem.readLE (pixelCell s x r) 2 : Int) = gray) ∧
      (sel = true → fmtPathOf s = .direct → t.result = .ok →
        (∀ a ∈ sourceCells f, ∀ x < f.w, ∀ r < f.h, a ≠ pixelCell s x r ∧ a ≠ pixelCell s x r + 1) →
        ∀ x < f.w, ∀ r < f.h, dirtyAt s x (f.h - 1 - r) = true →
          (t.mem.readLE (pixelCell s x r) 2 : Int) = gray)

/-- 43_formatter.md R310, R293: YUY2 writes Y0 Cb Y1 Cr of each pixel pair, flipped, each chroma row serving two luma
rows, and no other byte; a target of another size is refused. The target may lie over the PictureDescr: that its words
are those the checks read, and are not read again by 20_memory.md R80 after the command's own stores, is the model's
reading (log entry 15). -/
def Obligations.Yuy2RepacksPixelPairs : Prop :=
  ∀ s : State,
    let f := fmtRun s
    let dst := s.regF.fmtDst.toNat
    let st := s.regF.fmtDstStride.toNat
    s.mem.wf → formatSound s →
    (f.dw ≠ f.w ∨ f.dh ≠ f.h →
      exec .convertYuy2 s = .next (raise ⟨.fmtArg, BitVec.ofNat 32 (f.dw + f.dh * 2 ^ 16)⟩ s)) ∧
    (f.dw = f.w → f.dh = f.h → 2 * f.w ≤ st → dst + (f.h - 1) * st + 2 * f.w ≤ s.params.memSize →
      ∃ t, exec .convertYuy2 s = .next t ∧ t = { ended s with mem := t.mem } ∧
        (∀ a, (∀ r < f.h, ∀ j < 2 * f.w, a ≠ dst + r * st + j) → t.mem.read a = s.mem.read a) ∧
        ((∀ a ∈ sourceCells f, ∀ r < f.h, ∀ j < 2 * f.w, a ≠ dst + r * st + j) →
          ∀ r < f.h, ∀ k < f.w / 2,
            let row := f.h - 1 - r
            let a := dst + r * st + 4 * k
            (t.mem.read a).toNat = f.sample s.mem .y (2 * k) row ∧
            (t.mem.read (a + 1)).toNat = f.sample s.mem .cb k (row / 2) ∧
            (t.mem.read (a + 2)).toNat = f.sample s.mem .y (2 * k + 1) row ∧
            (t.mem.read (a + 3)).toNat = f.sample s.mem .cr k (row / 2)))

/-- 43_formatter.md R314, R293: YVU9 writes the flipped Y plane, then the decimated V (Cr) and U (Cb) planes, contiguous,
and no other byte. The target may lie over the PictureDescr: that its words are those the checks read, and are not read
again by 20_memory.md R80 after the command's own stores, is the model's reading (log entry 15). -/
def Obligations.Yvu9WritesThreeContiguousPlanes : Prop :=
  ∀ s : State,
    let f := fmtRun s
    let dst := s.regF.fmtDst.toNat
    let q := f.w / 4 * (f.h / 4)
    s.mem.wf → formatSound s → f.dw = f.w → f.dh = f.h → f.w % 4 = 0 → f.h % 4 = 0 →
    s.regF.fmtDstStride.toNat = f.w → dst + f.w * f.h + 2 * q ≤ s.params.memSize →
    ∃ t, exec .convertYvu9 s = .next t ∧ t = { ended s with mem := t.mem } ∧
      (∀ a, a < dst ∨ dst + f.w * f.h + 2 * q ≤ a → t.mem.read a = s.mem.read a) ∧
      ((∀ a ∈ sourceCells f, a < dst ∨ dst + f.w * f.h + 2 * q ≤ a) →
        (∀ x < f.w, ∀ r < f.h, (t.mem.read (dst + r * f.w + x)).toNat = f.sample s.mem .y x (f.h - 1 - r)) ∧
        ∀ x < f.w / 4, ∀ r < f.h / 4,
          let v := dst + f.w * f.h + r * (f.w / 4) + x
          (t.mem.read v).toNat = f.sample s.mem .cr (2 * x) (f.h / 2 - 1 - 2 * r) ∧
          (t.mem.read (v + q)).toNat = f.sample s.mem .cb (2 * x) (f.h / 2 - 1 - 2 * r))

/-! ### Unit D -/

/-- 42_dispatcher.md R232, R240, R241, R266, 20_memory.md R80: DECODE_GOB with its start checks passed enters its loop,
from the first macroblock with AICC invalidated or from the checkpoint as it stands; with a check failed it only raises.
That its turn ends there, with the variables of R232 and the cursor at entry kept for the turns of the loop, is the
model's choice (log entries 2, 15). That PFLAGS of OLD and of B is no word the checks need, so that an OLD or B of which
that word alone lies beyond memory enters the loop, is the model's reading of R80 against R232 (log entry 14). -/
def Obligations.DecodeGobEntersItsLoop : Prop :=
  ∀ s : State,
    let c := gobRun false s
    let ck := if s.ck.valid then s.ck else gobStart c.gob { s.ck with work := 0 }
    let t : State := { s with
      ck := ck
      stats := if c.geomFail then { s.stats with geomFail := s.stats.geomFail + 1 } else s.stats
      aicc := if s.ck.valid then s.aicc else s.aicc.map fun e => e.map fun x => { x with valid := false }
      run := .gob { c with entry := ck } }
    (startSound false s → exec .decodeGob s = .next t) ∧
    (¬startSound false s → ∃ e, exec .decodeGob s = .next (raise e s))

/-- 42_dispatcher.md R244: the cursor after n macroblocks of a GOB, in raster order over the GOB's columns; while the
macroblock number fits 32 bits the grid position is the column and the row the rule means. -/
def Obligations.CursorWalksTheGobInRasterOrder : Prop :=
  ∀ (c : GobRun) (s : State) (n : Nat), c.gob.valid = true → c.gob.rowStride < 2 ^ 16 →
    let g := c.gob
    let ck := advanceBy g n (gobStart g s.ck)
    let row := g.firstRow + n / g.mbPerRow
    let col := g.firstCol + n % g.mbPerRow
    ck = { s.ck with loop := BitVec.ofNat 32 n, col := BitVec.ofNat 32 col,
                     mbNum := BitVec.ofNat 32 (row * g.rowStride + col) } ∧
    ((row + 1) * g.rowStride ≤ 2 ^ 32 →
      cursorMb c { s with ck := ck } =
        { run := c, d := s.regD.mbBase.toNat + 128 * (row * g.rowStride + col), col := col, row := row })

/-- 42_dispatcher.md R270: CONCEAL_GOB runs to its end when every macroblock it covers fits and has a descriptor; it
changes word 0, TYPE and SCRATCH of those descriptors and the macroblocks' samples in NEW, and no other byte. That the
start checks ask nothing of OLD's PFLAGS word is the model's reading of 20_memory.md R80 against R232 (log entry 14);
that the GOB and picture descriptors are those the start checks read, kept where the concealment overwrites them and not
read again by R80, is its reading too (log entry 15). -/
def Obligations.ConcealGobCompletes : Prop :=
  ∀ s : State,
    let c := gobRun true s
    let ck := if s.ck.valid then s.ck else gobStart c.gob s.ck
    let n := c.gob.mbCount - ck.loop.toNat
    let ms := concealMbs c s n ck
    let u := unitSize s
    s.mem.wf → startSound true s →
    (∀ m ∈ ms, m.d % 4 = 0 ∧ m.d + 12 ≤ s.params.memSize ∧ fits c u m.col m.row) →
    ∃ t, exec .concealGob s = .next t ∧
      t = { ended s with
        mem := t.mem
        ck := { advanceBy c.gob n ck with valid := false }
        stats := { s.stats with concealed := s.stats.concealed + BitVec.ofNat 32 n }
        aicc := s.aicc.map fun e => e.map fun x => { x with valid := false } } ∧
      ∀ a, (∀ m ∈ ms, a ∉ mbWritten m ∧ a ∉ mbSamples m u c.newPic) → t.mem.read a = s.mem.read a

/-- 42_dispatcher.md R270: what a concealed GOB then holds: the reference's samples, or 128 at mismatched geometry, with
every macroblock tagged SKIP, its position in word 0 and its dirty flags. The macroblocks and descriptors it writes are
apart from each other and from the samples it copies: a PIC_OLD that overlaps what is written is left out.
The GOB and picture descriptors are not held apart from what is written: that they are those the start checks read, kept
and not read again by 20_memory.md R80, is the model's reading (log entry 15), and so is, of R80 against R232, that the
start checks ask nothing of OLD's PFLAGS word (log entry 14). -/
def Obligations.ConcealmentReproducesTheReference : Prop :=
  ∀ s : State,
    let c := gobRun true s
    let ck := if s.ck.valid then s.ck else gobStart c.gob s.ck
    let ms := concealMbs c s (c.gob.mbCount - ck.loop.toNat) ck
    let u := unitSize s
    s.mem.wf → startSound true s →
    (∀ m ∈ ms, m.d % 4 = 0 ∧ m.d + 12 ≤ s.params.memSize ∧ fits c u m.col m.row) →
    (ms.flatMap fun m => bytesAt m.d 12 ++ mbSamples m u c.newPic).Nodup →
    (c.geomFail = false → ∀ m ∈ ms, ∀ a ∈ mbSamples m u c.oldPic, ∀ m' ∈ ms,
      a ∉ bytesAt m'.d 12 ∧ a ∉ mbSamples m' u c.newPic) →
    ∃ t, exec .concealGob s = .next t ∧ t.result = .ok ∧
      ∀ m ∈ ms,
        (c.geomFail = false → ∀ p ∈ mbPairs m u c.newPic c.oldPic, t.mem.read p.1 = s.mem.read p.2) ∧
        (c.geomFail = true → ∀ a ∈ mbSamples m u c.newPic, t.mem.read a = 128) ∧
        word t m.d = m.col % 2 ^ 16 + m.row % 2 ^ 16 * 2 ^ 16 ∧ t.mem.read (m.d + 4) = 0x00 ∧
        t.mem.read (m.d + 11) = if c.geomFail then 0x0F else 0x00

/-- 42_dispatcher.md R248, R257, R264, R266: SKIP stores ExtMC's answer, or gray, over the macroblock and its B copy
where useB, clears its column of AICC and writes the dirty flags. -/
def Obligations.MbSkipCompletes : Prop :=
  ∀ (s : State) (c : GobRun),
    let m := cursorMb c s
    let new := mbCell m 16 c.newPic
    s.run = .gob c → s.mem.wf → mbSound s m →
    ∃ t, exec .mbSkip s = .next t ∧
      t = mbEnd c 1 { s with mem := t.mem, aicc := columnCleared s.aicc m.col } ∧
      (∀ a, ¬mbStores s m a → t.mem.read a = s.mem.read a) ∧
      t.mem.read (m.d + 11) = (if c.geomFail = false ∧ word s (m.d + 12) = 0 then 0x00 else 0x0F) ∧
      (s.modeRru = false → (mbSamples m 16 c.newPic).Nodup →
        (c.useB = true → (mbSamples m 16 c.bPic).Nodup ∧ ∀ a ∈ mbSamples m 16 c.bPic, a ∉ mbSamples m 16 c.newPic) →
        ∀ id ∈ planesInUse c.color, ∀ x < planeSize id 16, ∀ y < planeSize id 16,
          t.mem.read (new id x y) = predictionOf s m .skipCopy id x y ∧
          (c.useB = true → c.geomFail = false → t.mem.read (mbCell m 16 c.bPic id x y) = t.mem.read (new id x y))) ∧
      (s.modeRru = true → (mbSamples m 32 c.newPic).Nodup →
        ∀ id ∈ planesInUse c.color, ∀ x < planeSize id 32, ∀ y < planeSize id 32,
          t.mem.read (mbCell m 32 c.newPic id x y) = unitPrediction s m .skipCopy id x y)

/-- 42_dispatcher.md R250 to R252, R255, R257, R264, R266: the three INTER types run to their end when their coded
blocks can be reconstructed, and change only the macroblock's samples in NEW and B, SCRATCH, ACC, LASTCASE, RRUBUF, the
macroblock's column of AICC, the cursor and the counters. -/
def Obligations.MbInterCompletes : Prop :=
  ∀ (s : State) (c : GobRun) (i : Instr), i ∈ [.mbInter, .mbInterQ, .mbInter4v] →
    let m := cursorMb c s
    s.run = .gob c → s.mem.wf → mbSound s m →
    (∀ n ∈ blocksInUse c.color, codedOf s m n = true → mbBlockSound s m n (quantOf s m)) → bBlocksSound s m →
    ∃ t, exec i s = .next t ∧
      t = mbEnd c (mbCost s.modeRru (overlapOf s m)) { s with
        mem := t.mem, acc := t.acc, lastCase := t.lastCase, rrubuf := t.rrubuf
        aicc := columnCleared s.aicc m.col } ∧
      (s.modeRru = false → t.rrubuf = s.rrubuf) ∧
      (∀ a, ¬mbStores s m a → t.mem.read a = s.mem.read a) ∧ t.mem.read (m.d + 11) = 0x0F

/-- 42_dispatcher.md R250, R251, R252, R255, R266, 40_idct_engine.md R156: a sample of an INTER macroblock is the
prediction, with the residual of its block added and clipped where the block is coded. On the B path a sample of the B
picture is the answer to the BIDIR request, made when NEW holds the macroblock, with the residual of its block of the B
set; off it the B picture stays. -/
def Obligations.InterSampleIsPredictionPlusResidual : Prop :=
  ∀ (s : State) (c : GobRun) (q : Instr × McKind),
    q ∈ [(Instr.mbInter, McKind.inter), (.mbInterQ, .inter), (.mbInter4v, .inter4v)] →
    let m := cursorMb c s
    let sample := interSample s m q.2
    s.run = .gob c → s.mem.wf → mbSound s m → s.modeRru = false →
    (∀ n ∈ blocksInUse c.color, codedOf s m n = true → mbBlockSound s m n (quantOf s m)) → bBlocksSound s m →
    (mbSamples m 16 c.newPic).Nodup →
    (c.useB = true → ∀ a ∈ mbSamples m 16 c.bPic, a ∉ mbSamples m 16 c.newPic) →
    ∃ t, exec q.1 s = .next t ∧
      ∀ id ∈ planesInUse c.color, ∀ x < planeSize id 16, ∀ y < planeSize id 16,
        let p := predictionOf s m q.2 id x y
        let n := blockAt id x y
        let b := mbCell m 16 c.bPic id x y
        sample id x y =
          (if codedOf s m n then
            sampleByte (clip255 (p.toNat + blockResidual s m n (quantOf s m) (x % 8) (y % 8)))
          else p) ∧
        t.mem.read (mbCell m 16 c.newPic id x y) = sample id x y ∧
        (c.useB = true → (mbSamples m 16 c.bPic).Nodup →
          t.mem.read b = if takesB s m then bSample s m sample id x y else s.mem.read b)

/-- 42_dispatcher.md R253, R254, R255, R257, R264, 40_idct_engine.md R174, R178, R180: the two INTRA types run to their
end when their blocks can be reconstructed. In the plain mode a sample is the clipped residual of its block. With
DMODE.AIC it is that of the block's coefficients predicted from the cache as the blocks before left it, and the
macroblock's column of AICC holds what the blocks wrote; no other column changes. The B path is as for INTER.
At normal resolution the cost is COST_IDCT and FLAGS.OVERLAP is ignored (R253); that R253 so excepts INTRA from R247, and
that in reduced-resolution mode the flag counts by 90_conflicts.md C9, is the model's reading (log entry 30). -/
def Obligations.MbIntraCompletes : Prop :=
  ∀ (s : State) (c : GobRun) (i : Instr), i ∈ [.mbIntra, .mbIntraQ] →
    let m := cursorMb c s
    let aic := s.modeAic && !s.modeRru
    s.run = .gob c → s.mem.wf → mbSound s m →
    (∀ n ∈ blocksInUse c.color, mbBlockSound s m n (quantOf s m)) → bBlocksSound s m →
    (aic = true → aicModeOf s m ≤ 2 ∧ m.col < s.params.aicCols) →
    ∃ t, exec i s = .next t ∧
      t = mbEnd c (mbCost s.modeRru (s.modeRru && overlapOf s m)) { s with
        mem := t.mem, acc := t.acc, lastCase := t.lastCase, rrubuf := t.rrubuf
        aicc := if aic then aicAfter s m (blocksInUse c.color).length else columnCleared s.aicc m.col } ∧
      (∀ k, k ≠ m.col → t.aicc[k]? = s.aicc[k]?) ∧
      (s.modeRru = false → t.rrubuf = s.rrubuf) ∧
      (∀ a, ¬mbStores s m a → t.mem.read a = s.mem.read a) ∧ t.mem.read (m.d + 11) = 0x0F ∧
      (s.modeRru = false → (mbSamples m 16 c.newPic).Nodup →
        (c.useB = true → ∀ a ∈ mbSamples m 16 c.bPic, a ∉ mbSamples m 16 c.newPic) →
        ∀ id ∈ planesInUse c.color, ∀ x < planeSize id 16, ∀ y < planeSize id 16,
          let n := blockAt id x y
          let b := mbCell m 16 c.bPic id x y
          t.mem.read (mbCell m 16 c.newPic id x y) = intraSample s m id x y ∧
          (s.modeAic = false →
            intraSample s m id x y = sampleByte (clip255 (blockResidual s m n (quantOf s m) (x % 8) (y % 8)))) ∧
          (c.useB = true → (mbSamples m 16 c.bPic).Nodup →
            t.mem.read b = if takesB s m then bSample s m (intraSample s m) id x y else s.mem.read b))

/-- 42_dispatcher.md R256, R257, R258, R266, 40_idct_engine.md R161: a sample of a reduced-resolution unit is the clipped
sum of the four quadrants' prediction, or nothing for an INTRA type, and the up-sampled residual of the unit. -/
def Obligations.ReducedResolutionUnitAddsUpsampledResidual : Prop :=
  ∀ (s : State) (c : GobRun) (q : Instr × Option McKind),
    q ∈ [(Instr.mbInter, some McKind.inter), (.mbInterQ, some .inter), (.mbInter4v, some .inter4v), (.mbIntra, none),
      (.mbIntraQ, none)] →
    let m := cursorMb c s
    let intra := q.2 = none
    s.run = .gob c → s.mem.wf → mbSound s m → s.modeRru = true →
    (∀ n ∈ blocksInUse c.color, (intra ∨ codedOf s m n = true) → mbBlockSound s m n (quantOf s m)) →
    (mbSamples m 32 c.newPic).Nodup →
    ∃ t, exec q.1 s = .next t ∧
      ∀ id ∈ planesInUse c.color, ∀ x < planeSize id 32, ∀ y < planeSize id 32,
        let p := match q.2 with
          | some kind => ((unitPrediction s m kind id x y).toNat : Int)
          | none => 0
        t.mem.read (mbCell m 32 c.newPic id x y) =
          sampleByte (clip255 (p + upSample (unitResidual s m (decide intra) id) (planeSize id 16) x y))

/-- 42_dispatcher.md R262: an unknown type ends the command with GOB_ABORTED, without a fault; the cursor names the
offending macroblock. -/
def Obligations.MbUnknownAbortsTheGob : Prop :=
  ∀ (tag : Byte) (s : State) (c : GobRun), s.run = .gob c →
    exec (.mbUnknown tag) s = .next { s with
      stats := { s.stats with badType := s.stats.badType + 1 }
      ck := { s.ck with valid := false }
      result := .gobAborted
      irq := { s.irq with done := true }
      run := .idle }
end

