-- ==== Sys2Proof/Laws/Memory.lean ====
section
/-! SUPPORT. The laws of memory: a read after a write, a read elsewhere, and that every operation keeps the canonical
form and the addresses within a bound. -/

namespace Sys2Proof.Machine

/-! ### One byte -/

/-- Every address listed in a memory is above `a`. -/
abbrev Memory.above (a : Nat) (m : Memory) : Prop := ∀ p ∈ m, a < p.1

theorem Memory.wf_cons {b : Nat} {w : Byte} {m : Memory} :
    Memory.wf ((b, w) :: m) ↔ Memory.above b m ∧ w ≠ unlistedByte ∧ Memory.wf m := by
  simp only [Memory.wf, List.pairwise_cons, List.mem_cons, forall_eq_or_imp]
  tauto

theorem Memory.read_of_above {m : Memory} {a : Nat} (h : Memory.above a m) : m.read a = unlistedByte := by
  induction m with
  | nil => rfl
  | cons p rest ih =>
    obtain ⟨b, w⟩ := p
    have hb : a < b := h (b, w) List.mem_cons_self
    simp only [Memory.read]
    rw [if_neg (by omega)]
    exact ih fun p hp => h p (by simp [hp])

theorem Memory.read_put {rest : Memory} {b : Nat} (h : Memory.above b rest) (v : Byte) (a : Nat) :
    (Memory.put b v rest).read a = if a = b then v else rest.read a := by
  by_cases hv : v = unlistedByte
  · simp only [Memory.put, if_pos hv]
    split
    · next e => subst e; rw [Memory.read_of_above h, hv]
    · rfl
  · simp only [Memory.put, if_neg hv, Memory.read]

/-- A read after a write: the byte written at its address, the old byte elsewhere. -/
theorem Memory.read_write {m : Memory} (h : m.wf) (b : Nat) (v : Byte) (a : Nat) :
    (m.write b v).read a = if a = b then v else m.read a := by
  induction m with
  | nil => exact Memory.read_put (by simp) v a
  | cons p rest ih =>
    obtain ⟨c, w⟩ := p
    obtain ⟨hab, -, hrest⟩ := Memory.wf_cons.1 h
    simp only [Memory.write]
    split
    · next hbc =>
      refine Memory.read_put ?_ v a
      intro p hp
      rcases List.mem_cons.1 hp with rfl | hp
      · exact hbc
      · exact Nat.lt_trans hbc (hab p hp)
    · split
      · next hne =>
        subst hne
        rw [Memory.read_put hab]
        simp only [Memory.read]
        split <;> rfl
      · simp only [Memory.read, ih hrest]
        split
        · rw [if_neg (by omega)]
        · rfl

theorem Memory.above_put {m : Memory} {a b : Nat} (hab : a < b) (h : Memory.above a m) (v : Byte) :
    Memory.above a (Memory.put b v m) := by
  simp only [Memory.put]
  split
  · exact h
  · intro p hp
    rcases List.mem_cons.1 hp with rfl | hp
    · exact hab
    · exact h p hp

theorem Memory.above_write {m : Memory} {a b : Nat} (hab : a < b) (h : Memory.above a m) (v : Byte) :
    Memory.above a (m.write b v) := by
  induction m with
  | nil => exact Memory.above_put hab h v
  | cons p rest ih =>
    obtain ⟨c, w⟩ := p
    have hr : Memory.above a rest := fun p hp => h p (by simp [hp])
    simp only [Memory.write]
    split
    · exact Memory.above_put hab h v
    · split
      · exact Memory.above_put hab hr v
      · intro p hp
        rcases List.mem_cons.1 hp with rfl | hp
        · exact h (c, w) List.mem_cons_self
        · exact ih hr p hp

theorem Memory.wf_put {rest : Memory} {b : Nat} (h : Memory.above b rest) (hr : rest.wf) (v : Byte) :
    (Memory.put b v rest).wf := by
  simp only [Memory.put]
  split
  · exact hr
  · next hv => exact Memory.wf_cons.2 ⟨h, hv, hr⟩

/-- A write keeps the canonical form. -/
theorem Memory.wf_write {m : Memory} (h : m.wf) (b : Nat) (v : Byte) : (m.write b v).wf := by
  induction m with
  | nil => exact Memory.wf_put (by simp) h v
  | cons p rest ih =>
    obtain ⟨c, w⟩ := p
    obtain ⟨hab, hw, hrest⟩ := Memory.wf_cons.1 h
    simp only [Memory.write]
    split
    · next hbc =>
      refine Memory.wf_put ?_ h v
      intro p hp
      rcases List.mem_cons.1 hp with rfl | hp
      · exact hbc
      · exact Nat.lt_trans hbc (hab p hp)
    · split
      · next hne => subst hne; exact Memory.wf_put hab hrest v
      · next h1 h2 => exact Memory.wf_cons.2 ⟨Memory.above_write (by omega) hab v, hw, ih hrest⟩

/-- Memories in canonical form that read alike are one. -/
theorem Memory.ext {m k : Memory} (hm : m.wf) (hk : k.wf) (h : ∀ a, m.read a = k.read a) : m = k := by
  induction m generalizing k with
  | nil =>
    cases k with
    | nil => rfl
    | cons q k =>
      have := h q.1
      simp only [Memory.read, if_true] at this
      exact absurd this.symm (Memory.wf_cons.1 hk).2.1
  | cons p m ih =>
    obtain ⟨ha, hv, hm'⟩ := Memory.wf_cons.1 hm
    cases k with
    | nil =>
      have := h p.1
      simp only [Memory.read, if_true] at this
      exact absurd this hv
    | cons q k =>
      obtain ⟨hb, hw, hk'⟩ := Memory.wf_cons.1 hk
      have hpq := h p.1
      have hqp := h q.1
      simp only [Memory.read, if_true] at hpq hqp
      rcases Nat.lt_trichotomy p.1 q.1 with hlt | he | hlt
      · rw [if_neg (by omega), Memory.read_of_above fun r hr => Nat.lt_trans hlt (hb r hr)] at hpq
        exact absurd hpq hv
      · rw [if_pos he] at hpq
        rw [Prod.ext he hpq, ih hm' hk' fun a => ?_]
        have := h a
        simp only [Memory.read, he] at this
        split at this
        · next e => rw [Memory.read_of_above fun r hr => by rw [e, ← he]; exact ha r hr, Memory.read_of_above fun r hr => by rw [e]; exact hb r hr]
        · exact this
      · rw [if_neg (by omega), Memory.read_of_above fun r hr => Nat.lt_trans hlt (ha r hr)] at hqp
        exact absurd hqp.symm hw

/-! ### Bytes one after another -/

@[simp] theorem Memory.writeAll_nil (m : Memory) : m.writeAll [] = m := rfl

@[simp] theorem Memory.writeAll_cons (m : Memory) (p : Nat × Byte) (l : List (Nat × Byte)) :
    m.writeAll (p :: l) = (m.write p.1 p.2).writeAll l := rfl

theorem Memory.writeAll_append (m : Memory) (l k : List (Nat × Byte)) :
    m.writeAll (l ++ k) = (m.writeAll l).writeAll k := by
  simp [Memory.writeAll]

/-- Stores keep the canonical form. -/
theorem Memory.wf_writeAll {m : Memory} (h : m.wf) (l : List (Nat × Byte)) : (m.writeAll l).wf := by
  induction l generalizing m with
  | nil => exact h
  | cons p l ih => exact ih (Memory.wf_write h _ _)

/-- The frame of a list of stores: a byte none of them names reads as before. -/
theorem Memory.read_writeAll_of_notMem {m : Memory} (h : m.wf) {l : List (Nat × Byte)} {a : Nat}
    (ha : a ∉ l.map (·.1)) : (m.writeAll l).read a = m.read a := by
  induction l generalizing m with
  | nil => rfl
  | cons p l ih =>
    simp only [List.map_cons, List.mem_cons, not_or] at ha
    rw [Memory.writeAll_cons, ih (Memory.wf_write h _ _) ha.2, Memory.read_write h, if_neg ha.1]

/-- Stores to different addresses: each byte reads as what was stored there. -/
theorem Memory.read_writeAll_of_mem {m : Memory} (h : m.wf) {l : List (Nat × Byte)} (hl : (l.map (·.1)).Nodup)
    {p : Nat × Byte} (hp : p ∈ l) : (m.writeAll l).read p.1 = p.2 := by
  induction l generalizing m with
  | nil => simp at hp
  | cons q l ih =>
    simp only [List.map_cons, List.nodup_cons] at hl
    rw [Memory.writeAll_cons]
    rcases List.mem_cons.1 hp with rfl | hp
    · rw [Memory.read_writeAll_of_notMem (Memory.wf_write h _ _) hl.1, Memory.read_write h, if_pos rfl]
    · exact ih (Memory.wf_write h _ _) hl.2 hp

/-! ### Words -/

/-- The bytes of a word read little-endian depend on those bytes only. -/
theorem Memory.readLE_congr {m k : Memory} {a n : Nat} (h : ∀ i < n, m.read (a + i) = k.read (a + i)) :
    m.readLE a n = k.readLE a n := by
  induction n generalizing a with
  | zero => rfl
  | succ n ih =>
    simp only [Memory.readLE]
    rw [show m.read a = k.read a by simpa using h 0 (by omega), ih fun i hi => ?_]
    have := h (i + 1) (by omega)
    rwa [show a + (i + 1) = a + 1 + i by omega] at this

theorem Memory.readLE_lt (m : Memory) (a n : Nat) : m.readLE a n < 256 ^ n := by
  induction n generalizing a with
  | zero => simp [Memory.readLE]
  | succ n ih =>
    have h1 := ih (a + 1)
    have h2 := (m.read a).isLt
    simp only [Memory.readLE, Nat.pow_succ]
    omega

theorem bytesLE_fst (a n v : Nat) : (bytesLE a n v).map (·.1) = (List.range n).map (a + ·) := by
  induction n generalizing a v with
  | zero => rfl
  | succ n ih =>
    simp only [bytesLE, List.map_cons, ih, List.range_succ_eq_map, List.map_map]
    simp [Function.comp_def, Nat.add_assoc, Nat.add_comm 1]

/-! ### Addresses within a bound -/

/-- Every listed address is below a bound. -/
abbrev Memory.below (n : Nat) (m : Memory) : Prop := ∀ p ∈ m, p.1 < n

theorem Memory.below_put {m : Memory} {n b : Nat} (hb : b < n) (h : Memory.below n m) (v : Byte) :
    Memory.below n (Memory.put b v m) := by
  simp only [Memory.put]
  split
  · exact h
  · intro p hp
    rcases List.mem_cons.1 hp with rfl | hp
    · exact hb
    · exact h p hp

theorem Memory.below_write {m : Memory} {n b : Nat} (hb : b < n) (h : Memory.below n m) (v : Byte) :
    Memory.below n (m.write b v) := by
  induction m with
  | nil => exact Memory.below_put hb h v
  | cons p rest ih =>
    obtain ⟨c, w⟩ := p
    have hr : Memory.below n rest := fun p hp => h p (by simp [hp])
    simp only [Memory.write]
    split
    · exact Memory.below_put hb h v
    · split
      · exact Memory.below_put hb hr v
      · intro p hp
        rcases List.mem_cons.1 hp with rfl | hp
        · exact h (c, w) List.mem_cons_self
        · exact ih hr p hp

theorem Memory.below_writeAll {m : Memory} {n : Nat} {l : List (Nat × Byte)} (hl : ∀ p ∈ l, p.1 < n)
    (h : Memory.below n m) : Memory.below n (m.writeAll l) := by
  induction l generalizing m with
  | nil => exact h
  | cons p l ih =>
    exact ih (fun q hq => hl q (by simp [hq])) (Memory.below_write (hl p (by simp)) h _)

/-! ### Bytes replaced by a property -/

theorem Memory.wf_overlay {m : Memory} (h : m.wf) (n : Nat) (p : Nat → Bool) (value : Nat → Byte) :
    (m.overlay n p value).wf := Memory.wf_writeAll h _

theorem Memory.below_overlay {m : Memory} {n : Nat} (h : Memory.below n m) (p : Nat → Bool) (value : Nat → Byte) :
    Memory.below n (m.overlay n p value) := by
  refine Memory.below_writeAll (fun q hq => ?_) h
  obtain ⟨a, ha, rfl⟩ := List.mem_map.1 hq
  exact List.mem_range.1 (List.mem_filter.1 ha).1

/-- The byte read after an overlay: the given value below the bound where the property holds, the old byte elsewhere. -/
theorem Memory.read_overlay {m : Memory} (h : m.wf) (n : Nat) (p : Nat → Bool) (value : Nat → Byte) (a : Nat) :
    (m.overlay n p value).read a = if a < n ∧ p a = true then value a else m.read a := by
  have fst : ((((List.range n).filter p).map fun a => (a, value a)).map (·.1)) = (List.range n).filter p := by
    simp [Function.comp_def]
  split
  · next ha =>
    have hm : (a, value a) ∈ ((List.range n).filter p).map fun a => (a, value a) :=
      List.mem_map_of_mem (List.mem_filter.2 ⟨List.mem_range.2 ha.1, ha.2⟩)
    exact Memory.read_writeAll_of_mem h (by rw [fst]; exact List.nodup_range.filter _) hm
  · next ha =>
    refine Memory.read_writeAll_of_notMem h ?_
    rw [fst, List.mem_filter, List.mem_range]
    exact ha

/-- The memory of the machine after reset is in canonical form. -/
theorem reset_mem_wf : State.reset.mem.wf := by decide

end Sys2Proof.Machine
end

