-- ==== Sys2Proof/Laws/State.lean ====
section
/-! SUPPORT. One lemma per field per update of State, so that no later proof unfolds a record update. -/

namespace Sys2Proof.Machine

/-! ### store -/

@[simp] theorem store_ctrl (l : List (Nat × Byte)) (s : State) : (s.store l).ctrl = s.ctrl := rfl
@[simp] theorem store_tablesValid (l : List (Nat × Byte)) (s : State) : (s.store l).tablesValid = s.tablesValid := rfl
@[simp] theorem store_lastCase (l : List (Nat × Byte)) (s : State) : (s.store l).lastCase = s.lastCase := rfl
@[simp] theorem store_result (l : List (Nat × Byte)) (s : State) : (s.store l).result = s.result := rfl
@[simp] theorem store_fault (l : List (Nat × Byte)) (s : State) : (s.store l).fault = s.fault := rfl
@[simp] theorem store_irq (l : List (Nat × Byte)) (s : State) : (s.store l).irq = s.irq := rfl
@[simp] theorem store_regI (l : List (Nat × Byte)) (s : State) : (s.store l).regI = s.regI := rfl
@[simp] theorem store_regK (l : List (Nat × Byte)) (s : State) : (s.store l).regK = s.regK := rfl
@[simp] theorem store_regD (l : List (Nat × Byte)) (s : State) : (s.store l).regD = s.regD := rfl
@[simp] theorem store_regF (l : List (Nat × Byte)) (s : State) : (s.store l).regF = s.regF := rfl
@[simp] theorem store_ck (l : List (Nat × Byte)) (s : State) : (s.store l).ck = s.ck := rfl
@[simp] theorem store_stats (l : List (Nat × Byte)) (s : State) : (s.store l).stats = s.stats := rfl
@[simp] theorem store_dbkQ (l : List (Nat × Byte)) (s : State) : (s.store l).dbkQ = s.dbkQ := rfl
@[simp] theorem store_fmtPath (l : List (Nat × Byte)) (s : State) : (s.store l).fmtPath = s.fmtPath := rfl
@[simp] theorem store_aicc (l : List (Nat × Byte)) (s : State) : (s.store l).aicc = s.aicc := rfl
@[simp] theorem store_acc (l : List (Nat × Byte)) (s : State) : (s.store l).acc = s.acc := rfl
@[simp] theorem store_rrubuf (l : List (Nat × Byte)) (s : State) : (s.store l).rrubuf = s.rrubuf := rfl
@[simp] theorem store_run (l : List (Nat × Byte)) (s : State) : (s.store l).run = s.run := rfl
@[simp] theorem store_mem (l : List (Nat × Byte)) (s : State) : (s.store l).mem = s.mem.writeAll l := rfl
@[simp] theorem store_params (l : List (Nat × Byte)) (s : State) : (s.store l).params = s.params := rfl
@[simp] theorem store_script (l : List (Nat × Byte)) (s : State) : (s.store l).script = s.script := rfl
@[simp] theorem store_readData (l : List (Nat × Byte)) (s : State) : (s.store l).readData = s.readData := rfl
@[simp] theorem store_freeCount (l : List (Nat × Byte)) (s : State) : (s.store l).freeCount = s.freeCount := rfl

/-! ### setCkValid -/

@[simp] theorem setCkValid_ctrl (v : Bool) (s : State) : (setCkValid v s).ctrl = s.ctrl := rfl
@[simp] theorem setCkValid_tablesValid (v : Bool) (s : State) : (setCkValid v s).tablesValid = s.tablesValid := rfl
@[simp] theorem setCkValid_lastCase (v : Bool) (s : State) : (setCkValid v s).lastCase = s.lastCase := rfl
@[simp] theorem setCkValid_result (v : Bool) (s : State) : (setCkValid v s).result = s.result := rfl
@[simp] theorem setCkValid_fault (v : Bool) (s : State) : (setCkValid v s).fault = s.fault := rfl
@[simp] theorem setCkValid_irq (v : Bool) (s : State) : (setCkValid v s).irq = s.irq := rfl
@[simp] theorem setCkValid_regI (v : Bool) (s : State) : (setCkValid v s).regI = s.regI := rfl
@[simp] theorem setCkValid_regK (v : Bool) (s : State) : (setCkValid v s).regK = s.regK := rfl
@[simp] theorem setCkValid_regD (v : Bool) (s : State) : (setCkValid v s).regD = s.regD := rfl
@[simp] theorem setCkValid_regF (v : Bool) (s : State) : (setCkValid v s).regF = s.regF := rfl
@[simp] theorem setCkValid_ck (v : Bool) (s : State) : (setCkValid v s).ck = { s.ck with valid := v } := rfl
@[simp] theorem setCkValid_stats (v : Bool) (s : State) : (setCkValid v s).stats = s.stats := rfl
@[simp] theorem setCkValid_dbkQ (v : Bool) (s : State) : (setCkValid v s).dbkQ = s.dbkQ := rfl
@[simp] theorem setCkValid_fmtPath (v : Bool) (s : State) : (setCkValid v s).fmtPath = s.fmtPath := rfl
@[simp] theorem setCkValid_aicc (v : Bool) (s : State) : (setCkValid v s).aicc = s.aicc := rfl
@[simp] theorem setCkValid_acc (v : Bool) (s : State) : (setCkValid v s).acc = s.acc := rfl
@[simp] theorem setCkValid_rrubuf (v : Bool) (s : State) : (setCkValid v s).rrubuf = s.rrubuf := rfl
@[simp] theorem setCkValid_run (v : Bool) (s : State) : (setCkValid v s).run = s.run := rfl
@[simp] theorem setCkValid_mem (v : Bool) (s : State) : (setCkValid v s).mem = s.mem := rfl
@[simp] theorem setCkValid_params (v : Bool) (s : State) : (setCkValid v s).params = s.params := rfl
@[simp] theorem setCkValid_script (v : Bool) (s : State) : (setCkValid v s).script = s.script := rfl
@[simp] theorem setCkValid_readData (v : Bool) (s : State) : (setCkValid v s).readData = s.readData := rfl
@[simp] theorem setCkValid_freeCount (v : Bool) (s : State) : (setCkValid v s).freeCount = s.freeCount := rfl

/-! ### finish -/

@[simp] theorem finish_ctrl (c : ResultCode) (s : State) : (finish c s).ctrl = s.ctrl := rfl
@[simp] theorem finish_tablesValid (c : ResultCode) (s : State) : (finish c s).tablesValid = s.tablesValid := rfl
@[simp] theorem finish_lastCase (c : ResultCode) (s : State) : (finish c s).lastCase = s.lastCase := rfl
@[simp] theorem finish_result (c : ResultCode) (s : State) : (finish c s).result = c := rfl
@[simp] theorem finish_fault (c : ResultCode) (s : State) : (finish c s).fault = s.fault := rfl
@[simp] theorem finish_irq (c : ResultCode) (s : State) :
    (finish c s).irq = if c = .suspended then { s.irq with susp := true } else { s.irq with done := true } := rfl
@[simp] theorem finish_regI (c : ResultCode) (s : State) : (finish c s).regI = s.regI := rfl
@[simp] theorem finish_regK (c : ResultCode) (s : State) : (finish c s).regK = s.regK := rfl
@[simp] theorem finish_regD (c : ResultCode) (s : State) : (finish c s).regD = s.regD := rfl
@[simp] theorem finish_regF (c : ResultCode) (s : State) : (finish c s).regF = s.regF := rfl
@[simp] theorem finish_ck (c : ResultCode) (s : State) : (finish c s).ck = s.ck := rfl
@[simp] theorem finish_stats (c : ResultCode) (s : State) : (finish c s).stats = s.stats := rfl
@[simp] theorem finish_dbkQ (c : ResultCode) (s : State) : (finish c s).dbkQ = s.dbkQ := rfl
@[simp] theorem finish_fmtPath (c : ResultCode) (s : State) : (finish c s).fmtPath = s.fmtPath := rfl
@[simp] theorem finish_aicc (c : ResultCode) (s : State) : (finish c s).aicc = s.aicc := rfl
@[simp] theorem finish_acc (c : ResultCode) (s : State) : (finish c s).acc = s.acc := rfl
@[simp] theorem finish_rrubuf (c : ResultCode) (s : State) : (finish c s).rrubuf = s.rrubuf := rfl
@[simp] theorem finish_run (c : ResultCode) (s : State) : (finish c s).run = .idle := rfl
@[simp] theorem finish_mem (c : ResultCode) (s : State) : (finish c s).mem = s.mem := rfl
@[simp] theorem finish_params (c : ResultCode) (s : State) : (finish c s).params = s.params := rfl
@[simp] theorem finish_script (c : ResultCode) (s : State) : (finish c s).script = s.script := rfl
@[simp] theorem finish_readData (c : ResultCode) (s : State) : (finish c s).readData = s.readData := rfl
@[simp] theorem finish_freeCount (c : ResultCode) (s : State) : (finish c s).freeCount = s.freeCount := rfl

/-! ### raise -/

@[simp] theorem raise_ctrl (e : Raise) (s : State) : (raise e s).ctrl = s.ctrl := rfl
@[simp] theorem raise_tablesValid (e : Raise) (s : State) : (raise e s).tablesValid = s.tablesValid := rfl
@[simp] theorem raise_lastCase (e : Raise) (s : State) : (raise e s).lastCase = s.lastCase := rfl
@[simp] theorem raise_result (e : Raise) (s : State) : (raise e s).result = .faulted := rfl
@[simp] theorem raise_fault (e : Raise) (s : State) :
    (raise e s).fault = { pending := true, code := e.name.code, info := e.info } := rfl
@[simp] theorem raise_irq (e : Raise) (s : State) : (raise e s).irq = { s.irq with fault := true } := rfl
@[simp] theorem raise_regI (e : Raise) (s : State) : (raise e s).regI = s.regI := rfl
@[simp] theorem raise_regK (e : Raise) (s : State) : (raise e s).regK = s.regK := rfl
@[simp] theorem raise_regD (e : Raise) (s : State) : (raise e s).regD = s.regD := rfl
@[simp] theorem raise_regF (e : Raise) (s : State) : (raise e s).regF = s.regF := rfl
@[simp] theorem raise_ck (e : Raise) (s : State) : (raise e s).ck = s.ck := rfl
@[simp] theorem raise_stats (e : Raise) (s : State) : (raise e s).stats = s.stats := rfl
@[simp] theorem raise_dbkQ (e : Raise) (s : State) : (raise e s).dbkQ = s.dbkQ := rfl
@[simp] theorem raise_fmtPath (e : Raise) (s : State) : (raise e s).fmtPath = s.fmtPath := rfl
@[simp] theorem raise_aicc (e : Raise) (s : State) : (raise e s).aicc = s.aicc := rfl
@[simp] theorem raise_acc (e : Raise) (s : State) : (raise e s).acc = s.acc := rfl
@[simp] theorem raise_rrubuf (e : Raise) (s : State) : (raise e s).rrubuf = s.rrubuf := rfl
@[simp] theorem raise_run (e : Raise) (s : State) : (raise e s).run = .idle := rfl
@[simp] theorem raise_mem (e : Raise) (s : State) : (raise e s).mem = s.mem := rfl
@[simp] theorem raise_params (e : Raise) (s : State) : (raise e s).params = s.params := rfl
@[simp] theorem raise_script (e : Raise) (s : State) : (raise e s).script = s.script := rfl
@[simp] theorem raise_readData (e : Raise) (s : State) : (raise e s).readData = s.readData := rfl
@[simp] theorem raise_freeCount (e : Raise) (s : State) : (raise e s).freeCount = s.freeCount := rfl

/-! ### acknowledge -/

@[simp] theorem acknowledge_ctrl (s : State) : (acknowledge s).ctrl = s.ctrl := rfl
@[simp] theorem acknowledge_tablesValid (s : State) : (acknowledge s).tablesValid = s.tablesValid := rfl
@[simp] theorem acknowledge_lastCase (s : State) : (acknowledge s).lastCase = s.lastCase := rfl
@[simp] theorem acknowledge_result (s : State) : (acknowledge s).result = s.result := rfl
@[simp] theorem acknowledge_fault (s : State) :
    (acknowledge s).fault = { pending := false, code := 0, info := 0 } := rfl
@[simp] theorem acknowledge_irq (s : State) : (acknowledge s).irq = { s.irq with fault := false } := rfl
@[simp] theorem acknowledge_regI (s : State) : (acknowledge s).regI = s.regI := rfl
@[simp] theorem acknowledge_regK (s : State) : (acknowledge s).regK = s.regK := rfl
@[simp] theorem acknowledge_regD (s : State) : (acknowledge s).regD = s.regD := rfl
@[simp] theorem acknowledge_regF (s : State) : (acknowledge s).regF = s.regF := rfl
@[simp] theorem acknowledge_ck (s : State) : (acknowledge s).ck = s.ck := rfl
@[simp] theorem acknowledge_stats (s : State) : (acknowledge s).stats = s.stats := rfl
@[simp] theorem acknowledge_dbkQ (s : State) : (acknowledge s).dbkQ = s.dbkQ := rfl
@[simp] theorem acknowledge_fmtPath (s : State) : (acknowledge s).fmtPath = s.fmtPath := rfl
@[simp] theorem acknowledge_aicc (s : State) : (acknowledge s).aicc = s.aicc := rfl
@[simp] theorem acknowledge_acc (s : State) : (acknowledge s).acc = s.acc := rfl
@[simp] theorem acknowledge_rrubuf (s : State) : (acknowledge s).rrubuf = s.rrubuf := rfl
@[simp] theorem acknowledge_run (s : State) : (acknowledge s).run = s.run := rfl
@[simp] theorem acknowledge_mem (s : State) : (acknowledge s).mem = s.mem := rfl
@[simp] theorem acknowledge_params (s : State) : (acknowledge s).params = s.params := rfl
@[simp] theorem acknowledge_script (s : State) : (acknowledge s).script = s.script := rfl
@[simp] theorem acknowledge_readData (s : State) : (acknowledge s).readData = s.readData := rfl
@[simp] theorem acknowledge_freeCount (s : State) : (acknowledge s).freeCount = s.freeCount := rfl

/-! ### clearAicc -/

@[simp] theorem clearAicc_ctrl (s : State) : (clearAicc s).ctrl = s.ctrl := rfl
@[simp] theorem clearAicc_tablesValid (s : State) : (clearAicc s).tablesValid = s.tablesValid := rfl
@[simp] theorem clearAicc_lastCase (s : State) : (clearAicc s).lastCase = s.lastCase := rfl
@[simp] theorem clearAicc_result (s : State) : (clearAicc s).result = s.result := rfl
@[simp] theorem clearAicc_fault (s : State) : (clearAicc s).fault = s.fault := rfl
@[simp] theorem clearAicc_irq (s : State) : (clearAicc s).irq = s.irq := rfl
@[simp] theorem clearAicc_regI (s : State) : (clearAicc s).regI = s.regI := rfl
@[simp] theorem clearAicc_regK (s : State) : (clearAicc s).regK = s.regK := rfl
@[simp] theorem clearAicc_regD (s : State) : (clearAicc s).regD = s.regD := rfl
@[simp] theorem clearAicc_regF (s : State) : (clearAicc s).regF = s.regF := rfl
@[simp] theorem clearAicc_ck (s : State) : (clearAicc s).ck = s.ck := rfl
@[simp] theorem clearAicc_stats (s : State) : (clearAicc s).stats = s.stats := rfl
@[simp] theorem clearAicc_dbkQ (s : State) : (clearAicc s).dbkQ = s.dbkQ := rfl
@[simp] theorem clearAicc_fmtPath (s : State) : (clearAicc s).fmtPath = s.fmtPath := rfl
@[simp] theorem clearAicc_aicc (s : State) : (clearAicc s).aicc = s.aicc.map fun e => e.map AicSlot.invalidate := rfl
@[simp] theorem clearAicc_acc (s : State) : (clearAicc s).acc = s.acc := rfl
@[simp] theorem clearAicc_rrubuf (s : State) : (clearAicc s).rrubuf = s.rrubuf := rfl
@[simp] theorem clearAicc_run (s : State) : (clearAicc s).run = s.run := rfl
@[simp] theorem clearAicc_mem (s : State) : (clearAicc s).mem = s.mem := rfl
@[simp] theorem clearAicc_params (s : State) : (clearAicc s).params = s.params := rfl
@[simp] theorem clearAicc_script (s : State) : (clearAicc s).script = s.script := rfl
@[simp] theorem clearAicc_readData (s : State) : (clearAicc s).readData = s.readData := rfl
@[simp] theorem clearAicc_freeCount (s : State) : (clearAicc s).freeCount = s.freeCount := rfl

/-! ### clearAiccColumn -/

@[simp] theorem clearAiccColumn_ctrl (col : Nat) (s : State) : (clearAiccColumn col s).ctrl = s.ctrl := rfl
@[simp] theorem clearAiccColumn_tablesValid (col : Nat) (s : State) :
    (clearAiccColumn col s).tablesValid = s.tablesValid := rfl
@[simp] theorem clearAiccColumn_lastCase (col : Nat) (s : State) :
    (clearAiccColumn col s).lastCase = s.lastCase := rfl
@[simp] theorem clearAiccColumn_result (col : Nat) (s : State) : (clearAiccColumn col s).result = s.result := rfl
@[simp] theorem clearAiccColumn_fault (col : Nat) (s : State) : (clearAiccColumn col s).fault = s.fault := rfl
@[simp] theorem clearAiccColumn_irq (col : Nat) (s : State) : (clearAiccColumn col s).irq = s.irq := rfl
@[simp] theorem clearAiccColumn_regI (col : Nat) (s : State) : (clearAiccColumn col s).regI = s.regI := rfl
@[simp] theorem clearAiccColumn_regK (col : Nat) (s : State) : (clearAiccColumn col s).regK = s.regK := rfl
@[simp] theorem clearAiccColumn_regD (col : Nat) (s : State) : (clearAiccColumn col s).regD = s.regD := rfl
@[simp] theorem clearAiccColumn_regF (col : Nat) (s : State) : (clearAiccColumn col s).regF = s.regF := rfl
@[simp] theorem clearAiccColumn_ck (col : Nat) (s : State) : (clearAiccColumn col s).ck = s.ck := rfl
@[simp] theorem clearAiccColumn_stats (col : Nat) (s : State) : (clearAiccColumn col s).stats = s.stats := rfl
@[simp] theorem clearAiccColumn_dbkQ (col : Nat) (s : State) : (clearAiccColumn col s).dbkQ = s.dbkQ := rfl
@[simp] theorem clearAiccColumn_fmtPath (col : Nat) (s : State) : (clearAiccColumn col s).fmtPath = s.fmtPath := rfl
@[simp] theorem clearAiccColumn_aicc (col : Nat) (s : State) :
    (clearAiccColumn col s).aicc = s.aicc.modify col fun e => e.map AicSlot.invalidate := rfl
@[simp] theorem clearAiccColumn_acc (col : Nat) (s : State) : (clearAiccColumn col s).acc = s.acc := rfl
@[simp] theorem clearAiccColumn_rrubuf (col : Nat) (s : State) : (clearAiccColumn col s).rrubuf = s.rrubuf := rfl
@[simp] theorem clearAiccColumn_run (col : Nat) (s : State) : (clearAiccColumn col s).run = s.run := rfl
@[simp] theorem clearAiccColumn_mem (col : Nat) (s : State) : (clearAiccColumn col s).mem = s.mem := rfl
@[simp] theorem clearAiccColumn_params (col : Nat) (s : State) : (clearAiccColumn col s).params = s.params := rfl
@[simp] theorem clearAiccColumn_script (col : Nat) (s : State) : (clearAiccColumn col s).script = s.script := rfl
@[simp] theorem clearAiccColumn_readData (col : Nat) (s : State) :
    (clearAiccColumn col s).readData = s.readData := rfl
@[simp] theorem clearAiccColumn_freeCount (col : Nat) (s : State) :
    (clearAiccColumn col s).freeCount = s.freeCount := rfl

/-! ### noteBlock -/

@[simp] theorem noteBlock_ctrl (a : List (BitVec 32)) (p : PatternCase) (s : State) :
    (noteBlock a p s).ctrl = s.ctrl := rfl
@[simp] theorem noteBlock_tablesValid (a : List (BitVec 32)) (p : PatternCase) (s : State) :
    (noteBlock a p s).tablesValid = s.tablesValid := rfl
@[simp] theorem noteBlock_lastCase (a : List (BitVec 32)) (p : PatternCase) (s : State) :
    (noteBlock a p s).lastCase = p := rfl
@[simp] theorem noteBlock_result (a : List (BitVec 32)) (p : PatternCase) (s : State) :
    (noteBlock a p s).result = s.result := rfl
@[simp] theorem noteBlock_fault (a : List (BitVec 32)) (p : PatternCase) (s : State) :
    (noteBlock a p s).fault = s.fault := rfl
@[simp] theorem noteBlock_irq (a : List (BitVec 32)) (p : PatternCase) (s : State) :
    (noteBlock a p s).irq = s.irq := rfl
@[simp] theorem noteBlock_regI (a : List (BitVec 32)) (p : PatternCase) (s : State) :
    (noteBlock a p s).regI = s.regI := rfl
@[simp] theorem noteBlock_regK (a : List (BitVec 32)) (p : PatternCase) (s : State) :
    (noteBlock a p s).regK = s.regK := rfl
@[simp] theorem noteBlock_regD (a : List (BitVec 32)) (p : PatternCase) (s : State) :
    (noteBlock a p s).regD = s.regD := rfl
@[simp] theorem noteBlock_regF (a : List (BitVec 32)) (p : PatternCase) (s : State) :
    (noteBlock a p s).regF = s.regF := rfl
@[simp] theorem noteBlock_ck (a : List (BitVec 32)) (p : PatternCase) (s : State) : (noteBlock a p s).ck = s.ck := rfl
@[simp] theorem noteBlock_stats (a : List (BitVec 32)) (p : PatternCase) (s : State) :
    (noteBlock a p s).stats = s.stats := rfl
@[simp] theorem noteBlock_dbkQ (a : List (BitVec 32)) (p : PatternCase) (s : State) :
    (noteBlock a p s).dbkQ = s.dbkQ := rfl
@[simp] theorem noteBlock_fmtPath (a : List (BitVec 32)) (p : PatternCase) (s : State) :
    (noteBlock a p s).fmtPath = s.fmtPath := rfl
@[simp] theorem noteBlock_aicc (a : List (BitVec 32)) (p : PatternCase) (s : State) :
    (noteBlock a p s).aicc = s.aicc := rfl
@[simp] theorem noteBlock_acc (a : List (BitVec 32)) (p : PatternCase) (s : State) : (noteBlock a p s).acc = a := rfl
@[simp] theorem noteBlock_rrubuf (a : List (BitVec 32)) (p : PatternCase) (s : State) :
    (noteBlock a p s).rrubuf = s.rrubuf := rfl
@[simp] theorem noteBlock_run (a : List (BitVec 32)) (p : PatternCase) (s : State) :
    (noteBlock a p s).run = s.run := rfl
@[simp] theorem noteBlock_mem (a : List (BitVec 32)) (p : PatternCase) (s : State) :
    (noteBlock a p s).mem = s.mem := rfl
@[simp] theorem noteBlock_params (a : List (BitVec 32)) (p : PatternCase) (s : State) :
    (noteBlock a p s).params = s.params := rfl
@[simp] theorem noteBlock_script (a : List (BitVec 32)) (p : PatternCase) (s : State) :
    (noteBlock a p s).script = s.script := rfl
@[simp] theorem noteBlock_readData (a : List (BitVec 32)) (p : PatternCase) (s : State) :
    (noteBlock a p s).readData = s.readData := rfl
@[simp] theorem noteBlock_freeCount (a : List (BitVec 32)) (p : PatternCase) (s : State) :
    (noteBlock a p s).freeCount = s.freeCount := rfl

/-! ### writeAicSlot -/

@[simp] theorem writeAicSlot_ctrl (col b : Nat) (row colv : List Int) (s : State) :
    (writeAicSlot col b row colv s).ctrl = s.ctrl := rfl
@[simp] theorem writeAicSlot_tablesValid (col b : Nat) (row colv : List Int) (s : State) :
    (writeAicSlot col b row colv s).tablesValid = s.tablesValid := rfl
@[simp] theorem writeAicSlot_lastCase (col b : Nat) (row colv : List Int) (s : State) :
    (writeAicSlot col b row colv s).lastCase = s.lastCase := rfl
@[simp] theorem writeAicSlot_result (col b : Nat) (row colv : List Int) (s : State) :
    (writeAicSlot col b row colv s).result = s.result := rfl
@[simp] theorem writeAicSlot_fault (col b : Nat) (row colv : List Int) (s : State) :
    (writeAicSlot col b row colv s).fault = s.fault := rfl
@[simp] theorem writeAicSlot_irq (col b : Nat) (row colv : List Int) (s : State) :
    (writeAicSlot col b row colv s).irq = s.irq := rfl
@[simp] theorem writeAicSlot_regI (col b : Nat) (row colv : List Int) (s : State) :
    (writeAicSlot col b row colv s).regI = s.regI := rfl
@[simp] theorem writeAicSlot_regK (col b : Nat) (row colv : List Int) (s : State) :
    (writeAicSlot col b row colv s).regK = s.regK := rfl
@[simp] theorem writeAicSlot_regD (col b : Nat) (row colv : List Int) (s : State) :
    (writeAicSlot col b row colv s).regD = s.regD := rfl
@[simp] theorem writeAicSlot_regF (col b : Nat) (row colv : List Int) (s : State) :
    (writeAicSlot col b row colv s).regF = s.regF := rfl
@[simp] theorem writeAicSlot_ck (col b : Nat) (row colv : List Int) (s : State) :
    (writeAicSlot col b row colv s).ck = s.ck := rfl
@[simp] theorem writeAicSlot_stats (col b : Nat) (row colv : List Int) (s : State) :
    (writeAicSlot col b row colv s).stats = s.stats := rfl
@[simp] theorem writeAicSlot_dbkQ (col b : Nat) (row colv : List Int) (s : State) :
    (writeAicSlot col b row colv s).dbkQ = s.dbkQ := rfl
@[simp] theorem writeAicSlot_fmtPath (col b : Nat) (row colv : List Int) (s : State) :
    (writeAicSlot col b row colv s).fmtPath = s.fmtPath := rfl
@[simp] theorem writeAicSlot_aicc (col b : Nat) (row colv : List Int) (s : State) :
    (writeAicSlot col b row colv s).aicc = s.aicc.modify col fun e => e.set b { valid := true, row := row, colv := colv } := rfl
@[simp] theorem writeAicSlot_acc (col b : Nat) (row colv : List Int) (s : State) :
    (writeAicSlot col b row colv s).acc = s.acc := rfl
@[simp] theorem writeAicSlot_rrubuf (col b : Nat) (row colv : List Int) (s : State) :
    (writeAicSlot col b row colv s).rrubuf = s.rrubuf := rfl
@[simp] theorem writeAicSlot_run (col b : Nat) (row colv : List Int) (s : State) :
    (writeAicSlot col b row colv s).run = s.run := rfl
@[simp] theorem writeAicSlot_mem (col b : Nat) (row colv : List Int) (s : State) :
    (writeAicSlot col b row colv s).mem = s.mem := rfl
@[simp] theorem writeAicSlot_params (col b : Nat) (row colv : List Int) (s : State) :
    (writeAicSlot col b row colv s).params = s.params := rfl
@[simp] theorem writeAicSlot_script (col b : Nat) (row colv : List Int) (s : State) :
    (writeAicSlot col b row colv s).script = s.script := rfl
@[simp] theorem writeAicSlot_readData (col b : Nat) (row colv : List Int) (s : State) :
    (writeAicSlot col b row colv s).readData = s.readData := rfl
@[simp] theorem writeAicSlot_freeCount (col b : Nat) (row colv : List Int) (s : State) :
    (writeAicSlot col b row colv s).freeCount = s.freeCount := rfl

/-! ### drawn -/

@[simp] theorem drawn_ctrl (s : State) : (drawn s).ctrl = s.ctrl := rfl
@[simp] theorem drawn_tablesValid (s : State) : (drawn s).tablesValid = s.tablesValid := rfl
@[simp] theorem drawn_lastCase (s : State) : (drawn s).lastCase = s.lastCase := rfl
@[simp] theorem drawn_result (s : State) : (drawn s).result = s.result := rfl
@[simp] theorem drawn_fault (s : State) : (drawn s).fault = s.fault := rfl
@[simp] theorem drawn_irq (s : State) : (drawn s).irq = s.irq := rfl
@[simp] theorem drawn_regI (s : State) : (drawn s).regI = s.regI := rfl
@[simp] theorem drawn_regK (s : State) : (drawn s).regK = s.regK := rfl
@[simp] theorem drawn_regD (s : State) : (drawn s).regD = s.regD := rfl
@[simp] theorem drawn_regF (s : State) : (drawn s).regF = s.regF := rfl
@[simp] theorem drawn_ck (s : State) : (drawn s).ck = s.ck := rfl
@[simp] theorem drawn_stats (s : State) : (drawn s).stats = s.stats := rfl
@[simp] theorem drawn_dbkQ (s : State) : (drawn s).dbkQ = s.dbkQ := rfl
@[simp] theorem drawn_fmtPath (s : State) : (drawn s).fmtPath = s.fmtPath := rfl
@[simp] theorem drawn_aicc (s : State) : (drawn s).aicc = s.aicc := rfl
@[simp] theorem drawn_acc (s : State) : (drawn s).acc = s.acc := rfl
@[simp] theorem drawn_rrubuf (s : State) : (drawn s).rrubuf = s.rrubuf := rfl
@[simp] theorem drawn_run (s : State) : (drawn s).run = s.run := rfl
@[simp] theorem drawn_mem (s : State) : (drawn s).mem = s.mem := rfl
@[simp] theorem drawn_params (s : State) : (drawn s).params = s.params := rfl
@[simp] theorem drawn_script (s : State) : (drawn s).script = s.script := rfl
@[simp] theorem drawn_readData (s : State) : (drawn s).readData = s.readData := rfl
@[simp] theorem drawn_freeCount (s : State) : (drawn s).freeCount = s.freeCount + 1 := rfl

end Sys2Proof.Machine
end

