-- ==== Sys2Proof/Laws/Ops.lean ====
section
/-! SUPPORT. One lemma per shared operation that says once what it can do; later proofs cite these and do not unfold the
operations. -/

namespace Sys2Proof.Machine

open Sys2Proof.Config

/-! ### Sequencing -/

theorem Checks.bind_eq_ok {ε α β : Type} {x : Except ε α} {f : α → Except ε β} {b : β} :
    (x >>= f) = .ok b ↔ ∃ a, x = .ok a ∧ f a = .ok b := by
  cases x with
  | error e => simp [bind, Except.bind]
  | ok a => simp [bind, Except.bind]

@[simp] theorem Checks.ok_bind {ε α β : Type} (a : α) (f : α → Except ε β) : (Except.ok a >>= f) = f a := rfl

@[simp] theorem Checks.error_bind {ε α β : Type} (e : ε) (f : α → Except ε β) :
    ((Except.error e : Except ε α) >>= f) = .error e := rfl

/-! ### Accesses (20_memory.md R75, R76) -/

/-- An access of n bytes at a passes its checks. -/
abbrev accessible (s : State) (a : Int) (n : Nat) : Prop :=
  0 ≤ a ∧ a + n ≤ (s.params.memSize : Int) ∧ a % n = 0

theorem access_eq_ok {s : State} {a : Int} {n x : Nat} :
    access s a n = .ok x ↔ accessible s a n ∧ x = a.toNat := by
  unfold access
  split
  · simp only [reduceCtorEq, false_iff, not_and]; omega
  · split
    · next h => simp only [reduceCtorEq, false_iff, not_and]; intro hc; exact absurd hc.2.2 h
    · next h1 h2 =>
      simp only [Except.ok.injEq]
      constructor
      · rintro rfl; exact ⟨⟨by omega, by omega, not_not.1 h2⟩, rfl⟩
      · rintro ⟨-, rfl⟩; rfl

/-- A byte access passes its checks when the byte exists. -/
theorem accessible_one {s : State} {a : Int} : accessible s a 1 ↔ 0 ≤ a ∧ a < (s.params.memSize : Int) := by
  unfold accessible; omega

theorem accessible_nat {s : State} {a n : Nat} :
    accessible s (a : Int) n ↔ a + n ≤ s.params.memSize ∧ a % n = 0 := by
  unfold accessible; omega

theorem access_of_accessible {s : State} {a : Int} {n : Nat} (h : accessible s a n) : access s a n = .ok a.toNat :=
  access_eq_ok.2 ⟨h, rfl⟩

theorem accessAll_eq_ok {s : State} {n : Nat} {l : List Int} {xs : List Nat} :
    accessAll s n l = .ok xs ↔ (∀ a ∈ l, accessible s a n) ∧ xs = l.map Int.toNat := by
  induction l generalizing xs with
  | nil => simp [accessAll, eq_comm]
  | cons a l ih =>
    simp only [accessAll, Checks.bind_eq_ok, access_eq_ok, ih, Except.ok.injEq, List.mem_cons, forall_eq_or_imp,
      List.map_cons]
    constructor
    · rintro ⟨x, ⟨ha, rfl⟩, ys, ⟨hl, rfl⟩, rfl⟩; exact ⟨⟨ha, hl⟩, rfl⟩
    · rintro ⟨⟨ha, hl⟩, rfl⟩; exact ⟨_, ⟨ha, rfl⟩, _, ⟨hl, rfl⟩, rfl⟩

theorem memRead_eq_ok {s : State} {a : Int} {n v : Nat} :
    memRead s a n = .ok v ↔ accessible s a n ∧ v = s.mem.readLE a.toNat n := by
  simp only [memRead, Checks.bind_eq_ok, access_eq_ok, Except.ok.injEq]
  constructor
  · rintro ⟨x, ⟨h, rfl⟩, rfl⟩; exact ⟨h, rfl⟩
  · rintro ⟨h, rfl⟩; exact ⟨_, ⟨h, rfl⟩, rfl⟩

/-- A word read at an aligned address that exists. -/
theorem memRead_word {s : State} {a : Nat} (h : a % 4 = 0) (h' : a + 4 ≤ s.params.memSize) :
    memRead s (a : Int) 4 = .ok (s.mem.readLE a 4) :=
  memRead_eq_ok.2 ⟨accessible_nat.2 ⟨h', h⟩, by simp⟩

theorem memReadAll_eq_ok {s : State} {n : Nat} {l : List Int} {xs : List Nat} :
    memReadAll s n l = .ok xs ↔
      (∀ a ∈ l, accessible s a n) ∧ xs = l.map fun a => s.mem.readLE a.toNat n := by
  induction l generalizing xs with
  | nil => simp [memReadAll, eq_comm]
  | cons a l ih =>
    simp only [memReadAll, Checks.bind_eq_ok, memRead_eq_ok, ih, Except.ok.injEq, List.mem_cons, forall_eq_or_imp,
      List.map_cons]
    constructor
    · rintro ⟨x, ⟨ha, rfl⟩, ys, ⟨hl, rfl⟩, rfl⟩; exact ⟨⟨ha, hl⟩, rfl⟩
    · rintro ⟨⟨ha, hl⟩, rfl⟩; exact ⟨_, ⟨ha, rfl⟩, _, ⟨hl, rfl⟩, rfl⟩

theorem memWrite_eq_ok {s t : State} {a : Int} {n v : Nat} :
    memWrite s a n v = .ok t ↔ accessible s a n ∧ t = s.store (bytesLE a.toNat n v) := by
  simp only [memWrite, Checks.bind_eq_ok, access_eq_ok, Except.ok.injEq]
  constructor
  · rintro ⟨x, ⟨h, rfl⟩, rfl⟩; exact ⟨h, rfl⟩
  · rintro ⟨h, rfl⟩; exact ⟨_, ⟨h, rfl⟩, rfl⟩

/-! ### Checking everything, then storing (20_memory.md R84) -/

theorem zip_map_fst_snd {α β γ : Type} (f : α → γ) (l : List (α × β)) :
    ((l.map (·.1)).map f).zip (l.map (·.2)) = l.map fun p => (f p.1, p.2) := by
  induction l with
  | nil => rfl
  | cons p l ih => simpa using ih

/-- The bytes a list of items stores, in order. -/
def itemBytes (items : List (Int × List Byte)) : List (Nat × Byte) :=
  items.flatMap fun p => placed p.1.toNat p.2

theorem checkThenStore_eq_ok {s t : State} {n : Nat} {items : List (Int × List Byte)} :
    checkThenStore s n items = .ok t ↔
      (∀ p ∈ items, accessible s p.1 n) ∧ t = s.store (itemBytes items) := by
  have hz := zip_map_fst_snd Int.toNat items
  have hm : (((items.map (·.1)).map Int.toNat).zip (items.map (·.2))).flatMap (fun p => placed p.1 p.2) =
      itemBytes items := by
    rw [hz, itemBytes, List.flatMap_map]
  simp only [checkThenStore, Checks.bind_eq_ok, accessAll_eq_ok, Except.ok.injEq, List.forall_mem_map]
  constructor
  · rintro ⟨xs, ⟨h, rfl⟩, rfl⟩; exact ⟨h, by rw [hm]⟩
  · rintro ⟨h, rfl⟩; exact ⟨_, ⟨h, rfl⟩, by rw [hm]⟩

theorem checkThenStore_of_accessible {s : State} {n : Nat} {items : List (Int × List Byte)}
    (h : ∀ p ∈ items, accessible s p.1 n) : checkThenStore s n items = .ok (s.store (itemBytes items)) :=
  checkThenStore_eq_ok.2 ⟨h, rfl⟩

/-- Memory after items are stored in order, each reading what those before it stored. -/
def copyItems (items : List (Int × (Memory → List Byte))) (m : Memory) : Memory :=
  items.foldl (fun m p => m.writeAll (placed p.1.toNat (p.2 m))) m

theorem checkThenCopy_eq_ok {s t : State} {n : Nat} {items : List (Int × (Memory → List Byte))} :
    checkThenCopy s n items = .ok t ↔
      (∀ p ∈ items, accessible s p.1 n) ∧ t = { s with mem := copyItems items s.mem } := by
  have hz := zip_map_fst_snd Int.toNat items
  have hm : (((items.map (·.1)).map Int.toNat).zip (items.map (·.2))).foldl
      (fun m p => m.writeAll (placed p.1 (p.2 m))) s.mem = copyItems items s.mem := by
    rw [hz, copyItems, List.foldl_map]
  simp only [checkThenCopy, Checks.bind_eq_ok, accessAll_eq_ok, Except.ok.injEq, List.forall_mem_map]
  constructor
  · rintro ⟨xs, ⟨h, rfl⟩, rfl⟩; exact ⟨h, by rw [hm]⟩
  · rintro ⟨h, rfl⟩; exact ⟨_, ⟨h, rfl⟩, by rw [hm]⟩

theorem placed_fst (a : Nat) (l : List Byte) : (placed a l).map (·.1) = (List.range l.length).map (a + ·) := by
  apply List.ext_getElem
  · simp [placed]
  · intro i h1 h2; simp [placed]

@[simp] theorem placed_one (a : Nat) (v : Byte) : placed a [v] = [(a, v)] := rfl

@[simp] theorem placed_two (a : Nat) (v w : Byte) : placed a [v, w] = [(a, v), (a + 1, w)] := rfl

/-- One-byte items are the bytes stored. -/
theorem itemBytes_bytes (l : List (Int × Byte)) :
    itemBytes (l.map fun p => (p.1, [p.2])) = l.map fun p => (p.1.toNat, p.2) := by
  induction l <;> simp_all [itemBytes]

/-! ### Checks that end a command -/

@[simp] theorem raiseIf_eq_ok {c : Prop} [Decidable c] {name : FaultName} {info : Int} {u : Unit} :
    raiseIf c name info = .ok u ↔ ¬c := by
  unfold raiseIf; split <;> simp_all

@[simp] theorem needTables_eq_ok {s : State} {u : Unit} : needTables s = .ok u ↔ s.tablesValid = true := by
  unfold needTables; split <;> simp_all

theorem needTables_of_valid {s : State} (h : s.tablesValid = true) : needTables s = .ok () :=
  needTables_eq_ok.2 h

theorem raiseIf_of_not {c : Prop} [Decidable c] (h : ¬c) (name : FaultName) (info : Int) :
    raiseIf c name info = .ok () :=
  raiseIf_eq_ok.2 h

theorem checkEach_eq_ok {α : Type} {f : α → Except Raise Unit} {l : List α} {u : Unit} :
    checkEach f l = .ok u ↔ ∀ a ∈ l, f a = .ok () := by
  induction l with
  | nil => simp [checkEach]
  | cons a l ih =>
    simp only [checkEach, Checks.bind_eq_ok, ih, List.mem_cons, forall_eq_or_imp]
    constructor
    · rintro ⟨v, h, h'⟩; exact ⟨h, h'⟩
    · rintro ⟨h, h'⟩; exact ⟨(), h, h'⟩

/-- What the end of a command can be: OK with the effect, or the fault on the state the command started in. -/
theorem endCommand_cases {s t : State} {r : Except Raise State} (h : endCommand s r = .next t) :
    (∃ u, r = .ok u ∧ t = finish .ok u) ∨ ∃ e, r = .error e ∧ t = raise e s := by
  cases r with
  | ok u => left; exact ⟨u, rfl, by simpa [endCommand] using h.symm⟩
  | error e => right; exact ⟨e, rfl, by simpa [endCommand] using h.symm⟩

@[simp] theorem endCommand_ok (s t : State) : endCommand s (.ok t) = .next (finish .ok t) := rfl

@[simp] theorem endCommand_error (s : State) (e : Raise) : endCommand s (.error e) = .next (raise e s) := rfl

theorem endCommand_next (s : State) (r : Except Raise State) : ∃ t, endCommand s r = .next t := by
  cases r <;> exact ⟨_, rfl⟩

end Sys2Proof.Machine
end

