-- ==== Sys2Proof/Laws/Operands.lean ====
section
/-! SUPPORT. What reading the operand forms can do: each read passes exactly when its words exist, and gives what
Safety names. -/

namespace Sys2Proof.Machine

open Sys2Proof.Config Sys2Proof.Safety

/-! ### Words and planes (30_encoding.md R112, R113) -/

theorem memRead_word_eq_ok {s : State} {a v : Nat} : memRead s (a : Int) 4 = .ok v ↔ wordAt s a ∧ v = word s a := by
  rw [memRead_eq_ok, accessible_nat]
  simp only [wordAt, word, Int.toNat_natCast, and_comm]

/-- The four words of a PlaneDescr. -/
theorem readPlane_eq_ok {s : State} {a : Nat} {p : Plane} :
    readPlane s a = .ok p ↔ a % 4 = 0 ∧ a + 16 ≤ s.params.memSize ∧ p = planeAt s a := by
  have h4 : ((a : Int) + 4) = ((a + 4 : Nat) : Int) := by push_cast; ring
  have h8 : ((a : Int) + 8) = ((a + 8 : Nat) : Int) := by push_cast; ring
  have h12 : ((a : Int) + 12) = ((a + 12 : Nat) : Int) := by push_cast; ring
  simp only [readPlane, h4, h8, h12, Checks.bind_eq_ok, memRead_word_eq_ok, Except.ok.injEq, wordAt]
  constructor
  · rintro ⟨b, ⟨h1, rfl⟩, w, ⟨h2, rfl⟩, h, ⟨h3, rfl⟩, st, ⟨h5, rfl⟩, rfl⟩
    exact ⟨by omega, by omega, rfl⟩
  · rintro ⟨h1, h2, rfl⟩
    exact ⟨_, ⟨by omega, rfl⟩, _, ⟨by omega, rfl⟩, _, ⟨by omega, rfl⟩, _, ⟨by omega, rfl⟩, rfl⟩

theorem readChroma_eq_ok {s : State} {a : Nat} {color : Bool} {r : Plane × Plane} (ha : a % 4 = 0) :
    readChroma s a color = .ok r ↔ (color = true → a + 48 ≤ s.params.memSize) ∧
      r = ((pictureAt s a color).cb, (pictureAt s a color).cr) := by
  cases color with
  | false => simp [readChroma, pictureAt, eq_comm]
  | true =>
    simp only [readChroma, if_true, Checks.bind_eq_ok, readPlane_eq_ok, Except.ok.injEq, pictureAt, true_imp_iff]
    constructor
    · rintro ⟨cb, ⟨h1, h2, rfl⟩, cr, ⟨h3, h4, rfl⟩, rfl⟩; exact ⟨by omega, rfl⟩
    · rintro ⟨h, rfl⟩; exact ⟨_, ⟨by omega, by omega, rfl⟩, _, ⟨by omega, by omega, rfl⟩, rfl⟩

/-- A picture with its own COLOR flag. -/
theorem readPicture_eq_ok {s : State} {a : Nat} {r : Picture × Bool} :
    readPicture s a = .ok r ↔ pictureReadable s a ∧ r = (pictureAt s a (colorAt s a), colorAt s a) := by
  have h48 : ((a : Int) + 48) = ((a + 48 : Nat) : Int) := by push_cast; ring
  simp only [readPicture, h48, Checks.bind_eq_ok, readPlane_eq_ok, memRead_word_eq_ok, Except.ok.injEq, pictureReadable,
    wordAt]
  constructor
  · rintro ⟨y, ⟨h1, h2, rfl⟩, f, ⟨h3, rfl⟩, c, hc, rfl⟩
    obtain ⟨-, rfl⟩ := (readChroma_eq_ok h1).1 hc
    exact ⟨⟨h1, by omega⟩, rfl⟩
  · rintro ⟨⟨h1, h2⟩, rfl⟩
    exact ⟨_, ⟨h1, by omega, rfl⟩, _, ⟨by omega, rfl⟩, _, (readChroma_eq_ok h1).2 ⟨fun _ => by omega, rfl⟩, rfl⟩

/-- A picture with another picture's COLOR flag. -/
theorem readPlanes_eq_ok {s : State} {a : Nat} {color : Bool} {p : Picture} :
    readPlanes s a color = .ok p ↔
      a % 4 = 0 ∧ a + planesLength color ≤ s.params.memSize ∧ p = pictureAt s a color := by
  simp only [readPlanes, Checks.bind_eq_ok, readPlane_eq_ok, Except.ok.injEq]
  constructor
  · rintro ⟨y, ⟨h1, h2, rfl⟩, c, hc, rfl⟩
    obtain ⟨hb, rfl⟩ := (readChroma_eq_ok h1).1 hc
    refine ⟨h1, ?_, rfl⟩
    cases color
    · simpa [planesLength] using h2
    · simpa [planesLength] using hb rfl
  · rintro ⟨h1, h2, rfl⟩
    refine ⟨_, ⟨h1, ?_, rfl⟩, _, (readChroma_eq_ok h1).2 ⟨?_, rfl⟩, rfl⟩
    · revert h2; cases color <;> simp [planesLength]; omega
    · rintro rfl; simpa [planesLength] using h2

@[simp] theorem checkStride_eq_ok {p : Plane} {a : Nat} {u : Unit} : checkStride p a = .ok u ↔ p.width ≤ p.stride := by
  simp only [checkStride, raiseIf_eq_ok, not_lt]

/-- The extent check. -/
theorem checkExtent_eq_ok {s : State} {p : Plane} {w h : Nat} {u : Unit} :
    checkExtent s p w h = .ok u ↔ (0 < h → p.base + (h - 1) * p.stride + w ≤ s.params.memSize) := by
  simp only [checkExtent, raiseIf_eq_ok, not_and, not_lt]
  refine imp_congr_right fun hh => ?_
  obtain ⟨n, rfl⟩ : ∃ n, h = n + 1 := ⟨h - 1, by omega⟩
  simp only [Nat.add_sub_cancel]
  have : ((n + 1 : Nat) : Int) - 1 = (n : Int) := by push_cast; ring
  rw [this, ← Int.ofNat_le]
  push_cast; rfl

/-- A plane's sample lies within its extent. -/
theorem Plane.at_lt {s : State} {p : Plane} {w h x y : Nat} (he : p.base + (h - 1) * p.stride + w ≤ s.params.memSize)
    (hx : x < w) (hy : y < h) : p.at x y < s.params.memSize := by
  have : y * p.stride ≤ (h - 1) * p.stride := Nat.mul_le_mul_right _ (by omega)
  simp only [Plane.at]; omega

/-- The samples of a plane have addresses of their own. -/
theorem Plane.at_inj {p : Plane} {w x y x' y' : Nat} (hw : w ≤ p.stride) (hx : x < w) (hx' : x' < w)
    (e : p.at x y = p.at x' y') : x = x' ∧ y = y' := by
  simp only [Plane.at] at e
  have hst : 0 < p.stride := by omega
  have e1 : y * p.stride + x = y' * p.stride + x' := by omega
  have hy : y = y' := by
    have := congrArg (· / p.stride) e1
    simpa [Nat.add_comm (_ * p.stride), Nat.add_mul_div_right _ _ hst, Nat.div_eq_of_lt (by omega : x < p.stride),
      Nat.div_eq_of_lt (by omega : x' < p.stride)] using this
  subst hy
  exact ⟨by omega, rfl⟩

/-! ### Descriptors (30_encoding.md R114 to R125) -/

theorem readGob_eq_ok {s : State} {g : GobDescr} :
    readGob s s.regD.gobPtr.toNat = .ok g ↔
      (s.regD.gobPtr.toNat % 4 = 0 ∧ s.regD.gobPtr.toNat + 12 ≤ s.params.memSize) ∧ g = gobAt s := by
  generalize ha : s.regD.gobPtr.toNat = a
  have h4 : ((a : Int) + 4) = ((a + 4 : Nat) : Int) := by push_cast; ring
  have h8 : ((a : Int) + 8) = ((a + 8 : Nat) : Int) := by push_cast; ring
  simp only [readGob, h4, h8, Checks.bind_eq_ok, memRead_word_eq_ok, Except.ok.injEq, wordAt, gobAt, ha]
  constructor
  · rintro ⟨w0, ⟨h1, rfl⟩, w1, ⟨h2, rfl⟩, w2, ⟨h3, rfl⟩, rfl⟩; exact ⟨by omega, rfl⟩
  · rintro ⟨h, rfl⟩; exact ⟨_, ⟨by omega, rfl⟩, _, ⟨by omega, rfl⟩, _, ⟨by omega, rfl⟩, rfl⟩

/-- The descriptor at d can be read whole. -/
abbrev descrAt (s : State) (d : Nat) : Prop := d % 4 = 0 ∧ d + 128 ≤ s.params.memSize

theorem mbWord_ok {s : State} {d k : Nat} (h : descrAt s d) (hk : k < 32) : mbWord s d k = .ok (word s (d + 4 * k)) := by
  have : ((d : Int) + 4 * k) = ((d + 4 * k : Nat) : Int) := by push_cast; ring
  rw [mbWord, this, memRead_word_eq_ok]
  exact ⟨⟨by omega, by omega⟩, rfl⟩

end Sys2Proof.Machine
end

