-- ==== Sys2Proof/Laws/UnitI.lean ====
section
/-! SUPPORT. What the stages and the bodies of unit I can do: each either fails its checks or has exactly one effect. -/

namespace Sys2Proof.Machine

open Sys2Proof.Config Sys2Proof.Safety

/-! ### Rectangles -/

theorem mem_grid {w h : Nat} {p : Nat × Nat} : p ∈ grid w h ↔ p.1 < w ∧ p.2 < h := by
  obtain ⟨x, y⟩ := p
  simp only [grid, List.mem_flatMap, List.mem_range, List.mem_map, Prod.mk.injEq]
  constructor
  · rintro ⟨b, hb, a, ha, rfl, rfl⟩; exact ⟨ha, hb⟩
  · rintro ⟨hx, hy⟩; exact ⟨y, hy, x, hx, rfl, rfl⟩

theorem grid_nodup (w h : Nat) : (grid w h).Nodup := by
  rw [grid, List.nodup_flatMap]
  refine ⟨fun y _ => List.nodup_range.map fun a b e => (Prod.mk.inj e).1, ?_⟩
  refine List.nodup_range.imp fun {a b} hab => ?_
  simp only [Function.onFun, List.disjoint_left, List.mem_map, List.mem_range]
  rintro _ ⟨x, _, rfl⟩ ⟨x', _, e⟩
  exact hab (Prod.mk.inj e).2.symm

theorem length_grid (w h : Nat) : (grid w h).length = w * h := by
  simp [grid, List.length_flatMap, Nat.mul_comm]

/-- Items of `size` bytes a row of n apart do not share an address. -/
theorem cell_inj {top stride size n : Nat} (h : size * n ≤ stride) (hs : 0 < size) {p q : Nat × Nat} (hp : p.1 < n)
    (hq : q.1 < n) {i j : Nat} (hi : i < size) (hj : j < size) (e : cell top stride size p + i = cell top stride size q + j) :
    p = q ∧ i = j := by
  obtain ⟨x, y⟩ := p
  obtain ⟨x', y'⟩ := q
  simp only [cell] at e hp hq
  have hx : size * x + i < stride := by
    have : size * (x + 1) ≤ size * n := Nat.mul_le_mul_left _ hp
    rw [Nat.mul_add] at this; omega
  have hx' : size * x' + j < stride := by
    have : size * (x' + 1) ≤ size * n := Nat.mul_le_mul_left _ hq
    rw [Nat.mul_add] at this; omega
  have e1 : y * stride + (size * x + i) = y' * stride + (size * x' + j) := by omega
  have hst : 0 < stride := by omega
  have hy : y = y' := by
    have := congrArg (· / stride) e1
    simpa [Nat.add_comm (_ * stride), Nat.add_mul_div_right _ _ hst, Nat.div_eq_of_lt hx, Nat.div_eq_of_lt hx'] using this
  subst hy
  have e2 : size * x + i = size * x' + j := by omega
  have hxx : x = x' := by
    have := congrArg (· / size) e2
    simpa [Nat.mul_add_div hs, Nat.div_eq_of_lt hi, Nat.div_eq_of_lt hj] using this
  subst hxx
  exact ⟨rfl, by omega⟩

/-- A square in memory: every item exists. -/
theorem cell_le {top stride size n m : Nat} (h : top + (n - 1) * stride + size * n ≤ m) {p : Nat × Nat} (hp : p ∈ grid n n) :
    cell top stride size p + size ≤ m := by
  obtain ⟨hx, hy⟩ := mem_grid.1 hp
  have h1 : p.2 * stride ≤ (n - 1) * stride := Nat.mul_le_mul_right _ (by omega)
  have h2 : size * (p.1 + 1) ≤ size * n := Nat.mul_le_mul_left _ hx
  rw [Nat.mul_add] at h2
  simp only [cell]; omega

/-- The items of a rectangle no wider than the stride have different addresses. -/
theorem cells_nodup {top stride size n h : Nat} (hs : size * n ≤ stride) (hp : 0 < size) :
    ((grid n h).map (cell top stride size)).Nodup := by
  refine (List.nodup_map_iff_inj_on (grid_nodup n h)).2 fun p hp' q hq' e => ?_
  exact (cell_inj hs hp (mem_grid.1 hp').1 (mem_grid.1 hq').1 hp hp (i := 0) (j := 0) (by simpa using e)).1

/-! ### The walk (40_idct_engine.md R148) -/

/-- The scan position from which symbol k counts its SKIP. -/
def symBase (m : Memory) (sp : Nat) : Nat → Nat
  | 0 => 0
  | k + 1 => symPos m sp k + 1

theorem symPos_eq (m : Memory) (sp k : Nat) : symPos m sp k = symBase m sp k + symSkip m sp k := by
  cases k <;> simp [symPos, symBase]

theorem walkFrom_eq_ok {s : State} {b : BlockArgs} {scan n k : Nat} {l : List Walked} :
    walkFrom s b.symPtr b.quant b.dc8 scan n k (symBase s.mem b.symPtr k) = .ok l ↔
      (∀ i < n, accessible s ((b.symPtr + 4 * (k + i) : Nat) : Int) 4 ∧ symPos s.mem b.symPtr (k + i) ≤ 63) ∧
        l = (List.range n).map fun i => symbolAt s.params.tables s.mem b scan (k + i) := by
  induction n generalizing k l with
  | zero => simp [walkFrom, eq_comm]
  | succ n ih =>
    have hpos := symPos_eq s.mem b.symPtr k
    have hbase : symBase s.mem b.symPtr k + field (s.mem.readLE (b.symPtr + 4 * k) 4) 16 16 + 1 =
        symBase s.mem b.symPtr (k + 1) := by
      simp only [symBase, hpos, symSkip]
    have hrange : (List.range (n + 1)).map (fun i => symbolAt s.params.tables s.mem b scan (k + i)) =
        symbolAt s.params.tables s.mem b scan k :: (List.range n).map fun i => symbolAt s.params.tables s.mem b scan (k + 1 + i) := by
      rw [List.range_succ_eq_map, List.map_cons, List.map_map]
      simp only [Nat.add_zero, List.cons.injEq, true_and]
      refine List.map_congr_left fun i _ => ?_
      simp only [Function.comp_apply]; congr 1; omega
    have hcast : ((b.symPtr + 4 * k : Nat) : Int) = (b.symPtr : Int) + 4 * (k : Int) := by push_cast; ring
    simp only [walkFrom, Checks.bind_eq_ok, memRead_eq_ok, raiseIf_eq_ok, ← hcast, Int.toNat_natCast]
    constructor
    · rintro ⟨w, ⟨hacc, rfl⟩, u, hle, l', hl', h⟩
      rw [hbase] at hl'
      obtain ⟨hall, rfl⟩ := ih.1 hl'
      refine ⟨fun i hi => ?_, ?_⟩
      · rcases Nat.eq_zero_or_pos i with rfl | hi0
        · refine ⟨hacc, ?_⟩
          rw [Nat.add_zero, hpos]; simpa [symSkip] using hle
        · have := hall (i - 1) (by omega)
          rwa [show k + 1 + (i - 1) = k + i by omega] at this
      · rw [hrange]
        simp only [Except.ok.injEq] at h
        rw [← h]
        congr 1
        simp only [symbolAt, symSkip, symAmp, hpos]
    · rintro ⟨hall, rfl⟩
      have h0 := hall 0 (by omega)
      rw [Nat.add_zero] at h0
      refine ⟨_, ⟨h0.1, rfl⟩, (), ?_, (List.range n).map fun i => symbolAt s.params.tables s.mem b scan (k + 1 + i), ?_, ?_⟩
      · have := h0.2; rw [hpos] at this; simpa [symSkip] using this
      · rw [hbase]
        refine ih.2 ⟨fun i hi => ?_, rfl⟩
        have := hall (i + 1) (by omega)
        rwa [show k + (i + 1) = k + 1 + i by omega] at this
      · rw [hrange]
        simp only [symbolAt, symSkip, symAmp, hpos]

/-- The walk of a block: it passes exactly when its symbols are sound, and yields them. -/
theorem walkSymbols_eq_ok {s : State} {b : BlockArgs} {scan : Nat} {l : List Walked} (hn : b.count ≤ 64) :
    walkSymbols s b.symPtr b.count b.quant b.dc8 scan = .ok l ↔ symbolsSound s b ∧ l = symbols s.params.tables s.mem b scan := by
  have h := walkFrom_eq_ok (s := s) (b := b) (scan := scan) (n := b.count) (k := 0) (l := l)
  simp only [symBase, Nat.zero_add] at h
  rw [walkSymbols, h]
  refine and_congr ?_ (by rw [symbols])
  simp only [symbolsSound, hn, true_and, accessible_nat]
  constructor
  · intro hall
    refine ⟨fun hpos => ?_, fun k hk => (hall k hk).2⟩
    have h0 := (hall 0 hpos).1
    have h1 := (hall (b.count - 1) (by omega)).1
    omega
  · rintro ⟨h1, h2⟩ k hk
    have := h1 (by omega)
    exact ⟨by omega, h2 k hk⟩

@[simp] theorem checkQuantCount_eq_ok {q n : Nat} {u : Unit} :
    checkQuantCount q n = .ok u ↔ 1 ≤ q ∧ q ≤ 31 ∧ n ≤ 64 := by
  simp only [checkQuantCount, Checks.bind_eq_ok, raiseIf_eq_ok]
  constructor
  · rintro ⟨_, h1, h2⟩; omega
  · intro h; exact ⟨(), by omega, by omega⟩

/-- The checks and the walk of a plain block. -/
theorem walkBlock_eq_ok {s : State} {b : BlockArgs} {l : List Walked} :
    walkBlock s b = .ok l ↔ blockSound s b ∧ l = symbols s.params.tables s.mem b 0 := by
  simp only [walkBlock, Checks.bind_eq_ok, needTables_eq_ok, checkQuantCount_eq_ok]
  constructor
  · rintro ⟨_, ht, _, ⟨h1, h2, h3⟩, hw⟩
    obtain ⟨hs, rfl⟩ := (walkSymbols_eq_ok h3).1 hw
    exact ⟨⟨ht, h1, h2, hs⟩, rfl⟩
  · rintro ⟨⟨ht, h1, h2, hs⟩, rfl⟩
    exact ⟨(), ht, (), ⟨h1, h2, hs.1⟩, (walkSymbols_eq_ok hs.1).2 ⟨hs, rfl⟩⟩

/-! ### The bodies (R152, R156, R158, R178, R160) -/

theorem blockAddrs_nat (top stride size : Nat) :
    blockAddrs (top : Int) stride size = (grid 8 8).map fun p => ((cell top stride size p : Nat) : Int) := by
  simp only [blockAddrs]
  refine List.map_congr_left fun p _ => ?_
  simp only [cell]; push_cast; ring

theorem zip_self_map {α β γ : Type} (f : α → β) (g : α → γ) (l : List α) :
    (l.map f).zip (l.map g) = l.map fun a => (f a, g a) := by
  induction l <;> simp_all

theorem zip_map_self_map {α β γ : Type} (f : α → β) (g : β × α → γ) (l : List α) :
    ((l.map f).zip l).map g = l.map fun a => g (f a, a) := by
  induction l <;> simp_all

/-- Every byte of a square exists. -/
theorem squareIn_iff {s : State} {top stride size n : Nat} (hn : 0 < n) :
    squareIn s top stride size n ↔ ∀ p ∈ grid n n, cell top stride size p + size ≤ s.params.memSize := by
  constructor
  · intro h p hp; exact cell_le h hp
  · intro h
    have := h (n - 1, n - 1) (mem_grid.2 ⟨by simp; omega, by simp; omega⟩)
    simp only [cell] at this
    have e : size * n = size * (n - 1) + size := by
      obtain ⟨m, rfl⟩ : ∃ m, n = m + 1 := ⟨n - 1, by omega⟩
      simp [Nat.mul_add]
    simp only [squareIn]; omega

/-- Bytes stored one by one after their checks. -/
theorem checkThenStore_bytes {α : Type} {s t : State} {l : List α} {f : α → Nat} {v : α → Byte} :
    checkThenStore s 1 (l.map fun p => (((f p : Nat) : Int), [v p])) = .ok t ↔
      (∀ p ∈ l, f p + 1 ≤ s.params.memSize) ∧ t = s.store (l.map fun p => (f p, v p)) := by
  rw [checkThenStore_eq_ok]
  have hb : itemBytes (l.map fun p => (((f p : Nat) : Int), [v p])) = l.map fun p => (f p, v p) := by
    have := itemBytes_bytes (l.map fun p => (((f p : Nat) : Int), v p))
    simpa [List.map_map, Function.comp_def] using this
  rw [hb]
  refine and_congr_left fun _ => ?_
  simp only [List.forall_mem_map, accessible_nat, Nat.mod_one, and_true]

/-- Bytes read one by one. -/
theorem memReadAll_bytes {α : Type} {s : State} {l : List α} {f : α → Nat} {v : List Nat} :
    memReadAll s 1 (l.map fun p => ((f p : Nat) : Int)) = .ok v ↔
      (∀ p ∈ l, f p + 1 ≤ s.params.memSize) ∧ v = l.map fun p => (s.mem.read (f p)).toNat := by
  rw [memReadAll_eq_ok]
  simp only [List.map_map, List.forall_mem_map, accessible_nat, Nat.mod_one, and_true]
  refine and_congr_right fun _ => ?_
  rw [List.map_congr_left (g := fun p => (s.mem.read (f p)).toNat) fun p _ => ?_]
  simp [Memory.readLE]

/-- A square of bytes stored after its checks. -/
theorem checkThenStore_square {s t : State} {top stride : Nat} {v : Nat × Nat → Byte} :
    checkThenStore s 1 ((blockAddrs top stride 1).zip ((grid 8 8).map fun p => [v p])) = .ok t ↔
      squareIn s top stride 1 8 ∧ t = s.store ((grid 8 8).map fun p => (cell top stride 1 p, v p)) := by
  rw [blockAddrs_nat, zip_self_map, checkThenStore_bytes, squareIn_iff (by decide)]

theorem reconBody_eq_ok {b : BlockArgs} {dest stride : Nat} {s t : State} :
    reconBody b dest stride s = .ok t ↔ blockSound s b ∧ squareIn s dest stride 1 8 ∧
      t = noteBlock (superpose s.params.tables (coefs (symbols s.params.tables s.mem b 0))) (caseOf (symbols s.params.tables s.mem b 0))
        (s.store (blockSamples dest stride (superpose s.params.tables (coefs (symbols s.params.tables s.mem b 0))) fun _ => 0)) := by
  simp only [reconBody, Checks.bind_eq_ok, walkBlock_eq_ok, Except.ok.injEq]
  constructor
  · rintro ⟨l, ⟨hb, rfl⟩, u, hu, rfl⟩
    obtain ⟨hs, rfl⟩ := checkThenStore_square.1 hu
    exact ⟨hb, hs, by simp [blockSamples, coefs, caseOf]⟩
  · rintro ⟨hb, hs, rfl⟩
    exact ⟨_, ⟨hb, rfl⟩, _, checkThenStore_square.2 ⟨hs, rfl⟩, by simp [blockSamples, coefs, caseOf]⟩

/-- The bytes of a square read one by one. -/
theorem memReadAll_square {s : State} {top stride : Nat} {v : List Nat} :
    memReadAll s 1 (blockAddrs top stride 1) = .ok v ↔
      squareIn s top stride 1 8 ∧ v = (grid 8 8).map fun p => (s.mem.read (cell top stride 1 p)).toNat := by
  rw [blockAddrs_nat, memReadAll_bytes, squareIn_iff (by decide)]

theorem reconAddBody_eq_ok {b : BlockArgs} {pred dest stride : Nat} {s t : State} :
    reconAddBody b pred dest stride s = .ok t ↔
      blockSound s b ∧ squareIn s pred stride 1 8 ∧ squareIn s dest stride 1 8 ∧
      t = noteBlock (superpose s.params.tables (coefs (symbols s.params.tables s.mem b 0))) (caseOf (symbols s.params.tables s.mem b 0))
        (s.store (blockSamples dest stride (superpose s.params.tables (coefs (symbols s.params.tables s.mem b 0)))
          fun p => (s.mem.read (cell pred stride 1 p)).toNat)) := by
  simp only [reconAddBody, Checks.bind_eq_ok, walkBlock_eq_ok, memReadAll_square, Except.ok.injEq]
  constructor
  · rintro ⟨l, ⟨hb, rfl⟩, v, ⟨hp, rfl⟩, u, hu, rfl⟩
    rw [zip_map_self_map] at hu
    obtain ⟨hs, rfl⟩ := (checkThenStore_square (v := fun p => sampleByte _)).1 hu
    exact ⟨hb, hp, hs, by simp [blockSamples, coefs, caseOf]⟩
  · rintro ⟨hb, hp, hs, rfl⟩
    refine ⟨_, ⟨hb, rfl⟩, _, ⟨hp, rfl⟩, _, ?_, rfl⟩
    rw [zip_map_self_map]
    exact (checkThenStore_square (v := fun p => sampleByte _)).2 ⟨hs, by simp [blockSamples, coefs]⟩

theorem reconS16Body_eq_ok {b : BlockArgs} {dest stride : Nat} {s t : State} :
    reconS16Body b dest stride s = .ok t ↔ blockSound s b ∧
      (∀ p ∈ grid 8 8, cell dest stride 2 p + 2 ≤ s.params.memSize ∧ cell dest stride 2 p % 2 = 0) ∧
      t = noteBlock (superpose s.params.tables (coefs (symbols s.params.tables s.mem b 0))) (caseOf (symbols s.params.tables s.mem b 0))
        (s.store (blockHalves dest stride (superpose s.params.tables (coefs (symbols s.params.tables s.mem b 0))))) := by
  simp only [reconS16Body, Checks.bind_eq_ok, walkBlock_eq_ok, Except.ok.injEq, checkThenStore_eq_ok, blockAddrs_nat,
    zip_self_map, List.forall_mem_map, accessible_nat]
  have hb : ∀ acc, itemBytes ((grid 8 8).map fun p => ((cell dest stride 2 p : Int), halfBytes (residual acc p.1 p.2)))
      = blockHalves dest stride acc := by
    intro acc; simp [itemBytes, blockHalves, List.flatMap_map]
  constructor
  · rintro ⟨l, ⟨hb', rfl⟩, u, ⟨hs, rfl⟩, rfl⟩
    exact ⟨hb', hs, by rw [hb]; rfl⟩
  · rintro ⟨hb', hs, rfl⟩
    exact ⟨_, ⟨hb', rfl⟩, _, ⟨hs, rfl⟩, by rw [hb]; rfl⟩

theorem reconAicBody_eq_ok {b : BlockArgs} {col blk mode dest stride : Nat} {info : Int} {s t : State} :
    reconAicBody b col blk mode info dest stride s = .ok t ↔
      blockSound s b ∧ mode ≤ 2 ∧ blk ≤ 5 ∧ col < s.params.aicCols ∧ squareIn s dest stride 1 8 ∧
      t = let coef := aicCoef mode (aboveEntry s col blk) (leftEntry s col blk) (symbols s.params.tables s.mem b mode)
          noteBlock (superpose s.params.tables (coefList coef)) .general
            { s.store (blockSamples dest stride (superpose s.params.tables (coefList coef)) fun _ => 0) with
              aicc := cached s.aicc col blk coef } := by
  simp only [reconAicBody, Checks.bind_eq_ok, needTables_eq_ok, checkQuantCount_eq_ok, raiseIf_eq_ok, Except.ok.injEq]
  constructor
  · rintro ⟨_, ht, _, ⟨h1, h2, h3⟩, _, harg, _, hcol, l, hl, u, hu, rfl⟩
    obtain ⟨hs, rfl⟩ := (walkSymbols_eq_ok h3).1 hl
    obtain ⟨hsq, rfl⟩ := checkThenStore_square.1 hu
    exact ⟨⟨ht, h1, h2, hs⟩, by omega, by omega, by omega, hsq, by
      simp [blockSamples, coefList, cached, writeAicSlot, noteBlock, State.store]⟩
  · rintro ⟨⟨ht, h1, h2, hs⟩, hm, hb, hcol, hsq, rfl⟩
    refine ⟨(), ht, (), ⟨h1, h2, hs.1⟩, (), by omega, (), by omega, _, (walkSymbols_eq_ok hs.1).2 ⟨hs, rfl⟩, _,
      checkThenStore_square.2 ⟨hsq, rfl⟩, ?_⟩
    simp [blockSamples, coefList, cached, writeAicSlot, noteBlock, State.store]

theorem upAddBody_eq_ok {n : Nat} {nopred : Bool} {s t : State} (hn : 0 < n) :
    upAddBody n nopred s = .ok t ↔ s.tablesValid = true ∧
      (∀ p ∈ grid n n, cell s.regI.upSrc.toNat s.regI.upSrcStride.toNat 2 p + 2 ≤ s.params.memSize ∧
        cell s.regI.upSrc.toNat s.regI.upSrcStride.toNat 2 p % 2 = 0) ∧
      (nopred = false → squareIn s s.regI.pred.toNat s.regI.stride.toNat 1 (2 * n)) ∧
      squareIn s s.regI.dest.toNat s.regI.stride.toNat 1 (2 * n) ∧ t = s.store (upSamples s n nopred) := by
  have hsrc : ((grid n n).map fun p => (s.regI.upSrc.toNat : Int) + p.2 * s.regI.upSrcStride.toNat + 2 * p.1) =
      (grid n n).map fun p => ((cell s.regI.upSrc.toNat s.regI.upSrcStride.toNat 2 p : Nat) : Int) := by
    refine List.map_congr_left fun p _ => ?_
    simp only [cell]; push_cast; ring
  have hsq : ∀ top : Word, ((grid (2 * n) (2 * n)).map fun p =>
      (top.toNat : Int) + p.2 * s.regI.stride.toNat + p.1) =
      (grid (2 * n) (2 * n)).map fun p => ((cell top.toNat s.regI.stride.toNat 1 p : Nat) : Int) := by
    intro top
    refine List.map_congr_left fun p _ => ?_
    simp only [cell]; push_cast; ring
  have hr : List.map sext16 ((grid n n).map fun p =>
      s.mem.readLE (cell s.regI.upSrc.toNat s.regI.upSrcStride.toNat 2 p) 2) =
      halvesAt s s.regI.upSrc.toNat s.regI.upSrcStride.toNat n := by
    simp [halvesAt, List.map_map, Function.comp_def]
  have hpos : 0 < 2 * n := by omega
  have hst : ∀ f : Nat × Nat → Nat, checkThenStore s 1
      (((grid (2 * n) (2 * n)).map fun p => ((cell s.regI.dest.toNat s.regI.stride.toNat 1 p : Nat) : Int)).zip
        ((((grid (2 * n) (2 * n)).map f).zip (grid (2 * n) (2 * n))).map fun q =>
          [sampleByte (clip255 (q.1 + upSample (halvesAt s s.regI.upSrc.toNat s.regI.upSrcStride.toNat n) n q.2.1
            q.2.2))])) = .ok t ↔
      squareIn s s.regI.dest.toNat s.regI.stride.toNat 1 (2 * n) ∧
        t = s.store ((grid (2 * n) (2 * n)).map fun p => (cell s.regI.dest.toNat s.regI.stride.toNat 1 p,
          sampleByte (clip255 (f p + upSample (halvesAt s s.regI.upSrc.toNat s.regI.upSrcStride.toNat n) n p.1 p.2)))) := by
    intro f
    rw [zip_map_self_map, zip_self_map, checkThenStore_bytes (v := fun p => sampleByte _), squareIn_iff hpos]
  cases nopred with
  | true =>
    simp only [upAddBody, Checks.bind_eq_ok, needTables_eq_ok, memReadAll_eq_ok, hsrc, hsq, List.map_map,
      List.forall_mem_map, accessible_nat, if_true, Checks.ok_bind, reduceCtorEq, false_imp_iff, true_and]
    constructor
    · rintro ⟨_, ht, _, ⟨h1, rfl⟩, hu⟩
      simp only [Function.comp_def, Int.toNat_natCast] at hu
      rw [hr, hst] at hu
      exact ⟨ht, h1, hu.1, by rw [hu.2]; simp [upSamples]⟩
    · rintro ⟨ht, h1, h3, rfl⟩
      refine ⟨(), ht, _, ⟨h1, rfl⟩, ?_⟩
      simp only [Function.comp_def, Int.toNat_natCast]
      rw [hr, hst]
      exact ⟨h3, by simp [upSamples]⟩
  | false =>
    simp only [upAddBody, Checks.bind_eq_ok, needTables_eq_ok, memReadAll_eq_ok (n := 2), hsrc, hsq, List.map_map,
      List.forall_mem_map, accessible_nat, Bool.false_eq_true, if_false, true_imp_iff, memReadAll_bytes]
    constructor
    · rintro ⟨_, ht, _, ⟨h1, rfl⟩, _, ⟨hp, rfl⟩, hu⟩
      simp only [Function.comp_def, Int.toNat_natCast] at hu
      rw [hr, hst] at hu
      exact ⟨ht, h1, (squareIn_iff hpos).2 hp, hu.1, by rw [hu.2]; simp [upSamples]⟩
    · rintro ⟨ht, h1, h2, h3, rfl⟩
      refine ⟨(), ht, _, ⟨h1, rfl⟩, _, ⟨(squareIn_iff hpos).1 h2, rfl⟩, ?_⟩
      simp only [Function.comp_def, Int.toNat_natCast]
      rw [hr, hst]
      exact ⟨h3, by simp [upSamples]⟩

end Sys2Proof.Machine
end

