-- ==== Sys2Proof/Laws/UnitD.lean ====
section
/-! SUPPORT. What unit D can do: the start checks pass exactly when Safety says so; sequences of operations; the cursor;
and, for one macroblock, that every operation of its handler passes and stores only within the macroblock. -/

namespace Sys2Proof.Machine

open Sys2Proof.Config Sys2Proof.Safety

/-! ### The start checks (42_dispatcher.md R232) -/

/-- The reference picture as the start checks read it. -/
theorem readOld_eq_ok {s : State} {a : Nat} {color : Bool} {y : Plane} {r : Picture × Bool} :
    readOld s a color y = .ok r ↔
      let bad := word s (a + 4) ≠ y.width || word s (a + 8) ≠ y.height
      a % 4 = 0 ∧ a + (if bad then 12 else planesLength color) ≤ s.params.memSize ∧
        r = if bad then
          ({ y := { Plane.unread with width := word s (a + 4), height := word s (a + 8) },
             cb := Plane.unread, cr := Plane.unread }, true)
          else (pictureAt s a color, false) := by
  have h4 : ((a : Int) + 4) = ((a + 4 : Nat) : Int) := by push_cast; ring
  have h8 : ((a : Int) + 8) = ((a + 8 : Nat) : Int) := by push_cast; ring
  have hb : (word s (a + 4) ≠ y.width || word s (a + 8) ≠ y.height) = true ↔
      (word s (a + 4) ≠ y.width ∨ word s (a + 8) ≠ y.height) := by simp
  dsimp only
  simp only [readOld, h4, h8, Checks.bind_eq_ok, memRead_word_eq_ok, wordAt]
  constructor
  · rintro ⟨_, ⟨h1, -⟩, w, ⟨h2, rfl⟩, h, ⟨h3, rfl⟩, hr⟩
    refine ⟨h1.1, ?_⟩
    by_cases hc : word s (a + 4) ≠ y.width ∨ word s (a + 8) ≠ y.height
    · rw [if_pos hc] at hr
      rw [if_pos (hb.2 hc), if_pos (hb.2 hc)]
      exact ⟨by omega, by simpa [eq_comm] using hr⟩
    · rw [if_neg hc] at hr
      rw [if_neg (mt hb.1 hc), if_neg (mt hb.1 hc)]
      simp only [Checks.bind_eq_ok, readPlanes_eq_ok, Except.ok.injEq] at hr
      obtain ⟨p, ⟨-, h5, rfl⟩, rfl⟩ := hr
      exact ⟨h5, rfl⟩
  · rintro ⟨h1, h2, rfl⟩
    by_cases hc : word s (a + 4) ≠ y.width ∨ word s (a + 8) ≠ y.height
    · rw [if_pos (hb.2 hc)] at h2
      refine ⟨_, ⟨by omega, rfl⟩, _, ⟨by omega, rfl⟩, _, ⟨by omega, rfl⟩, ?_⟩
      rw [if_pos hc, if_pos (hb.2 hc)]
    · rw [if_neg (mt hb.1 hc)] at h2
      have : 16 ≤ planesLength color := by cases color <;> decide
      refine ⟨_, ⟨by omega, rfl⟩, _, ⟨by omega, rfl⟩, _, ⟨by omega, rfl⟩, ?_⟩
      rw [if_neg hc, if_neg (mt hb.1 hc), readPlanes_eq_ok.2 ⟨h1, h2, rfl⟩]; rfl

theorem checkGobPlane_eq_ok {s : State} {pic : Picture} {a : Nat} {id : PlaneId} {u : Unit} :
    checkGobPlane s pic a id = .ok u ↔ planeSound s (pic.plane id) := by
  simp only [checkGobPlane, Checks.bind_eq_ok, checkStride_eq_ok, checkExtent_eq_ok, planeSound]
  constructor
  · rintro ⟨_, h1, h2⟩; exact ⟨h1, h2⟩
  · rintro ⟨h1, h2⟩; exact ⟨(), h1, h2⟩

theorem sameSizes_eq_true {color : Bool} {p q : Picture} :
    sameSizes color p q = true ↔ ∀ id ∈ planesInUse color,
      (p.plane id).width = (q.plane id).width ∧ (p.plane id).height = (q.plane id).height := by
  simp [sameSizes, List.all_eq_true]

theorem checkModes_eq_ok {s : State} {g : GobDescr} {u : Unit} :
    checkModes s g = .ok u ↔ (s.modeRru = true → s.modePb = false ∧ s.modeAic = false) ∧
      (s.modeAic = true → g.firstCol + g.mbPerRow ≤ s.params.aicCols) := by
  simp only [checkModes, Checks.bind_eq_ok, raiseIf_eq_ok]
  constructor
  · rintro ⟨_, h1, h2⟩
    refine ⟨fun hr => ?_, fun ha => ?_⟩
    · constructor <;> by_contra hc <;> exact h1 ⟨hr, by simp_all⟩
    · by_contra hc; exact h2 ⟨ha, by omega⟩
  · rintro ⟨h1, h2⟩
    refine ⟨(), ?_, ?_⟩
    · rintro ⟨hr, hp | ha⟩
      · simp [(h1 hr).1] at hp
      · simp [(h1 hr).2] at ha
    · rintro ⟨ha, hlt⟩; have := h2 ha; omega

@[simp] theorem checkWhen_eq_ok {c : Bool} {r : Except Raise Unit} {u : Unit} :
    checkWhen c r = .ok u ↔ (c = true → r = .ok ()) := by
  cases c <;> simp [checkWhen]

@[simp] theorem readWhen_eq_ok {c : Bool} {r : Except Raise Picture} {p : Picture} :
    readWhen c r = .ok p ↔ if c then r = .ok p else p = { y := Plane.unread, cb := Plane.unread, cr := Plane.unread } := by
  cases c <;> simp [readWhen, eq_comm]

/-- The reference picture and geomfail of the start checks. -/
theorem readOld_gob_eq_ok {s : State} {r : Picture × Bool} :
    readOld s s.regD.picOld.toNat (gobColor s) (gobNew s).y = .ok r ↔
      (s.regD.picOld.toNat % 4 = 0 ∧
        s.regD.picOld.toNat + (if gobGeomFail s then 12 else planesLength (gobColor s)) ≤ s.params.memSize) ∧
      r = (gobOld s, gobGeomFail s) := by
  rw [readOld_eq_ok]
  have hg : (word s (s.regD.picOld.toNat + 4) ≠ (gobNew s).y.width ||
      word s (s.regD.picOld.toNat + 8) ≠ (gobNew s).y.height) = gobGeomFail s := rfl
  dsimp only
  rw [hg, gobOld, and_assoc]
  cases gobGeomFail s <;> simp

theorem readWhen_gob_eq_ok {conceal : Bool} {s : State} {p : Picture} :
    readWhen (gobUseB conceal s) (readPlanes s s.regD.picB.toNat (gobColor s)) = .ok p ↔
      (gobUseB conceal s = true →
        s.regD.picB.toNat % 4 = 0 ∧ s.regD.picB.toNat + planesLength (gobColor s) ≤ s.params.memSize) ∧
      p = gobB conceal s := by
  rw [readWhen_eq_ok, readPlanes_eq_ok, gobB]
  cases gobUseB conceal s <;> simp [and_assoc]

/-- The start checks: they pass exactly when Safety says so, and leave the variables Safety names. -/
theorem startChecks_eq_ok {conceal : Bool} {s : State} {c : GobRun} :
    startChecks conceal s = .ok c ↔ startSound conceal s ∧ c = gobRun conceal s := by
  have hu : (!conceal && s.modePb && decide (s.regD.picB ≠ 0)) = gobUseB conceal s := rfl
  have hn : pictureAt s s.regD.picNew.toNat (colorAt s s.regD.picNew.toNat) = gobNew s := rfl
  have hc : colorAt s s.regD.picNew.toNat = gobColor s := rfl
  simp only [startChecks, hu, Checks.bind_eq_ok, needTables_eq_ok, readGob_eq_ok, raiseIf_eq_ok, checkWhen_eq_ok,
    checkModes_eq_ok, readPicture_eq_ok, checkEach_eq_ok, checkGobPlane_eq_ok, Except.ok.injEq, Bool.not_eq_false,
    Bool.not_eq_true', not_and, not_or, not_lt, not_le]
  constructor
  · rintro ⟨_, ht, g, ⟨hgob, rfl⟩, _, hv, _, hmodes, r, ⟨hnew, rfl⟩, o, ho, b, hb, _, hpn, _, hpo, _, hpb, _,
      hso, _, hsb, _, hck, rfl⟩
    rw [hn, hc] at ho
    rw [hc] at hb
    obtain ⟨ho', rfl⟩ := readOld_gob_eq_ok.1 ho
    obtain ⟨hb', rfl⟩ := readWhen_gob_eq_ok.1 hb
    exact ⟨⟨ht, hgob, hv, hmodes, hnew, ho', hb', hpn,
      fun h id hid => ⟨hpo h id hid, sameSizes_eq_true.1 (hso h) id hid⟩,
      fun h id hid => ⟨hpb h id hid, sameSizes_eq_true.1 (hsb h) id hid⟩, hck⟩, rfl⟩
  · rintro ⟨⟨ht, hgob, hv, hmodes, hnew, ho', hb', hpn, hpo, hpb, hck⟩, rfl⟩
    exact ⟨(), ht, _, ⟨hgob, rfl⟩, (), hv, (), hmodes, _, ⟨hnew, rfl⟩, _, readOld_gob_eq_ok.2 ⟨ho', rfl⟩, _,
      readWhen_gob_eq_ok.2 ⟨hb', rfl⟩, (), hpn, (), fun h id hid => (hpo h id hid).1, (), fun h id hid => (hpb h id hid).1,
      (), fun h => sameSizes_eq_true.2 fun id hid => (hpo h id hid).2,
      (), fun h => sameSizes_eq_true.2 fun id hid => (hpb h id hid).2, (), hck, rfl⟩

end Sys2Proof.Machine
end

