-- ==== Sys2Proof/Laws/Macroblock.lean ====
section
/-! SUPPORT. What the operations of one macroblock can do: whatever they store lies among the macroblock's samples, and
what they leave there is what Safety names. Each lemma speaks of a state inside a handler (`Within`). -/

namespace Sys2Proof.Machine

open Sys2Proof.Config Sys2Proof.Safety

/-! ### Sequences of operations -/

@[simp] theorem runOps_nil (s : State) : runOps [] s = .ok s := rfl

theorem runOps_cons_of_ok {op : Op} {l : List Op} {s t : State} (h : op s = .ok t) : runOps (op :: l) s = runOps l t := by
  simp [runOps, h]

theorem runOps_append_of_ok {l k : List Op} {s t : State} (h : runOps l s = .ok t) : runOps (l ++ k) s = runOps k t := by
  induction l generalizing s with
  | nil => simp only [runOps_nil, Except.ok.injEq] at h; subst h; rfl
  | cons op l ih =>
    simp only [runOps] at h
    split at h
    · next u hu => rw [List.cons_append, runOps_cons_of_ok hu, ih h]
    · simp at h

/-- A sequence runs to its end, keeping Q, when each of its operations does. -/
theorem runOps_keep {Q : State → Prop} {l : List Op} {u : State} (h0 : Q u)
    (h : ∀ op ∈ l, ∀ u, Q u → ∃ v, op u = .ok v ∧ Q v) : ∃ v, runOps l u = .ok v ∧ Q v := by
  induction l generalizing u with
  | nil => exact ⟨u, rfl, h0⟩
  | cons op l ih =>
    obtain ⟨v, hv, hq⟩ := h op (by simp) u h0
    rw [runOps_cons_of_ok hv]
    exact ih hq fun op' h' => h op' (by simp [h'])

/-- A sequence over a list: what holds after the operations already done. -/
theorem runOps_map {α : Type} {Q : List α → State → Prop} {f : α → Op} {l : List α} {u : State} (h0 : Q [] u)
    (h : ∀ done x rest u, l = done ++ x :: rest → Q done u → ∃ v, f x u = .ok v ∧ Q (done ++ [x]) v) :
    ∃ v, runOps (l.map f) u = .ok v ∧ Q l v := by
  suffices H : ∀ rest done u, l = done ++ rest → Q done u → ∃ v, runOps (rest.map f) u = .ok v ∧ Q l v from
    H l [] u rfl h0
  intro rest
  induction rest with
  | nil => intro done u hl hq; exact ⟨u, rfl, by simpa [hl] using hq⟩
  | cons x rest ih =>
    intro done u hl hq
    obtain ⟨v, hv, hq'⟩ := h done x rest u hl hq
    rw [List.map_cons, runOps_cons_of_ok hv]
    exact ih (done ++ [x]) v (by simp [hl]) hq'

/-! ### The samples of a macroblock (42_dispatcher.md R231) -/

/-- The samples of a macroblock of size u: plane, column and row, plane by plane in row order. -/
def mbIndex (color : Bool) (u : Nat) : List (PlaneId × Nat × Nat) :=
  (planesInUse color).flatMap fun id => (grid (planeSize id u) (planeSize id u)).map fun p => (id, p.1, p.2)

theorem mem_mbIndex {color : Bool} {u : Nat} {i : PlaneId × Nat × Nat} :
    i ∈ mbIndex color u ↔ i.1 ∈ planesInUse color ∧ i.2.1 < planeSize i.1 u ∧ i.2.2 < planeSize i.1 u := by
  obtain ⟨id, x, y⟩ := i
  simp only [mbIndex, List.mem_flatMap, List.mem_map, Prod.mk.injEq, mem_grid]
  constructor
  · rintro ⟨id', hid, p, hp, rfl, rfl, rfl⟩; exact ⟨hid, hp⟩
  · rintro ⟨hid, hp⟩; exact ⟨id, hid, (x, y), hp, rfl, rfl, rfl⟩

theorem mbSamples_eq_map (m : Mb) (u : Nat) (pic : Picture) :
    mbSamples m u pic = (mbIndex m.run.color u).map fun i => mbCell m u pic i.1 i.2.1 i.2.2 := by
  simp [mbSamples, mbIndex, List.map_flatMap, List.map_map, Function.comp_def, mbCell]

theorem mem_mbSamples {m : Mb} {u : Nat} {pic : Picture} {a : Nat} :
    a ∈ mbSamples m u pic ↔ ∃ id ∈ planesInUse m.run.color, ∃ x < planeSize id u, ∃ y < planeSize id u,
      a = mbCell m u pic id x y := by
  rw [mbSamples_eq_map]
  simp only [List.mem_map, mem_mbIndex, Prod.exists]
  constructor
  · rintro ⟨id, x, y, ⟨h1, h2, h3⟩, rfl⟩; exact ⟨id, h1, x, h2, y, h3, rfl⟩
  · rintro ⟨id, h1, x, h2, y, h3, rfl⟩; exact ⟨id, x, y, ⟨h1, h2, h3⟩, rfl⟩

theorem mbCell_mem {m : Mb} {u : Nat} {pic : Picture} {id : PlaneId} {x y : Nat} (hid : id ∈ planesInUse m.run.color)
    (hx : x < planeSize id u) (hy : y < planeSize id u) : mbCell m u pic id x y ∈ mbSamples m u pic :=
  mem_mbSamples.2 ⟨id, hid, x, hx, y, hy, rfl⟩

/-- Samples of different addresses: the address tells the plane, the column and the row. -/
theorem mbCell_inj {m : Mb} {u : Nat} {pic : Picture} (h : (mbSamples m u pic).Nodup) {id id' : PlaneId} {x x' y y' : Nat}
    (hid : id ∈ planesInUse m.run.color) (hx : x < planeSize id u) (hy : y < planeSize id u)
    (hid' : id' ∈ planesInUse m.run.color) (hx' : x' < planeSize id' u) (hy' : y' < planeSize id' u)
    (e : mbCell m u pic id x y = mbCell m u pic id' x' y') : id = id' ∧ x = x' ∧ y = y' := by
  rw [mbSamples_eq_map] at h
  have := List.inj_on_of_nodup_map h (mem_mbIndex.2 ⟨hid, hx, hy⟩ : (id, x, y) ∈ _)
    (mem_mbIndex.2 ⟨hid', hx', hy'⟩ : (id', x', y') ∈ _) e
  simpa using this

/-- A sample of a macroblock that fits a sound plane lies in memory. -/
theorem mbCell_lt {s : State} {m : Mb} {u : Nat} {pic : Picture} {id : PlaneId} {x y : Nat}
    (hp : planeSound s (pic.plane id))
    (hf : planeSize id u * (m.col + 1) ≤ (pic.plane id).width ∧ planeSize id u * (m.row + 1) ≤ (pic.plane id).height)
    (hx : x < planeSize id u) (hy : y < planeSize id u) : mbCell m u pic id x y < s.params.memSize := by
  have h1 : planeSize id u * m.col + x < (pic.plane id).width := by
    have := hf.1; rw [Nat.mul_add] at this; omega
  have h2 : planeSize id u * m.row + y < (pic.plane id).height := by
    have := hf.2; rw [Nat.mul_add] at this; omega
  exact Plane.at_lt (hp.2 (by omega)) h1 h2

/-! ### A state inside a macroblock -/

/-- A byte that the operations of a macroblock's handler may store: a sample of its square in NEW or, where it is used,
in B. -/
def mbBytes (s : State) (m : Mb) (a : Nat) : Prop :=
  a ∈ mbSamples m (unitSize s) m.run.newPic ∨ (m.run.useB = true ∧ a ∈ mbSamples m (unitSize s) m.run.bPic)

/-- The state u inside the handler that began in s: only samples, ACC, LASTCASE, RRUBUF (in reduced resolution) and,
with advanced intra, the macroblock's column of AICC have changed. -/
structure Within (m : Mb) (aic : Bool) (s u : State) : Prop where
  rest : u = { s with mem := u.mem, acc := u.acc, lastCase := u.lastCase, rrubuf := u.rrubuf, aicc := u.aicc }
  wf : u.mem.wf
  read : ∀ a, ¬mbBytes s m a → u.mem.read a = s.mem.read a
  aicc : ∀ k, (aic = false ∨ k ≠ m.col) → u.aicc[k]? = s.aicc[k]?
  rru : s.modeRru = false → u.rrubuf = s.rrubuf

theorem Within.refl {m : Mb} {aic : Bool} {s : State} (h : s.mem.wf) : Within m aic s s :=
  ⟨rfl, h, fun _ _ => rfl, fun _ _ => rfl, fun _ => rfl⟩

section
variable {m : Mb} {aic : Bool} {s u : State}

theorem Within.params (h : Within m aic s u) : u.params = s.params :=
  (congrArg State.params h.rest).trans rfl
theorem Within.regD (h : Within m aic s u) : u.regD = s.regD :=
  (congrArg State.regD h.rest).trans rfl
theorem Within.tables (h : Within m aic s u) : u.tablesValid = s.tablesValid :=
  (congrArg State.tablesValid h.rest).trans rfl
theorem Within.run (h : Within m aic s u) : u.run = s.run :=
  (congrArg State.run h.rest).trans rfl

theorem Within.modeRru (h : Within m aic s u) : u.modeRru = s.modeRru := by simp only [State.modeRru, h.regD]
theorem Within.modeAic (h : Within m aic s u) : u.modeAic = s.modeAic := by simp only [State.modeAic, h.regD]
theorem Within.modeUmv (h : Within m aic s u) : u.modeUmv = s.modeUmv := by simp only [State.modeUmv, h.regD]
theorem Within.unitSize (h : Within m aic s u) : unitSize u = unitSize s := by simp only [Machine.unitSize, h.modeRru]

theorem Within.aicc_eq (h : Within m false s u) : u.aicc = s.aicc :=
  List.ext_getElem? fun k => h.aicc k (.inl rfl)

/-- Samples stored. -/
theorem Within.store (h : Within m aic s u) {l : List (Nat × Byte)} (hl : ∀ p ∈ l, mbBytes s m p.1) :
    Within m aic s (u.store l) := by
  refine ⟨?_, Memory.wf_writeAll h.wf l, fun a ha => ?_, h.aicc, h.rru⟩
  · exact (congrArg (fun w : State => { w with mem := u.mem.writeAll l }) h.rest).trans rfl
  · rw [← h.read a ha]
    refine Memory.read_writeAll_of_notMem h.wf fun hc => ?_
    obtain ⟨p, hp, rfl⟩ := List.mem_map.1 hc
    exact ha (hl p hp)

/-- ACC and LASTCASE written. -/
theorem Within.noteBlock (h : Within m aic s u) (acc : List (BitVec 32)) (c : PatternCase) :
    Within m aic s (noteBlock acc c u) := by
  refine ⟨?_, h.wf, h.read, h.aicc, h.rru⟩
  exact (congrArg (fun w : State => { w with acc := acc, lastCase := c }) h.rest).trans rfl

/-- RRUBUF written. -/
theorem Within.setRrubuf (h : Within m aic s u) (hr : s.modeRru = true) (b : List (BitVec 16)) :
    Within m aic s { u with rrubuf := b } := by
  refine ⟨?_, h.wf, h.read, h.aicc, by simp [hr]⟩
  exact (congrArg (fun w : State => { w with rrubuf := b }) h.rest).trans rfl

/-- The macroblock's column of AICC written, with advanced intra. -/
theorem Within.setAicc (h : Within m true s u) (l : List AicEntry) (hl : ∀ k, k ≠ m.col → l[k]? = u.aicc[k]?) :
    Within m true s { u with aicc := l } := by
  refine ⟨?_, h.wf, h.read, fun k hk => ?_, h.rru⟩
  · exact (congrArg (fun w : State => { w with aicc := l }) h.rest).trans rfl
  · rcases hk with hk | hk
    · simp at hk
    · exact (hl k hk).trans (h.aicc k (.inr hk))

end

/-! ### What the handlers read of the descriptor -/

section
variable {m : Mb} {aic : Bool} {s u : State}

theorem mem_bytesAt {a n b : Nat} : b ∈ bytesAt a n ↔ a ≤ b ∧ b < a + n := by
  simp only [bytesAt, List.mem_map, List.mem_range]
  constructor
  · rintro ⟨i, hi, rfl⟩; omega
  · intro h; exact ⟨b - a, by omega, by omega⟩

theorem Within.readLE (h : Within m aic s u) {a n : Nat} (hn : ∀ b, a ≤ b → b < a + n → ¬mbBytes s m b) :
    u.mem.readLE a n = s.mem.readLE a n :=
  Memory.readLE_congr fun i hi => h.read _ (hn _ (by omega) (by omega))

theorem mbSound_apart (hm : mbSound s m) {b : Nat} (h1 : m.d ≤ b) (h2 : b < m.d + 128) : ¬mbBytes s m b := by
  have := hm.2.2.2.2.2 b (mem_bytesAt.2 ⟨h1, h2⟩)
  rintro (h | ⟨h, h'⟩)
  · exact this.1 h
  · exact this.2 h h'

theorem Within.word_eq (h : Within m aic s u) (hm : mbSound s m) {a : Nat} (h1 : m.d ≤ a) (h2 : a + 4 ≤ m.d + 128) :
    word u a = word s a :=
  h.readLE fun b hb hb' => mbSound_apart hm (by omega) (by omega)

theorem Within.mbWord (h : Within m aic s u) (hm : mbSound s m) {k : Nat} (hk : k < 32) :
    mbWord u m.d k = .ok (word s (m.d + 4 * k)) := by
  rw [mbWord_ok ⟨hm.1, by rw [h.params]; exact hm.2.1⟩ hk, h.word_eq hm (by omega) (by omega)]

theorem Within.mbQuant (h : Within m aic s u) (hm : mbSound s m) : mbQuant u m.d = .ok (quantOf s m) := by
  simp only [Machine.mbQuant, h.mbWord hm (k := 1) (by omega), Checks.ok_bind, quantOf]

theorem Within.mbBQuant (h : Within m aic s u) (hm : mbSound s m) : mbBQuant u m.d = .ok (bQuantOf s m) := by
  simp only [Machine.mbBQuant, h.mbWord hm (k := 1) (by omega), Checks.ok_bind, bQuantOf]

theorem Within.mbAicMode (h : Within m aic s u) (hm : mbSound s m) : mbAicMode u m.d = .ok (aicModeOf s m) := by
  simp only [Machine.mbAicMode, h.mbWord hm (k := 1) (by omega), Checks.ok_bind, aicModeOf]

theorem Within.mbCbp (h : Within m aic s u) (hm : mbSound s m) (n : Nat) : mbCbp u m.d n = .ok (codedOf s m n) := by
  simp only [Machine.mbCbp, h.mbWord hm (k := 2) (by omega), Checks.ok_bind, codedOf]

theorem Within.mbCbpB (h : Within m aic s u) (hm : mbSound s m) (n : Nat) :
    mbCbpB u m.d n = .ok (codedOf s m (8 + n)) := by
  simp only [Machine.mbCbpB, h.mbWord hm (k := 2) (by omega), Checks.ok_bind, codedOf]

theorem Within.mbOverlap (h : Within m aic s u) (hm : mbSound s m) : mbOverlap u m.d = .ok (overlapOf s m) := by
  simp only [Machine.mbOverlap, h.mbWord hm (k := 2) (by omega), Checks.ok_bind, overlapOf]

theorem Within.mbBreq (h : Within m aic s u) (hm : mbSound s m) : mbBreq u m.d = .ok (bit (word s (m.d + 8)) 17) := by
  simp only [Machine.mbBreq, h.mbWord hm (k := 2) (by omega), Checks.ok_bind]

theorem Within.mbMv (h : Within m aic s u) (hm : mbSound s m) {k : Nat} (hk : k < 4) :
    mbMv u m.d k = .ok (vectorOf s m k) := by
  simp only [Machine.mbMv, h.mbWord hm (k := 3 + k) (by omega), Checks.ok_bind, vectorOf]
  congr 3 <;> congr 2 <;> ring_nf

theorem Within.blockArgs (h : Within m aic s u) (hm : mbSound s m) {n : Nat} (hn : n < 12) (q : Nat) :
    blockArgs u m n q = .ok (blockOf s m n q) := by
  have e1 : m.d + 4 * (8 + 2 * n) = m.d + 32 + 8 * n := by omega
  have e2 : m.d + 4 * (9 + 2 * n) = m.d + 36 + 8 * n := by omega
  simp only [Machine.blockArgs, mbBlock, h.mbWord hm (k := 8 + 2 * n) (by omega), h.mbWord hm (k := 9 + 2 * n) (by omega),
    Checks.ok_bind, blockOf, e1, e2]

/-! ### The symbols of a block stay -/

/-- The bytes of a block's symbol array are none of the samples. -/
abbrev symbolsApart (s : State) (m : Mb) (b : BlockArgs) : Prop := ∀ a ∈ bytesAt b.symPtr (4 * b.count), ¬mbBytes s m a

theorem mbBlockSound_apart {n q : Nat} (h : mbBlockSound s m n q) : symbolsApart s m (blockOf s m n q) := by
  intro a ha
  have := h.2 a ha
  rintro (h' | ⟨h', h''⟩)
  · exact this.1 h'
  · exact this.2 h' h''

theorem Within.symPos (h : Within m aic s u) {b : BlockArgs} (hb : symbolsApart s m b) {k : Nat} (hk : k < b.count) :
    symPos u.mem b.symPtr k = symPos s.mem b.symPtr k ∧
      u.mem.readLE (b.symPtr + 4 * k) 4 = s.mem.readLE (b.symPtr + 4 * k) 4 := by
  have hr : ∀ k < b.count, u.mem.readLE (b.symPtr + 4 * k) 4 = s.mem.readLE (b.symPtr + 4 * k) 4 := fun k hk =>
    h.readLE fun a h1 h2 => hb a (mem_bytesAt.2 ⟨by omega, by omega⟩)
  refine ⟨?_, hr k hk⟩
  induction k with
  | zero => simp only [Safety.symPos, symSkip, hr 0 hk]
  | succ k ih => simp only [Safety.symPos, symSkip, hr (k + 1) hk, ih (by omega)]

theorem Within.symbols (h : Within m aic s u) {b : BlockArgs} (hb : symbolsApart s m b) (scan : Nat) :
    symbols s.params.tables u.mem b scan = symbols s.params.tables s.mem b scan := by
  refine List.map_congr_left fun k hk => ?_
  have hk' := List.mem_range.1 hk
  simp only [symbolAt, symSkip, symAmp, (h.symPos hb hk').1, (h.symPos hb hk').2]

theorem Within.blockSound (h : Within m aic s u) {b : BlockArgs} (hb : symbolsApart s m b) (hs : blockSound s b) :
    blockSound u b := by
  obtain ⟨h1, h2, h3, h4, h5, h6⟩ := hs
  refine ⟨by rw [h.tables]; exact h1, h2, h3, h4, fun hp => by rw [h.params]; exact h5 hp, fun k hk => ?_⟩
  rw [(h.symPos hb hk).1]; exact h6 k hk

end

/-! ### Pictures a macroblock fits -/

/-- The macroblock fits the picture's planes in use, and they lie in memory. -/
abbrev picFits (s : State) (m : Mb) (u : Nat) (pic : Picture) : Prop :=
  ∀ id ∈ planesInUse m.run.color, planeSound s (pic.plane id) ∧
    planeSize id u * (m.col + 1) ≤ (pic.plane id).width ∧ planeSize id u * (m.row + 1) ≤ (pic.plane id).height

section
variable {m : Mb} {aic : Bool} {s u : State}

theorem mbSound_new (hm : mbSound s m) : picFits s m (unitSize s) m.run.newPic := fun id hid =>
  ⟨hm.2.2.2.1 id hid, hm.2.2.1 id hid⟩

theorem mbSound_useB (hm : mbSound s m) (hb : m.run.useB = true) :
    s.modeRru = false ∧ picFits s m (unitSize s) m.run.bPic := by
  obtain ⟨h1, h2, h3⟩ := hm.2.2.2.2.1 hb
  refine ⟨h2, fun id hid => ⟨h1 id hid, ?_⟩⟩
  have := hm.2.2.1 id hid
  have := h3 id hid
  omega

theorem unitSize_16 (hr : s.modeRru = false) : unitSize s = 16 := by simp [unitSize, hr]

theorem unitSize_32 (hr : s.modeRru = true) : unitSize s = 32 := by simp [unitSize, hr]

theorem picFits.lt {n : Nat} {pic : Picture} (h : picFits s m n pic) {a : Nat} (ha : a ∈ mbSamples m n pic) :
    a < s.params.memSize := by
  obtain ⟨id, hid, x, hx, y, hy, rfl⟩ := mem_mbSamples.1 ha
  exact mbCell_lt (h id hid).1 (h id hid).2 hx hy

/-! ### Blocks (42_dispatcher.md R231) -/

/-- The column of block n in its plane's square. -/
def blockX (n : Nat) : Nat := if n < 4 then 8 * (n % 2) else 0

/-- The row of block n in its plane's square. -/
def blockY (n : Nat) : Nat := if n < 4 then 8 * (n / 2) else 0

theorem blocksInUse_lt {color : Bool} {n : Nat} (h : n ∈ blocksInUse color) : n < 6 := by
  cases color <;> simp [blocksInUse] at h <;> omega

theorem blockPlane_mem {color : Bool} {n : Nat} (h : n ∈ blocksInUse color) : blockPlane n ∈ planesInUse color := by
  cases color <;> simp only [blocksInUse, Bool.false_eq_true, if_false, if_true, List.mem_cons, List.not_mem_nil,
    or_false] at h
  · rcases h with rfl | rfl | rfl | rfl <;> decide
  · rcases h with rfl | rfl | rfl | rfl | rfl | rfl <;> decide

theorem block_cell (m : Mb) (pic : Picture) {n : Nat} (hn : n < 6) (p : Nat × Nat) :
    cell (blockTop m pic n) (pic.plane (blockPlane n)).stride 1 p =
      mbCell m 16 pic (blockPlane n) (blockX n + p.1) (blockY n + p.2) := by
  have hn' : n = 0 ∨ n = 1 ∨ n = 2 ∨ n = 3 ∨ n = 4 ∨ n = 5 := by omega
  rcases hn' with rfl | rfl | rfl | rfl | rfl | rfl <;>
    simp [cell, blockTop, mbCell, Plane.at, planeSize, blockPlane, blockX, blockY] <;> ring

theorem block_range {n : Nat} (hn : n < 6) {p : Nat × Nat} (hp : p ∈ grid 8 8) :
    blockX n + p.1 < planeSize (blockPlane n) 16 ∧ blockY n + p.2 < planeSize (blockPlane n) 16 := by
  have := mem_grid.1 hp
  have hn' : n = 0 ∨ n = 1 ∨ n = 2 ∨ n = 3 ∨ n = 4 ∨ n = 5 := by omega
  rcases hn' with rfl | rfl | rfl | rfl | rfl | rfl <;> simp [planeSize, blockPlane, blockX, blockY] <;> omega

theorem blockAt_of {n : Nat} (hn : n < 6) {p : Nat × Nat} (hp : p ∈ grid 8 8) :
    blockAt (blockPlane n) (blockX n + p.1) (blockY n + p.2) = n ∧ (blockX n + p.1) % 8 = p.1 ∧
      (blockY n + p.2) % 8 = p.2 := by
  have := mem_grid.1 hp
  have hn' : n = 0 ∨ n = 1 ∨ n = 2 ∨ n = 3 ∨ n = 4 ∨ n = 5 := by omega
  rcases hn' with rfl | rfl | rfl | rfl | rfl | rfl <;> simp [blockAt, blockPlane, blockX, blockY] <;> omega

/-- Every sample of a 16x16 macroblock lies in the block `blockAt` names. -/
theorem blockAt_spec {color : Bool} {id : PlaneId} (hid : id ∈ planesInUse color) {x y : Nat}
    (hx : x < planeSize id 16) (hy : y < planeSize id 16) :
    blockAt id x y ∈ blocksInUse color ∧ blockPlane (blockAt id x y) = id ∧ blockX (blockAt id x y) + x % 8 = x ∧
      blockY (blockAt id x y) + y % 8 = y := by
  cases id with
  | y =>
    simp only [planeSize] at hx hy
    have hx' : x / 8 = 0 ∨ x / 8 = 1 := by omega
    have hy' : y / 8 = 0 ∨ y / 8 = 1 := by omega
    rcases hx' with hx' | hx' <;> rcases hy' with hy' | hy' <;>
      simp only [blockAt, hx', hy'] <;> (refine ⟨by cases color <;> decide, rfl, ?_, ?_⟩) <;>
      simp [blockX, blockY] <;> omega
  | cb | cr =>
    simp only [planeSize] at hx hy
    refine ⟨?_, rfl, ?_, ?_⟩
    · cases color <;> simp [planesInUse, blockAt, blocksInUse] at hid ⊢
    · simp [blockAt, blockX]; omega
    · simp [blockAt, blockY]; omega

theorem blockSamples_mem {pic : Picture} {n : Nat} (hn : n ∈ blocksInUse m.run.color) {acc : List (BitVec 32)}
    {pred : Nat × Nat → Int} {q : Nat × Byte}
    (hq : q ∈ blockSamples (blockTop m pic n) (pic.plane (blockPlane n)).stride acc pred) :
    q.1 ∈ mbSamples m 16 pic := by
  obtain ⟨p, hp, rfl⟩ := List.mem_map.1 hq
  have := block_range (blocksInUse_lt hn) hp
  simp only [block_cell m pic (blocksInUse_lt hn)]
  exact mbCell_mem (blockPlane_mem hn) this.1 this.2

theorem block_square {pic : Picture} (hp : picFits s m 16 pic) {n : Nat} (hn : n ∈ blocksInUse m.run.color) :
    squareIn s (blockTop m pic n) (pic.plane (blockPlane n)).stride 1 8 := by
  rw [squareIn_iff (by decide)]
  intro p hp'
  rw [block_cell m pic (blocksInUse_lt hn)]
  have := block_range (blocksInUse_lt hn) hp'
  exact mbCell_lt (hp _ (blockPlane_mem hn)).1 (hp _ (blockPlane_mem hn)).2 this.1 this.2

/-- The bytes of a plane of the pictures a macroblock stores to. -/
abbrev storesTo (s : State) (m : Mb) (pic : Picture) : Prop := ∀ a ∈ mbSamples m (unitSize s) pic, mbBytes s m a

theorem storesTo_new : storesTo s m m.run.newPic := fun _ ha => .inl ha

theorem storesTo_b (hb : m.run.useB = true) : storesTo s m m.run.bPic := fun _ ha => .inr ⟨hb, ha⟩

theorem squareIn_congr (h : Within m aic s u) {top stride size n : Nat} (hs : squareIn s top stride size n) :
    squareIn u top stride size n := by rw [squareIn, h.params]; exact hs

/-- blk_add of a block that can be reconstructed. -/
theorem Within.blkAdd (h : Within m aic s u) (hm : mbSound s m) (hr : s.modeRru = false) {pic : Picture}
    (hp : picFits s m 16 pic) (hst : storesTo s m pic) {n q : Nat} (hn : n < 12) (hn6 : n % 6 ∈ blocksInUse m.run.color)
    (hb : mbBlockSound s m n q) :
    let l := Safety.symbols s.params.tables s.mem (blockOf s m n q) 0
    let top := blockTop m pic (n % 6)
    let st := (pic.plane (blockPlane (n % 6))).stride
    let v := Machine.noteBlock (superpose s.params.tables (coefs l)) (caseOf l)
      (u.store (blockSamples top st (superpose s.params.tables (coefs l)) fun p => (u.mem.read (cell top st 1 p)).toNat))
    Machine.blkAdd m n q pic u = .ok v ∧ Within m aic s v := by
  intro l top st v
  have hsq := squareIn_congr h (block_square hp hn6)
  have hap := mbBlockSound_apart hb
  constructor
  · simp only [Machine.blkAdd, h.blockArgs hm hn, Checks.ok_bind]
    rw [reconAddBody_eq_ok]
    refine ⟨h.blockSound hap hb.1, hsq, hsq, ?_⟩
    simp only [h.params, h.symbols hap]; rfl
  · refine (h.store fun p hp' => hst _ ?_).noteBlock _ _
    rw [unitSize_16 hr]
    exact blockSamples_mem hn6 hp'

/-- blk_intra of a block that can be reconstructed. -/
theorem Within.blkIntra (h : Within m aic s u) (hm : mbSound s m) (hr : s.modeRru = false) {pic : Picture}
    (hp : picFits s m 16 pic) (hst : storesTo s m pic) {n q : Nat} (hn : n ∈ blocksInUse m.run.color)
    (hb : mbBlockSound s m n q) :
    let l := Safety.symbols s.params.tables s.mem (blockOf s m n q) 0
    let v := Machine.noteBlock (superpose s.params.tables (coefs l)) (caseOf l)
      (u.store (blockSamples (blockTop m pic n) (pic.plane (blockPlane n)).stride (superpose s.params.tables (coefs l)) fun _ => 0))
    Machine.blkIntra m n q pic u = .ok v ∧ Within m aic s v := by
  intro l v
  have hsq := squareIn_congr h (block_square hp hn)
  have hap := mbBlockSound_apart hb
  have hn12 : n < 12 := by have := blocksInUse_lt hn; omega
  constructor
  · simp only [Machine.blkIntra, h.blockArgs hm hn12, Checks.ok_bind]
    rw [reconBody_eq_ok]
    refine ⟨h.blockSound hap hb.1, hsq, ?_⟩
    simp only [h.params, h.symbols hap]; rfl
  · refine (h.store fun p hp' => hst _ ?_).noteBlock _ _
    rw [unitSize_16 hr]
    exact blockSamples_mem hn hp'

/-- blk_aic of a block that can be reconstructed, with a mode and a column in range. -/
theorem Within.blkAic (h : Within m true s u) (hm : mbSound s m) (hr : s.modeRru = false) {pic : Picture}
    (hp : picFits s m 16 pic) (hst : storesTo s m pic) {n : Nat} (hn : n ∈ blocksInUse m.run.color)
    (hb : mbBlockSound s m n (quantOf s m)) (hmode : aicModeOf s m ≤ 2) (hcol : m.col < s.params.aicCols) :
    let coef := aicCoefOf s m u.aicc n
    let acc := superpose s.params.tables (coefList coef)
    let v := Machine.noteBlock acc .general
      { u.store (blockSamples (blockTop m pic n) (pic.plane (blockPlane n)).stride acc fun _ => 0) with
        aicc := cached u.aicc m.col n coef }
    Machine.blkAic m n (quantOf s m) pic u = .ok v ∧ Within m true s v := by
  intro coef acc v
  have hsq := squareIn_congr h (block_square hp hn)
  have hap := mbBlockSound_apart hb
  have hn6 := blocksInUse_lt hn
  have hc : aicCoef (aicModeOf s m) (aboveEntry u m.col n) (leftEntry u m.col n)
      (Safety.symbols s.params.tables u.mem (blockOf s m n (quantOf s m)) (aicModeOf s m)) = coef := by
    rw [h.symbols hap]; rfl
  constructor
  · simp only [Machine.blkAic, h.blockArgs hm (by omega : n < 12), h.mbAicMode hm, Checks.ok_bind]
    refine reconAicBody_eq_ok.2 ⟨h.blockSound hap hb.1, hmode, by omega, by rw [h.params]; exact hcol, hsq, ?_⟩
    simp only [h.params, hc]; rfl
  · refine Within.noteBlock (Within.setAicc (h.store fun p hp' => hst _ ?_) _ fun k hk => ?_) _ _
    · rw [unitSize_16 hr]
      exact blockSamples_mem hn hp'
    · simp only [cached, State.store]
      rw [List.getElem?_modify]; simp [Ne.symm hk]

end

/-! ### Memory alone -/

/-- Bytes all set to one value. -/
theorem Memory.read_writeAll_const {m : Memory} (h : m.wf) (l : List Nat) (v : Byte) (a : Nat) :
    (m.writeAll (l.map fun b => (b, v))).read a = if a ∈ l then v else m.read a := by
  induction l generalizing m with
  | nil => simp
  | cons b l ih =>
    rw [List.map_cons, Memory.writeAll_cons, ih (Memory.wf_write h _ _), Memory.read_write h]
    by_cases h1 : a = b <;> by_cases h2 : a ∈ l <;> simp [h1, h2]

/-- Bytes stored at different addresses given by a function of an index. -/
theorem Memory.read_writeAll_map {α : Type} {m : Memory} (h : m.wf) {l : List α} {f : α → Nat} {v : α → Byte}
    (hl : (l.map f).Nodup) {i : α} (hi : i ∈ l) : (m.writeAll (l.map fun i => (f i, v i))).read (f i) = v i := by
  refine Memory.read_writeAll_of_mem h ?_ (p := (f i, v i)) (List.mem_map_of_mem hi)
  simpa [List.map_map, Function.comp_def] using hl

/-- Only memory differs. -/
abbrev memOnly (s u : State) : Prop := u = { s with mem := u.mem }

theorem memOnly.trans {s u v : State} (h : memOnly s u) (h' : memOnly u v) : memOnly s v := by
  have : v = { u with mem := v.mem } := h'
  rw [h] at this; exact this

theorem memOnly_store (u : State) (l : List (Nat × Byte)) : memOnly u (u.store l) := rfl

/-- A state that differs from one inside the handler in samples only. -/
theorem Within.ofMem {m : Mb} {aic : Bool} {s u v : State} (h : Within m aic s u) (hmo : memOnly u v) (hw : v.mem.wf)
    (hfr : ∀ a, ¬mbBytes s m a → v.mem.read a = u.mem.read a) : Within m aic s v := by
  have e : v = { u with mem := v.mem } := hmo
  refine ⟨?_, hw, fun a ha => (hfr a ha).trans (h.read a ha), fun k hk => ?_, fun hr => ?_⟩
  · rw [e]; exact (congrArg (fun x : State => { x with mem := v.mem }) h.rest).trans rfl
  · rw [e]; exact h.aicc k hk
  · rw [e]; exact h.rru hr

section
variable {m : Mb} {aic : Bool} {s u : State}

/-! ### Predictions, fills and copies -/

theorem planeSize_add (id : PlaneId) (a b : Nat) (h : a % 2 = 0) : planeSize id (a + b) = planeSize id a + planeSize id b := by
  cases id <;> simp only [planeSize] <;> omega

theorem answerOf_eq (u : State) (req : McRequest) (target : Picture) (color : Bool) :
    answerOf u req target color = (mbIndex color 16).map fun i =>
      ((target.plane i.1).at (planeSize i.1 req.x + i.2.1) (planeSize i.1 req.y + i.2.2), mcSample u req i.1 i.2.1 i.2.2) := by
  simp [answerOf, mbIndex, List.map_flatMap, List.map_map, Function.comp_def]

/-- One request answered. -/
theorem requestMc_eq_ok {req : McRequest} {target : Picture} {color : Bool} {v : State} :
    requestMc req target color u = .ok v ↔
      (∀ i ∈ mbIndex color 16, (target.plane i.1).at (planeSize i.1 req.x + i.2.1) (planeSize i.1 req.y + i.2.2) + 1 ≤
        u.params.memSize) ∧ v = u.store (answerOf u req target color) := by
  have h := checkThenStore_bytes (s := u) (t := v) (l := mbIndex color 16)
    (f := fun i => (target.plane i.1).at (planeSize i.1 req.x + i.2.1) (planeSize i.1 req.y + i.2.2))
    (v := fun i => mcSample u req i.1 i.2.1 i.2.2)
  rw [answerOf_eq, ← h]
  simp [requestMc, mbIndex, List.map_flatMap, List.map_map, Function.comp_def]

/-- The addresses of a request for the macroblock's square. -/
theorem request_cell {pic : Picture} {id : PlaneId} (x y : Nat) :
    (pic.plane id).at (planeSize id (16 * m.col) + x) (planeSize id (16 * m.row) + y) = mbCell m 16 pic id x y := by
  cases id <;> simp only [mbCell, planeSize] <;> congr 2 <;> omega

theorem Within.readVectors (h : Within m aic s u) (hm : mbSound s m) :
    readVectors u m.d = .ok ((List.range 4).map (vectorOf s m)) := by
  simp only [Machine.readVectors, h.mbMv hm (k := 0) (by omega), h.mbMv hm (k := 1) (by omega),
    h.mbMv hm (k := 2) (by omega), h.mbMv hm (k := 3) (by omega), Checks.ok_bind]
  rfl

theorem Within.requestOverlap (h : Within m aic s u) (hm : mbSound s m) (kind : McKind) :
    requestOverlap u m.d kind = .ok ((kind = .inter || kind = .inter4v) && overlapOf s m) := by
  cases kind <;> simp [Machine.requestOverlap, h.mbOverlap hm]

/-- The request of the normal resolution, of the macroblock itself or of the B path. -/
theorem Within.mcNormal (h : Within m aic s u) (hm : mbSound s m) (hr : s.modeRru = false) {kind : McKind}
    (hk : kind = .bidir → m.run.useB = true) :
    let pic := if kind = .bidir then m.run.bPic else m.run.newPic
    let v := u.store (answerOf u (requestOf s m kind) pic m.run.color)
    Machine.mcNormal m kind u = .ok v ∧ Within m aic s v ∧ ∀ p ∈ answerOf u (requestOf s m kind) pic m.run.color,
      p.1 ∈ mbSamples m 16 pic := by
  intro pic v
  have hu := unitSize_16 hr
  have hfit : picFits s m 16 pic := by
    by_cases hb : kind = .bidir
    · simp only [pic, if_pos hb]; exact hu ▸ (mbSound_useB hm (hk hb)).2
    · simp only [pic, if_neg hb]; exact hu ▸ mbSound_new hm
  have hst : ∀ a ∈ mbSamples m 16 pic, mbBytes s m a := by
    intro a ha
    by_cases hb : kind = .bidir
    · simp only [pic, if_pos hb] at ha; exact .inr ⟨hk hb, by rw [hu]; exact ha⟩
    · simp only [pic, if_neg hb] at ha; exact .inl (by rw [hu]; exact ha)
  have hmem : ∀ p ∈ answerOf u (requestOf s m kind) pic m.run.color, p.1 ∈ mbSamples m 16 pic := by
    intro p hp
    rw [answerOf_eq] at hp
    obtain ⟨i, hi, rfl⟩ := List.mem_map.1 hp
    have hi' := mem_mbIndex.1 hi
    simp only [requestOf, request_cell]
    exact mbCell_mem hi'.1 hi'.2.1 hi'.2.2
  refine ⟨?_, h.store fun p hp => hst _ (hmem p hp), hmem⟩
  have hreq : Machine.mcNormal m kind u = requestMc (requestOf s m kind) pic m.run.color u := by
    simp only [Machine.mcNormal, h.requestOverlap hm, h.readVectors hm, Checks.ok_bind, decide_eq_true_eq]
    simp only [requestOf, h.regD, h.modeUmv, pic]
  rw [hreq, requestMc_eq_ok]
  refine ⟨fun i hi => ?_, rfl⟩
  have hi' := mem_mbIndex.1 hi
  simp only [requestOf, request_cell, h.params]
  exact hfit.lt (mbCell_mem hi'.1 hi'.2.1 hi'.2.2)

theorem mbSquare_eq (m : Mb) (n : Nat) (pic : Picture) (id : PlaneId) :
    mbSquare m n pic id = (grid (planeSize id n) (planeSize id n)).map fun p => ((mbCell m n pic id p.1 p.2 : Nat) : Int) := rfl

/-- The bytes of one plane's square. -/
def squareCells (m : Mb) (n : Nat) (pic : Picture) (id : PlaneId) : List Nat :=
  (grid (planeSize id n) (planeSize id n)).map fun p => mbCell m n pic id p.1 p.2

theorem squareCells_sub {m : Mb} {n : Nat} {pic : Picture} {id : PlaneId} (hid : id ∈ planesInUse m.run.color) {a : Nat}
    (ha : a ∈ squareCells m n pic id) : a ∈ mbSamples m n pic := by
  obtain ⟨p, hp, rfl⟩ := List.mem_map.1 ha
  exact mbCell_mem hid (mem_grid.1 hp).1 (mem_grid.1 hp).2

theorem mbSamples_eq_squareCells (m : Mb) (n : Nat) (pic : Picture) :
    mbSamples m n pic = (planesInUse m.run.color).flatMap (squareCells m n pic) := rfl

/-- A fill of one plane's square. -/
theorem fillPlane_eq {n : Nat} {id : PlaneId} (hid : id ∈ planesInUse m.run.color)
    (hf : ∀ a ∈ mbSamples m n m.run.newPic, a < u.params.memSize) :
    fillPlane m n id u = .ok (u.store ((squareCells m n m.run.newPic id).map fun a => (a, 128))) := by
  have h := checkThenStore_bytes (s := u) (t := u.store ((squareCells m n m.run.newPic id).map fun a => (a, 128)))
    (l := squareCells m n m.run.newPic id) (f := fun a => a) (v := fun _ => 128)
  rw [fillPlane, mbSquare_eq]
  rw [show ((grid (planeSize id n) (planeSize id n)).map fun p => ((mbCell m n m.run.newPic id p.1 p.2 : Nat) : Int)).map
    (fun a => (a, [(128 : Byte)])) = (squareCells m n m.run.newPic id).map fun p => (((p : Nat) : Int), [(128 : Byte)]) by
    simp [squareCells, List.map_map, Function.comp_def]]
  exact h.2 ⟨fun a ha => hf a (squareCells_sub hid ha), rfl⟩

/-- A copy of one plane's square. -/
theorem copyPlane_eq {n : Nat} {src dst : Picture} {id : PlaneId} (hid : id ∈ planesInUse m.run.color)
    (hs : ∀ a ∈ mbSamples m n src, a < u.params.memSize) (hd : ∀ a ∈ mbSamples m n dst, a < u.params.memSize) :
    copyPlane m n src dst id u = .ok (u.store ((grid (planeSize id n) (planeSize id n)).map fun p =>
      (mbCell m n dst id p.1 p.2, u.mem.read (mbCell m n src id p.1 p.2)))) := by
  have hr := (memReadAll_bytes (s := u) (l := grid (planeSize id n) (planeSize id n))
    (f := fun p => mbCell m n src id p.1 p.2) (v := _)).2
    ⟨fun p hp => hs _ (squareCells_sub hid (List.mem_map_of_mem hp)), rfl⟩
  have h := checkThenStore_bytes (s := u) (t := u.store ((grid (planeSize id n) (planeSize id n)).map fun p =>
      (mbCell m n dst id p.1 p.2, u.mem.read (mbCell m n src id p.1 p.2))))
    (l := grid (planeSize id n) (planeSize id n)) (f := fun p => mbCell m n dst id p.1 p.2)
    (v := fun p => u.mem.read (mbCell m n src id p.1 p.2))
  simp only [copyPlane, mbSquare_eq, hr, Checks.ok_bind, List.map_map, Function.comp_def, BitVec.ofNat_toNat,
    BitVec.setWidth_eq, zip_self_map]
  exact h.2 ⟨fun p hp => hd _ (squareCells_sub hid (List.mem_map_of_mem hp)), rfl⟩

end

/-! ### Fills and copies of whole squares -/

/-- A square filled with 128, plane by plane. -/
theorem fillPlanes_ok {m : Mb} {n : Nat} {u : State} (hw : u.mem.wf)
    (hf : ∀ a ∈ mbSamples m n m.run.newPic, a < u.params.memSize) :
    ∃ v, runOps (grayFill m n) u = .ok v ∧ memOnly u v ∧ v.mem.wf ∧
      ∀ a, v.mem.read a = if a ∈ mbSamples m n m.run.newPic then 128 else u.mem.read a := by
  obtain ⟨v, hv, ⟨h1, h2⟩, h3⟩ := runOps_map (l := planesInUse m.run.color) (f := fillPlane m n) (u := u)
    (Q := fun done v => (memOnly u v ∧ v.mem.wf) ∧
      ∀ a, v.mem.read a = if a ∈ done.flatMap (squareCells m n m.run.newPic) then 128 else u.mem.read a)
    ⟨⟨rfl, hw⟩, by simp⟩ (by
      rintro done id rest v hl ⟨⟨hmo, hwv⟩, hv⟩
      have hid : id ∈ planesInUse m.run.color := by rw [hl]; simp
      have hp : v.params = u.params := (congrArg State.params hmo).trans rfl
      refine ⟨_, fillPlane_eq hid fun a ha => by rw [hp]; exact hf a ha,
        ⟨hmo.trans (memOnly_store _ _), Memory.wf_writeAll hwv _⟩, fun a => ?_⟩
      rw [State.store, Memory.read_writeAll_const hwv, hv a]
      simp only [List.flatMap_append, List.flatMap_cons, List.flatMap_nil, List.append_nil, List.mem_append]
      by_cases e1 : a ∈ squareCells m n m.run.newPic id <;>
        by_cases e2 : a ∈ done.flatMap (squareCells m n m.run.newPic) <;> simp [e1, e2])
  exact ⟨v, hv, h1, h2, h3⟩

/-- A square copied from one picture to another, plane by plane. -/
theorem copyPlanes_ok {m : Mb} {n : Nat} {src dst : Picture} {u : State} (hw : u.mem.wf)
    (hs : ∀ a ∈ mbSamples m n src, a < u.params.memSize) (hd : ∀ a ∈ mbSamples m n dst, a < u.params.memSize) :
    ∃ v, runOps ((planesInUse m.run.color).map (copyPlane m n src dst)) u = .ok v ∧ memOnly u v ∧ v.mem.wf ∧
      (∀ a, a ∉ mbSamples m n dst → v.mem.read a = u.mem.read a) ∧
      ((∀ a ∈ mbSamples m n src, a ∉ mbSamples m n dst) → (mbSamples m n dst).Nodup →
        ∀ id ∈ planesInUse m.run.color, ∀ x < planeSize id n, ∀ y < planeSize id n,
          v.mem.read (mbCell m n dst id x y) = u.mem.read (mbCell m n src id x y)) := by
  obtain ⟨v, hv, ⟨h1, h2⟩, h3, h4⟩ := runOps_map (l := planesInUse m.run.color) (f := copyPlane m n src dst) (u := u)
    (Q := fun done v => (memOnly u v ∧ v.mem.wf) ∧ (∀ a, a ∉ mbSamples m n dst → v.mem.read a = u.mem.read a) ∧
      ((∀ a ∈ mbSamples m n src, a ∉ mbSamples m n dst) → (mbSamples m n dst).Nodup →
        ∀ id ∈ planesInUse m.run.color, ∀ x < planeSize id n, ∀ y < planeSize id n, id ∈ done →
          v.mem.read (mbCell m n dst id x y) = u.mem.read (mbCell m n src id x y)))
    ⟨⟨rfl, hw⟩, fun _ _ => rfl, by simp⟩ (by
      rintro done id rest w hl ⟨⟨hmo, hww⟩, hfr, hval⟩
      have hid : id ∈ planesInUse m.run.color := by rw [hl]; simp
      have hp : w.params = u.params := (congrArg State.params hmo).trans rfl
      have hcell : ∀ p ∈ grid (planeSize id n) (planeSize id n), mbCell m n dst id p.1 p.2 ∈ mbSamples m n dst :=
        fun p hp => mbCell_mem hid (mem_grid.1 hp).1 (mem_grid.1 hp).2
      refine ⟨_, copyPlane_eq hid (fun a ha => by rw [hp]; exact hs a ha) (fun a ha => by rw [hp]; exact hd a ha),
        ⟨hmo.trans (memOnly_store _ _), Memory.wf_writeAll hww _⟩, fun a ha => ?_, fun hap hnd id' hid' x hx y hy hdone => ?_⟩
      · rw [State.store, Memory.read_writeAll_of_notMem hww, hfr a ha]
        intro hc
        rw [List.map_map, List.mem_map] at hc
        obtain ⟨q, hq, rfl⟩ := hc
        exact ha (hcell q hq)
      · rw [State.store]
        by_cases e : id' = id
        · subst e
          have hp : (x, y) ∈ grid (planeSize id' n) (planeSize id' n) := mem_grid.2 ⟨hx, hy⟩
          have hinj : ((grid (planeSize id' n) (planeSize id' n)).map fun p => mbCell m n dst id' p.1 p.2).Nodup := by
            refine (List.nodup_map_iff_inj_on (grid_nodup _ _)).2 fun p hp q hq e => ?_
            have r1 := mem_grid.1 hp
            have r2 := mem_grid.1 hq
            obtain ⟨-, e1, e2⟩ := mbCell_inj hnd hid r1.1 r1.2 hid r2.1 r2.2 e
            exact Prod.ext e1 e2
          have := Memory.read_writeAll_map hww (v := fun p => w.mem.read (mbCell m n src id' p.1 p.2)) hinj hp
          exact this.trans (hfr _ (hap _ (mbCell_mem hid hx hy)))
        · rw [Memory.read_writeAll_of_notMem hww]
          · refine hval hap hnd id' hid' x hx y hy ?_
            rcases List.mem_append.1 hdone with hd' | hd'
            · exact hd'
            · exact absurd (List.mem_singleton.1 hd') e
          · intro hc
            rw [List.map_map, List.mem_map] at hc
            obtain ⟨q, hq, he⟩ := hc
            have r1 := mem_grid.1 hq
            exact e (mbCell_inj hnd hid r1.1 r1.2 hid' hx hy he).1.symm)
  exact ⟨v, hv, h1, h2, h3, fun hap hnd id hid x hx y hy => h4 hap hnd id hid x hx y hy hid⟩

section
variable {m : Mb} {aic : Bool} {s u : State}

/-! ### The samples after a request -/

theorem read_request (hw : u.mem.wf) {pic : Picture} {kind : McKind} (hn : (mbSamples m 16 pic).Nodup) {id : PlaneId}
    (hid : id ∈ planesInUse m.run.color) {x y : Nat} (hx : x < planeSize id 16) (hy : y < planeSize id 16) :
    (u.store (answerOf u (requestOf s m kind) pic m.run.color)).mem.read (mbCell m 16 pic id x y) =
      mcSample u (requestOf s m kind) id x y := by
  rw [mbSamples_eq_map] at hn
  have h := Memory.read_writeAll_map hw (v := fun i => mcSample u (requestOf s m kind) i.1 i.2.1 i.2.2) hn
    (mem_mbIndex.2 ⟨hid, hx, hy⟩ : (id, x, y) ∈ _)
  rw [State.store, answerOf_eq]
  simpa only [requestOf, request_cell] using h

/-- The fill of the fallback. -/
theorem Within.grayFill (h : Within m aic s u) (hm : mbSound s m) :
    ∃ v, runOps (grayFill m (Machine.unitSize s)) u = .ok v ∧ (Within m aic s v ∧ memOnly u v) ∧
      (∀ a ∈ mbSamples m (Machine.unitSize s) m.run.newPic, v.mem.read a = 128) ∧
      (∀ a, a ∉ mbSamples m (Machine.unitSize s) m.run.newPic → v.mem.read a = u.mem.read a) := by
  obtain ⟨v, hv, hmo, hwf, hr⟩ := fillPlanes_ok (m := m) (n := Machine.unitSize s) h.wf fun a ha => by
    rw [h.params]; exact (mbSound_new hm).lt ha
  exact ⟨v, hv, ⟨h.ofMem hmo hwf fun a ha => by rw [hr, if_neg fun hc => ha (.inl hc)], hmo⟩,
    fun a ha => by rw [hr, if_pos ha], fun a ha => by rw [hr, if_neg ha]⟩

/-! ### Quadrants (42_dispatcher.md R256, R257) -/

theorem quadrant_cell {pic : Picture} {id : PlaneId} {k : Nat} (x y : Nat) :
    (pic.plane id).at (planeSize id (32 * m.col + 16 * (k % 2)) + x) (planeSize id (32 * m.row + 16 * (k / 2)) + y) =
      mbCell m 32 pic id (planeSize id 16 * (k % 2) + x) (planeSize id 16 * (k / 2) + y) := by
  cases id <;> simp only [mbCell, planeSize] <;> congr 1 <;> omega

theorem quadrant_range {id : PlaneId} {k x y : Nat} (hk : k < 4) (hx : x < planeSize id 16) (hy : y < planeSize id 16) :
    planeSize id 16 * (k % 2) + x < planeSize id 32 ∧ planeSize id 16 * (k / 2) + y < planeSize id 32 := by
  have : k / 2 ≤ 1 := by omega
  have : k % 2 ≤ 1 := by omega
  cases id <;> simp only [planeSize] at * <;> constructor <;> omega

theorem quadrantOf_cells {pic : Picture} {kind : McKind} {k : Nat} (hk : k < 4) {color : Bool} (hc : color = m.run.color)
    {p : Nat × Byte} (hp : p ∈ answerOf u (quadrantOf s m kind k) pic color) : p.1 ∈ mbSamples m 32 pic := by
  subst hc
  rw [answerOf_eq] at hp
  obtain ⟨i, hi, rfl⟩ := List.mem_map.1 hp
  have hi' := mem_mbIndex.1 hi
  simp only [quadrantOf, quadrant_cell]
  have := quadrant_range hk hi'.2.1 hi'.2.2
  exact mbCell_mem hi'.1 this.1 this.2

theorem Within.mcQuadrant (h : Within m aic s u) (hm : mbSound s m) (hr : s.modeRru = true) {kind : McKind} {k : Nat}
    (hk : k < 4) :
    let v := u.store (answerOf u (quadrantOf s m kind k) m.run.newPic m.run.color)
    Machine.mcQuadrant m kind k u = .ok v ∧ Within m aic s v := by
  intro v
  have hu := unitSize_32 hr
  have hfit : picFits s m 32 m.run.newPic := hu ▸ mbSound_new hm
  refine ⟨?_, h.store fun p hp => .inl (hu ▸ quadrantOf_cells hk rfl hp)⟩
  have hreq : Machine.mcQuadrant m kind k u = requestMc (quadrantOf s m kind k) m.run.newPic m.run.color u := by
    have hk' : (if kind = .inter4v then k else 0) < 4 := by split <;> omega
    simp only [Machine.mcQuadrant, h.requestOverlap hm, h.mbMv hm hk', Checks.ok_bind]
    simp only [quadrantOf, h.regD, h.modeUmv]
  rw [hreq, requestMc_eq_ok]
  refine ⟨fun i hi => ?_, rfl⟩
  have hi' := mem_mbIndex.1 hi
  have := quadrant_range (k := k) hk hi'.2.1 hi'.2.2
  simp only [quadrantOf, quadrant_cell, h.params]
  exact hfit.lt (mbCell_mem hi'.1 this.1 this.2)

theorem Within.afterQuadrants (hw : s.mem.wf) (hm : mbSound s m) (hr : s.modeRru = true) (kind : McKind) {k : Nat}
    (hk : k ≤ 4) : Within m aic s (afterQuadrants s m kind k) ∧ memOnly s (Safety.afterQuadrants s m kind k) := by
  induction k with
  | zero => exact ⟨.refl hw, rfl⟩
  | succ k ih =>
    obtain ⟨h1, h2⟩ := ih (by omega)
    exact ⟨(h1.mcQuadrant hm hr (by omega)).2, h2.trans (memOnly_store _ _)⟩

theorem runOps_quadrants (hw : s.mem.wf) (hm : mbSound s m) (hr : s.modeRru = true) (kind : McKind) :
    runOps ((List.range 4).map (mcQuadrant m kind)) s = .ok (afterQuadrants s m kind 4) := by
  have step : ∀ k < 4, mcQuadrant m kind k (afterQuadrants s m kind k) = .ok (afterQuadrants s m kind (k + 1)) :=
    fun k hk => ((Within.afterQuadrants (aic := false) hw hm hr kind (by omega)).1.mcQuadrant hm hr hk).1
  have e : List.range 4 = [0, 1, 2, 3] := rfl
  rw [e]
  simp only [List.map_cons, List.map_nil]
  have s0 : mcQuadrant m kind 0 s = .ok (afterQuadrants s m kind 1) := step 0 (by omega)
  rw [runOps_cons_of_ok s0, runOps_cons_of_ok (step 1 (by omega)), runOps_cons_of_ok (step 2 (by omega)),
    runOps_cons_of_ok (step 3 (by omega)), runOps_nil]

theorem mbIndex_nodup (color : Bool) (n : Nat) : (mbIndex color n).Nodup := by
  rw [mbIndex, List.nodup_flatMap]
  refine ⟨fun id _ => (grid_nodup _ _).map fun a b e => ?_, ?_⟩
  · simp only [Prod.mk.injEq, true_and] at e
    exact Prod.ext e.1 e.2
  · have hp : (planesInUse color).Nodup := by cases color <;> decide
    refine hp.imp fun {a b} hab => ?_
    simp only [Function.onFun, List.disjoint_left, List.mem_map]
    rintro _ ⟨p, _, rfl⟩ ⟨q, _, e⟩
    exact hab (Prod.mk.inj e).1.symm

/-- A sample after the quadrants before k: what its own quadrant's request answered. -/
theorem read_afterQuadrants (hw : s.mem.wf) (hm : mbSound s m) (hr : s.modeRru = true) {kind : McKind} {k : Nat}
    (hn : (mbSamples m 32 m.run.newPic).Nodup) {id : PlaneId} (hid : id ∈ planesInUse m.run.color) {x y : Nat}
    (hx : x < planeSize id 32) (hy : y < planeSize id 32) (hk : k ≤ 4)
    (hq : 2 * (y / planeSize id 16) + x / planeSize id 16 < k) :
    (afterQuadrants s m kind k).mem.read (mbCell m 32 m.run.newPic id x y) =
      mcSample (afterQuadrants s m kind (2 * (y / planeSize id 16) + x / planeSize id 16))
        (quadrantOf s m kind (2 * (y / planeSize id 16) + x / planeSize id 16)) id (x % planeSize id 16)
        (y % planeSize id 16) := by
  have hpos : 0 < planeSize id 16 := by cases id <;> simp [planeSize]
  have h32 : planeSize id 32 = 2 * planeSize id 16 := by cases id <;> simp [planeSize]
  have hx2 : x / planeSize id 16 < 2 := (Nat.div_lt_iff_lt_mul hpos).2 (by omega)
  have hy2 : y / planeSize id 16 < 2 := (Nat.div_lt_iff_lt_mul hpos).2 (by omega)
  have hxm := Nat.mod_lt x hpos
  have hym := Nat.mod_lt y hpos
  have hxe := Nat.div_add_mod x (planeSize id 16)
  have hye := Nat.div_add_mod y (planeSize id 16)
  generalize hq' : 2 * (y / planeSize id 16) + x / planeSize id 16 = q at *
  have hq2 : q % 2 = x / planeSize id 16 ∧ q / 2 = y / planeSize id 16 := by
    have H : ∀ a b, a < 2 → b < 2 → 2 * b + a = q → q % 2 = a ∧ q / 2 = b := by omega
    exact H _ _ hx2 hy2 hq'
  induction k with
  | zero => omega
  | succ k ih =>
    obtain ⟨h1, -⟩ := Within.afterQuadrants (aic := false) hw hm hr kind (k := k) (by omega)
    simp only [afterQuadrants, State.store]
    by_cases hqk : q = k
    · subst hqk
      have hinj : ((mbIndex m.run.color 16).map fun i =>
          (m.run.newPic.plane i.1).at (planeSize i.1 (quadrantOf s m kind q).x + i.2.1)
            (planeSize i.1 (quadrantOf s m kind q).y + i.2.2)).Nodup := by
        refine (List.nodup_map_iff_inj_on ?_).2 ?_
        · exact mbIndex_nodup _ _
        · intro i hi j hj e
          have hi' := mem_mbIndex.1 hi
          have hj' := mem_mbIndex.1 hj
          simp only [quadrantOf, quadrant_cell] at e
          have r1 := quadrant_range (k := q) (by omega) hi'.2.1 hi'.2.2
          have r2 := quadrant_range (k := q) (by omega) hj'.2.1 hj'.2.2
          obtain ⟨e1, e2, e3⟩ := mbCell_inj hn hi'.1 r1.1 r1.2 hj'.1 r2.1 r2.2 e
          obtain ⟨a, b, c⟩ := i
          obtain ⟨a', b', c'⟩ := j
          simp only at e1 e2 e3
          subst e1
          simp only [Prod.mk.injEq, true_and]
          omega
      have ea : (m.run.newPic.plane id).at (planeSize id (quadrantOf s m kind q).x + x % planeSize id 16)
          (planeSize id (quadrantOf s m kind q).y + y % planeSize id 16) = mbCell m 32 m.run.newPic id x y := by
        simp only [quadrantOf]
        rw [quadrant_cell, hq2.1, hq2.2, hxe, hye]
      rw [answerOf_eq, ← ea]
      exact Memory.read_writeAll_map h1.wf
        (v := fun i => mcSample (Safety.afterQuadrants s m kind q) (quadrantOf s m kind q) i.1 i.2.1 i.2.2) hinj
        (mem_mbIndex.2 ⟨hid, hxm, hym⟩ : (id, x % planeSize id 16, y % planeSize id 16) ∈ _)
    · rw [Memory.read_writeAll_of_notMem h1.wf, ih (by omega) (by omega)]
      rw [answerOf_eq, List.map_map, List.mem_map]
      rintro ⟨i, hi, e⟩
      have hi' := mem_mbIndex.1 hi
      simp only [Function.comp_def, quadrantOf, quadrant_cell] at e
      have r1 := quadrant_range (k := k) (by omega) hi'.2.1 hi'.2.2
      obtain ⟨e1, e2, e3⟩ := mbCell_inj hn hi'.1 r1.1 r1.2 hid hx hy e
      obtain ⟨a, b, c⟩ := i
      simp only at e1 e2 e3 hi'
      subst e1
      have ex : k % 2 = x / planeSize a 16 := by
        rw [← e2, Nat.mul_add_div hpos, Nat.div_eq_of_lt hi'.2.1, Nat.add_zero]
      have ey : k / 2 = y / planeSize a 16 := by
        rw [← e3, Nat.mul_add_div hpos, Nat.div_eq_of_lt hi'.2.2, Nat.add_zero]
      omega

/-- The predictions of a macroblock: they complete, store only its samples, and leave the samples Safety names. -/
theorem predictOps_ok (hw : s.mem.wf) (hm : mbSound s m) {kind : McKind} (hk : kind ≠ .bidir) :
    ∃ v, runOps (predictOps m s.modeRru kind) s = .ok v ∧ (Within m aic s v ∧ memOnly s v) ∧
      (s.modeRru = false → ∀ a, a ∉ mbSamples m 16 m.run.newPic → v.mem.read a = s.mem.read a) ∧
      (s.modeRru = false → (mbSamples m 16 m.run.newPic).Nodup → ∀ id ∈ planesInUse m.run.color,
        ∀ x < planeSize id 16, ∀ y < planeSize id 16,
          v.mem.read (mbCell m 16 m.run.newPic id x y) = predictionOf s m kind id x y) ∧
      (s.modeRru = true → (mbSamples m 32 m.run.newPic).Nodup → ∀ id ∈ planesInUse m.run.color,
        ∀ x < planeSize id 32, ∀ y < planeSize id 32,
          v.mem.read (mbCell m 32 m.run.newPic id x y) = unitPrediction s m kind id x y) := by
  have h0 : Within m aic s s := .refl hw
  cases hg : m.run.geomFail with
  | true =>
    obtain ⟨v, hv, hwv, hval, hfr⟩ := h0.grayFill hm
    have e : predictOps m s.modeRru kind = grayFill m (unitSize s) := by
      simp only [predictOps, hg, if_true, unitSize]
    refine ⟨v, by rw [e]; exact hv, hwv, fun hr => by rw [unitSize_16 hr] at hfr; exact hfr,
      fun hr _ id hid x hx y hy => ?_, fun hr _ id hid x hx y hy => ?_⟩
    · rw [unitSize_16 hr] at hval
      rw [hval _ (mbCell_mem hid hx hy), predictionOf, if_pos hg]
    · rw [unitSize_32 hr] at hval
      rw [hval _ (mbCell_mem hid hx hy), unitPrediction]
      simp only [hg, if_true]
  | false =>
    cases hr : s.modeRru with
    | false =>
      have hq := h0.mcNormal hm hr (kind := kind) fun h => absurd h hk
      simp only [if_neg hk] at hq
      refine ⟨_, ?_, ⟨hq.2.1, memOnly_store _ _⟩, fun _ a ha => ?_, fun _ hn id hid x hx y hy => ?_, by simp⟩
      · simp only [predictOps, hg, Bool.false_eq_true, if_false]
        rw [runOps_cons_of_ok hq.1]; rfl
      · refine Memory.read_writeAll_of_notMem hw fun hc => ?_
        obtain ⟨p, hp, rfl⟩ := List.mem_map.1 hc
        exact ha (hq.2.2 p hp)
      · rw [read_request hw hn hid hx hy, predictionOf, hg]; rfl
    | true =>
      obtain ⟨h1, h2⟩ := Within.afterQuadrants (aic := aic) hw hm hr kind (k := 4) (by omega)
      refine ⟨_, ?_, ⟨h1, h2⟩, by simp, by simp, fun _ hn id hid x hx y hy => ?_⟩
      · simp only [predictOps, hg, Bool.false_eq_true, if_false, if_true]
        exact runOps_quadrants hw hm hr kind
      · have hpos : 0 < planeSize id 16 := by cases id <;> simp [planeSize]
        have h32 : planeSize id 32 = 2 * planeSize id 16 := by cases id <;> simp [planeSize]
        have hx2 : x / planeSize id 16 < 2 := (Nat.div_lt_iff_lt_mul hpos).2 (by omega)
        have hy2 : y / planeSize id 16 < 2 := (Nat.div_lt_iff_lt_mul hpos).2 (by omega)
        rw [read_afterQuadrants hw hm hr hn hid hx hy (by omega) (by omega), unitPrediction]
        simp only [hg, Bool.false_eq_true, if_false]

end

end Sys2Proof.Machine
end

