-- ==== Sys2Proof/Laws/Residuals.lean ====
section
/-! SUPPORT. What a macroblock's residuals do, block by block in the normal resolution and through RRUBUF in the reduced
one, and the B path. -/

namespace Sys2Proof.Machine

open Sys2Proof.Config Sys2Proof.Safety

section
variable {m : Mb} {aic : Bool} {s u : State}

/-! ### The blocks of a normal-resolution macroblock -/

/-- A sample after one block's samples are stored: its own block's value, any other as before. -/
theorem read_blockSamples {w : Memory} (hw : w.wf) {pic : Picture} (hnd : (mbSamples m 16 pic).Nodup) {n : Nat}
    (hn : n ∈ blocksInUse m.run.color) (acc : List (BitVec 32)) (pred : Nat × Nat → Int) {id : PlaneId}
    (hid : id ∈ planesInUse m.run.color) {x y : Nat} (hx : x < planeSize id 16) (hy : y < planeSize id 16) :
    (w.writeAll (blockSamples (blockTop m pic n) (pic.plane (blockPlane n)).stride acc pred)).read (mbCell m 16 pic id x y) =
      if blockAt id x y = n then sampleByte (clip255 (pred (x % 8, y % 8) + residual acc (x % 8) (y % 8)))
      else w.read (mbCell m 16 pic id x y) := by
  have hn6 := blocksInUse_lt hn
  split
  · next hat =>
    obtain ⟨-, h1, h2, h3⟩ := blockAt_spec hid hx hy
    rw [hat] at h1 h2 h3
    have hp : (x % 8, y % 8) ∈ grid 8 8 := mem_grid.2 ⟨by simp only; omega, by simp only; omega⟩
    have hc : mbCell m 16 pic id x y = cell (blockTop m pic n) (pic.plane (blockPlane n)).stride 1 (x % 8, y % 8) := by
      rw [block_cell m pic hn6, h1, h2, h3]
    rw [hc, blockSamples]
    refine Memory.read_writeAll_map hw (f := cell (blockTop m pic n) (pic.plane (blockPlane n)).stride 1)
      (v := fun p => sampleByte (clip255 (pred p + residual acc p.1 p.2))) ?_ hp
    refine (List.nodup_map_iff_inj_on (grid_nodup 8 8)).2 fun p hp q hq e => ?_
    rw [block_cell m pic hn6, block_cell m pic hn6] at e
    have r1 := block_range hn6 hp
    have r2 := block_range hn6 hq
    obtain ⟨-, e1, e2⟩ := mbCell_inj hnd (blockPlane_mem hn) r1.1 r1.2 (blockPlane_mem hn) r2.1 r2.2 e
    exact Prod.ext (by omega) (by omega)
  · next hat =>
    refine Memory.read_writeAll_of_notMem hw fun hc => ?_
    rw [blockSamples, List.map_map, List.mem_map] at hc
    obtain ⟨p, hp, e⟩ := hc
    simp only [Function.comp_apply, block_cell m pic hn6] at e
    have r1 := block_range hn6 hp
    obtain ⟨rfl, rfl, rfl⟩ := mbCell_inj hnd (blockPlane_mem hn) r1.1 r1.2 hid hx hy e
    exact hat (blockAt_of hn6 hp).1

/-- Blocks summed onto what a picture holds, where `coded` says so: block n of the square is BLOCK[o + n]. -/
theorem Within.addBlocks (h : Within m aic s u) (hm : mbSound s m) (hr : s.modeRru = false) {pic : Picture}
    (hp : picFits s m 16 pic) (hst : storesTo s m pic) {o q : Nat} (ho : o = 0 ∨ o = 6) {coded : Nat → Bool}
    {op : Nat → Op} (hop : ∀ n w, Within m aic s w → op n w = if coded n then Machine.blkAdd m (o + n) q pic w else .ok w)
    (hb : ∀ n ∈ blocksInUse m.run.color, coded n = true → mbBlockSound s m (o + n) q) :
    ∃ v, runOps ((blocksInUse m.run.color).map op) u = .ok v ∧ Within m aic s v ∧ v.aicc = u.aicc ∧
      (∀ a, a ∉ mbSamples m 16 pic → v.mem.read a = u.mem.read a) ∧
      ((mbSamples m 16 pic).Nodup → ∀ id ∈ planesInUse m.run.color, ∀ x < planeSize id 16, ∀ y < planeSize id 16,
        v.mem.read (mbCell m 16 pic id x y) =
          if coded (blockAt id x y) then
            sampleByte (clip255 ((u.mem.read (mbCell m 16 pic id x y)).toNat +
              blockResidual s m (o + blockAt id x y) q (x % 8) (y % 8)))
          else u.mem.read (mbCell m 16 pic id x y)) := by
  have hnodup : (blocksInUse m.run.color).Nodup := by cases m.run.color <;> decide
  obtain ⟨v, hv, h1, h2, h3, h4⟩ := runOps_map (l := blocksInUse m.run.color) (f := op) (u := u)
    (Q := fun done v => Within m aic s v ∧ v.aicc = u.aicc ∧
      (∀ a, a ∉ mbSamples m 16 pic → v.mem.read a = u.mem.read a) ∧
      ((mbSamples m 16 pic).Nodup → ∀ id ∈ planesInUse m.run.color, ∀ x < planeSize id 16, ∀ y < planeSize id 16,
        v.mem.read (mbCell m 16 pic id x y) =
          if blockAt id x y ∈ done ∧ coded (blockAt id x y) = true then
            sampleByte (clip255 ((u.mem.read (mbCell m 16 pic id x y)).toNat +
              blockResidual s m (o + blockAt id x y) q (x % 8) (y % 8)))
          else u.mem.read (mbCell m 16 pic id x y)))
    ⟨h, rfl, fun _ _ => rfl, by simp⟩ (by
      rintro done n rest w hl ⟨hw, hac, hfr, hval⟩
      have hn : n ∈ blocksInUse m.run.color := by rw [hl]; simp
      have hn6 := blocksInUse_lt hn
      have hnd : n ∉ done := by
        rw [hl] at hnodup
        intro hc
        exact (List.nodup_append.1 hnodup).2.2 n hc n (by simp) rfl
      cases hcod : coded n with
      | false =>
        refine ⟨w, by simp [hop n w hw, hcod], hw, hac, hfr, fun hN id hid x hx y hy => ?_⟩
        rw [hval hN id hid x hx y hy]
        by_cases hat : blockAt id x y = n
        · simp [hat, hcod]
        · simp [hat]
      | true =>
        have hmod : (o + n) % 6 = n := by rcases ho with rfl | rfl <;> omega
        have hadd := hw.blkAdd hm hr hp hst (n := o + n) (q := q) (by rcases ho with rfl | rfl <;> omega)
          (by rw [hmod]; exact hn) (hb n hn hcod)
        refine ⟨_, (hop n w hw).trans ((if_pos hcod).trans hadd.1), hadd.2, ?_, fun a ha => ?_,
          fun hN id hid x hx y hy => ?_⟩
        · simp only [noteBlock_aicc, State.store]; exact hac
        · rw [← hfr a ha]
          simp only [noteBlock_mem, State.store, hmod]
          refine Memory.read_writeAll_of_notMem hw.wf fun hc => ?_
          obtain ⟨p, hp', rfl⟩ := List.mem_map.1 hc
          exact ha (blockSamples_mem hn hp')
        · simp only [noteBlock_mem, State.store, hmod]
          rw [read_blockSamples hw.wf hN hn _ _ hid hx hy, hval hN id hid x hx y hy]
          by_cases hat : blockAt id x y = n
          · obtain ⟨-, h1, h2, h3⟩ := blockAt_spec hid hx hy
            rw [hat] at h1 h2 h3
            have hc : cell (blockTop m pic n) (pic.plane (blockPlane n)).stride 1 (x % 8, y % 8) = mbCell m 16 pic id x y := by
              rw [block_cell m _ hn6, h1, h2, h3]
            rw [if_pos hat, if_pos ⟨by simp [hat], by rw [hat]; exact hcod⟩, hc, hval hN id hid x hx y hy]
            rw [if_neg (by rw [hat]; exact fun hc => hnd hc.1), blockResidual, hat]
          · simp [hat])
  refine ⟨v, hv, h1, h2, h3, fun hN id hid x hx y hy => ?_⟩
  rw [h4 hN id hid x hx y hy]
  have := (blockAt_spec hid hx hy).1
  simp [this]

/-- The residuals of the coded blocks, summed onto what NEW holds. -/
theorem Within.addCoded (h : Within m aic s u) (hm : mbSound s m) (hr : s.modeRru = false)
    (hb : ∀ n ∈ blocksInUse m.run.color, codedOf s m n = true → mbBlockSound s m n (quantOf s m)) :
    ∃ v, runOps ((blocksInUse m.run.color).map (addIfCoded m)) u = .ok v ∧ Within m aic s v ∧
      (∀ a, a ∉ mbSamples m 16 m.run.newPic → v.mem.read a = u.mem.read a) ∧
      ((mbSamples m 16 m.run.newPic).Nodup → ∀ id ∈ planesInUse m.run.color, ∀ x < planeSize id 16, ∀ y < planeSize id 16,
        v.mem.read (mbCell m 16 m.run.newPic id x y) =
          if codedOf s m (blockAt id x y) then
            sampleByte (clip255 ((u.mem.read (mbCell m 16 m.run.newPic id x y)).toNat +
              blockResidual s m (blockAt id x y) (quantOf s m) (x % 8) (y % 8)))
          else u.mem.read (mbCell m 16 m.run.newPic id x y)) := by
  obtain ⟨v, hv, hw, -, hfr, hval⟩ := h.addBlocks hm hr (unitSize_16 hr ▸ mbSound_new hm) storesTo_new (o := 0)
    (q := quantOf s m) (.inl rfl) (coded := codedOf s m) (op := addIfCoded m) (fun n w hw => by
      simp only [addIfCoded, hw.mbCbp hm, Checks.ok_bind]
      cases codedOf s m n
      · rfl
      · simp only [if_true, hw.mbQuant hm, Checks.ok_bind, Nat.zero_add]) (by simpa only [Nat.zero_add] using hb)
  exact ⟨v, hv, hw, hfr, by simpa only [Nat.zero_add] using hval⟩

/-- The B path where the macroblock takes it: each sample is the answer to the BIDIR request with its block's residual
where that is coded. -/
theorem Within.bPathTaken (h : Within m aic s u) (hm : mbSound s m) (hb : bBlocksSound s m) (ht : takesB s m = true) :
    ∃ v, Machine.bPath m u = .ok v ∧ Within m aic s v ∧ v.aicc = u.aicc ∧
      (∀ a, a ∉ mbSamples m 16 m.run.bPic → v.mem.read a = u.mem.read a) ∧
      ((mbSamples m 16 m.run.bPic).Nodup → ∀ id ∈ planesInUse m.run.color, ∀ x < planeSize id 16, ∀ y < planeSize id 16,
        v.mem.read (mbCell m 16 m.run.bPic id x y) =
          let p := mcSample u (requestOf s m .bidir) id x y
          let n := blockAt id x y
          if codedOf s m (8 + n) then
            sampleByte (clip255 (p.toNat + blockResidual s m (6 + n) (bQuantOf s m) (x % 8) (y % 8)))
          else p) := by
  have ht' := ht
  simp only [takesB, Bool.and_eq_true] at ht'
  obtain ⟨⟨huse, hgeom⟩, hbr⟩ := ht'
  obtain ⟨hr, hfit⟩ := mbSound_useB hm huse
  rw [unitSize_16 hr] at hfit
  have hmc := h.mcNormal hm hr (kind := .bidir) fun _ => huse
  simp only [if_true] at hmc
  obtain ⟨o1, w1, m1⟩ := hmc
  obtain ⟨v, hv, hw, hac, hfr, hval⟩ := w1.addBlocks hm hr hfit (storesTo_b huse) (o := 6) (q := bQuantOf s m) (.inr rfl)
    (coded := fun n => codedOf s m (8 + n)) (op := addIfCodedB m) (fun n w hw => by
      simp only [addIfCodedB, hw.mbCbpB hm, Checks.ok_bind]
      cases codedOf s m (8 + n)
      · rfl
      · simp only [if_true, hw.mbBQuant hm, Checks.ok_bind]) (hb ht)
  refine ⟨v, ?_, hw, hac, fun a ha => ?_, fun hN id hid x hx y hy => ?_⟩
  · simp only [Machine.bPath, huse, hgeom, Bool.and_self, if_true, h.mbBreq hm, hbr]
    rw [runOps_cons_of_ok o1]; exact hv
  · rw [hfr a ha]
    refine Memory.read_writeAll_of_notMem h.wf fun hc => ?_
    obtain ⟨p, hp, rfl⟩ := List.mem_map.1 hc
    exact ha (m1 p hp)
  · rw [hval hN id hid x hx y hy, read_request h.wf hN hid hx hy]

/-- The B path: it stores to the macroblock's samples in B only, and to none where the macroblock does not take it. -/
theorem Within.bPath (h : Within m aic s u) (hm : mbSound s m) (hb : bBlocksSound s m) :
    ∃ v, Machine.bPath m u = .ok v ∧ Within m aic s v ∧ v.aicc = u.aicc ∧
      (∀ a, (m.run.useB = true → a ∉ mbSamples m 16 m.run.bPic) → v.mem.read a = u.mem.read a) ∧
      (takesB s m = false → v = u) := by
  cases ht : takesB s m with
  | false =>
    refine ⟨u, ?_, h, rfl, fun _ _ => rfl, fun _ => rfl⟩
    simp only [Machine.bPath, h.mbBreq hm]
    simp only [takesB] at ht
    cases hB : m.run.useB && !m.run.geomFail with
    | false => rfl
    | true => rw [hB, Bool.true_and] at ht; simp only [if_true, ht]
  | true =>
    obtain ⟨v, hv, hw, hac, hfr, -⟩ := h.bPathTaken hm hb ht
    have huse : m.run.useB = true := by
      simp only [takesB, Bool.and_eq_true] at ht; exact ht.1.1
    exact ⟨v, hv, hw, hac, fun a ha => hfr a (ha huse), by simp⟩

/-- The samples of B after the B path, where NEW held given samples when the path began and nothing else but the
macroblock's squares had changed. -/
theorem Within.bSamples (h : Within m aic s u) (hm : mbSound s m) (hb : bBlocksSound s m)
    (hnd : (mbSamples m 16 m.run.newPic).Nodup) {sample : PlaneId → Nat → Nat → Byte}
    (hfr : ∀ a, a ∉ mbSamples m 16 m.run.newPic → u.mem.read a = s.mem.read a)
    (hnew : ∀ id ∈ planesInUse m.run.color, ∀ x < planeSize id 16, ∀ y < planeSize id 16,
      u.mem.read (mbCell m 16 m.run.newPic id x y) = sample id x y) (hs : s.mem.wf)
    {v : State} (hv : Machine.bPath m u = .ok v) (hB : (mbSamples m 16 m.run.bPic).Nodup)
    (hd : ∀ a ∈ mbSamples m 16 m.run.bPic, a ∉ mbSamples m 16 m.run.newPic) :
    ∀ id ∈ planesInUse m.run.color, ∀ x < planeSize id 16, ∀ y < planeSize id 16,
      v.mem.read (mbCell m 16 m.run.bPic id x y) =
        if takesB s m then bSample s m sample id x y else s.mem.read (mbCell m 16 m.run.bPic id x y) := by
  intro id hid x hx y hy
  cases ht : takesB s m with
  | false =>
    obtain ⟨w, hw, -, -, -, heq⟩ := h.bPath hm hb
    obtain rfl := heq ht
    rw [hv, Except.ok.injEq] at hw
    rw [hw, hfr _ (hd _ (mbCell_mem hid hx hy))]
    rfl
  | true =>
    obtain ⟨w, hw, -, -, -, hval⟩ := h.bPathTaken hm hb ht
    rw [hv, Except.ok.injEq] at hw
    subst hw
    have hmem : u.mem = (withSquare s m sample).mem := by
      have e : (withSquare s m sample).mem = s.mem.writeAll ((mbIndex m.run.color 16).map fun i =>
          (mbCell m 16 m.run.newPic i.1 i.2.1 i.2.2, sample i.1 i.2.1 i.2.2)) := by
        simp [withSquare, State.store, mbIndex, List.map_flatMap, Function.comp_def]
      rw [e]
      refine Memory.ext h.wf (Memory.wf_writeAll hs _) fun a => ?_
      by_cases ha : a ∈ mbSamples m 16 m.run.newPic
      · obtain ⟨id, hid, x, hx, y, hy, rfl⟩ := mem_mbSamples.1 ha
        rw [hnew id hid x hx y hy]
        rw [mbSamples_eq_map] at hnd
        exact (Memory.read_writeAll_map hs (v := fun i => sample i.1 i.2.1 i.2.2) hnd
          (mem_mbIndex.2 ⟨hid, hx, hy⟩ : (id, x, y) ∈ _)).symm
      · rw [hfr a ha, Memory.read_writeAll_of_notMem hs]
        rw [mbSamples_eq_map] at ha
        simpa [List.map_map, Function.comp_def] using ha
    have hmc : mcSample u (requestOf s m .bidir) id x y = mcSample (withSquare s m sample) (requestOf s m .bidir) id x y := by
      simp only [mcSample, hmem, h.params]; rfl
    rw [hval hB id hid x hx y hy, if_pos rfl, bSample, hmc]

/-- The blocks of a plain intra macroblock. -/
theorem Within.intraPlain (h : Within m aic s u) (hm : mbSound s m) (hr : s.modeRru = false) (ha : s.modeAic = false)
    (hb : ∀ n ∈ blocksInUse m.run.color, mbBlockSound s m n (quantOf s m)) :
    ∃ v, runOps ((blocksInUse m.run.color).map (intraBlock m)) u = .ok v ∧ Within m aic s v ∧
      (∀ a, a ∉ mbSamples m 16 m.run.newPic → v.mem.read a = u.mem.read a) ∧
      ((mbSamples m 16 m.run.newPic).Nodup → ∀ id ∈ planesInUse m.run.color, ∀ x < planeSize id 16, ∀ y < planeSize id 16,
        v.mem.read (mbCell m 16 m.run.newPic id x y) =
          sampleByte (clip255 (blockResidual s m (blockAt id x y) (quantOf s m) (x % 8) (y % 8)))) := by
  have hfit : picFits s m 16 m.run.newPic := unitSize_16 hr ▸ mbSound_new hm
  obtain ⟨v, hv, h1, h2, h3⟩ := runOps_map (l := blocksInUse m.run.color) (f := intraBlock m) (u := u)
    (Q := fun done v => Within m aic s v ∧ (∀ a, a ∉ mbSamples m 16 m.run.newPic → v.mem.read a = u.mem.read a) ∧
      ((mbSamples m 16 m.run.newPic).Nodup → ∀ id ∈ planesInUse m.run.color, ∀ x < planeSize id 16, ∀ y < planeSize id 16,
        blockAt id x y ∈ done → v.mem.read (mbCell m 16 m.run.newPic id x y) =
          sampleByte (clip255 (blockResidual s m (blockAt id x y) (quantOf s m) (x % 8) (y % 8)))))
    ⟨h, fun _ _ => rfl, by simp⟩ (by
      rintro done n rest w hl ⟨hw, hfr, hval⟩
      have hn : n ∈ blocksInUse m.run.color := by rw [hl]; simp
      have hop := hw.blkIntra hm hr hfit (by exact storesTo_new) hn (hb n hn)
      have haic : w.modeAic = false := hw.modeAic.trans ha
      refine ⟨_, by simp only [intraBlock, hw.mbQuant hm, Checks.ok_bind, haic, Bool.false_eq_true, if_false]; exact hop.1,
        hop.2, fun a ha => ?_, fun hN id hid x hx y hy hat => ?_⟩
      · rw [← hfr a ha]
        simp only [noteBlock_mem, State.store]
        refine Memory.read_writeAll_of_notMem hw.wf fun hc => ?_
        obtain ⟨p, hp, rfl⟩ := List.mem_map.1 hc
        exact ha (blockSamples_mem hn hp)
      · simp only [noteBlock_mem, State.store]
        rw [read_blockSamples hw.wf hN hn _ _ hid hx hy]
        by_cases hat' : blockAt id x y = n
        · rw [if_pos hat', blockResidual, hat', Int.zero_add]
        · rw [if_neg hat']
          refine hval hN id hid x hx y hy ?_
          simpa [hat'] using hat)
  exact ⟨v, hv, h1, h2, fun hN id hid x hx y hy => h3 hN id hid x hx y hy (blockAt_spec hid hx hy).1⟩

/-- The blocks of an advanced-intra macroblock, in order, each predicted from the cache the blocks before it left. -/
theorem Within.intraAic (hs : s.mem.wf) (hm : mbSound s m) (hr : s.modeRru = false) (ha : s.modeAic = true)
    (hb : ∀ n ∈ blocksInUse m.run.color, mbBlockSound s m n (quantOf s m)) (hmode : aicModeOf s m ≤ 2)
    (hcol : m.col < s.params.aicCols) :
    ∃ v, runOps ((blocksInUse m.run.color).map (intraBlock m)) s = .ok v ∧ Within m true s v ∧
      v.aicc = aicAfter s m (blocksInUse m.run.color).length ∧
      (∀ a, a ∉ mbSamples m 16 m.run.newPic → v.mem.read a = s.mem.read a) ∧
      ((mbSamples m 16 m.run.newPic).Nodup → ∀ id ∈ planesInUse m.run.color, ∀ x < planeSize id 16, ∀ y < planeSize id 16,
        v.mem.read (mbCell m 16 m.run.newPic id x y) = intraSample s m id x y) := by
  have hfit : picFits s m 16 m.run.newPic := unitSize_16 hr ▸ mbSound_new hm
  have horder : ∀ {color : Bool} {done rest : List Nat} {n : Nat}, blocksInUse color = done ++ n :: rest → done.length = n := by
    intro color done rest n hl
    have h1 : (blocksInUse color)[done.length]? = some n := by rw [hl]; simp
    have h2 : blocksInUse color = List.range (blocksInUse color).length := by cases color <;> rfl
    rw [h2, List.getElem?_range] at h1
    · exact Option.some.inj h1
    · have := congrArg List.length hl
      simp only [List.length_append, List.length_cons] at this
      omega
  obtain ⟨v, hv, h1, h2, h3, h4⟩ := runOps_map (l := blocksInUse m.run.color) (f := intraBlock m) (u := s)
    (Q := fun done v => Within m true s v ∧ v.aicc = aicAfter s m done.length ∧
      (∀ a, a ∉ mbSamples m 16 m.run.newPic → v.mem.read a = s.mem.read a) ∧
      ((mbSamples m 16 m.run.newPic).Nodup → ∀ id ∈ planesInUse m.run.color, ∀ x < planeSize id 16, ∀ y < planeSize id 16,
        blockAt id x y ∈ done → v.mem.read (mbCell m 16 m.run.newPic id x y) = intraSample s m id x y))
    ⟨.refl hs, rfl, fun _ _ => rfl, by simp⟩ (by
      rintro done n rest w hl ⟨hw, hac, hfr, hval⟩
      have hn : n ∈ blocksInUse m.run.color := by rw [hl]; simp
      have hlen := horder hl
      have hop := hw.blkAic hm hr hfit (by exact storesTo_new) hn (hb n hn) hmode hcol
      have haic : w.modeAic = true := hw.modeAic.trans ha
      rw [hac, hlen] at hop
      refine ⟨_, by simp only [intraBlock, hw.mbQuant hm, Checks.ok_bind, haic, if_true]; exact hop.1, hop.2, ?_,
        fun a ha => ?_, fun hN id hid x hx y hy hat => ?_⟩
      · rw [List.length_append, hlen]; rfl
      · rw [← hfr a ha]
        simp only [noteBlock_mem, State.store]
        refine Memory.read_writeAll_of_notMem hw.wf fun hc => ?_
        obtain ⟨p, hp, rfl⟩ := List.mem_map.1 hc
        exact ha (blockSamples_mem hn hp)
      · simp only [noteBlock_mem, State.store]
        rw [read_blockSamples hw.wf hN hn _ _ hid hx hy]
        by_cases hat' : blockAt id x y = n
        · rw [if_pos hat', intraSample, hat', Int.zero_add, if_pos ha]
        · rw [if_neg hat']
          refine hval hN id hid x hx y hy ?_
          simpa [hat'] using hat)
  exact ⟨v, hv, h1, h2, h3, fun hN id hid x hx y hy => h4 hN id hid x hx y hy (blockAt_spec hid hx hy).1⟩

end

/-! ### RRUBUF (10_state.md R46, 42_dispatcher.md R258) -/

/-- Setting elements at different places: an element set reads as what was put there, any other as before. -/
theorem getD_foldl_set {α β : Type} (l : List α) (f : α → Nat) (v : α → β) (hl : (l.map f).Nodup) (b : List β)
    (hb : ∀ a ∈ l, f a < b.length) (i : Nat) (d : β) :
    (∀ a ∈ l, f a = i → (l.foldl (fun b a => b.set (f a) (v a)) b).getD i d = v a) ∧
      ((∀ a ∈ l, f a ≠ i) → (l.foldl (fun b a => b.set (f a) (v a)) b).getD i d = b.getD i d) := by
  induction l generalizing b with
  | nil => simp
  | cons a l ih =>
    simp only [List.map_cons, List.nodup_cons, List.mem_map, not_exists, not_and] at hl
    have hb' : ∀ a' ∈ l, f a' < (b.set (f a) (v a)).length := fun a' h' => by
      rw [List.length_set]; exact hb a' (by simp [h'])
    obtain ⟨ih1, ih2⟩ := ih hl.2 (b.set (f a) (v a)) hb'
    refine ⟨fun c hc hci => ?_, fun hall => ?_⟩
    · rcases List.mem_cons.1 hc with rfl | hc
      · rw [List.foldl_cons, ih2 fun a' h' e => hl.1 a' h' (by rw [e, hci])]
        have := hb c (by simp)
        simp [List.getD_eq_getElem?_getD, ← hci, this]
      · exact ih1 c hc hci
    · rw [List.foldl_cons, ih2 fun a' h' => hall a' (by simp [h'])]
      have := hall a (by simp)
      simp [List.getD_eq_getElem?_getD, this]

theorem length_foldl_set {α β : Type} (l : List α) (f : α → Nat) (v : α → β) (b : List β) :
    (l.foldl (fun b a => b.set (f a) (v a)) b).length = b.length := by
  induction l generalizing b with
  | nil => rfl
  | cons a l ih => rw [List.foldl_cons, ih, List.length_set]

theorem length_setRruSquare (b : List (BitVec 16)) (x0 y0 : Nat) (v : Nat → Nat → Int) :
    (setRruSquare b x0 y0 v).length = b.length := length_foldl_set _ _ _ _

/-- An element of RRUBUF after an 8x8 square is replaced. -/
theorem getD_setRruSquare {b : List (BitVec 16)} (hb : b.length = 256) {x0 y0 : Nat} (hx0 : x0 ≤ 8) (hy0 : y0 ≤ 8)
    (v : Nat → Nat → Int) {x y : Nat} (hx : x < 16) (_hy : y < 16) :
    (setRruSquare b x0 y0 v).getD (16 * y + x) 0 =
      if x0 ≤ x ∧ x < x0 + 8 ∧ y0 ≤ y ∧ y < y0 + 8 then BitVec.ofInt 16 (v (x - x0) (y - y0))
      else b.getD (16 * y + x) 0 := by
  have hnd : ((grid 8 8).map fun p => 16 * (y0 + p.2) + (x0 + p.1)).Nodup := by
    refine (List.nodup_map_iff_inj_on (grid_nodup 8 8)).2 fun p hp q hq e => ?_
    have h1 := mem_grid.1 hp
    have h2 := mem_grid.1 hq
    exact Prod.ext (by omega) (by omega)
  obtain ⟨h1, h2⟩ := getD_foldl_set (grid 8 8) (fun p => 16 * (y0 + p.2) + (x0 + p.1))
    (fun p => BitVec.ofInt 16 (v p.1 p.2)) hnd b (fun p hp => by have := mem_grid.1 hp; omega) (16 * y + x) 0
  split
  · exact h1 (x - x0, y - y0) (mem_grid.2 ⟨by simp only; omega, by simp only; omega⟩) (by simp only; omega)
  · refine h2 fun p hp => ?_
    have := mem_grid.1 hp
    omega

section
variable {m : Mb} {aic : Bool} {s u : State}

theorem Within.clearRrubuf (h : Within m aic s u) (hr : s.modeRru = true) :
    ∃ v, Machine.clearRrubuf u = .ok v ∧ Within m aic s v ∧ v.mem = u.mem ∧ v.rrubuf = List.replicate 256 0 :=
  ⟨_, rfl, h.setRrubuf hr _, rfl, rfl⟩

/-- One block's residual put into RRUBUF. -/
theorem Within.rruBlock (h : Within m aic s u) (hm : mbSound s m) (hr : s.modeRru = true) {intra : Bool} (clear : Bool)
    {n : Nat} (hn : n < 6) (x0 y0 : Nat)
    (hb : (intra || codedOf s m n) = true → mbBlockSound s m n (quantOf s m)) :
    ∃ v, Machine.rruBlock m intra clear n x0 y0 u = .ok v ∧ Within m aic s v ∧ v.mem = u.mem ∧
      v.rrubuf = if intra || codedOf s m n then setRruSquare u.rrubuf x0 y0 (blockResidual s m n (quantOf s m))
        else if clear then setRruSquare u.rrubuf x0 y0 fun _ _ => 0 else u.rrubuf := by
  have hcod : rruCoded m intra n u = .ok (intra || codedOf s m n) := by
    cases intra <;> simp [rruCoded, h.mbCbp hm]
  cases hc : intra || codedOf s m n with
  | true =>
    have hb' := hb hc
    have hap := mbBlockSound_apart hb'
    have hwalk := (walkBlock_eq_ok (s := u)).2 ⟨h.blockSound hap hb'.1, rfl⟩
    have hop : Machine.rruBlock m intra clear n x0 y0 u =
        .ok (Machine.noteBlock (superpose u.params.tables (coefs (Safety.symbols u.params.tables u.mem (blockOf s m n (quantOf s m)) 0)))
          (caseOf (Safety.symbols u.params.tables u.mem (blockOf s m n (quantOf s m)) 0))
          { u with rrubuf := setRruSquare u.rrubuf x0 y0 fun x y =>
              residual (superpose u.params.tables (coefs (Safety.symbols u.params.tables u.mem (blockOf s m n (quantOf s m)) 0))) x y }) := by
      simp only [Machine.rruBlock, hcod, hc, Checks.ok_bind, if_true, h.mbQuant hm, h.blockArgs hm (by omega : n < 12), hwalk]
      rfl
    refine ⟨_, hop, (h.setRrubuf hr _).noteBlock _ _, rfl, ?_⟩
    simp only [noteBlock_rrubuf, if_true, h.params, h.symbols hap]
    rfl
  | false =>
    cases clear with
    | true =>
      refine ⟨{ u with rrubuf := setRruSquare u.rrubuf x0 y0 fun _ _ => 0 }, ?_, h.setRrubuf hr _, rfl, by simp⟩
      simp [Machine.rruBlock, hcod, hc]
    | false => exact ⟨u, by simp [Machine.rruBlock, hcod, hc], h, rfl, by simp⟩

/-- The up-sampled residual stored over one plane's square. -/
theorem Within.rruSum (h : Within m aic s u) (hm : mbSound s m) (hr : s.modeRru = true) (nopred : Bool) {id : PlaneId}
    (hid : id ∈ planesInUse m.run.color) :
    ∃ v, Machine.rruSum m nopred id u = .ok v ∧ Within m aic s v ∧ v.rrubuf = u.rrubuf ∧
      ((mbSamples m 32 m.run.newPic).Nodup → ∀ id' ∈ planesInUse m.run.color, ∀ x < planeSize id' 32, ∀ y < planeSize id' 32,
        v.mem.read (mbCell m 32 m.run.newPic id' x y) = if id' = id then
          sampleByte (clip255 ((if nopred then 0 else ((u.mem.read (mbCell m 32 m.run.newPic id' x y)).toNat : Int)) +
            upSample (rruArray u (planeSize id 16)) (planeSize id 16) x y))
        else u.mem.read (mbCell m 32 m.run.newPic id' x y)) := by
  have hfit : picFits s m 32 m.run.newPic := unitSize_32 hr ▸ mbSound_new hm
  have h32 : planeSize id 32 = 2 * planeSize id 16 := by cases id <;> simp [planeSize]
  let cellOf := fun p : Nat × Nat => mbCell m 32 m.run.newPic id p.1 p.2
  let g := grid (2 * planeSize id 16) (2 * planeSize id 16)
  let pred := fun p : Nat × Nat => if nopred then 0 else (u.mem.read (cellOf p)).toNat
  let val := fun p : Nat × Nat => sampleByte (clip255 ((pred p : Nat) +
    upSample (rruArray u (planeSize id 16)) (planeSize id 16) p.1 p.2))
  have hin : ∀ p ∈ g, cellOf p + 1 ≤ u.params.memSize := fun p hp => by
    rw [h.params]
    have := mem_grid.1 hp
    exact hfit.lt (mbCell_mem hid (by rw [h32]; exact this.1) (by rw [h32]; exact this.2))
  have hsq : mbSquare m 32 m.run.newPic id = g.map fun p => ((cellOf p : Nat) : Int) := by
    rw [mbSquare_eq]; simp only [g, cellOf, h32]
  have hpred : (if nopred = true then .ok ((g.map fun p => ((cellOf p : Nat) : Int)).map fun _ => 0) else
      memReadAll u 1 (g.map fun p => ((cellOf p : Nat) : Int))) = Except.ok (g.map pred) := by
    cases nopred
    · simp only [Bool.false_eq_true, if_false, pred]
      exact memReadAll_bytes.2 ⟨hin, rfl⟩
    · simp [pred, List.map_map, Function.comp_def]
  have hop : Machine.rruSum m nopred id u = .ok (u.store (g.map fun p => (cellOf p, val p))) := by
    have hc := (checkThenStore_bytes (s := u) (l := g) (f := cellOf) (v := val)).2 ⟨hin, rfl⟩
    have hz := zip_map_self_map pred (fun q : Nat × Nat × Nat => [sampleByte (clip255 (q.1 +
      upSample (rruArray u (planeSize id 16)) (planeSize id 16) q.2.1 q.2.2))]) g
    simp only [Machine.rruSum, hsq]
    rw [show grid (2 * planeSize id 16) (2 * planeSize id 16) = g from rfl]
    cases hnp : nopred
    · simp only [hnp, Bool.false_eq_true, if_false] at hpred ⊢
      rw [hpred, Checks.ok_bind, hz, zip_self_map]
      exact hc
    · simp only [hnp, if_true] at hpred ⊢
      rw [hpred, Checks.ok_bind, hz, zip_self_map]
      exact hc
  refine ⟨_, hop, h.store fun p hp => ?_, rfl, fun hN id' hid' x hx y hy => ?_⟩
  · obtain ⟨q, hq, rfl⟩ := List.mem_map.1 hp
    have := mem_grid.1 hq
    refine .inl ?_
    rw [unitSize_32 hr]
    exact mbCell_mem hid (by rw [h32]; exact this.1) (by rw [h32]; exact this.2)
  · have hrange : ∀ p ∈ g, p.1 < planeSize id 32 ∧ p.2 < planeSize id 32 := fun p hp => by
      rw [h32]; exact mem_grid.1 hp
    split
    · next e =>
      subst e
      have hp : (x, y) ∈ g := mem_grid.2 ⟨by rw [← h32]; exact hx, by rw [← h32]; exact hy⟩
      have hnd : (g.map cellOf).Nodup := by
        refine (List.nodup_map_iff_inj_on (grid_nodup _ _)).2 fun p hp q hq e => ?_
        have r1 := hrange p hp
        have r2 := hrange q hq
        obtain ⟨-, e1, e2⟩ := mbCell_inj hN hid r1.1 r1.2 hid r2.1 r2.2 e
        exact Prod.ext e1 e2
      have := Memory.read_writeAll_map h.wf (v := val) hnd hp
      rw [State.store]
      simp only [cellOf] at this
      rw [this]
      simp only [val, pred, cellOf]
      cases nopred <;> simp
    · next e =>
      rw [State.store]
      refine Memory.read_writeAll_of_notMem h.wf fun hc => ?_
      rw [List.map_map, List.mem_map] at hc
      obtain ⟨p, hp, he⟩ := hc
      have r1 := hrange p hp
      exact e (mbCell_inj hN hid r1.1 r1.2 hid' hx hy he).1.symm

/-- The residual of a reduced-resolution unit: it completes, and each sample of NEW is the clipped sum. -/
theorem Within.rruResidual (h : Within m aic s u) (hm : mbSound s m) (hr : s.modeRru = true) (intra : Bool)
    (hb : ∀ n ∈ blocksInUse m.run.color, (intra || codedOf s m n) = true → mbBlockSound s m n (quantOf s m)) :
    ∃ v, runOps (Machine.rruResidual m intra) u = .ok v ∧ Within m aic s v ∧
      ((mbSamples m 32 m.run.newPic).Nodup → ∀ id ∈ planesInUse m.run.color, ∀ x < planeSize id 32, ∀ y < planeSize id 32,
        v.mem.read (mbCell m 32 m.run.newPic id x y) =
          sampleByte (clip255 ((if intra then 0 else ((u.mem.read (mbCell m 32 m.run.newPic id x y)).toNat : Int)) +
            upSample (unitResidual s m intra id) (planeSize id 16) x y))) := by
  have hb4 : ∀ n < 4, (intra || codedOf s m n) = true → mbBlockSound s m n (quantOf s m) := fun n hn => by
    refine hb n ?_
    have : n = 0 ∨ n = 1 ∨ n = 2 ∨ n = 3 := by omega
    rcases this with rfl | rfl | rfl | rfl <;> cases m.run.color <;> decide
  have hy : PlaneId.y ∈ planesInUse m.run.color := by cases m.run.color <;> decide
  obtain ⟨u1, o1, w1, m1, r1⟩ := h.clearRrubuf hr
  obtain ⟨u2, o2, w2, m2, r2⟩ := w1.rruBlock hm hr false (n := 0) (by omega) 0 0 (hb4 0 (by omega))
  obtain ⟨u3, o3, w3, m3, r3⟩ := w2.rruBlock hm hr false (n := 1) (by omega) 8 0 (hb4 1 (by omega))
  obtain ⟨u4, o4, w4, m4, r4⟩ := w3.rruBlock hm hr false (n := 2) (by omega) 0 8 (hb4 2 (by omega))
  obtain ⟨u5, o5, w5, m5, r5⟩ := w4.rruBlock hm hr false (n := 3) (by omega) 8 8 (hb4 3 (by omega))
  obtain ⟨u6, o6, w6, r6, v6⟩ := w5.rruSum hm hr intra hy
  have hlen1 : u1.rrubuf.length = 256 := by rw [r1, List.length_replicate]
  have hlen : ∀ {b b' : List (BitVec 16)} {c : Bool} {x0 y0 : Nat} {v : Nat → Nat → Int},
      b' = (if c then setRruSquare b x0 y0 v else if false = true then setRruSquare b x0 y0 fun _ _ => 0 else b) →
      b.length = 256 → b'.length = 256 := by
    intro b b' c x0 y0 v e hb; subst e; cases c <;> simp [length_setRruSquare, hb]
  have hlen2 := hlen r2 hlen1
  have hlen3 := hlen r3 hlen2
  have hlen4 := hlen r4 hlen3
  have hlen5 := hlen r5 hlen4
  have hstep : ∀ {b b' : List (BitVec 16)} {c : Bool} {x0 y0 : Nat} {v : Nat → Nat → Int},
      b' = (if c then setRruSquare b x0 y0 v else if false = true then setRruSquare b x0 y0 fun _ _ => 0 else b) →
      b.length = 256 → x0 ≤ 8 → y0 ≤ 8 → ∀ {x y : Nat}, x < 16 → y < 16 → b'.getD (16 * y + x) 0 =
        if c = true ∧ x0 ≤ x ∧ x < x0 + 8 ∧ y0 ≤ y ∧ y < y0 + 8 then BitVec.ofInt 16 (v (x - x0) (y - y0))
        else b.getD (16 * y + x) 0 := by
    intro b b' c x0 y0 v e hb hx0 hy0 x y hx hy
    subst e
    cases c
    · simp
    · simp only [if_true, true_and]
      exact getD_setRruSquare hb hx0 hy0 v hx hy
  have harr : rruArray u5 16 = unitResidual s m intra .y := by
    simp only [rruArray, unitResidual]
    refine List.map_congr_left fun p hp => ?_
    obtain ⟨hx, hy⟩ := mem_grid.1 hp
    rw [hstep r5 hlen4 (by omega) (by omega) hx hy, hstep r4 hlen3 (by omega) (by omega) hx hy,
      hstep r3 hlen2 (by omega) (by omega) hx hy, hstep r2 hlen1 (by omega) (by omega) hx hy, r1]
    have hz : (List.replicate 256 (0 : BitVec 16)).getD (16 * p.2 + p.1) 0 = 0 := by
      rw [List.getD_eq_getElem?_getD, List.getElem?_replicate]; split <;> rfl
    rw [hz]
    obtain ⟨x, y⟩ := p
    simp only at hx hy ⊢
    by_cases hx8 : x < 8 <;> by_cases hy8 : y < 8
    · have e : blockAt .y x y = 0 := by simp only [blockAt]; omega
      have ex : x % 8 = x := by omega
      have ey : y % 8 = y := by omega
      simp only [e, ex, ey]
      cases intra || codedOf s m 0 <;> simp [hx8, hy8, Nat.not_le_of_lt hx8, Nat.not_le_of_lt hy8]
    · have e : blockAt .y x y = 2 := by simp only [blockAt]; omega
      have ex : x % 8 = x := by omega
      have ey : y % 8 = y - 8 := by omega
      simp only [e, ex, ey]
      cases intra || codedOf s m 2 <;> simp [hx8, hy8, Nat.le_of_not_lt hy8, hy, Nat.not_le_of_lt hx8]
    · have e : blockAt .y x y = 1 := by simp only [blockAt]; omega
      have ex : x % 8 = x - 8 := by omega
      have ey : y % 8 = y := by omega
      simp only [e, ex, ey]
      cases intra || codedOf s m 1 <;> simp [hx8, hy8, Nat.le_of_not_lt hx8, hx, Nat.not_le_of_lt hy8]
    · have e : blockAt .y x y = 3 := by simp only [blockAt]; omega
      have ex : x % 8 = x - 8 := by omega
      have ey : y % 8 = y - 8 := by omega
      simp only [e, ex, ey]
      cases intra || codedOf s m 3 <;> simp [hx8, hy8, Nat.le_of_not_lt hx8, Nat.le_of_not_lt hy8, hx, hy]
  have hmem5 : u5.mem = u.mem := by rw [m5, m4, m3, m2, m1]
  have hluma : runOps [Machine.clearRrubuf, Machine.rruBlock m intra false 0 0 0, Machine.rruBlock m intra false 1 8 0,
      Machine.rruBlock m intra false 2 0 8, Machine.rruBlock m intra false 3 8 8, Machine.rruSum m intra .y] u = .ok u6 := by
    rw [runOps_cons_of_ok o1, runOps_cons_of_ok o2, runOps_cons_of_ok o3, runOps_cons_of_ok o4, runOps_cons_of_ok o5,
      runOps_cons_of_ok o6, runOps_nil]
  have hchroma : ∀ {w w1 : State} {n : Nat} {id : PlaneId}, (∀ x < 8, ∀ y < 8, blockAt id x y = n) → w.rrubuf.length = 256 →
      w1.rrubuf = (if intra || codedOf s m n then setRruSquare w.rrubuf 0 0 (blockResidual s m n (quantOf s m))
        else if true = true then setRruSquare w.rrubuf 0 0 fun _ _ => 0 else w.rrubuf) →
      planeSize id 16 = 8 → rruArray w1 8 = unitResidual s m intra id := by
    intro w w1 n id hat hlen e hp
    simp only [rruArray, unitResidual, hp]
    refine List.map_congr_left fun p hp => ?_
    obtain ⟨hx, hy⟩ := mem_grid.1 hp
    obtain ⟨x, y⟩ := p
    simp only at hx hy ⊢
    rw [hat x hx y hy, e, Nat.mod_eq_of_lt hx, Nat.mod_eq_of_lt hy]
    cases intra || codedOf s m n
    · simp only [Bool.false_eq_true, if_false, if_true]
      rw [getD_setRruSquare hlen (by omega) (by omega) _ (by omega) (by omega)]
      simp [hx, hy]
    · simp only [if_true]
      rw [getD_setRruSquare hlen (by omega) (by omega) _ (by omega) (by omega)]
      simp [hx, hy]
  cases hc : m.run.color with
  | false =>
    refine ⟨u6, ?_, w6, fun hN id hid x hx y hy => ?_⟩
    · simp only [Machine.rruResidual, hc, Bool.false_eq_true, if_false, List.append_nil]; exact hluma
    · have hid' : id = .y := by simpa [planesInUse] using hid
      subst hid'
      rw [v6 hN _ (by rw [hc]; exact hid) x hx y hy, if_pos rfl, hmem5]
      simp only [planeSize] at harr ⊢
      rw [harr]
  | true =>
    have h4 : (4 : Nat) ∈ blocksInUse m.run.color := by rw [hc]; decide
    have h5 : (5 : Nat) ∈ blocksInUse m.run.color := by rw [hc]; decide
    have hcb : PlaneId.cb ∈ planesInUse m.run.color := by rw [hc]; decide
    have hcr : PlaneId.cr ∈ planesInUse m.run.color := by rw [hc]; decide
    obtain ⟨u7, o7, w7, m7, r7⟩ := w6.rruBlock hm hr true (n := 4) (by omega) 0 0 (hb 4 h4)
    obtain ⟨u8, o8, w8, r8, v8⟩ := w7.rruSum hm hr intra hcb
    obtain ⟨u9, o9, w9, m9, r9⟩ := w8.rruBlock hm hr true (n := 5) (by omega) 0 0 (hb 5 h5)
    obtain ⟨u10, o10, w10, -, v10⟩ := w9.rruSum hm hr intra hcr
    have hl6 : u6.rrubuf.length = 256 := by rw [r6]; exact hlen5
    have hl8 : u8.rrubuf.length = 256 := by rw [r8, r7]; split <;> simp [length_setRruSquare, hl6]
    have a7 := hchroma (id := .cb) (fun _ _ _ _ => rfl) hl6 r7 rfl
    have a9 := hchroma (id := .cr) (fun _ _ _ _ => rfl) hl8 r9 rfl
    refine ⟨u10, ?_, w10, fun hN id hid x hx y hy => ?_⟩
    · simp only [Machine.rruResidual, hc, if_true]
      rw [runOps_append_of_ok hluma, runOps_cons_of_ok o7, runOps_cons_of_ok o8, runOps_cons_of_ok o9,
        runOps_cons_of_ok o10, runOps_nil]
    · have hid' : id ∈ planesInUse m.run.color := by rw [hc]; exact hid
      cases id with
      | y =>
        rw [v10 hN _ hid' x hx y hy, if_neg (show ¬PlaneId.y = .cr by decide), m9, v8 hN _ hid' x hx y hy,
          if_neg (show ¬PlaneId.y = .cb by decide), m7, v6 hN _ hid' x hx y hy, if_pos rfl, hmem5]
        simp only [planeSize] at harr ⊢
        rw [harr]
      | cb =>
        rw [v10 hN _ hid' x hx y hy, if_neg (show ¬PlaneId.cb = .cr by decide), m9, v8 hN _ hid' x hx y hy, if_pos rfl,
          m7, v6 hN _ hid' x hx y hy, if_neg (show ¬PlaneId.cb = .y by decide), hmem5]
        simp only [planeSize] at a7 ⊢
        rw [a7]
      | cr =>
        rw [v10 hN _ hid' x hx y hy, if_pos rfl, m9, v8 hN _ hid' x hx y hy, if_neg (show ¬PlaneId.cr = .cb by decide),
          m7, v6 hN _ hid' x hx y hy, if_neg (show ¬PlaneId.cr = .y by decide), hmem5]
        simp only [planeSize] at a9 ⊢
        rw [a9]

end

end Sys2Proof.Machine
end

