-- ==== Sys2Proof/Laws/Handlers.lean ====
section
/-! SUPPORT. What the handlers of unit D and the loop of CONCEAL_GOB can do, and the end of a macroblock. -/

namespace Sys2Proof.Machine

open Sys2Proof.Config Sys2Proof.Safety

/-! ### Words of a descriptor rewritten (20_memory.md R80) -/

theorem Memory.read_bytesLE {m : Memory} (h : m.wf) (a v b : Nat) :
    (m.writeAll (bytesLE a 4 v)).read b =
      if b = a + 3 then BitVec.ofNat 8 (v / 256 / 256 / 256) else if b = a + 2 then BitVec.ofNat 8 (v / 256 / 256)
      else if b = a + 1 then BitVec.ofNat 8 (v / 256) else if b = a then BitVec.ofNat 8 v else m.read b := by
  simp only [bytesLE, Memory.writeAll_cons, Memory.writeAll_nil]
  have w1 := Memory.wf_write h a (BitVec.ofNat 8 v)
  have w2 := Memory.wf_write w1 (a + 1) (BitVec.ofNat 8 (v / 256))
  have w3 := Memory.wf_write w2 (a + 1 + 1) (BitVec.ofNat 8 (v / 256 / 256))
  rw [Memory.read_write w3, Memory.read_write w2, Memory.read_write w1, Memory.read_write h]

/-- Bits 31..24 of a word replaced: only its highest byte changes. -/
theorem Memory.read_setHigh {m : Memory} (h : m.wf) (a v b : Nat) :
    (m.writeAll (bytesLE a 4 (setField (m.readLE a 4) 24 8 v))).read b = if b = a + 3 then BitVec.ofNat 8 v else m.read b := by
  rw [Memory.read_bytesLE h]
  have h0 := (m.read a).isLt
  have h1 := (m.read (a + 1)).isLt
  have h2 := (m.read (a + 1 + 1)).isLt
  have h3 := (m.read (a + 1 + 1 + 1)).isLt
  have hw : setField (m.readLE a 4) 24 8 v = (m.read a).toNat + 256 * ((m.read (a + 1)).toNat + 256 *
      ((m.read (a + 1 + 1)).toNat + 256 * (v % 256))) := by
    simp only [setField, Memory.readLE]; norm_num; omega
  rw [hw]
  by_cases e3 : b = a + 3
  · rw [if_pos e3, if_pos e3]
    refine BitVec.eq_of_toNat_eq ?_
    simp only [BitVec.toNat_ofNat]; omega
  rw [if_neg e3, if_neg e3]
  by_cases e2 : b = a + 2
  · rw [if_pos e2, e2]
    refine BitVec.eq_of_toNat_eq ?_
    rw [BitVec.toNat_ofNat, show a + 2 = a + 1 + 1 from rfl]; omega
  rw [if_neg e2]
  by_cases e1 : b = a + 1
  · rw [if_pos e1, e1]
    refine BitVec.eq_of_toNat_eq ?_
    rw [BitVec.toNat_ofNat]; omega
  rw [if_neg e1]
  by_cases e0 : b = a
  · rw [if_pos e0, e0]
    refine BitVec.eq_of_toNat_eq ?_
    rw [BitVec.toNat_ofNat]; omega
  rw [if_neg e0]

/-- Bits 7..0 of a word replaced: only its lowest byte changes. -/
theorem Memory.read_setLow {m : Memory} (h : m.wf) (a v b : Nat) :
    (m.writeAll (bytesLE a 4 (setField (m.readLE a 4) 0 8 v))).read b = if b = a then BitVec.ofNat 8 v else m.read b := by
  rw [Memory.read_bytesLE h]
  have h0 := (m.read a).isLt
  have h1 := (m.read (a + 1)).isLt
  have h2 := (m.read (a + 1 + 1)).isLt
  have h3 := (m.read (a + 1 + 1 + 1)).isLt
  have hw : setField (m.readLE a 4) 0 8 v = v % 256 + 256 * ((m.read (a + 1)).toNat + 256 *
      ((m.read (a + 1 + 1)).toNat + 256 * (m.read (a + 1 + 1 + 1)).toNat)) := by
    simp only [setField, Memory.readLE]; norm_num; omega
  rw [hw]
  by_cases e3 : b = a + 3
  · rw [if_pos e3, if_neg (by omega), e3]
    refine BitVec.eq_of_toNat_eq ?_
    rw [BitVec.toNat_ofNat, show a + 3 = a + 1 + 1 + 1 from rfl]; omega
  rw [if_neg e3]
  by_cases e2 : b = a + 2
  · rw [if_pos e2, if_neg (by omega), e2]
    refine BitVec.eq_of_toNat_eq ?_
    rw [BitVec.toNat_ofNat, show a + 2 = a + 1 + 1 from rfl]; omega
  rw [if_neg e2]
  by_cases e1 : b = a + 1
  · rw [if_pos e1, if_neg (by omega), e1]
    refine BitVec.eq_of_toNat_eq ?_
    rw [BitVec.toNat_ofNat]; omega
  rw [if_neg e1]
  by_cases e0 : b = a
  · rw [if_pos e0, if_pos e0]
    refine BitVec.eq_of_toNat_eq ?_
    simp only [BitVec.toNat_ofNat]; omega
  rw [if_neg e0, if_neg e0]

theorem writeMbScratch_ok {u : State} {d v : Nat} (hd : d % 4 = 0) (hl : d + 12 ≤ u.params.memSize) :
    writeMbScratch u d v = .ok (u.store (bytesLE (d + 8) 4 (setField (u.mem.readLE (d + 8) 4) 24 8 v))) := by
  have h1 := memRead_word (s := u) (a := d + 8) (by omega) (by omega)
  have e1 : ((d : Int) + 4 * ((2 : Nat) : Int)) = ((d + 8 : Nat) : Int) := by push_cast; ring
  have e2 : ((d : Int) + 8) = ((d + 8 : Nat) : Int) := by push_cast; ring
  rw [writeMbScratch, mbWord, e1, h1, Checks.ok_bind, e2, memWrite_eq_ok, accessible_nat, Int.toNat_natCast]
  exact ⟨⟨by omega, by omega⟩, rfl⟩

theorem writeMbType_ok {u : State} {d v : Nat} (hd : d % 4 = 0) (hl : d + 8 ≤ u.params.memSize) :
    writeMbType u d v = .ok (u.store (bytesLE (d + 4) 4 (setField (u.mem.readLE (d + 4) 4) 0 8 v))) := by
  have h1 := memRead_word (s := u) (a := d + 4) (by omega) (by omega)
  have e1 : ((d : Int) + 4 * ((1 : Nat) : Int)) = ((d + 4 : Nat) : Int) := by push_cast; ring
  have e2 : ((d : Int) + 4) = ((d + 4 : Nat) : Int) := by push_cast; ring
  rw [writeMbType, mbWord, e1, h1, Checks.ok_bind, e2, memWrite_eq_ok, accessible_nat, Int.toNat_natCast]
  exact ⟨⟨by omega, by omega⟩, rfl⟩

theorem writeMbPosition_ok {u : State} {d col row : Nat} (hd : d % 4 = 0) (hl : d + 4 ≤ u.params.memSize) :
    writeMbPosition u d col row = .ok (u.store (bytesLE d 4 (col % 2 ^ 16 + row % 2 ^ 16 * 2 ^ 16))) := by
  rw [writeMbPosition, memWrite_eq_ok, accessible_nat, Int.toNat_natCast]
  exact ⟨⟨hl, hd⟩, rfl⟩

/-! ### The end of a macroblock -/

theorem endMacroblock_eq (c : GobRun) (cost : Nat) (s : State) : endMacroblock c cost s = mbEnd c cost s := by
  have hb : budgetSpent c (countMacroblock c cost s) = true ↔
      (s.regD.budget ≠ 0 ∧ s.regD.budget.toNat ≤
        ((advance c.gob { s.ck with work := s.ck.work + BitVec.ofNat 32 cost }).work - c.entry.work).toNat ∧
        (advance c.gob { s.ck with work := s.ck.work + BitVec.ofNat 32 cost }).loop.toNat < c.gob.mbCount) := by
    simp only [budgetSpent, countMacroblock, moreMacroblocks, Bool.and_eq_true, decide_eq_true_eq, BitVec.le_def, and_assoc]
    exact and_congr decide_eq_true_iff (and_congr Iff.rfl decide_eq_true_iff)
  simp only [endMacroblock, mbEnd]
  by_cases h : budgetSpent c (countMacroblock c cost s) = true
  · rw [if_pos h, if_pos (hb.1 h)]; rfl
  · rw [if_neg h, if_neg (mt hb.2 h)]; rfl

/-- What the end of a macroblock leaves. -/
theorem mbEnd_fields (c : GobRun) (cost : Nat) (s : State) :
    (mbEnd c cost s).mem = s.mem ∧ (mbEnd c cost s).acc = s.acc ∧ (mbEnd c cost s).lastCase = s.lastCase ∧
      (mbEnd c cost s).rrubuf = s.rrubuf ∧ (mbEnd c cost s).aicc = s.aicc ∧ (mbEnd c cost s).fault = s.fault := by
  simp only [mbEnd]
  split <;> exact ⟨rfl, rfl, rfl, rfl, rfl, rfl⟩

section
variable {m : Mb} {s : State}

/-- A macroblock whose handler completed: the dirty flags are written and the macroblock ends. -/
theorem settle_ok {c : GobRun} {aic skip : Bool} {u w : State} {cost : Nat} (hm : mbSound s m) (hw : Within m aic s u)
    (hwu : w = { u with aicc := w.aicc }) (hc : m.run = c) :
    ∃ t, settleMacroblock c m skip (.ok (w, cost)) = .next t ∧
      t = mbEnd c cost { w with mem := t.mem } ∧
      (∀ a, a ≠ m.d + 11 → t.mem.read a = u.mem.read a) ∧
      t.mem.read (m.d + 11) = if skip = true ∧ c.geomFail = false ∧ word s (m.d + 12) = 0 then 0x00 else 0x0F := by
  have hmem : w.mem = u.mem := by rw [hwu]
  have hpar : w.params = s.params := by rw [hwu]; exact hw.params
  have hword : mbWord w m.d 3 = .ok (word s (m.d + 12)) := by
    have := hw.mbWord hm (k := 3) (by omega)
    simp only [mbWord, memRead, access] at this ⊢
    rw [hwu]; exact this
  have hd : writeDirty m skip w = .ok (w.store (bytesLE (m.d + 8) 4 (setField (w.mem.readLE (m.d + 8) 4) 24 8
      (if skip = true ∧ c.geomFail = false ∧ word s (m.d + 12) = 0 then 0x00 else 0x0F)))) := by
    have hs := fun v => writeMbScratch_ok (u := w) (d := m.d) (v := v) hm.1 (by rw [hpar]; have := hm.2.1; omega)
    subst hc
    cases skip
    · simp [writeDirty, hs]
    · cases hg : m.run.geomFail
      · simp [writeDirty, hs, hg, hword]
      · simp [writeDirty, hs, hg]
  refine ⟨_, by rw [settleMacroblock, hd], ?_, fun a ha => ?_, ?_⟩
  · rw [endMacroblock_eq, (mbEnd_fields _ _ _).1]; rfl
  · rw [endMacroblock_eq, (mbEnd_fields _ _ _).1, State.store, Memory.read_setHigh (by rw [hmem]; exact hw.wf), hmem,
      if_neg (by omega)]
  · rw [endMacroblock_eq, (mbEnd_fields _ _ _).1, State.store, Memory.read_setHigh (by rw [hmem]; exact hw.wf),
      if_pos (by omega)]
    split <;> rfl

end

/-! ### The handlers -/

section
variable {m : Mb} {s : State}

/-- The copy of NEW's square to B. -/
theorem Within.copyToB {aic : Bool} {u : State} (h : Within m aic s u) (hm : mbSound s m) (hb : m.run.useB = true) :
    ∃ v, runOps ((planesInUse m.run.color).map (copyPlane m 16 m.run.newPic m.run.bPic)) u = .ok v ∧
      (Within m aic s v ∧ memOnly u v) ∧
      ((∀ a ∈ mbSamples m 16 m.run.bPic, a ∉ mbSamples m 16 m.run.newPic) →
        (∀ a ∈ mbSamples m 16 m.run.newPic, v.mem.read a = u.mem.read a) ∧
        ((mbSamples m 16 m.run.bPic).Nodup → ∀ id ∈ planesInUse m.run.color, ∀ x < planeSize id 16, ∀ y < planeSize id 16,
          v.mem.read (mbCell m 16 m.run.bPic id x y) = u.mem.read (mbCell m 16 m.run.newPic id x y))) := by
  obtain ⟨hr, hfb⟩ := mbSound_useB hm hb
  have hfn := mbSound_new hm
  rw [unitSize_16 hr] at hfb hfn
  obtain ⟨v, hv, hmo, hwf, hfr, hval⟩ := copyPlanes_ok (m := m) (n := 16) (src := m.run.newPic) (dst := m.run.bPic) h.wf
    (fun a ha => by rw [h.params]; exact hfn.lt ha) fun a ha => by rw [h.params]; exact hfb.lt ha
  exact ⟨v, hv, ⟨h.ofMem hmo hwf fun a ha => hfr a fun hc => ha (.inr ⟨hb, by rw [unitSize_16 hr]; exact hc⟩), hmo⟩,
    fun hd => ⟨fun a ha => hfr a fun hc => hd a hc ha, hval fun a ha hc => hd a hc ha⟩⟩

/-- The SKIP handler. -/
theorem skipHandler_ok (hw : s.mem.wf) (hm : mbSound s m) :
    ∃ v, skipHandler m s = .ok (clearAiccColumn m.col v, 1) ∧ Within m false s v ∧ memOnly s v ∧
      (s.modeRru = false → (mbSamples m 16 m.run.newPic).Nodup →
        (m.run.useB = true → (mbSamples m 16 m.run.bPic).Nodup ∧
          ∀ a ∈ mbSamples m 16 m.run.bPic, a ∉ mbSamples m 16 m.run.newPic) →
        ∀ id ∈ planesInUse m.run.color, ∀ x < planeSize id 16, ∀ y < planeSize id 16,
          v.mem.read (mbCell m 16 m.run.newPic id x y) = predictionOf s m .skipCopy id x y ∧
          (m.run.useB = true → m.run.geomFail = false → v.mem.read (mbCell m 16 m.run.bPic id x y) =
            v.mem.read (mbCell m 16 m.run.newPic id x y))) ∧
      (s.modeRru = true → (mbSamples m 32 m.run.newPic).Nodup →
        ∀ id ∈ planesInUse m.run.color, ∀ x < planeSize id 32, ∀ y < planeSize id 32,
          v.mem.read (mbCell m 32 m.run.newPic id x y) = unitPrediction s m .skipCopy id x y) := by
  obtain ⟨u, hu, ⟨hwu, hmo⟩, -, h16, h32⟩ := predictOps_ok (aic := false) hw hm (kind := .skipCopy) (by decide)
  cases hB : m.run.useB && !m.run.geomFail with
  | false =>
    refine ⟨u, ?_, hwu, hmo, fun hr hnd hd id hid x hx y hy => ⟨h16 hr hnd id hid x hx y hy, fun hb hg => ?_⟩, h32⟩
    · simp only [skipHandler, hB, Bool.false_eq_true, if_false, List.append_nil, hu, Checks.ok_bind]; rfl
    · simp [hb, hg] at hB
  | true =>
    have hb : m.run.useB = true := by simp at hB; exact hB.1
    have hr : s.modeRru = false := (mbSound_useB hm hb).1
    obtain ⟨v, hv, ⟨hwv, hmv⟩, hval⟩ := hwu.copyToB hm hb
    refine ⟨v, ?_, hwv, hmo.trans hmv, fun _ hnd hd id hid x hx y hy => ?_, fun hr' => by simp [hr] at hr'⟩
    · simp only [skipHandler, hB, if_true, runOps_append_of_ok hu, hv, Checks.ok_bind]; rfl
    · obtain ⟨hd1, hd2⟩ := hd hb
      have e := (hval hd2).1 _ (mbCell_mem hid hx hy)
      refine ⟨e.trans (h16 hr hnd id hid x hx y hy), fun _ _ => ?_⟩
      rw [(hval hd2).2 hd1 id hid x hx y hy, e]

/-- The samples of a normal-resolution macroblock once its handler has ended: those of NEW are given, those of B are
the B path's. -/
abbrev samplesLeft (s : State) (m : Mb) (sample : PlaneId → Nat → Nat → Byte) (v : State) : Prop :=
  (mbSamples m 16 m.run.newPic).Nodup →
    (m.run.useB = true → ∀ a ∈ mbSamples m 16 m.run.bPic, a ∉ mbSamples m 16 m.run.newPic) →
    ∀ id ∈ planesInUse m.run.color, ∀ x < planeSize id 16, ∀ y < planeSize id 16,
      v.mem.read (mbCell m 16 m.run.newPic id x y) = sample id x y ∧
      (m.run.useB = true → (mbSamples m 16 m.run.bPic).Nodup →
        v.mem.read (mbCell m 16 m.run.bPic id x y) =
          if takesB s m then bSample s m sample id x y else s.mem.read (mbCell m 16 m.run.bPic id x y))

/-- The B path after NEW is complete. -/
theorem Within.samplesLeft {aic : Bool} {u w : State} (h : Within m aic s u) (hs : s.mem.wf) (hm : mbSound s m)
    (hB : bBlocksSound s m) {sample : PlaneId → Nat → Nat → Byte}
    (hfr : ∀ a, a ∉ mbSamples m 16 m.run.newPic → u.mem.read a = s.mem.read a)
    (hnew : (mbSamples m 16 m.run.newPic).Nodup → ∀ id ∈ planesInUse m.run.color, ∀ x < planeSize id 16,
      ∀ y < planeSize id 16, u.mem.read (mbCell m 16 m.run.newPic id x y) = sample id x y)
    (hw : Machine.bPath m u = .ok w)
    (hkeep : ∀ a, (m.run.useB = true → a ∉ mbSamples m 16 m.run.bPic) → w.mem.read a = u.mem.read a) :
    Machine.samplesLeft s m sample w := by
  intro hnd hd id hid x hx y hy
  refine ⟨?_, fun hb hBn => h.bSamples hm hB hnd hfr (hnew hnd) hs hw hBn (hd hb) id hid x hx y hy⟩
  rw [hkeep _ fun hb hc => hd hb _ hc (mbCell_mem hid hx hy), hnew hnd id hid x hx y hy]

/-- A reduced-resolution unit does not take the B path. -/
theorem takesB_unit (hm : mbSound s m) (hr : s.modeRru = true) : takesB s m = false := by
  cases ht : takesB s m with
  | false => rfl
  | true =>
    simp only [takesB, Bool.and_eq_true] at ht
    have := (mbSound_useB hm ht.1.1).1
    simp [hr] at this

/-- The handler of the INTER types. -/
theorem interHandler_ok (hw : s.mem.wf) (hm : mbSound s m) {kind : McKind} (hk : kind ≠ .bidir)
    (hb : ∀ n ∈ blocksInUse m.run.color, codedOf s m n = true → mbBlockSound s m n (quantOf s m))
    (hB : bBlocksSound s m) :
    ∃ v, interHandler kind m s = .ok (clearAiccColumn m.col v, mbCost s.modeRru (overlapOf s m)) ∧ Within m false s v ∧
      (s.modeRru = false → samplesLeft s m (interSample s m kind) v) ∧
      (s.modeRru = true → (mbSamples m 32 m.run.newPic).Nodup →
        ∀ id ∈ planesInUse m.run.color, ∀ x < planeSize id 32, ∀ y < planeSize id 32,
          v.mem.read (mbCell m 32 m.run.newPic id x y) =
            sampleByte (clip255 ((unitPrediction s m kind id x y).toNat +
              upSample (unitResidual s m false id) (planeSize id 16) x y))) := by
  obtain ⟨u, hu, ⟨hwu, -⟩, hfu, h16, h32⟩ := predictOps_ok (aic := false) hw hm hk
  have hov : ∀ v, Within m false s v → inState (clearAiccColumn m.col v) (mbOverlap (clearAiccColumn m.col v) m.d) =
      .ok (overlapOf s m) := by
    intro v hv
    have : mbOverlap (clearAiccColumn m.col v) m.d = mbOverlap v m.d := rfl
    rw [this, hv.mbOverlap hm]; rfl
  have hcost : ∀ rru ov, codedCost rru ov = mbCost rru ov := fun _ _ => rfl
  cases hr : s.modeRru with
  | false =>
    rw [hr] at hu
    obtain ⟨v, hv, hwv, hfv, hval⟩ := hwu.addCoded hm hr hb
    obtain ⟨w, hbp, hww, -, hfr, -⟩ := hwv.bPath hm hB
    refine ⟨w, ?_, hww, fun _ => hwv.samplesLeft hw hm hB (fun a ha => (hfv a ha).trans (hfu hr a ha))
      (fun hnd id hid x hx y hy => ?_) hbp hfr, by simp⟩
    · simp only [interHandler, hr, Bool.false_eq_true, if_false, runOps_append_of_ok hu, hv, hbp, hov w hww, Checks.ok_bind,
        hcost]
    · rw [hval hnd id hid x hx y hy, h16 hr hnd id hid x hx y hy]; rfl
  | true =>
    rw [hr] at hu
    obtain ⟨v, hv, hwv, hval⟩ := hwu.rruResidual hm hr false (by simpa using hb)
    obtain ⟨w, hbp, hww, -, -, heq⟩ := hwv.bPath hm hB
    have := heq (takesB_unit hm hr)
    subst this
    refine ⟨w, ?_, hww, by simp, fun _ hnd id hid x hx y hy => ?_⟩
    · simp only [interHandler, hr, if_true, runOps_append_of_ok hu, hv, hbp, hov w hww, Checks.ok_bind, hcost]
    · rw [hval hnd id hid x hx y hy, h32 hr hnd id hid x hx y hy]; simp

/-- The handler of the INTRA types. -/
theorem intraHandler_ok (hw : s.mem.wf) (hm : mbSound s m)
    (hb : ∀ n ∈ blocksInUse m.run.color, mbBlockSound s m n (quantOf s m)) (hB : bBlocksSound s m)
    (ha : (s.modeAic && !s.modeRru) = true → aicModeOf s m ≤ 2 ∧ m.col < s.params.aicCols) :
    ∃ v w, intraHandler m s = .ok (w, mbCost s.modeRru (s.modeRru && overlapOf s m)) ∧ Within m (s.modeAic && !s.modeRru) s v ∧
      w = (if s.modeAic && !s.modeRru then v else clearAiccColumn m.col v) ∧
      ((s.modeAic && !s.modeRru) = true → v.aicc = aicAfter s m (blocksInUse m.run.color).length) ∧
      (s.modeRru = false → samplesLeft s m (intraSample s m) v) ∧
      (s.modeRru = true → (mbSamples m 32 m.run.newPic).Nodup →
        ∀ id ∈ planesInUse m.run.color, ∀ x < planeSize id 32, ∀ y < planeSize id 32,
          v.mem.read (mbCell m 32 m.run.newPic id x y) =
            sampleByte (clip255 (upSample (unitResidual s m true id) (planeSize id 16) x y))) := by
  have hcost : ∀ rru ov, codedCost rru ov = mbCost rru ov := fun _ _ => rfl
  have hov : ∀ (b aic : Bool) v, Within m aic s v →
      intraOverlap s.modeRru (if b then v else clearAiccColumn m.col v) m.d = .ok (s.modeRru && overlapOf s m) := by
    intro b aic v hv
    have : mbOverlap (if b then v else clearAiccColumn m.col v) m.d = mbOverlap v m.d := by cases b <;> rfl
    rw [intraOverlap, this, hv.mbOverlap hm]
    cases s.modeRru <;> rfl
  cases hr : s.modeRru with
  | true =>
    rw [hr] at hov
    obtain ⟨v, hv, hwv, hval⟩ := (Within.refl (m := m) (aic := false) hw).rruResidual hm hr true fun n hn _ => hb n hn
    obtain ⟨w, hbp, hww, -, -, heq⟩ := hwv.bPath hm hB
    have := heq (takesB_unit hm hr)
    subst this
    refine ⟨w, _, ?_, by simpa using hww, rfl, by simp, by simp, fun _ hnd id hid x hx y hy => ?_⟩
    · simp only [intraHandler, hr, if_true, hv, hbp, hov _ _ w hww, inState, Checks.ok_bind, hcost]
    · rw [hval hnd id hid x hx y hy]; simp
  | false =>
    rw [hr] at hov
    cases hai : s.modeAic with
    | false =>
      obtain ⟨v, hv, hwv, hfv, hval⟩ := (Within.refl (m := m) (aic := false) hw).intraPlain hm hr hai hb
      obtain ⟨w, hbp, hww, -, hfr, -⟩ := hwv.bPath hm hB
      refine ⟨w, _, ?_, by simpa using hww, rfl, by simp, fun _ => hwv.samplesLeft hw hm hB hfv
        (fun hnd id hid x hx y hy => ?_) hbp hfr, by simp⟩
      · simp only [intraHandler, hr, hai, Bool.false_eq_true, if_false, hv, hbp, hov _ _ w hww, inState, Checks.ok_bind, hcost]
      · rw [hval hnd id hid x hx y hy, intraSample]; simp only [hai, Bool.false_eq_true, if_false]
    | true =>
      obtain ⟨hmode, hcol⟩ := ha (by simp [hr, hai])
      obtain ⟨v, hv, hwv, hac, hfv, hval⟩ := Within.intraAic hw hm hr hai hb hmode hcol
      obtain ⟨w, hbp, hww, hac', hfr, -⟩ := hwv.bPath hm hB
      refine ⟨w, _, ?_, by simpa using hww, rfl, fun _ => hac'.trans hac,
        fun _ => hwv.samplesLeft hw hm hB hfv hval hbp hfr, by simp⟩
      simp only [intraHandler, hr, hai, Bool.false_eq_true, if_false, hv, hbp, hov _ _ w hww, inState, Checks.ok_bind, hcost]

end

theorem Memory.readLE_bytesLE {m : Memory} (h : m.wf) (a : Nat) {x : Nat} (hx : x < 2 ^ 32) :
    (m.writeAll (bytesLE a 4 x)).readLE a 4 = x := by
  have hb := fun b => Memory.read_bytesLE h a x b
  have h0 := hb a
  have h1 := hb (a + 1)
  have h2 := hb (a + 1 + 1)
  have h3 := hb (a + 1 + 1 + 1)
  rw [if_neg (by omega), if_neg (by omega), if_neg (by omega), if_pos rfl] at h0
  rw [if_neg (by omega), if_neg (by omega), if_pos rfl] at h1
  rw [if_neg (by omega), if_pos rfl] at h2
  rw [if_pos rfl] at h3
  simp only [Memory.readLE, h0, h1, h2, h3, BitVec.toNat_ofNat]
  omega

/-! ### Concealment (42_dispatcher.md R270) -/

/-- What concealing one macroblock leaves in memory. -/
abbrev concealedIn (u : Nat) (old new : Memory) (m : Mb) : Prop :=
  (m.run.geomFail = false → ∀ p ∈ mbPairs m u m.run.newPic m.run.oldPic, new.read p.1 = old.read p.2) ∧
    (m.run.geomFail = true → ∀ a ∈ mbSamples m u m.run.newPic, new.read a = 128) ∧
    new.readLE m.d 4 = m.col % 2 ^ 16 + m.row % 2 ^ 16 * 2 ^ 16 ∧ new.read (m.d + 4) = 0x00 ∧
    new.read (m.d + 11) = if m.run.geomFail then 0x0F else 0x00

theorem mbPairs_eq (m : Mb) (u : Nat) (p q : Picture) :
    mbPairs m u p q = (mbIndex m.run.color u).map fun i => (mbCell m u p i.1 i.2.1 i.2.2, mbCell m u q i.1 i.2.1 i.2.2) := by
  rw [mbPairs, mbSamples_eq_map, mbSamples_eq_map, zip_self_map]

theorem mem_mbPairs {m : Mb} {u : Nat} {p q : Picture} {x : Nat × Nat} (hx : x ∈ mbPairs m u p q) :
    x.1 ∈ mbSamples m u p ∧ x.2 ∈ mbSamples m u q := by
  rw [mbPairs_eq] at hx
  obtain ⟨i, hi, rfl⟩ := List.mem_map.1 hx
  obtain ⟨h1, h2, h3⟩ := mem_mbIndex.1 hi
  exact ⟨mbCell_mem h1 h2 h3, mbCell_mem h1 h2 h3⟩

theorem mbWritten_sub {m : Mb} {a : Nat} (h : a ∈ mbWritten m) : a ∈ bytesAt m.d 12 := by
  simp only [mbWritten, List.mem_cons, List.not_mem_nil, or_false] at h
  exact mem_bytesAt.2 (by omega)

theorem fitCheck_eq_ok {m : Mb} {s : State} {x : Unit} :
    fitCheck m s = .ok x ↔ fits m.run (unitSize s) m.col m.row := by
  simp only [fitCheck, checkEach_eq_ok, raiseIf_eq_ok, not_or, not_lt]

/-- The macroblock can be concealed: it fits, its planes lie in memory, and its descriptor's first words exist. -/
abbrev concealable (s : State) (m : Mb) : Prop :=
  m.d % 4 = 0 ∧ m.d + 12 ≤ s.params.memSize ∧ fits m.run (unitSize s) m.col m.row ∧
    picFits s m (unitSize s) m.run.newPic ∧ (m.run.geomFail = false → picFits s m (unitSize s) m.run.oldPic)

/-- One macroblock concealed. -/
theorem concealOps_ok {s : State} {m : Mb} (hw : s.mem.wf) (hm : concealable s m) :
    ∃ v, runOps (concealOps m (unitSize s)) s = .ok v ∧ memOnly s v ∧ v.mem.wf ∧
      (∀ a, a ∉ mbWritten m → a ∉ mbSamples m (unitSize s) m.run.newPic → v.mem.read a = s.mem.read a) ∧
      ((bytesAt m.d 12 ++ mbSamples m (unitSize s) m.run.newPic).Nodup →
        (m.run.geomFail = false → ∀ a ∈ mbSamples m (unitSize s) m.run.oldPic,
          a ∉ bytesAt m.d 12 ∧ a ∉ mbSamples m (unitSize s) m.run.newPic) →
        concealedIn (unitSize s) s.mem v.mem m) := by
  obtain ⟨hd, hl, hfit, hnew, hold⟩ := hm
  generalize hU : unitSize s = U at *
  -- the first three operations
  let u1 := s.store (bytesLE m.d 4 (m.col % 2 ^ 16 + m.row % 2 ^ 16 * 2 ^ 16))
  have w1 : u1.mem.wf := Memory.wf_writeAll hw _
  let u2 := u1.store (bytesLE (m.d + 4) 4 (setField (u1.mem.readLE (m.d + 4) 4) 0 8 0))
  have w2 : u2.mem.wf := Memory.wf_writeAll w1 _
  have o0 : (do fitCheck m s; .ok s : Except Raise State) = .ok s := by
    rw [(fitCheck_eq_ok (x := ())).2 (by rw [hU]; exact hfit)]; rfl
  have o1 : writeMbPosition s m.d m.col m.row = .ok u1 := writeMbPosition_ok hd (by omega)
  have o2 : writeMbType u1 m.d 0 = .ok u2 := writeMbType_ok hd (by show m.d + 8 ≤ s.params.memSize; omega)
  have p2 : u2.params = s.params := rfl
  -- the samples
  have hmid : ∃ u3, runOps (if m.run.geomFail then grayFill m U
        else (planesInUse m.run.color).map (copyPlane m U m.run.oldPic m.run.newPic)) u2 = .ok u3 ∧ memOnly u2 u3 ∧
      u3.mem.wf ∧ (∀ a, a ∉ mbSamples m U m.run.newPic → u3.mem.read a = u2.mem.read a) ∧
      (m.run.geomFail = true → ∀ a ∈ mbSamples m U m.run.newPic, u3.mem.read a = 128) ∧
      (m.run.geomFail = false → (mbSamples m U m.run.newPic).Nodup →
        (∀ a ∈ mbSamples m U m.run.oldPic, a ∉ mbSamples m U m.run.newPic) →
        ∀ p ∈ mbPairs m U m.run.newPic m.run.oldPic, u3.mem.read p.1 = u2.mem.read p.2) := by
    cases hg : m.run.geomFail with
    | true =>
      obtain ⟨u3, h1, h2, h3, h4⟩ := fillPlanes_ok (m := m) (n := U) w2 fun a ha => by rw [p2]; exact hnew.lt ha
      refine ⟨u3, by simpa using h1, h2, h3, fun a ha => by rw [h4, if_neg ha], fun _ a ha => by rw [h4, if_pos ha], by simp⟩
    | false =>
      obtain ⟨u3, h1, h2, h3, h4, h5⟩ := copyPlanes_ok (m := m) (n := U) (src := m.run.oldPic) (dst := m.run.newPic) w2
        (fun a ha => by rw [p2]; exact (hold hg).lt ha) fun a ha => by rw [p2]; exact hnew.lt ha
      refine ⟨u3, by simpa using h1, h2, h3, h4, by simp, fun _ hnd hap p hp => ?_⟩
      rw [mbPairs_eq] at hp
      obtain ⟨i, hi, rfl⟩ := List.mem_map.1 hp
      obtain ⟨i1, i2, i3⟩ := mem_mbIndex.1 hi
      exact h5 hap hnd i.1 i1 i.2.1 i2 i.2.2 i3
  obtain ⟨u3, o3, mo3, w3, fr3, vg3, vc3⟩ := hmid
  have p3 : u3.params = s.params := by rw [mo3]; exact p2
  let u4 := u3.store (bytesLE (m.d + 8) 4 (setField (u3.mem.readLE (m.d + 8) 4) 24 8 (if m.run.geomFail then 0x0F else 0x00)))
  have o4 : writeMbScratch u3 m.d (if m.run.geomFail then 0x0F else 0x00) = .ok u4 :=
    writeMbScratch_ok hd (by rw [p3]; omega)
  have r4 : ∀ a, u4.mem.read a = if a = m.d + 8 + 3 then BitVec.ofNat 8 (if m.run.geomFail then 0x0F else 0x00) else
      u3.mem.read a := fun a => Memory.read_setHigh w3 _ _ _
  have r2 : ∀ a, u2.mem.read a = if a = m.d + 4 then BitVec.ofNat 8 0 else u1.mem.read a :=
    fun a => Memory.read_setLow w1 _ _ _
  have r1 : ∀ a, (a < m.d ∨ m.d + 4 ≤ a) → u1.mem.read a = s.mem.read a := fun a ha => by
    have := Memory.read_bytesLE hw m.d (m.col % 2 ^ 16 + m.row % 2 ^ 16 * 2 ^ 16) a
    rw [if_neg (by omega), if_neg (by omega), if_neg (by omega), if_neg (by omega)] at this
    exact this
  refine ⟨u4, ?_, ?_, Memory.wf_writeAll w3 _, fun a ha ha' => ?_, fun hnd hap => ?_⟩
  · rw [concealOps, hU] at *
    have hseq : runOps [fun s => do fitCheck m s; .ok s, fun s => writeMbPosition s m.d m.col m.row,
        fun s => writeMbType s m.d 0] s = .ok u2 := by
      rw [runOps_cons_of_ok o0, runOps_cons_of_ok (op := fun s => writeMbPosition s m.d m.col m.row) o1,
        runOps_cons_of_ok (op := fun s => writeMbType s m.d 0) o2, runOps_nil]
    rw [List.append_assoc, runOps_append_of_ok hseq, runOps_append_of_ok o3,
      runOps_cons_of_ok (op := fun s => writeMbScratch s m.d (if m.run.geomFail then 0x0F else 0x00)) o4, runOps_nil]
  · exact ((memOnly_store s _).trans (memOnly_store u1 _)).trans (mo3.trans (memOnly_store u3 _))
  · simp only [mbWritten, List.mem_cons, List.not_mem_nil, or_false, not_or] at ha
    rw [r4, if_neg (by omega), fr3 a ha', r2, if_neg (by omega), r1 a (by omega)]
  · have hnd' := List.nodup_append.1 hnd
    have hapart : ∀ a ∈ mbSamples m U m.run.newPic, a < m.d ∨ m.d + 12 ≤ a := fun a ha => by
      by_contra hc
      exact hnd'.2.2 a (mem_bytesAt.2 ⟨by omega, by omega⟩) a ha rfl
    have hdesc : ∀ a, m.d ≤ a → a < m.d + 12 → a ∉ mbSamples m U m.run.newPic := fun a h1 h2 hc => by
      have := hapart a hc; omega
    refine ⟨fun hg p hp => ?_, fun hg a ha => ?_, ?_, ?_, ?_⟩
    · obtain ⟨q1, q2⟩ := mem_mbPairs hp
      have a1 := hapart _ q1
      obtain ⟨a2, a3⟩ := hap hg _ q2
      have a2' : p.2 < m.d ∨ m.d + 12 ≤ p.2 := by
        by_contra hc; exact a2 (mem_bytesAt.2 ⟨by omega, by omega⟩)
      rw [r4, if_neg (by omega), vc3 hg hnd'.2.1 (fun a ha => (hap hg a ha).2) p hp, r2, if_neg (by omega), r1 _ (by omega)]
    · have a1 := hapart _ ha
      rw [r4, if_neg (by omega), vg3 hg a ha]
    · have hr : ∀ i < 4, u4.mem.read (m.d + i) = u1.mem.read (m.d + i) := fun i hi => by
        rw [r4, if_neg (by omega), fr3 _ (hdesc _ (by omega) (by omega)), r2, if_neg (by omega)]
      rw [Memory.readLE_congr hr]
      have hx : m.col % 2 ^ 16 + m.row % 2 ^ 16 * 2 ^ 16 < 2 ^ 32 := by omega
      exact Memory.readLE_bytesLE hw m.d hx
    · rw [r4, if_neg (by omega), fr3 _ (hdesc _ (by omega) (by omega)), r2, if_pos rfl]; rfl
    · rw [r4, if_pos (by omega)]; split <;> rfl

/-- The loop of CONCEAL_GOB. -/
theorem concealLoop_ok {c : GobRun} {s : State} (n : Nat) {u : State}
    (hu : u = { s with mem := u.mem, ck := u.ck, stats := u.stats }) (hw : u.mem.wf)
    (hms : ∀ m ∈ concealMbs c s n u.ck, concealable s m) :
    ∃ v, concealLoop c n u = .ok v ∧
      v = { s with mem := v.mem, ck := advanceBy c.gob n u.ck,
                   stats := { u.stats with concealed := u.stats.concealed + BitVec.ofNat 32 n } } ∧
      (∀ a, (∀ m ∈ concealMbs c s n u.ck, a ∉ mbWritten m ∧ a ∉ mbSamples m (unitSize s) c.newPic) →
        v.mem.read a = u.mem.read a) ∧
      (((concealMbs c s n u.ck).flatMap fun m => bytesAt m.d 12 ++ mbSamples m (unitSize s) c.newPic).Nodup →
        (c.geomFail = false → ∀ m ∈ concealMbs c s n u.ck, ∀ a ∈ mbSamples m (unitSize s) c.oldPic,
          ∀ m' ∈ concealMbs c s n u.ck, a ∉ bytesAt m'.d 12 ∧ a ∉ mbSamples m' (unitSize s) c.newPic) →
        ∀ m ∈ concealMbs c s n u.ck, concealedIn (unitSize s) u.mem v.mem m) := by
  induction n generalizing u with
  | zero =>
    refine ⟨u, rfl, ?_, fun _ _ => rfl, by simp [concealMbs]⟩
    simp only [advanceBy]
    have : u.stats.concealed + BitVec.ofNat 32 0 = u.stats.concealed := by simp
    rw [this]; exact hu
  | succ n ih =>
    have hm0 : cursorMb c u = cursorMb c { s with ck := u.ck } := by
      have : u.regD = s.regD := (congrArg State.regD hu).trans rfl
      simp only [cursorMb, this]
    have hU : unitSize u = unitSize s := by
      have : u.regD = s.regD := (congrArg State.regD hu).trans rfl
      exact congrArg (fun r : RegsD => unitSize { s with regD := r }) this
    have hp : u.params = s.params := (congrArg State.params hu).trans rfl
    simp only [concealMbs] at hms ⊢
    generalize hm : cursorMb c { s with ck := u.ck } = m at *
    have hrun : m.run = c := by rw [← hm]; rfl
    have hc0 : concealable u m := by
      have := hms m (by simp)
      simp only [concealable, picFits, planeSound, hU, hp] at this ⊢
      exact this
    obtain ⟨t, ht, mo, wt, frt, vt⟩ := concealOps_ok hw hc0
    rw [hU, hrun] at frt
    rw [hU] at ht vt
    let t' := countConcealed c t
    have ht' : t' = { s with mem := t'.mem, ck := t'.ck, stats := t'.stats } := by
      have h1 : t = { s with mem := t.mem, ck := u.ck, stats := u.stats } :=
        Eq.trans (show t = { u with mem := t.mem } from mo)
          ((congrArg (fun x : State => { x with mem := t.mem }) hu).trans rfl)
      exact (congrArg (fun x : State => { x with ck := t'.ck, stats := t'.stats }) h1).trans rfl
    have hck : t'.ck = advance c.gob u.ck := by
      have : t.ck = u.ck := (congrArg State.ck mo).trans rfl
      show advance c.gob t.ck = _
      rw [this]
    have hst : t'.stats = { u.stats with concealed := u.stats.concealed + 1 } := by
      have : t.stats = u.stats := (congrArg State.stats mo).trans rfl
      show ({ t.stats with concealed := t.stats.concealed + 1 } : Stats) = _
      rw [this]
    have hmem : t'.mem = t.mem := rfl
    obtain ⟨v, hv, hve, hfr, hval⟩ := ih (u := t') ht' wt (by rw [hck]; exact fun m' h' => hms m' (by simp [h']))
    rw [hck] at hve hfr hval
    refine ⟨v, ?_, ?_, fun a ha => ?_, fun hnd hap m' hm' => ?_⟩
    · rw [concealLoop, hU, hm0, ht, Checks.ok_bind]; exact hv
    · have hb : u.stats.concealed + BitVec.ofNat 32 (n + 1) = u.stats.concealed + 1 + BitVec.ofNat 32 n := by
        rw [BitVec.ofNat_add, BitVec.add_assoc, BitVec.add_comm (BitVec.ofNat 32 n)]; rfl
      refine hve.trans ?_
      rw [hst, hb]; rfl
    · rw [hfr a fun m' h' => ha m' (by simp [h']), hmem]
      have := ha m (by simp)
      exact frt a this.1 this.2
    · rw [List.flatMap_cons] at hnd
      have hnd' := List.nodup_append.1 hnd
      have hnd1 := hnd'.1
      rcases List.mem_cons.1 hm' with rfl | hm'
      · have h1 := vt (by rw [hrun]; exact hnd1) (fun hg a ha => by
          have := hap (by rw [← hrun]; exact hg) m' (by simp) a (by rw [← hrun]; exact ha) m' (by simp)
          rw [hrun]; exact this)
        have hkeep : ∀ a, (a ∈ bytesAt m'.d 12 ∨ a ∈ mbSamples m' (unitSize s) c.newPic) → v.mem.read a = t.mem.read a := by
          intro a ha
          refine (hfr a fun m'' h'' => ?_).trans rfl
          have hin : a ∈ bytesAt m'.d 12 ++ mbSamples m' (unitSize s) c.newPic := List.mem_append.2 ha
          have hno : a ∉ bytesAt m''.d 12 ++ mbSamples m'' (unitSize s) c.newPic := fun hc =>
            hnd'.2.2 a hin a (List.mem_flatMap.2 ⟨m'', h'', hc⟩) rfl
          rw [List.mem_append, not_or] at hno
          exact ⟨fun hc => hno.1 (mbWritten_sub hc), hno.2⟩
        obtain ⟨c1, c2, c3, c4, c5⟩ := h1
        refine ⟨fun hg p hp => ?_, fun hg a ha => ?_, ?_, ?_, ?_⟩
        · rw [hkeep _ (.inr (by rw [← hrun]; exact (mem_mbPairs hp).1)), c1 hg p hp]
        · rw [hkeep _ (.inr (by rw [← hrun]; exact ha)), c2 hg a ha]
        · rw [← c3]
          exact Memory.readLE_congr fun i hi => hkeep _ (.inl (mem_bytesAt.2 ⟨by omega, by omega⟩))
        · rw [hkeep _ (.inl (mem_bytesAt.2 ⟨by omega, by omega⟩)), c4]
        · rw [hkeep _ (.inl (mem_bytesAt.2 ⟨by omega, by omega⟩)), c5]
      · obtain ⟨c1, c2, c3, c4, c5⟩ := hval hnd'.2.1 (fun hg m1 h1 a ha m2 h2 => hap hg m1 (by simp [h1]) a ha m2 (by simp [h2])) m' hm'
        refine ⟨fun hg p hp => ?_, c2, c3, c4, c5⟩
        have hrun' : m'.run = c := by
          have : ∀ n ck, ∀ m' ∈ concealMbs c s n ck, m'.run = c := by
            intro n
            induction n with
            | zero => simp [concealMbs]
            | succ n ih' =>
              intro ck m' h'
              rcases List.mem_cons.1 h' with rfl | h'
              · rfl
              · exact ih' _ _ h'
          exact this _ _ m' hm'
        rw [c1 hg p hp, hmem]
        have := hap (by rw [← hrun']; exact hg) m' (by simp [hm']) p.2 (by rw [← hrun']; exact (mem_mbPairs hp).2) m (by simp)
        exact frt _ (fun hc => this.1 (mbWritten_sub hc)) this.2

end Sys2Proof.Machine
end

