-- ==== Sys2Proof/Laws/Kept.lean ====
section
/-! SUPPORT. What every operation, handler and command can do at all, sound arguments or not: an operation changes memory,
ACC, LASTCASE, RRUBUF and AICC only, and keeps memory and the arrays sound; a handler that raises keeps that of the
operations before. -/

namespace Sys2Proof.Machine

open Sys2Proof.Config Sys2Proof.Safety

/-- From s to t only what operations change has changed, and memory and arrays stay sound. -/
structure Kept (s t : State) : Prop where
  rest : t = { s with mem := t.mem, acc := t.acc, lastCase := t.lastCase, rrubuf := t.rrubuf, aicc := t.aicc }
  mem : memorySound s → memorySound t
  arrays : arraysSound s → arraysSound t

theorem Kept.refl (s : State) : Kept s s := ⟨rfl, id, id⟩

theorem Kept.trans {s t u : State} (h : Kept s t) (h' : Kept t u) : Kept s u := by
  refine ⟨?_, h'.mem ∘ h.mem, h'.arrays ∘ h.arrays⟩
  refine h'.rest.trans ?_
  exact (congrArg (fun x : State => { x with mem := u.mem, acc := u.acc, lastCase := u.lastCase, rrubuf := u.rrubuf,
                                             aicc := u.aicc }) h.rest).trans rfl

theorem Kept.params {s t : State} (h : Kept s t) : t.params = s.params := (congrArg State.params h.rest).trans rfl

/-! ### The elementary operations -/

theorem kept_store {s : State} {l : List (Nat × Byte)} (hl : ∀ p ∈ l, p.1 < s.params.memSize) : Kept s (s.store l) :=
  ⟨rfl, fun h => ⟨Memory.wf_writeAll h.1 l, Memory.below_writeAll hl h.2⟩, id⟩

theorem placed_lt {a n : Nat} {bytes : List Byte} {p : Nat × Byte} (hp : p ∈ placed a bytes) (h : bytes.length ≤ n) :
    p.1 < a + n := by
  have : p.1 ∈ (placed a bytes).map (·.1) := List.mem_map_of_mem hp
  rw [placed_fst] at this
  obtain ⟨i, hi, e⟩ := List.mem_map.1 this
  have := List.mem_range.1 hi
  omega

theorem accessible_bound {s : State} {a : Int} {n : Nat} (h : accessible s a n) : a.toNat + n ≤ s.params.memSize := by
  obtain ⟨h1, h2, -⟩ := h; omega

theorem kept_checkThenStore {s t : State} {n : Nat} {items : List (Int × List Byte)}
    (h : checkThenStore s n items = .ok t) (hl : ∀ p ∈ items, p.2.length ≤ n) : Kept s t := by
  obtain ⟨ha, rfl⟩ := checkThenStore_eq_ok.1 h
  refine kept_store fun p hp => ?_
  obtain ⟨q, hq, hp⟩ := List.mem_flatMap.1 hp
  exact Nat.lt_of_lt_of_le (placed_lt hp (hl q hq)) (accessible_bound (ha q hq))

/-- A list whose items hold one byte each. -/
theorem oneByte_zip {α : Type} (l : List Int) (k : List α) (f : α → Byte) :
    ∀ p ∈ l.zip (k.map fun a => [f a]), p.2.length ≤ 1 := by
  intro p hp
  obtain ⟨a, -, e⟩ := List.mem_map.1 (List.of_mem_zip hp).2
  rw [← e]; simp

theorem kept_memWrite {s t : State} {a : Int} {n v : Nat} (h : memWrite s a n v = .ok t) : Kept s t := by
  obtain ⟨ha, rfl⟩ := memWrite_eq_ok.1 h
  refine kept_store fun p hp => ?_
  have : p.1 ∈ (bytesLE a.toNat n v).map (·.1) := List.mem_map_of_mem hp
  rw [bytesLE_fst] at this
  obtain ⟨i, hi, e⟩ := List.mem_map.1 this
  have := List.mem_range.1 hi
  have := accessible_bound ha
  omega

theorem kept_noteBlock {acc : List (BitVec 32)} (ha : acc.length = 64) (c : PatternCase) (s : State) :
    Kept s (noteBlock acc c s) :=
  ⟨rfl, id, fun h => ⟨ha, h.2⟩⟩

theorem length_superpose (tb : TableSource) (l : List Coef) : (superpose tb l).length = 64 := by simp [superpose]

theorem kept_rrubuf {s : State} {b : List (BitVec 16)} (h : s.rrubuf.length = 256 → b.length = 256) :
    Kept s { s with rrubuf := b } :=
  ⟨rfl, id, fun ha => ⟨ha.1, h ha.2.1, ha.2.2⟩⟩

theorem forall_modify {α : Type} {P : α → Prop} {f : α → α} (hf : ∀ a, P a → P (f a)) {l : List α} (h : ∀ a ∈ l, P a)
    (i : Nat) : ∀ a ∈ l.modify i f, P a := by
  induction l generalizing i with
  | nil => cases i <;> simp
  | cons a l ih =>
    have ha := h a (by simp)
    have hl : ∀ a ∈ l, P a := fun b hb => h b (by simp [hb])
    cases i with
    | zero =>
      intro b hb
      rw [List.modify_zero_cons] at hb
      rcases List.mem_cons.1 hb with rfl | hb
      · exact hf a ha
      · exact hl b hb
    | succ i =>
      intro b hb
      rw [List.modify_succ_cons] at hb
      rcases List.mem_cons.1 hb with rfl | hb
      · exact ha
      · exact ih hl i b hb

/-- A column of AICC changed by a function that keeps entries sound. -/
theorem kept_modifyAicc {s : State} (col : Nat) {f : AicEntry → AicEntry}
    (hf : ∀ e : AicEntry, (e.length = 6 ∧ ∀ x ∈ e, slotSound x) → (f e).length = 6 ∧ ∀ x ∈ f e, slotSound x) :
    Kept s { s with aicc := s.aicc.modify col f } :=
  ⟨rfl, id, fun h => ⟨h.1, h.2.1, by simpa using h.2.2.1,
    forall_modify (P := fun e : AicEntry => e.length = 6 ∧ ∀ x ∈ e, slotSound x) hf h.2.2.2 col⟩⟩

theorem invalidated_sound {e : AicEntry} (h : e.length = 6 ∧ ∀ x ∈ e, slotSound x) :
    (e.map AicSlot.invalidate).length = 6 ∧ ∀ x ∈ e.map AicSlot.invalidate, slotSound x := by
  refine ⟨by simpa using h.1, fun x hx => ?_⟩
  obtain ⟨y, hy, rfl⟩ := List.mem_map.1 hx
  exact h.2 y hy

theorem kept_clearAiccColumn (col : Nat) (s : State) : Kept s (clearAiccColumn col s) :=
  kept_modifyAicc col fun _ => invalidated_sound

theorem kept_clearAicc (s : State) : Kept s (clearAicc s) :=
  ⟨rfl, id, fun h => ⟨h.1, h.2.1, by simpa [clearAicc] using h.2.2.1, fun e he => by
    obtain ⟨e', he', rfl⟩ := List.mem_map.1 he
    exact invalidated_sound (h.2.2.2 e' he')⟩⟩

/-! ### The bodies of unit I -/

theorem kept_reconBody {b : BlockArgs} {dest : Int} {stride : Nat} {s t : State} (h : reconBody b dest stride s = .ok t) :
    Kept s t := by
  simp only [reconBody, Checks.bind_eq_ok, Except.ok.injEq] at h
  obtain ⟨l, -, u, hu, rfl⟩ := h
  exact (kept_checkThenStore hu (oneByte_zip _ _ _)).trans (kept_noteBlock (length_superpose _ _) _ _)

theorem kept_reconAddBody {b : BlockArgs} {pred dest : Int} {stride : Nat} {s t : State}
    (h : reconAddBody b pred dest stride s = .ok t) : Kept s t := by
  simp only [reconAddBody, Checks.bind_eq_ok, Except.ok.injEq] at h
  obtain ⟨l, -, p, -, u, hu, rfl⟩ := h
  exact (kept_checkThenStore hu (oneByte_zip _ _ _)).trans (kept_noteBlock (length_superpose _ _) _ _)

theorem kept_reconS16Body {b : BlockArgs} {dest : Int} {stride : Nat} {s t : State}
    (h : reconS16Body b dest stride s = .ok t) : Kept s t := by
  simp only [reconS16Body, Checks.bind_eq_ok, Except.ok.injEq] at h
  obtain ⟨l, -, u, hu, rfl⟩ := h
  refine (kept_checkThenStore hu fun p hp => ?_).trans (kept_noteBlock (length_superpose _ _) _ _)
  obtain ⟨a, -, e⟩ := List.mem_map.1 (List.of_mem_zip hp).2
  rw [← e]; simp [halfBytes]

theorem aicCoef_range (mode : Nat) (above left : Option AicSlot) (l : List Walked) (u v : Nat) :
    -2047 ≤ aicCoef mode above left l u v ∧ aicCoef mode above left l u v ≤ 2047 := by
  simp only [aicCoef, clipS]; omega

theorem kept_reconAicBody {b : BlockArgs} {col blk mode : Nat} {info dest : Int} {stride : Nat} {s t : State}
    (h : reconAicBody b col blk mode info dest stride s = .ok t) : Kept s t := by
  simp only [reconAicBody, Checks.bind_eq_ok, Except.ok.injEq] at h
  obtain ⟨_, -, _, -, _, -, _, -, l, -, u, hu, rfl⟩ := h
  refine ((kept_checkThenStore hu (oneByte_zip _ _ _)).trans (kept_modifyAicc col fun e he => ?_)).trans
    (kept_noteBlock (length_superpose _ _) _ _)
  refine ⟨by simpa using he.1, fun x hx => ?_⟩
  rcases List.mem_or_eq_of_mem_set hx with hx | rfl
  · exact he.2 x hx
  · refine ⟨by simp, by simp, fun v hv => ?_⟩
    rcases List.mem_append.1 hv with hv | hv <;> obtain ⟨i, -, rfl⟩ := List.mem_map.1 hv <;> exact aicCoef_range _ _ _ _ _ _

theorem kept_upAddBody {n : Nat} {nopred : Bool} {s t : State} (h : upAddBody n nopred s = .ok t) : Kept s t := by
  simp only [upAddBody, Checks.bind_eq_ok] at h
  obtain ⟨_, -, _, -, h⟩ := h
  cases nopred
  · simp only [Bool.false_eq_true, if_false, Checks.bind_eq_ok] at h
    obtain ⟨_, -, hu⟩ := h
    exact kept_checkThenStore hu (oneByte_zip _ _ _)
  · simp only [if_true] at h
    exact kept_checkThenStore h (oneByte_zip _ _ _)

/-! ### The operations of unit D -/

/-- Every operation of a list keeps soundness. -/
abbrev keptOp (op : Op) : Prop := ∀ s t, op s = .ok t → Kept s t

theorem kept_fillPlane (m : Mb) (u : Nat) (id : PlaneId) : keptOp (fillPlane m u id) := fun s t h => by
  refine kept_checkThenStore h fun p hp => ?_
  obtain ⟨a, -, rfl⟩ := List.mem_map.1 hp
  simp

theorem kept_copyPlane (m : Mb) (u : Nat) (src dst : Picture) (id : PlaneId) : keptOp (copyPlane m u src dst id) :=
  fun s t h => by
  simp only [copyPlane, Checks.bind_eq_ok] at h
  obtain ⟨v, -, h⟩ := h
  exact kept_checkThenStore h (oneByte_zip _ _ _)

theorem kept_requestMc (req : McRequest) (target : Picture) (color : Bool) : keptOp (requestMc req target color) :=
  fun s t h => by
  refine kept_checkThenStore h fun p hp => ?_
  obtain ⟨id, -, hp⟩ := List.mem_flatMap.1 hp
  obtain ⟨a, -, rfl⟩ := List.mem_map.1 hp
  simp

theorem kept_mcNormal (m : Mb) (kind : McKind) : keptOp (mcNormal m kind) := fun s t h => by
  simp only [mcNormal, Checks.bind_eq_ok] at h
  obtain ⟨_, -, _, -, h⟩ := h
  exact kept_requestMc _ _ _ s t h

theorem kept_mcQuadrant (m : Mb) (kind : McKind) (k : Nat) : keptOp (mcQuadrant m kind k) := fun s t h => by
  simp only [mcQuadrant, Checks.bind_eq_ok] at h
  obtain ⟨_, -, _, -, h⟩ := h
  exact kept_requestMc _ _ _ s t h

theorem kept_blkAdd (m : Mb) (n q : Nat) (pic : Picture) : keptOp (blkAdd m n q pic) := fun s t h => by
  simp only [blkAdd, Checks.bind_eq_ok] at h
  obtain ⟨_, -, h⟩ := h
  exact kept_reconAddBody h

theorem kept_addIfCoded (m : Mb) (n : Nat) : keptOp (addIfCoded m n) := fun s t h => by
  simp only [addIfCoded, Checks.bind_eq_ok] at h
  obtain ⟨c, -, h⟩ := h
  cases c
  · simp only [Bool.false_eq_true, if_false, Except.ok.injEq] at h
    subst h; exact .refl s
  · simp only [if_true, Checks.bind_eq_ok] at h
    obtain ⟨_, -, h⟩ := h
    exact kept_blkAdd _ _ _ _ s t h

theorem kept_addIfCodedB (m : Mb) (n : Nat) : keptOp (addIfCodedB m n) := fun s t h => by
  simp only [addIfCodedB, Checks.bind_eq_ok] at h
  obtain ⟨c, -, h⟩ := h
  cases c
  · simp only [Bool.false_eq_true, if_false, Except.ok.injEq] at h
    subst h; exact .refl s
  · simp only [if_true, Checks.bind_eq_ok] at h
    obtain ⟨_, -, h⟩ := h
    exact kept_blkAdd _ _ _ _ s t h

theorem kept_intraBlock (m : Mb) (n : Nat) : keptOp (intraBlock m n) := fun s t h => by
  simp only [intraBlock, Checks.bind_eq_ok] at h
  obtain ⟨q, -, h⟩ := h
  split at h
  · simp only [blkAic, Checks.bind_eq_ok] at h
    obtain ⟨_, -, _, -, h⟩ := h
    exact kept_reconAicBody h
  · simp only [blkIntra, Checks.bind_eq_ok] at h
    obtain ⟨_, -, h⟩ := h
    exact kept_reconBody h

theorem kept_rruBlock (m : Mb) (intra clear : Bool) (n x0 y0 : Nat) : keptOp (rruBlock m intra clear n x0 y0) :=
  fun s t h => by
  simp only [rruBlock, Checks.bind_eq_ok] at h
  obtain ⟨c, -, h⟩ := h
  cases c
  · simp only [Bool.false_eq_true, if_false, Except.ok.injEq] at h
    subst h
    cases clear
    · exact .refl s
    · exact kept_rrubuf fun hb => by rw [length_setRruSquare]; exact hb
  · simp only [if_true, Checks.bind_eq_ok, Except.ok.injEq] at h
    obtain ⟨_, -, _, -, l, -, rfl⟩ := h
    exact (kept_rrubuf fun hb => by rw [length_setRruSquare]; exact hb).trans (kept_noteBlock (length_superpose _ _) _ _)

theorem kept_rruSum (m : Mb) (nopred : Bool) (id : PlaneId) : keptOp (rruSum m nopred id) := fun s t h => by
  simp only [rruSum] at h
  cases nopred
  · simp only [Bool.false_eq_true, if_false, Checks.bind_eq_ok] at h
    obtain ⟨_, -, hu⟩ := h
    exact kept_checkThenStore hu (oneByte_zip _ _ _)
  · simp only [if_true, Checks.ok_bind] at h
    exact kept_checkThenStore h (oneByte_zip _ _ _)

theorem kept_clearRrubuf : keptOp clearRrubuf := fun s t h => by
  simp only [clearRrubuf, Except.ok.injEq] at h
  subst h
  exact kept_rrubuf fun _ => List.length_replicate

theorem kept_rruResidual (m : Mb) (intra : Bool) : ∀ op ∈ rruResidual m intra, keptOp op := by
  intro op hop
  rcases List.mem_append.1 hop with hop | hop
  · simp only [List.mem_cons, List.not_mem_nil, or_false] at hop
    rcases hop with rfl | rfl | rfl | rfl | rfl | rfl
    · exact kept_clearRrubuf
    · exact kept_rruBlock _ _ _ _ _ _
    · exact kept_rruBlock _ _ _ _ _ _
    · exact kept_rruBlock _ _ _ _ _ _
    · exact kept_rruBlock _ _ _ _ _ _
    · exact kept_rruSum _ _ _
  · cases hc : m.run.color <;> rw [hc] at hop
    · simp at hop
    · simp only [if_true, List.mem_cons, List.not_mem_nil, or_false] at hop
      rcases hop with rfl | rfl | rfl | rfl
      · exact kept_rruBlock _ _ _ _ _ _
      · exact kept_rruSum _ _ _
      · exact kept_rruBlock _ _ _ _ _ _
      · exact kept_rruSum _ _ _

theorem kept_predictOps (m : Mb) (rru : Bool) (kind : McKind) : ∀ op ∈ predictOps m rru kind, keptOp op := by
  intro op hop
  simp only [predictOps] at hop
  split at hop
  · obtain ⟨id, -, rfl⟩ := List.mem_map.1 hop
    exact kept_fillPlane _ _ _
  · split at hop
    · obtain ⟨k, -, rfl⟩ := List.mem_map.1 hop
      exact kept_mcQuadrant _ _ _
    · rw [List.mem_singleton.1 hop]
      exact kept_mcNormal _ _

theorem kept_writeMbPosition {s t : State} {d col row : Nat} (h : writeMbPosition s d col row = .ok t) : Kept s t :=
  kept_memWrite h

theorem kept_writeMbType {s t : State} {d v : Nat} (h : writeMbType s d v = .ok t) : Kept s t := by
  simp only [writeMbType, Checks.bind_eq_ok] at h
  obtain ⟨_, -, h⟩ := h
  exact kept_memWrite h

theorem kept_writeMbScratch {s t : State} {d v : Nat} (h : writeMbScratch s d v = .ok t) : Kept s t := by
  simp only [writeMbScratch, Checks.bind_eq_ok] at h
  obtain ⟨_, -, h⟩ := h
  exact kept_memWrite h

theorem kept_writeDirty (m : Mb) (skip : Bool) : keptOp (writeDirty m skip) := fun s t h => by
  simp only [writeDirty] at h
  split at h
  · simp only [Checks.bind_eq_ok] at h
    obtain ⟨_, -, _, -, h⟩ := h
    exact kept_writeMbScratch h
  · simp only [Checks.ok_bind] at h
    exact kept_writeMbScratch h

/-! ### Sequences and handlers, raised or completed -/

/-- What a sequence that may raise part-way leaves, either way. -/
abbrev keeps {α : Type} (s : State) (f : α → State) (r : Partial α) : Prop :=
  match r with
  | .ok a => Kept s (f a)
  | .error p => Kept s p.2

theorem keeps_bind {α β : Type} {s : State} {f : α → State} {g : β → State} {r : Partial α} {k : α → Partial β}
    (h : keeps s f r) (hk : ∀ a, keeps (f a) g (k a)) : keeps s g (r >>= k) := by
  cases r with
  | error p => exact h
  | ok a =>
    have := hk a
    show keeps s g (k a)
    cases hr : k a with
    | ok b => rw [hr] at this; exact Kept.trans h this
    | error p => rw [hr] at this; exact Kept.trans h this

theorem keeps_runOps {l : List Op} (hl : ∀ op ∈ l, keptOp op) (s : State) : keeps s id (runOps l s) := by
  induction l generalizing s with
  | nil => exact Kept.refl s
  | cons op l ih =>
    simp only [runOps]
    cases h : op s with
    | error e => exact Kept.refl s
    | ok t =>
      have h1 := hl op (by simp) s t h
      have h2 := ih (fun op' h' => hl op' (by simp [h'])) t
      show keeps s id (runOps l t)
      cases hr : runOps l t with
      | ok v => rw [hr] at h2; exact h1.trans h2
      | error p => rw [hr] at h2; exact h1.trans h2

theorem keeps_inState {α : Type} (s : State) (r : Except Raise α) : keeps s (fun _ => s) (inState s r) := by
  cases r <;> exact Kept.refl s

theorem keeps_bPath (m : Mb) (s : State) : keeps s id (bPath m s) := by
  simp only [bPath]
  split
  · cases mbBreq s m.d with
    | error e => exact Kept.refl s
    | ok b =>
      cases b with
      | false => exact Kept.refl s
      | true =>
        refine keeps_runOps (fun op hop => ?_) s
        rcases List.mem_cons.1 hop with rfl | hop
        · exact kept_mcNormal _ _
        · obtain ⟨n, -, rfl⟩ := List.mem_map.1 hop
          exact kept_addIfCodedB _ _
  · exact Kept.refl s

theorem keeps_skipHandler (m : Mb) (s : State) : keeps s Prod.fst (skipHandler m s) := by
  refine keeps_bind (f := id) (keeps_runOps (fun op hop => ?_) s) fun t => kept_clearAiccColumn _ _
  rcases List.mem_append.1 hop with hop | hop
  · exact kept_predictOps _ _ _ op hop
  · split at hop
    · obtain ⟨id, -, rfl⟩ := List.mem_map.1 hop
      exact kept_copyPlane _ _ _ _ _
    · simp at hop

theorem keeps_interHandler (kind : McKind) (m : Mb) (s : State) : keeps s Prod.fst (interHandler kind m s) := by
  refine keeps_bind (f := id) (keeps_runOps (fun op hop => ?_) s) fun t =>
    keeps_bind (f := id) (keeps_bPath m t) fun u => ?_
  · rcases List.mem_append.1 hop with hop | hop
    · exact kept_predictOps _ _ _ op hop
    · split at hop
      · exact kept_rruResidual _ _ op hop
      · obtain ⟨n, -, rfl⟩ := List.mem_map.1 hop
        exact kept_addIfCoded _ _
  · show keeps u Prod.fst (inState (clearAiccColumn m.col u) _ >>= _)
    cases hr : mbOverlap (clearAiccColumn m.col u) m.d <;> exact kept_clearAiccColumn m.col u

theorem keeps_intraHandler (m : Mb) (s : State) : keeps s Prod.fst (intraHandler m s) := by
  refine keeps_bind (f := id) (keeps_runOps (fun op hop => ?_) s) fun t =>
    keeps_bind (f := id) (keeps_bPath m t) fun u => ?_
  · split at hop
    · exact kept_rruResidual _ _ op hop
    · obtain ⟨n, -, rfl⟩ := List.mem_map.1 hop
      exact kept_intraBlock _ _
  · have hc : Kept u (if s.modeAic && !s.modeRru then u else clearAiccColumn m.col u) := by
      split
      · exact Kept.refl u
      · exact kept_clearAiccColumn _ _
    show keeps u Prod.fst (inState (if s.modeAic && !s.modeRru then u else clearAiccColumn m.col u) _ >>= _)
    cases hr : intraOverlap s.modeRru (if s.modeAic && !s.modeRru then u else clearAiccColumn m.col u) m.d <;> exact hc

/-- What a macroblock tag can do inside the loop: raise with the state its operations left, or end the macroblock. -/
theorem settle_cases {c : GobRun} {m : Mb} {skip : Bool} {s t : State} {r : Partial (State × Nat)}
    (hk : keeps s Prod.fst r) (h : settleMacroblock c m skip r = .next t) :
    (∃ e u, Kept s u ∧ t = raiseInLoop e u) ∨ ∃ u cost, Kept s u ∧ t = endMacroblock c cost u := by
  simp only [settleMacroblock] at h
  cases r with
  | error p => left; exact ⟨p.1, p.2, hk, by simpa using h.symm⟩
  | ok a =>
    obtain ⟨u, cost⟩ := a
    simp only at h
    have hk' : Kept s u := hk
    cases hd : writeDirty m skip u with
    | error e => rw [hd] at h; left; exact ⟨e, u, hk', by simpa using h.symm⟩
    | ok v => rw [hd] at h; right; exact ⟨v, cost, hk'.trans (kept_writeDirty _ _ _ _ hd), by simpa using h.symm⟩

end Sys2Proof.Machine
end

