-- ==== Sys2Proof/Laws/UnitF.lean ====
section
/-! SUPPORT. What unit F can do: its checks pass exactly when Safety says so; the resampler keeps lengths and, at equal
sizes, samples; stores whose bytes are read late are plain stores where they do not reach what is read. -/

namespace Sys2Proof.Machine

open Sys2Proof.Config Sys2Proof.Safety

/-! ### The checks (43_formatter.md R291, R300) -/

theorem badSize_eq_false {n : Nat} : badSize n = false ↔ goodSize n := by
  simp only [badSize, Bool.or_eq_false_iff, decide_eq_false_iff_not]; omega

theorem checkFormatPlane_eq_ok {s : State} {pic : Picture} {w h : Nat} (hh : 2 ≤ h) {id : PlaneId} {v : Unit} :
    checkFormatPlane s pic w h id = .ok v ↔
      let p := pic.plane id
      p.width ≤ p.stride ∧ planeSize id w ≤ p.width ∧ planeSize id h ≤ p.height ∧
        p.base + (planeSize id h - 1) * p.stride + planeSize id w ≤ s.params.memSize := by
  have h1 : 0 < planeSize id h := by cases id <;> simp [planeSize] <;> omega
  simp only [checkFormatPlane, Checks.bind_eq_ok, raiseIf_eq_ok, checkExtent_eq_ok, h1, true_imp_iff]
  constructor
  · rintro ⟨_, h2, h3⟩; exact ⟨by omega, by omega, by omega, h3⟩
  · rintro ⟨h2, h3, h4, h5⟩; exact ⟨(), by omega, h5⟩

theorem formatChecks_eq_ok {s : State} {f : FormatRun} : formatChecks s = .ok f ↔ formatSound s ∧ f = fmtRun s := by
  simp only [formatChecks, Checks.bind_eq_ok, needTables_eq_ok, readPicture_eq_ok, raiseIf_eq_ok, Bool.not_eq_true,
    Bool.or_eq_false_iff, badSize_eq_false, checkEach_eq_ok, Except.ok.injEq]
  constructor
  · rintro ⟨_, ht, _, ⟨hp, rfl⟩, _, ⟨hw, hh⟩, _, ⟨hdw, hdh⟩, _, hpl, rfl⟩
    exact ⟨⟨ht, hp, hw, hh, hdw, hdh, fun id hid => (checkFormatPlane_eq_ok hh.1).1 (hpl id hid)⟩, rfl⟩
  · rintro ⟨⟨ht, hp, hw, hh, hdw, hdh, hpl⟩, rfl⟩
    exact ⟨(), ht, _, ⟨hp, rfl⟩, (), ⟨hw, hh⟩, (), ⟨hdw, hdh⟩, (),
      fun id hid => (checkFormatPlane_eq_ok hh.1).2 (hpl id hid), rfl⟩

theorem rgbChecks_eq_ok {s : State} {f : FormatRun} : rgbChecks s = .ok f ↔ rgbSound s ∧ f = fmtRun s := by
  simp only [rgbChecks, checkOutput, Checks.bind_eq_ok, formatChecks_eq_ok, raiseIf_eq_ok, not_lt, not_not,
    Except.ok.injEq]
  constructor
  · rintro ⟨_, ⟨hf, rfl⟩, _, h1, _, h2, _, h3, _, h4, rfl⟩; exact ⟨⟨hf, h1, h2, h3, h4⟩, rfl⟩
  · rintro ⟨⟨hf, h1, h2, h3, h4⟩, rfl⟩; exact ⟨_, ⟨hf, rfl⟩, (), h1, (), h2, (), h3, (), h4, rfl⟩

/-! ### The resampler (43_formatter.md R294, R295) -/

theorem length_resample1d (line : List Nat) (dn : Nat) : (resample1d line dn).length = dn := by simp [resample1d]

/-- At equal sizes the line is returned unchanged. -/
theorem resample1d_same (line : List Nat) : resample1d line line.length = line := by
  apply List.ext_getElem
  · simp [resample1d]
  · intro t h1 h2
    have hn : 0 < line.length := by omega
    simp only [resample1d, List.getElem_map, List.getElem_range, Nat.mul_div_cancel_left _ hn,
      Nat.mul_div_cancel _ (by decide : 0 < 65536), Nat.mul_mod_left]
    rw [List.getD_eq_getElem _ _ h2]; omega

theorem length_columns (w : Nat) (rows : List (List Nat)) : (columns w rows).length = w := by simp [columns]

theorem columns_columns {w : Nat} {rows : List (List Nat)} (h : ∀ r ∈ rows, r.length = w) :
    columns rows.length (columns w rows) = rows := by
  apply List.ext_getElem
  · simp [columns]
  · intro y h1 h2
    apply List.ext_getElem
    · simp [columns, h _ (List.getElem_mem h2)]
    · intro x h3 h4
      simp [columns, h2, h4]

/-- At equal sizes the plane is returned unchanged. -/
theorem resample_same {w : Nat} {rows : List (List Nat)} (h : ∀ r ∈ rows, r.length = w) :
    resample rows w rows.length = rows := by
  have h1 : (rows.map fun row => resample1d row w) = rows := by
    conv_rhs => rw [← List.map_id rows]
    refine List.map_congr_left fun r hr => ?_
    rw [← h r hr, resample1d_same]; rfl
  have h2 : ((columns w rows).map fun col => resample1d col rows.length) = columns w rows := by
    conv_rhs => rw [← List.map_id (columns w rows)]
    refine List.map_congr_left fun c hc => ?_
    have : c.length = rows.length := by
      simp only [columns, List.mem_map] at hc
      obtain ⟨x, -, rfl⟩ := hc; simp
    rw [← this, resample1d_same]; rfl
  rw [resample, h1, h2, columns_columns h]

theorem samples_rows {f : FormatRun} {m : Memory} {id : PlaneId} :
    ∀ r ∈ f.samples m id, r.length = planeSize id f.w := by
  simp only [FormatRun.samples, List.mem_map]
  rintro r ⟨y, -, rfl⟩; simp

theorem samplePos_samples {f : FormatRun} {m : Memory} {id : PlaneId} {x y : Nat} (hx : x < planeSize id f.w)
    (hy : y < planeSize id f.h) : samplePos (f.samples m id) x y = f.sample m id x y := by
  simp [samplePos, FormatRun.samples, List.getD_eq_getElem?_getD, hx, hy]

/-! ### Copies that do not reach what they read (20_memory.md R83) -/

/-- Items stored in order, each reading memory at its moment, store what they would have read before the first, where
no item reads a byte that the items store. -/
theorem copyItems_eq_writeAll {m : Memory} (h : m.wf) {items : List (Int × (Memory → List Byte))} (D : Nat → Prop)
    (hD : ∀ p ∈ items, ∀ k, k.wf → ∀ q ∈ placed p.1.toNat (p.2 k), D q.1)
    (hf : ∀ p ∈ items, ∀ k, k.wf → (∀ a, ¬D a → k.read a = m.read a) → p.2 k = p.2 m) :
    copyItems items m = m.writeAll (items.flatMap fun p => placed p.1.toNat (p.2 m)) := by
  have gen : ∀ k : Memory, k.wf → (∀ a, ¬D a → k.read a = m.read a) →
      copyItems items k = k.writeAll (items.flatMap fun p => placed p.1.toNat (p.2 m)) := by
    induction items with
    | nil => intro k _ _; rfl
    | cons p l ih =>
      intro k hk hr
      have e : copyItems (p :: l) k = copyItems l (k.writeAll (placed p.1.toNat (p.2 k))) := rfl
      rw [e, hf p (by simp) k hk hr, List.flatMap_cons, Memory.writeAll_append]
      refine ih (fun q hq => hD q (by simp [hq])) (fun q hq => hf q (by simp [hq])) _ (Memory.wf_writeAll hk _) ?_
      intro a ha
      rw [Memory.read_writeAll_of_notMem hk, hr a ha]
      intro hmem
      obtain ⟨q, hq, rfl⟩ := List.mem_map.1 hmem
      exact ha (hD p (by simp) m h q hq)
  exact gen m h fun _ _ => rfl

/-- The frame of items stored in order. -/
theorem read_copyItems {m : Memory} (h : m.wf) {items : List (Int × (Memory → List Byte))} {a : Nat}
    (ha : ∀ p ∈ items, ∀ k, k.wf → ∀ q ∈ placed p.1.toNat (p.2 k), a ≠ q.1) :
    (copyItems items m).read a = m.read a := by
  induction items generalizing m with
  | nil => rfl
  | cons p l ih =>
    have e : copyItems (p :: l) m = copyItems l (m.writeAll (placed p.1.toNat (p.2 m))) := rfl
    rw [e, ih (Memory.wf_writeAll h _) fun q hq => ha q (by simp [hq]), Memory.read_writeAll_of_notMem h]
    intro hmem
    obtain ⟨q, hq, e⟩ := List.mem_map.1 hmem
    exact ha p (by simp) m h q hq e.symm

theorem wf_copyItems {m : Memory} (h : m.wf) (items : List (Int × (Memory → List Byte))) : (copyItems items m).wf := by
  induction items generalizing m with
  | nil => exact h
  | cons p l ih => exact ih (Memory.wf_writeAll h _)

/-- A source sample read from a memory that agrees on the source is the same. -/
theorem sample_congr {f : FormatRun} {m k : Memory} (h : ∀ a ∈ sourceCells f, k.read a = m.read a) {id : PlaneId}
    {x y : Nat} (hx : x < planeSize id f.w) (hy : y < planeSize id f.h) : f.sample k id x y = f.sample m id x y := by
  simp only [FormatRun.sample]
  split
  · next hid =>
    rw [h]
    simp only [sourceCells, List.mem_flatMap, List.mem_map]
    refine ⟨id, ?_, (x, y), mem_grid.2 ⟨hx, hy⟩, rfl⟩
    cases id <;> cases hc : f.color <;> simp_all [planesInUse]
  · rfl

/-- A pixel fits 15 bits. -/
theorem rgb555_range (tb : TableSource) (y cb cr : Nat) : 0 ≤ rgb555 tb y cb cr ∧ rgb555 tb y cb cr < 2 ^ 15 := by
  cases tb with
  | replaced =>
    have := (replacedColor (cb / 8 * 32 + cr / 8) (y / 4)).isLt
    simp only [rgb555, colorTab]; omega
  | standard =>
  have hc : ∀ v, 0 ≤ clip255 v ∧ clip255 v ≤ 255 := by intro v; unfold clip255; omega
  simp only [rgb555, colorTab, colorTabDefault]
  have h1 := hc (asr (298 * (4 * ((y / 4 : Nat) : Int) - 16) + 409 * (8 * (((cb / 8 * 32 + cr / 8) % 32 : Nat) : Int) - 128) + 128) 8)
  have h2 := hc (asr (298 * (4 * ((y / 4 : Nat) : Int) - 16) - 100 * (8 * (((cb / 8 * 32 + cr / 8) / 32 : Nat) : Int) - 128) -
    208 * (8 * (((cb / 8 * 32 + cr / 8) % 32 : Nat) : Int) - 128) + 128) 8)
  have h3 := hc (asr (298 * (4 * ((y / 4 : Nat) : Int) - 16) + 516 * (8 * (((cb / 8 * 32 + cr / 8) / 32 : Nat) : Int) - 128) + 128) 8)
  generalize clip255 _ = r at *
  generalize clip255 _ = g at *
  generalize clip255 _ = b at *
  unfold asr
  norm_num
  omega

end Sys2Proof.Machine
end

