-- ==== Sys2Proof/Laws/UnitK.lean ====
section
/-! SUPPORT. What unit K can do: the validation passes exactly when Safety says so, and after it no edge fails. -/

namespace Sys2Proof.Machine

open Sys2Proof.Config Sys2Proof.Safety

/-! ### One edge (41_deblocking.md R202, R206, R211, R212) -/

theorem accessAll_bytes {s : State} {l : List Int} : (∃ xs, accessAll s 1 l = .ok xs) ↔ allIn s l := by
  simp only [accessAll_eq_ok, accessible_one, exists_and_left, exists_eq, and_true]

theorem filterEdge_eq_ok {e : Edge} {q : Nat} {s t : State} :
    filterEdge e q s = .ok t ↔ allIn s (edgeAddrs e) ∧
      t = { s with dbkQ := BitVec.ofNat 32 q, mem := (List.range 8).foldl (filterPosition s.params.tables e q) s.mem } := by
  simp only [filterEdge, Checks.bind_eq_ok, Except.ok.injEq, ← accessAll_bytes]
  constructor
  · rintro ⟨xs, h, rfl⟩; exact ⟨⟨xs, h⟩, rfl⟩
  · rintro ⟨⟨xs, h⟩, rfl⟩; exact ⟨xs, h, rfl⟩

theorem blendEdge_eq_ok {e : Edge} {n : Nat} {s t : State} :
    blendEdge e n s = .ok t ↔ allIn s (blendAddrs e n) ∧
      t = { s with mem := (List.range n).foldl (blendPosition e) s.mem } := by
  simp only [blendEdge, Checks.bind_eq_ok, Except.ok.injEq, ← accessAll_bytes]
  constructor
  · rintro ⟨xs, h, rfl⟩; exact ⟨⟨xs, h⟩, rfl⟩
  · rintro ⟨⟨xs, h⟩, rfl⟩; exact ⟨xs, h, rfl⟩

theorem wf_filterPosition {tb : TableSource} {m : Memory} (h : m.wf) (e : Edge) (q k : Nat) :
    (filterPosition tb e q m k).wf :=
  Memory.wf_write (Memory.wf_write h _ _) _ _

theorem wf_blendPosition {m : Memory} (h : m.wf) (e : Edge) (k : Nat) : (blendPosition e m k).wf :=
  Memory.wf_write (Memory.wf_write h _ _) _ _

theorem wf_filters {tb : TableSource} {m : Memory} (h : m.wf) (e : Edge) (q : Nat) (l : List Nat) :
    (l.foldl (filterPosition tb e q) m).wf := by
  induction l generalizing m with
  | nil => exact h
  | cons k l ih => exact ih (wf_filterPosition h e q k)

theorem wf_blends {m : Memory} (h : m.wf) (e : Edge) (l : List Nat) : (l.foldl (blendPosition e) m).wf := by
  induction l generalizing m with
  | nil => exact h
  | cons k l ih => exact ih (wf_blendPosition h e k)

/-- A byte that is neither B nor C of the positions filtered reads as before. -/
theorem read_filters {tb : TableSource} {m : Memory} (h : m.wf) (e : Edge) (q : Nat) {l : List Nat} {a : Nat}
    (ha : ∀ k ∈ l, a ≠ (e.b k).toNat ∧ a ≠ (e.c k).toNat) :
    (l.foldl (filterPosition tb e q) m).read a = m.read a := by
  induction l generalizing m with
  | nil => rfl
  | cons k l ih =>
    have hk := ha k (by simp)
    rw [List.foldl_cons, ih (wf_filterPosition h e q k) fun j hj => ha j (by simp [hj]), filterPosition,
      Memory.read_write (Memory.wf_write h _ _), if_neg hk.2, Memory.read_write h, if_neg hk.1]

/-- A byte that is neither B nor C of the positions blended reads as before. -/
theorem read_blends {m : Memory} (h : m.wf) (e : Edge) {l : List Nat} {a : Nat}
    (ha : ∀ k ∈ l, a ≠ (e.b k).toNat ∧ a ≠ (e.c k).toNat) : (l.foldl (blendPosition e) m).read a = m.read a := by
  induction l generalizing m with
  | nil => rfl
  | cons k l ih =>
    have hk := ha k (by simp)
    rw [List.foldl_cons, ih (wf_blendPosition h e k) fun j hj => ha j (by simp [hj]), blendPosition,
      Memory.read_write (Memory.wf_write h _ _), if_neg hk.2, Memory.read_write h, if_neg hk.1]

theorem notMem_edgeTouches {e : Edge} {n a : Nat} (h : a ∉ edgeTouches e n) :
    ∀ k ∈ List.range n, a ≠ (e.b k).toNat ∧ a ≠ (e.c k).toNat := by
  intro k hk
  simp only [edgeTouches, blendAddrs, List.map_flatMap, List.mem_flatMap, not_exists, not_and] at h
  simpa using h k hk

/-! ### Validation (41_deblocking.md R207) -/

theorem readMbInfos_eq_ok {s : State} {checkQ : Bool} {rs : Nat} {l : List (Nat × Nat)} {r : List MbInfo}
    (hrs : rs = s.regK.dbkRowStride.toNat) :
    readMbInfos s checkQ rs l = .ok r ↔
      (∀ p ∈ l, wordAt s (dbkWord1 s p.2 p.1) ∧
        (checkQ = true → field (word s (dbkWord1 s p.2 p.1)) 0 8 ≠ 0 →
          1 ≤ field (word s (dbkWord1 s p.2 p.1)) 8 8 ∧ field (word s (dbkWord1 s p.2 p.1)) 8 8 ≤ 31)) ∧
      r = l.map fun p => { type := field (word s (dbkWord1 s p.2 p.1)) 0 8,
                           quant := field (word s (dbkWord1 s p.2 p.1)) 8 8 } := by
  subst hrs
  induction l generalizing r with
  | nil => simp [readMbInfos, eq_comm]
  | cons p l ih =>
    obtain ⟨c, r'⟩ := p
    have ha : ((mbAddr s.regK.dbkMbBase (r' * s.regK.dbkRowStride.toNat + c) : Nat) : Int) + 4 =
        ((dbkWord1 s r' c : Nat) : Int) := by
      simp only [mbAddr, dbkWord1]; push_cast; ring
    simp only [readMbInfos, ha, Checks.bind_eq_ok, memRead_word_eq_ok, raiseIf_eq_ok, ih, Except.ok.injEq,
      List.mem_cons, forall_eq_or_imp, List.map_cons]
    constructor
    · rintro ⟨w, ⟨hw, rfl⟩, _, hq, l', ⟨hl, rfl⟩, rfl⟩
      exact ⟨⟨⟨hw, fun h1 h2 => by
        by_contra hc; exact hq ⟨h1, h2, by omega⟩⟩, hl⟩, rfl⟩
    · rintro ⟨⟨⟨hw, hq⟩, hl⟩, rfl⟩
      refine ⟨_, ⟨hw, rfl⟩, (), ?_, _, ⟨hl, rfl⟩, rfl⟩
      rintro ⟨h1, h2, h3⟩
      have := hq h1 h2; omega

theorem checkDeblockPlane_eq_ok {s : State} {pic : Picture} {u cols rows : Nat} {id : PlaneId} {v : Unit} :
    checkDeblockPlane s pic u cols rows id = .ok v ↔ planeSound s (pic.plane id) ∧
      planeSize id u * cols ≤ (pic.plane id).width ∧ planeSize id u * rows ≤ (pic.plane id).height := by
  simp only [checkDeblockPlane, Checks.bind_eq_ok, raiseIf_eq_ok, checkExtent_eq_ok, planeSound]
  constructor
  · rintro ⟨_, h1, h2⟩; exact ⟨⟨by omega, h2⟩, by omega, by omega⟩
  · rintro ⟨⟨h1, h2⟩, h3, h4⟩; exact ⟨(), by omega, h2⟩

theorem validateDeblock_eq_ok {s : State} {u : Nat} {checkQ : Bool} {d : DeblockRun} :
    validateDeblock u checkQ s = .ok d ↔ deblockSound s u checkQ ∧ d = dbkRun s := by
  simp only [validateDeblock, Checks.bind_eq_ok, needTables_eq_ok, readPicture_eq_ok, raiseIf_eq_ok, not_lt,
    checkEach_eq_ok, checkDeblockPlane_eq_ok, readMbInfos_eq_ok rfl, Except.ok.injEq]
  constructor
  · rintro ⟨_, ht, p, ⟨hp, rfl⟩, _, hc, _, hpl, l, ⟨hl, rfl⟩, rfl⟩
    exact ⟨⟨ht, hp, hc, hpl, hl⟩, rfl⟩
  · rintro ⟨⟨ht, hp, hc, hpl, hl⟩, rfl⟩
    exact ⟨(), ht, _, ⟨hp, rfl⟩, (), hc, (), hpl, _, ⟨hl, rfl⟩, rfl⟩

/-! ### Whole pictures (41_deblocking.md R208, R214) -/

theorem filtered_cons (tb : TableSource) (p : Edge × Nat) (l : List (Edge × Nat)) (m : Memory) :
    filtered tb (p :: l) m = filtered tb l ((List.range 8).foldl (filterPosition tb p.1 p.2) m) := by
  rw [filtered, List.foldl_cons, filtered]

theorem blended_cons (p : Edge × Nat) (l : List (Edge × Nat)) (m : Memory) :
    blended (p :: l) m = blended l ((List.range p.2).foldl (blendPosition p.1) m) := by
  rw [blended, List.foldl_cons, blended]

theorem filterEdges_ok {l : List (Edge × Nat)} {s : State} (h : ∀ p ∈ l, allIn s (edgeAddrs p.1)) :
    filterEdges l s = .ok { s with dbkQ := lastQ l s.dbkQ, mem := filtered s.params.tables l s.mem } := by
  induction l generalizing s with
  | nil => rfl
  | cons p l ih =>
    rw [filterEdges, filterEdge_eq_ok.2 ⟨h p (by simp), rfl⟩, Checks.ok_bind, filtered_cons]
    generalize (List.range 8).foldl (filterPosition s.params.tables p.1 p.2) s.mem = m
    exact ih (s := { s with dbkQ := BitVec.ofNat 32 p.2, mem := m }) fun q hq => h q (by simp [hq])

theorem blendEdges_ok {l : List (Edge × Nat)} {s : State} (h : ∀ p ∈ l, allIn s (blendAddrs p.1 p.2)) :
    blendEdges l s = .ok { s with mem := blended l s.mem } := by
  induction l generalizing s with
  | nil => rfl
  | cons p l ih =>
    rw [blendEdges, blendEdge_eq_ok.2 ⟨h p (by simp), rfl⟩, Checks.ok_bind, blended_cons]
    generalize (List.range p.2).foldl (blendPosition p.1) s.mem = m
    exact ih (s := { s with mem := m }) fun q hq => h q (by simp [hq])

theorem wf_filtered {tb : TableSource} {m : Memory} (h : m.wf) (l : List (Edge × Nat)) : (filtered tb l m).wf := by
  induction l generalizing m with
  | nil => exact h
  | cons p l ih => rw [filtered_cons]; exact ih (wf_filters h _ _ _)

theorem wf_blended {m : Memory} (h : m.wf) (l : List (Edge × Nat)) : (blended l m).wf := by
  induction l generalizing m with
  | nil => exact h
  | cons p l ih => rw [blended_cons]; exact ih (wf_blends h _ _)

theorem read_filtered {tb : TableSource} {m : Memory} (h : m.wf) {l : List (Edge × Nat)} {a : Nat}
    (ha : ∀ p ∈ l, a ∉ edgeTouches p.1 8) :
    (filtered tb l m).read a = m.read a := by
  induction l generalizing m with
  | nil => rfl
  | cons p l ih =>
    rw [filtered_cons, ih (wf_filters h _ _ _) fun q hq => ha q (by simp [hq]),
      read_filters h _ _ (notMem_edgeTouches (ha p (by simp)))]

theorem read_blended {m : Memory} (h : m.wf) {l : List (Edge × Nat)} {a : Nat}
    (ha : ∀ p ∈ l, a ∉ edgeTouches p.1 p.2) : (blended l m).read a = m.read a := by
  induction l generalizing m with
  | nil => rfl
  | cons p l ih =>
    rw [blended_cons, ih (wf_blends h _ _) fun q hq => ha q (by simp [hq]),
      read_blends h _ (notMem_edgeTouches (ha p (by simp)))]

/-- The n positions of a horizontal edge of a plane, two rows each way, lie in the plane. -/
theorem horizontal_allIn {s : State} {p : Plane} {x y n : Nat} (hp : planeSound s p) (hx : x + n ≤ p.width) (hy : 2 ≤ y)
    (hy' : y + 1 < p.height) {k : Nat} (hk : k < n) :
    allIn s [(p.horizontalEdge x y).a k, (p.horizontalEdge x y).b k, (p.horizontalEdge x y).c k,
      (p.horizontalEdge x y).d k] := by
  have he := hp.2 (by omega)
  have h1 := Plane.at_lt (x := x + k) (y := y - 2) he (by omega) (by omega)
  have h2 := Plane.at_lt (x := x + k) (y := y - 1) he (by omega) (by omega)
  have h3 := Plane.at_lt (x := x + k) (y := y) he (by omega) (by omega)
  have h4 := Plane.at_lt (x := x + k) (y := y + 1) he (by omega) (by omega)
  obtain ⟨z, rfl⟩ : ∃ z, y = z + 2 := ⟨y - 2, by omega⟩
  simp only [Plane.at, Nat.add_sub_cancel, show z + 2 - 1 = z + 1 by omega] at h1 h2 h3 h4
  have e1 : (z + 1) * p.stride = z * p.stride + p.stride := by ring
  have e2 : (z + 2) * p.stride = z * p.stride + 2 * p.stride := by ring
  have e3 : (z + 2 + 1) * p.stride = z * p.stride + 3 * p.stride := by ring
  rw [e1] at h2; rw [e2] at h3; rw [e3] at h4
  simp only [allIn, Plane.horizontalEdge, Edge.a, Edge.b, Edge.c, Edge.d, Plane.at, e2, List.mem_cons, List.not_mem_nil,
    or_false, forall_eq_or_imp, forall_eq]
  push_cast
  omega

/-- The n positions of a vertical edge of a plane, two columns each way, lie in the plane. -/
theorem vertical_allIn {s : State} {p : Plane} {x y n : Nat} (hp : planeSound s p) (hx : 2 ≤ x) (hx' : x + 1 < p.width)
    (hy : y + n ≤ p.height) {k : Nat} (hk : k < n) :
    allIn s [(p.verticalEdge x y).a k, (p.verticalEdge x y).b k, (p.verticalEdge x y).c k,
      (p.verticalEdge x y).d k] := by
  have he := hp.2 (by omega)
  have h4 := Plane.at_lt (x := x + 1) (y := y + k) he (by omega) (by omega)
  have e1 : (y + k) * p.stride = y * p.stride + k * p.stride := by ring
  simp only [Plane.at, e1] at h4
  simp only [allIn, Plane.verticalEdge, Edge.a, Edge.b, Edge.c, Edge.d, Plane.at, List.mem_cons, List.not_mem_nil,
    or_false, forall_eq_or_imp, forall_eq]
  push_cast
  zify at h4
  omega

theorem planeSize_block (id : PlaneId) : planeSize id 16 = 8 * blocksPerSide id := by cases id <;> rfl

theorem planeSize_cell (id : PlaneId) : planeSize id 32 = cellSize id ∧ 16 ≤ cellSize id := by cases id <;> decide

/-- Every edge of a validated picture lies in memory. -/
theorem normalEdges_allIn {s : State} {checkQ : Bool} (h : deblockSound s 16 checkQ) :
    ∀ p ∈ normalEdges (dbkRun s), allIn s (edgeAddrs p.1) := by
  obtain ⟨-, -, -, hp, -⟩ := h
  intro p hmem
  simp only [normalEdges, List.mem_flatMap, List.mem_append, normalPass1, normalPass2, List.mem_filterMap] at hmem
  obtain ⟨id, hid, h⟩ := hmem
  obtain ⟨hs, hw, hh⟩ := hp id hid
  rw [planeSize_block] at hw hh
  have hcols : (dbkRun s).cols = dbkCols s := rfl
  have hrows : (dbkRun s).rows = dbkRows s := rfl
  rw [hcols, hrows] at h
  have e1 : 8 * blocksPerSide id * dbkCols s = 8 * (blocksPerSide id * dbkCols s) := by ring
  have e2 : 8 * blocksPerSide id * dbkRows s = 8 * (blocksPerSide id * dbkRows s) := by ring
  rw [e1] at hw; rw [e2] at hh
  rcases h with ⟨b, hb, h⟩ | ⟨b, hb, h⟩
  all_goals
    obtain ⟨hb1, hb2⟩ := mem_grid.1 hb
    split at h
    · simp at h
    · next hne =>
      obtain ⟨q, -, rfl⟩ := Option.map_eq_some_iff.1 h
      simp only [edgeAddrs, allIn, List.mem_flatMap, List.mem_range]
      rintro a ⟨k, hk, ha⟩
      first
      | exact horizontal_allIn hs (n := 8) (by omega) (by omega) (by omega) hk a ha
      | exact vertical_allIn hs (n := 8) (by omega) (by omega) (by omega) hk a ha

/-- Every boundary of a validated picture lies in memory. -/
theorem rruEdges_allIn {s : State} {checkQ : Bool} (h : deblockSound s 32 checkQ) :
    ∀ p ∈ rruEdges (dbkRun s), allIn s (blendAddrs p.1 p.2) := by
  obtain ⟨-, -, -, hp, -⟩ := h
  intro p hmem
  simp only [rruEdges, List.mem_flatMap, List.mem_append, rruPass1, rruPass2, List.mem_filterMap] at hmem
  obtain ⟨id, hid, h⟩ := hmem
  obtain ⟨hs, hw, hh⟩ := hp id hid
  obtain ⟨e, h16⟩ := planeSize_cell id
  rw [e] at hw hh
  have hcols : (dbkRun s).cols = dbkCols s := rfl
  have hrows : (dbkRun s).rows = dbkRows s := rfl
  rw [hcols, hrows] at h
  rcases h with ⟨c, hc, h⟩ | ⟨c, hc, h⟩
  all_goals
    obtain ⟨hc1, hc2⟩ := mem_grid.1 hc
    have h1 := Nat.mul_le_mul_left (cellSize id) (show c.1 + 1 ≤ dbkCols s from hc1)
    have h2 := Nat.mul_le_mul_left (cellSize id) (show c.2 + 1 ≤ dbkRows s from hc2)
    rw [Nat.mul_add, Nat.mul_one] at h1 h2
    split at h
    · next hne =>
      have h3 : cellSize id ≤ cellSize id * c.2 ∨ c.2 = 0 := by
        rcases Nat.eq_zero_or_pos c.2 with h | h
        · exact .inr h
        · exact .inl (Nat.le_mul_of_pos_right _ h)
      have h4 : cellSize id ≤ cellSize id * c.1 ∨ c.1 = 0 := by
        rcases Nat.eq_zero_or_pos c.1 with h | h
        · exact .inr h
        · exact .inl (Nat.le_mul_of_pos_right _ h)
      simp only [Option.some.injEq] at h
      subst h
      simp only [blendAddrs, allIn, List.mem_flatMap, List.mem_range]
      rintro a ⟨k, hk, ha⟩
      simp only [List.mem_cons, List.not_mem_nil, or_false] at ha
      first
      | exact horizontal_allIn hs (x := cellSize id * c.1) (y := cellSize id * c.2) (n := cellSize id) (by omega) (by omega) (by omega) hk a
          (by rcases ha with rfl | rfl <;> simp)
      | exact vertical_allIn hs (x := cellSize id * c.1) (y := cellSize id * c.2) (n := cellSize id) (by omega) (by omega) (by omega) hk a
          (by rcases ha with rfl | rfl <;> simp)
    · simp at h

end Sys2Proof.Machine
end

