-- ==== Sys2Proof/Laws/Footprint.lean ====
section
/-! SUPPORT. A turn of the device changes no byte outside the footprint of the running command: `turn_writes`, from one
lemma for each operation that says which bytes it can change, sound arguments or not. -/

namespace Sys2Proof.Machine

open Sys2Proof.Config Sys2Proof.Safety

/-! ### Regions -/

/-- A byte of one of the rows is in the region. -/
theorem Region.has_of {r : Region} {a y : Nat} (hy : y < r.rows) (h1 : r.base + y * r.stride ≤ a)
    (h2 : a < r.base + y * r.stride + r.width) : r.has a = true := by
  have hle : y ≤ min (r.rows - 1) ((a - r.base) / r.stride) ∨ r.stride = 0 := by
    rcases Nat.eq_zero_or_pos r.stride with h | h
    · exact .inr h
    · left
      refine Nat.le_min.2 ⟨by omega, (Nat.le_div_iff_mul_le h).2 (by omega)⟩
  have hm : y * r.stride ≤ min (r.rows - 1) ((a - r.base) / r.stride) * r.stride := by
    rcases hle with h | h
    · exact Nat.mul_le_mul_right _ h
    · simp [h]
  simp only [Region.has, Bool.and_eq_true, decide_eq_true_eq]
  omega

/-- A byte in a region is a byte of one of its rows. -/
theorem Region.has_iff {r : Region} {a : Nat} :
    r.has a = true ↔ ∃ y < r.rows, r.base + y * r.stride ≤ a ∧ a < r.base + y * r.stride + r.width := by
  constructor
  · intro h
    simp only [Region.has, Bool.and_eq_true, decide_eq_true_eq] at h
    obtain ⟨⟨h1, h2⟩, h3⟩ := h
    refine ⟨min (r.rows - 1) ((a - r.base) / r.stride), by omega, ?_, h3⟩
    have : min (r.rows - 1) ((a - r.base) / r.stride) * r.stride ≤ a - r.base :=
      (Nat.mul_le_mul_right _ (Nat.min_le_right _ _)).trans (Nat.div_mul_le_self _ _)
    omega
  · rintro ⟨y, hy, h1, h2⟩
    exact Region.has_of hy h1 h2

theorem bytesFrom_has {a n b : Nat} : (bytesFrom a n).has b = true ↔ a ≤ b ∧ b < a + n := by
  simp [Region.has_iff, bytesFrom]

theorem squareRegion_has {top stride size n a : Nat} :
    (squareRegion top stride size n).has a = true ↔ ∃ p ∈ grid n n, ∃ i < size, a = cell top stride size p + i := by
  rw [Region.has_iff]
  simp only [squareRegion, cell]
  constructor
  · rintro ⟨y, hy, h1, h2⟩
    have hs : 0 < size := by
      rcases Nat.eq_zero_or_pos size with h | h
      · subst h; omega
      · exact h
    have hd := Nat.div_add_mod (a - (top + y * stride)) size
    refine ⟨((a - (top + y * stride)) / size, y), mem_grid.2 ⟨?_, hy⟩, (a - (top + y * stride)) % size,
      Nat.mod_lt _ hs, ?_⟩
    · exact Nat.div_lt_of_lt_mul (by omega)
    · simp only; omega
  · rintro ⟨p, hp, i, hi, rfl⟩
    obtain ⟨hx, hy⟩ := mem_grid.1 hp
    refine ⟨p.2, hy, by omega, ?_⟩
    have : size * (p.1 + 1) ≤ size * n := Nat.mul_le_mul_left _ hx
    rw [Nat.mul_add] at this
    omega

/-- The samples of a macroblock are those of its squares. -/
theorem mbRegions_has {m : Mb} {u : Nat} {pic : Picture} {a : Nat} :
    ((mbRegions m u pic).any fun r => r.has a) = true ↔ a ∈ mbSamples m u pic := by
  simp only [mbRegions, List.any_map, List.any_eq_true, Function.comp, squareRegion_has, mem_mbSamples, Nat.lt_one_iff,
    exists_eq_left, Nat.add_zero, Prod.exists, mem_grid, cell, mbCell, Plane.at]
  constructor
  · rintro ⟨id, hid, x, y, ⟨hx, hy⟩, rfl⟩
    exact ⟨id, hid, x, hx, y, hy, by ring⟩
  · rintro ⟨id, hid, x, hx, y, hy, rfl⟩
    exact ⟨id, hid, x, y, ⟨hx, hy⟩, by ring⟩

/-! ### What an operation can change -/

/-- From s to t no byte without the property P changes, and memory stays in its canonical form. -/
structure Changes (P : Nat → Prop) (s t : State) : Prop where
  wf : s.mem.wf → t.mem.wf
  read : s.mem.wf → ∀ a, ¬P a → t.mem.read a = s.mem.read a

theorem Changes.of_mem {P : Nat → Prop} {s t : State} (h : t.mem = s.mem) : Changes P s t :=
  ⟨fun hw => h ▸ hw, fun _ _ _ => by rw [h]⟩

theorem Changes.refl (P : Nat → Prop) (s : State) : Changes P s s := .of_mem rfl

theorem Changes.trans {P : Nat → Prop} {s t u : State} (h : Changes P s t) (h' : Changes P t u) : Changes P s u :=
  ⟨fun hw => h'.wf (h.wf hw), fun hw a ha => (h'.read (h.wf hw) a ha).trans (h.read hw a ha)⟩

theorem Changes.mono {P Q : Nat → Prop} {s t : State} (h : Changes P s t) (hpq : ∀ a, P a → Q a) : Changes Q s t :=
  ⟨h.wf, fun hw a ha => h.read hw a fun hp => ha (hpq a hp)⟩

theorem Changes.mem_right {P : Nat → Prop} {s t u : State} (h : Changes P s t) (e : u.mem = t.mem) : Changes P s u :=
  h.trans (.of_mem e)

theorem Changes.noteBlock {P : Nat → Prop} {s t : State} (h : Changes P s t) (acc : List (BitVec 32)) (c : PatternCase) :
    Changes P s (noteBlock acc c t) := h.mem_right rfl

theorem Changes.aicc {P : Nat → Prop} {s t : State} (h : Changes P s t) (l : List AicEntry) :
    Changes P s { t with aicc := l } := h.mem_right rfl

theorem changes_rrubuf (P : Nat → Prop) (s : State) (b : List (BitVec 16)) : Changes P s { s with rrubuf := b } := .of_mem rfl

theorem changes_store {P : Nat → Prop} {s : State} {l : List (Nat × Byte)} (hl : ∀ p ∈ l, P p.1) :
    Changes P s (s.store l) := by
  refine ⟨fun hw => Memory.wf_writeAll hw l, fun hw a ha => Memory.read_writeAll_of_notMem hw fun hc => ?_⟩
  obtain ⟨p, hp, rfl⟩ := List.mem_map.1 hc
  exact ha (hl p hp)

theorem placed_range {a : Nat} {l : List Byte} {p : Nat × Byte} (hp : p ∈ placed a l) : a ≤ p.1 ∧ p.1 < a + l.length := by
  have : p.1 ∈ (placed a l).map (·.1) := List.mem_map_of_mem hp
  rw [placed_fst] at this
  obtain ⟨i, hi, e⟩ := List.mem_map.1 this
  have := List.mem_range.1 hi
  omega

/-- One-byte items change their addresses only. -/
theorem changes_bytes {P : Nat → Prop} {s t : State} {items : List (Int × List Byte)}
    (h : checkThenStore s 1 items = .ok t) (hl : ∀ p ∈ items, p.2.length ≤ 1) (hp : ∀ p ∈ items, P p.1.toNat) :
    Changes P s t := by
  obtain ⟨-, rfl⟩ := checkThenStore_eq_ok.1 h
  refine changes_store fun q hq => ?_
  obtain ⟨p, hpi, hq⟩ := List.mem_flatMap.1 hq
  have h1 := placed_range hq
  have h2 := hl p hpi
  have : q.1 = p.1.toNat := by omega
  rw [this]; exact hp p hpi

theorem changes_memWrite {P : Nat → Prop} {s t : State} {a n v : Nat} (h : memWrite s (a : Int) n v = .ok t)
    (hp : ∀ b, a ≤ b → b < a + n → P b) : Changes P s t := by
  obtain ⟨-, rfl⟩ := memWrite_eq_ok.1 h
  refine changes_store fun q hq => ?_
  have : q.1 ∈ (bytesLE (a : Int).toNat n v).map (·.1) := List.mem_map_of_mem hq
  rw [bytesLE_fst] at this
  obtain ⟨i, hi, e⟩ := List.mem_map.1 this
  have := List.mem_range.1 hi
  simp only [Int.toNat_natCast] at e
  exact hp _ (by omega) (by omega)

/-- Every operation of a macroblock changes bytes with P only. -/
abbrev changesOp (P : Nat → Prop) (op : Op) : Prop := ∀ s t, op s = .ok t → Changes P s t

theorem mbSquare_mem {m : Mb} {u : Nat} {pic : Picture} {id : PlaneId} (hid : id ∈ planesInUse m.run.color) {a : Int}
    (ha : a ∈ mbSquare m u pic id) : a.toNat ∈ mbSamples m u pic := by
  obtain ⟨p, hp, rfl⟩ := List.mem_map.1 ha
  obtain ⟨hx, hy⟩ := mem_grid.1 hp
  exact mbCell_mem hid hx hy

theorem changes_fillPlane {m : Mb} {u : Nat} {id : PlaneId} (hid : id ∈ planesInUse m.run.color) :
    changesOp (· ∈ mbSamples m u m.run.newPic) (fillPlane m u id) := fun s t h => by
  refine changes_bytes h (fun p hp => ?_) fun p hp => ?_
  all_goals obtain ⟨a, ha, rfl⟩ := List.mem_map.1 hp
  · simp
  · exact mbSquare_mem hid ha

theorem changes_copyPlane {m : Mb} {u : Nat} {src dst : Picture} {id : PlaneId} (hid : id ∈ planesInUse m.run.color) :
    changesOp (· ∈ mbSamples m u dst) (copyPlane m u src dst id) := fun s t h => by
  simp only [copyPlane, Checks.bind_eq_ok] at h
  obtain ⟨v, -, h⟩ := h
  exact changes_bytes h (oneByte_zip _ _ _) fun p hp => mbSquare_mem hid (List.of_mem_zip hp).1

/-- A request changes samples of its target square. -/
theorem changes_requestMc {P : Nat → Prop} {req : McRequest} {target : Picture} {color : Bool}
    (hp : ∀ id ∈ planesInUse color, ∀ x < planeSize id 16, ∀ y < planeSize id 16,
      P ((target.plane id).at (planeSize id req.x + x) (planeSize id req.y + y))) :
    changesOp P (requestMc req target color) := fun s t h => by
  refine changes_bytes h (fun p hp' => ?_) fun p hp' => ?_
  all_goals
    obtain ⟨id, hid, hp'⟩ := List.mem_flatMap.1 hp'
    obtain ⟨q, hq, rfl⟩ := List.mem_map.1 hp'
  · simp
  · obtain ⟨hx, hy⟩ := mem_grid.1 hq
    exact hp id hid _ hx _ hy

theorem changes_mcNormal (m : Mb) (kind : McKind) :
    changesOp (· ∈ mbSamples m 16 (if kind = .bidir then m.run.bPic else m.run.newPic)) (mcNormal m kind) :=
  fun s t h => by
  simp only [mcNormal, Checks.bind_eq_ok] at h
  obtain ⟨_, -, _, -, h⟩ := h
  refine changes_requestMc (fun id hid x hx y hy => ?_) s t h
  refine mem_mbSamples.2 ⟨id, hid, x, hx, y, hy, ?_⟩
  have e : ∀ n, planeSize id (16 * n) = planeSize id 16 * n := fun n => by cases id <;> simp [planeSize] <;> omega
  simp only [mbCell, e, decide_eq_true_eq]

theorem changes_mcQuadrant (m : Mb) (kind : McKind) {k : Nat} (hk : k < 4) :
    changesOp (· ∈ mbSamples m 32 m.run.newPic) (mcQuadrant m kind k) := fun s t h => by
  simp only [mcQuadrant, Checks.bind_eq_ok] at h
  obtain ⟨_, -, _, -, h⟩ := h
  refine changes_requestMc (fun id hid x hx y hy => ?_) s t h
  have e : ∀ n j, planeSize id (32 * n + 16 * j) = planeSize id 32 * n + planeSize id 16 * j := fun n j => by
    cases id <;> simp [planeSize] <;> omega
  have e2 : planeSize id 32 = 2 * planeSize id 16 := by cases id <;> rfl
  have h1 : k % 2 < 2 := Nat.mod_lt _ (by decide)
  have h2 : k / 2 < 2 := by omega
  have hx' : planeSize id 16 * (k % 2) + x < planeSize id 32 := by
    rw [e2]
    rcases (by omega : k % 2 = 0 ∨ k % 2 = 1) with h | h <;> rw [h] <;> omega
  have hy' : planeSize id 16 * (k / 2) + y < planeSize id 32 := by
    rw [e2]
    rcases (by omega : k / 2 = 0 ∨ k / 2 = 1) with h | h <;> rw [h] <;> omega
  refine mem_mbSamples.2 ⟨id, hid, _, hx', _, hy', ?_⟩
  simp only [mbCell, e, Nat.add_assoc]

/-- A block stored in a picture changes the macroblock's samples there. -/
theorem changes_blockSamples {m : Mb} {pic : Picture} {n : Nat} (hn : n ∈ blocksInUse m.run.color) {s : State}
    {acc : List (BitVec 32)} {pred : Nat × Nat → Int} :
    Changes (· ∈ mbSamples m 16 pic) s
      (s.store (blockSamples (blockTop m pic n) (pic.plane (blockPlane n)).stride acc pred)) :=
  changes_store fun _ hp => blockSamples_mem hn hp

theorem changes_blkAdd {m : Mb} {n q : Nat} {pic : Picture} (hn : n % 6 ∈ blocksInUse m.run.color) :
    changesOp (· ∈ mbSamples m 16 pic) (blkAdd m n q pic) := fun s t h => by
  simp only [blkAdd, Checks.bind_eq_ok] at h
  obtain ⟨_, -, h⟩ := h
  obtain ⟨-, -, -, rfl⟩ := reconAddBody_eq_ok.1 h
  exact (changes_blockSamples hn).noteBlock _ _

theorem changes_addIfCoded {m : Mb} {n : Nat} (hn : n ∈ blocksInUse m.run.color) :
    changesOp (· ∈ mbSamples m 16 m.run.newPic) (addIfCoded m n) := fun s t h => by
  simp only [addIfCoded, Checks.bind_eq_ok] at h
  obtain ⟨c, -, h⟩ := h
  cases c
  · simp only [Bool.false_eq_true, if_false, Except.ok.injEq] at h
    subst h; exact .refl _ s
  · simp only [if_true, Checks.bind_eq_ok] at h
    obtain ⟨_, -, h⟩ := h
    exact changes_blkAdd (by rwa [Nat.mod_eq_of_lt (blocksInUse_lt hn)]) s t h

theorem changes_addIfCodedB {m : Mb} {n : Nat} (hn : n ∈ blocksInUse m.run.color) :
    changesOp (· ∈ mbSamples m 16 m.run.bPic) (addIfCodedB m n) := fun s t h => by
  simp only [addIfCodedB, Checks.bind_eq_ok] at h
  obtain ⟨c, -, h⟩ := h
  cases c
  · simp only [Bool.false_eq_true, if_false, Except.ok.injEq] at h
    subst h; exact .refl _ s
  · simp only [if_true, Checks.bind_eq_ok] at h
    obtain ⟨_, -, h⟩ := h
    exact changes_blkAdd (by rwa [Nat.add_mod_left, Nat.mod_eq_of_lt (blocksInUse_lt hn)]) s t h

theorem changes_intraBlock {m : Mb} {n : Nat} (hn : n ∈ blocksInUse m.run.color) :
    changesOp (· ∈ mbSamples m 16 m.run.newPic) (intraBlock m n) := fun s t h => by
  simp only [intraBlock, Checks.bind_eq_ok] at h
  obtain ⟨q, -, h⟩ := h
  split at h
  · simp only [blkAic, Checks.bind_eq_ok] at h
    obtain ⟨_, -, _, -, h⟩ := h
    obtain ⟨-, -, -, -, -, rfl⟩ := reconAicBody_eq_ok.1 h
    exact ((changes_blockSamples hn).aicc _).noteBlock _ _
  · simp only [blkIntra, Checks.bind_eq_ok] at h
    obtain ⟨_, -, h⟩ := h
    obtain ⟨-, -, rfl⟩ := reconBody_eq_ok.1 h
    exact (changes_blockSamples hn).noteBlock _ _

theorem changes_rruBlock (P : Nat → Prop) (m : Mb) (intra clear : Bool) (n x0 y0 : Nat) :
    changesOp P (rruBlock m intra clear n x0 y0) := fun s t h => by
  simp only [rruBlock, Checks.bind_eq_ok] at h
  obtain ⟨c, -, h⟩ := h
  cases c
  · simp only [Bool.false_eq_true, if_false, Except.ok.injEq] at h
    subst h
    cases clear
    · exact .refl _ s
    · exact changes_rrubuf _ _ _
  · simp only [if_true, Checks.bind_eq_ok, Except.ok.injEq] at h
    obtain ⟨_, -, _, -, l, -, rfl⟩ := h
    exact (changes_rrubuf _ _ _).noteBlock _ _

theorem changes_rruSum {m : Mb} (nopred : Bool) {id : PlaneId} (hid : id ∈ planesInUse m.run.color) :
    changesOp (· ∈ mbSamples m 32 m.run.newPic) (rruSum m nopred id) := fun s t h => by
  simp only [rruSum] at h
  cases nopred
  · simp only [Bool.false_eq_true, if_false, Checks.bind_eq_ok] at h
    obtain ⟨_, -, hu⟩ := h
    exact changes_bytes hu (oneByte_zip _ _ _) fun p hp => mbSquare_mem hid (List.of_mem_zip hp).1
  · simp only [if_true, Checks.ok_bind] at h
    exact changes_bytes h (oneByte_zip _ _ _) fun p hp => mbSquare_mem hid (List.of_mem_zip hp).1

theorem changes_rruResidual (m : Mb) (intra : Bool) :
    ∀ op ∈ rruResidual m intra, changesOp (· ∈ mbSamples m 32 m.run.newPic) op := by
  intro op hop
  rcases List.mem_append.1 hop with hop | hop
  · simp only [List.mem_cons, List.not_mem_nil, or_false] at hop
    rcases hop with rfl | rfl | rfl | rfl | rfl | rfl
    · intro s t h
      simp only [clearRrubuf, Except.ok.injEq] at h
      subst h
      exact .of_mem rfl
    · exact changes_rruBlock _ _ _ _ _ _ _
    · exact changes_rruBlock _ _ _ _ _ _ _
    · exact changes_rruBlock _ _ _ _ _ _ _
    · exact changes_rruBlock _ _ _ _ _ _ _
    · exact changes_rruSum _ (by cases m.run.color <;> decide)
  · cases hc : m.run.color <;> rw [hc] at hop
    · simp at hop
    · simp only [if_true, List.mem_cons, List.not_mem_nil, or_false] at hop
      rcases hop with rfl | rfl | rfl | rfl
      · exact changes_rruBlock _ _ _ _ _ _ _
      · exact changes_rruSum _ (by rw [hc]; decide)
      · exact changes_rruBlock _ _ _ _ _ _ _
      · exact changes_rruSum _ (by rw [hc]; decide)

theorem changes_predictOps (m : Mb) (rru : Bool) {kind : McKind} (hk : kind ≠ .bidir) :
    ∀ op ∈ predictOps m rru kind, changesOp (· ∈ mbSamples m (if rru then 32 else 16) m.run.newPic) op := by
  intro op hop
  simp only [predictOps] at hop
  split at hop
  · obtain ⟨id, hid, rfl⟩ := List.mem_map.1 hop
    exact changes_fillPlane hid
  · split at hop
    · next hr =>
      obtain ⟨k, hk', rfl⟩ := List.mem_map.1 hop
      rw [if_pos hr]
      exact changes_mcQuadrant m kind (List.mem_range.1 hk')
    · next hr =>
      rw [List.mem_singleton.1 hop, if_neg hr]
      have := changes_mcNormal m kind
      rwa [if_neg hk] at this

/-! ### Sequences and handlers, raised or completed -/

/-- What a sequence that may raise part-way can have changed, either way. -/
abbrev leaves {α : Type} (P : Nat → Prop) (s : State) (f : α → State) (r : Partial α) : Prop :=
  match r with
  | .ok a => Changes P s (f a)
  | .error p => Changes P s p.2

theorem leaves_bind {α β : Type} {P : Nat → Prop} {s : State} {f : α → State} {g : β → State} {r : Partial α}
    {k : α → Partial β} (h : leaves P s f r) (hk : ∀ a, r = .ok a → leaves P (f a) g (k a)) :
    leaves P s g (r >>= k) := by
  cases r with
  | error p => exact h
  | ok a =>
    have := hk a rfl
    show leaves P s g (k a)
    cases hr : k a with
    | ok b => rw [hr] at this; exact Changes.trans h this
    | error p => rw [hr] at this; exact Changes.trans h this

theorem leaves_runOps {P : Nat → Prop} {l : List Op} (hl : ∀ op ∈ l, changesOp P op) (s : State) :
    leaves P s id (runOps l s) := by
  induction l generalizing s with
  | nil => exact .refl _ s
  | cons op l ih =>
    simp only [runOps]
    cases h : op s with
    | error e => exact .refl _ s
    | ok t =>
      have h1 := hl op (by simp) s t h
      have h2 := ih (fun op' h' => hl op' (by simp [h'])) t
      show leaves P s id (runOps l t)
      cases hr : runOps l t with
      | ok v => rw [hr] at h2; exact h1.trans h2
      | error p => rw [hr] at h2; exact h1.trans h2

theorem leaves_inState {α : Type} (P : Nat → Prop) (s : State) (r : Except Raise α) :
    leaves P s (fun _ => s) (inState s r) := by
  cases r <;> exact .refl _ s

/-- The bytes a macroblock's turn may store: word 0, word 2, and its samples in NEW and, where it is used, in B. -/
def mbTouches (m : Mb) (u : Nat) (a : Nat) : Prop :=
  (m.d ≤ a ∧ a < m.d + 4) ∨ (m.d + 8 ≤ a ∧ a < m.d + 12) ∨ a ∈ mbSamples m u m.run.newPic ∨
    ((m.run.useB && !m.run.geomFail) = true ∧ a ∈ mbSamples m 16 m.run.bPic)

theorem leaves_bPath (m : Mb) (u : Nat) (s : State) : leaves (mbTouches m u) s id (bPath m s) := by
  simp only [bPath]
  split
  · next hb =>
    cases mbBreq s m.d with
    | error e => exact .refl _ s
    | ok b =>
      cases b with
      | false => exact .refl _ s
      | true =>
        refine leaves_runOps (fun op hop s t h => ?_) s
        rcases List.mem_cons.1 hop with rfl | hop
        · have := changes_mcNormal m .bidir s t h
          rw [if_pos rfl] at this
          exact this.mono fun a ha => .inr (.inr (.inr ⟨hb, ha⟩))
        · obtain ⟨n, hn, rfl⟩ := List.mem_map.1 hop
          exact (changes_addIfCodedB hn s t h).mono fun a ha => .inr (.inr (.inr ⟨hb, ha⟩))
  · exact .refl _ s

theorem changes_new {m : Mb} {u : Nat} {s t : State} (h : Changes (· ∈ mbSamples m u m.run.newPic) s t) :
    Changes (mbTouches m u) s t := h.mono fun _ ha => .inr (.inr (.inl ha))

theorem unitSize_eq (s : State) : (if s.modeRru then 32 else 16) = unitSize s := rfl

theorem leaves_skipHandler (m : Mb) (s : State) :
    leaves (mbTouches m (unitSize s)) s Prod.fst (skipHandler m s) := by
  refine leaves_bind (f := id) (leaves_runOps (fun op hop u v h => ?_) s) fun t _ => .of_mem rfl
  rcases List.mem_append.1 hop with hop | hop
  · exact changes_new (changes_predictOps m _ (by decide) op hop u v h)
  · split at hop
    · next hb =>
      obtain ⟨id, hid, rfl⟩ := List.mem_map.1 hop
      exact (changes_copyPlane hid u v h).mono fun a ha => .inr (.inr (.inr ⟨hb, ha⟩))
    · simp at hop

theorem leaves_interHandler {kind : McKind} (hk : kind ≠ .bidir) (m : Mb) (s : State) :
    leaves (mbTouches m (unitSize s)) s Prod.fst (interHandler kind m s) := by
  refine leaves_bind (f := id) (leaves_runOps (fun op hop u v h => ?_) s) fun t _ =>
    leaves_bind (f := id) (leaves_bPath m _ t) fun u _ => ?_
  · rcases List.mem_append.1 hop with hop | hop
    · exact changes_new (changes_predictOps m _ hk op hop u v h)
    · cases hr : s.modeRru
      · simp only [hr, Bool.false_eq_true, if_false] at hop
        obtain ⟨n, hn, rfl⟩ := List.mem_map.1 hop
        rw [unitSize_16 hr]
        exact changes_new (changes_addIfCoded hn u v h)
      · simp only [hr, if_true] at hop
        rw [unitSize_32 hr]
        exact changes_new (changes_rruResidual m _ op hop u v h)
  · show leaves _ u Prod.fst (inState (clearAiccColumn m.col u) _ >>= _)
    cases hr : mbOverlap (clearAiccColumn m.col u) m.d <;> exact .of_mem rfl

theorem leaves_intraHandler (m : Mb) (s : State) :
    leaves (mbTouches m (unitSize s)) s Prod.fst (intraHandler m s) := by
  refine leaves_bind (f := id) (leaves_runOps (fun op hop u v h => ?_) s) fun t _ =>
    leaves_bind (f := id) (leaves_bPath m _ t) fun u _ => ?_
  · cases hr : s.modeRru
    · simp only [hr, Bool.false_eq_true, if_false] at hop
      obtain ⟨n, hn, rfl⟩ := List.mem_map.1 hop
      rw [unitSize_16 hr]
      exact changes_new (changes_intraBlock hn u v h)
    · simp only [hr, if_true] at hop
      rw [unitSize_32 hr]
      exact changes_new (changes_rruResidual m _ op hop u v h)
  · have hc : Changes (mbTouches m (unitSize s)) u (if s.modeAic && !s.modeRru then u else clearAiccColumn m.col u) := by
      split <;> exact .of_mem rfl
    show leaves _ u Prod.fst (inState (if s.modeAic && !s.modeRru then u else clearAiccColumn m.col u) _ >>= _)
    cases hr : intraOverlap s.modeRru (if s.modeAic && !s.modeRru then u else clearAiccColumn m.col u) m.d <;> exact hc

theorem changes_writeMbPosition {m : Mb} {u : Nat} {s t : State} {col row : Nat}
    (h : writeMbPosition s m.d col row = .ok t) : Changes (mbTouches m u) s t :=
  changes_memWrite h fun _ h1 h2 => .inl ⟨h1, h2⟩

theorem changes_writeMbScratch {m : Mb} {u : Nat} {s t : State} {v : Nat} (h : writeMbScratch s m.d v = .ok t) :
    Changes (mbTouches m u) s t := by
  simp only [writeMbScratch, Checks.bind_eq_ok] at h
  obtain ⟨_, -, h⟩ := h
  have e : ((m.d : Int) + 8) = ((m.d + 8 : Nat) : Int) := by simp
  rw [e] at h
  exact changes_memWrite h fun _ h1 h2 => .inr (.inl ⟨h1, by omega⟩)

theorem changes_writeDirty (m : Mb) (u : Nat) (skip : Bool) : changesOp (mbTouches m u) (writeDirty m skip) :=
  fun s t h => by
  simp only [writeDirty] at h
  split at h
  · simp only [Checks.bind_eq_ok] at h
    obtain ⟨_, -, _, -, h⟩ := h
    exact changes_writeMbScratch h
  · simp only [Checks.ok_bind] at h
    exact changes_writeMbScratch h

theorem changes_settle {P : Nat → Prop} {c : GobRun} {m : Mb} {skip : Bool} {s t : State} {r : Partial (State × Nat)}
    (hd : changesOp P (writeDirty m skip)) (hk : leaves P s Prod.fst r) (h : settleMacroblock c m skip r = .next t) :
    Changes P s t := by
  simp only [settleMacroblock] at h
  cases r with
  | error p =>
    simp only [Host.Outcome.next.injEq] at h
    subst h
    exact Changes.mem_right hk rfl
  | ok a =>
    obtain ⟨u, cost⟩ := a
    simp only at h
    have hk' : Changes P s u := hk
    cases hw : writeDirty m skip u with
    | error e =>
      rw [hw] at h
      simp only [Host.Outcome.next.injEq] at h
      subst h
      exact hk'.mem_right rfl
    | ok v =>
      rw [hw] at h
      simp only [Host.Outcome.next.injEq] at h
      subst h
      refine (hk'.trans (hd u v hw)).mem_right ?_
      dsimp only [endMacroblock]
      split <;> rfl

/-- A type tag changes what its macroblock's turn may store. -/
theorem changes_tag {i : Instr} {s t : State} {c : GobRun} (ht : isTag i = true) (hr : s.run = .gob c)
    (h : exec i s = .next t) : Changes (mbTouches (cursorMb c s) (unitSize s)) s t := by
  have key : ∀ (skip : Bool) (handler : Mb → State → Partial (State × Nat)),
      leaves (mbTouches (cursorMb c s) (unitSize s)) s Prod.fst (handler (cursorMb c s) s) →
      runTag skip handler s = .next t → Changes (mbTouches (cursorMb c s) (unitSize s)) s t := by
    intro skip handler hl h'
    simp only [runTag, hr] at h'
    exact changes_settle (changes_writeDirty _ _ _) hl h'
  cases i <;> simp only [isTag, Bool.false_eq_true] at ht
  · exact key _ _ (leaves_skipHandler _ _) h
  · exact key _ _ (leaves_interHandler (by decide) _ _) h
  · exact key _ _ (leaves_interHandler (by decide) _ _) h
  · exact key _ _ (leaves_interHandler (by decide) _ _) h
  · exact key _ _ (leaves_intraHandler _ _) h
  · exact key _ _ (leaves_intraHandler _ _) h
  · next tag =>
    have h' : execMbUnknown tag s = .next t := h
    simp only [execMbUnknown, hr, Host.Outcome.next.injEq] at h'
    subst h'
    exact .of_mem rfl

end Sys2Proof.Machine
end

