-- ==== Sys2Proof/Laws/PerInstr.lean ====
section
/-! SUPPORT. The encoding of every instruction agrees with its row of the opcode table: one lemma per constructor. -/

namespace Sys2Proof.Laws.TableMatch

/-- The 32-bit command word `w` under a row's mask and match. -/
abbrev wordFits (mask value w : BitVec 32) : Prop := w &&& mask = value

/-- The encoding of an instruction is one of the words, or the tag, its row of the opcode table gives (30_encoding.md
R101 to R103, R121). -/
def Statement : Instr → Prop
  | .nop => ∃ w, encode (.nop) = .command w ∧ wordFits 0xFFFFFFFF 0x00000000 w
  | .initTables => ∃ w, encode (.initTables) = .command w ∧ wordFits 0xFFFFFFFF 0x00000001 w
  | .aicFlush => ∃ w, encode (.aicFlush) = .command w ∧ wordFits 0xFFFFFFFF 0x00000002 w
  | .recon dc8 => ∃ w, encode (.recon dc8) = .command w ∧ wordFits 0xFFFFFEFF 0x00000010 w
  | .reconAdd dc8 => ∃ w, encode (.reconAdd dc8) = .command w ∧ wordFits 0xFFFFFEFF 0x00000011 w
  | .reconS16 dc8 => ∃ w, encode (.reconS16 dc8) = .command w ∧ wordFits 0xFFFFFEFF 0x00000012 w
  | .reconAic dc8 => ∃ w, encode (.reconAic dc8) = .command w ∧ wordFits 0xFFFFFEFF 0x00000013 w
  | .rruUpadd nopred small => ∃ w, encode (.rruUpadd nopred small) = .command w ∧ wordFits 0xFFFFFCFF 0x00000014 w
  | .dbkEdge => ∃ w, encode (.dbkEdge) = .command w ∧ wordFits 0xFFFFFFFF 0x00000020 w
  | .dbkEdgeRru => ∃ w, encode (.dbkEdgeRru) = .command w ∧ wordFits 0xFFFFFFFF 0x00000021 w
  | .deblockPic => ∃ w, encode (.deblockPic) = .command w ∧ wordFits 0xFFFFFFFF 0x00000022 w
  | .deblockRruPic => ∃ w, encode (.deblockRruPic) = .command w ∧ wordFits 0xFFFFFFFF 0x00000023 w
  | .decodeGob => ∃ w, encode (.decodeGob) = .command w ∧ wordFits 0xFFFFFFFF 0x00000030 w
  | .concealGob => ∃ w, encode (.concealGob) = .command w ∧ wordFits 0xFFFFFFFF 0x00000031 w
  | .convertRgb555 sel => ∃ w, encode (.convertRgb555 sel) = .command w ∧ wordFits 0xFFFFFEFF 0x00000040 w
  | .convertYuy2 => ∃ w, encode (.convertYuy2) = .command w ∧ wordFits 0xFFFFFFFF 0x00000041 w
  | .convertYvu9 => ∃ w, encode (.convertYvu9) = .command w ∧ wordFits 0xFFFFFFFF 0x00000042 w
  | .mbSkip => encode .mbSkip = .tag 0
  | .mbInter => encode .mbInter = .tag 1
  | .mbInterQ => encode .mbInterQ = .tag 2
  | .mbInter4v => encode .mbInter4v = .tag 3
  | .mbIntra => encode .mbIntra = .tag 4
  | .mbIntraQ => encode .mbIntraQ = .tag 5
  | .mbUnknown tag => ∀ legacy, (Instr.mbUnknown tag).wellFormed legacy = true →
      encode (.mbUnknown tag) = .tag tag ∧ 6 ≤ tag.toNat

theorem nop : Statement .nop := ⟨_, rfl, by decide⟩
theorem initTables : Statement .initTables := ⟨_, rfl, by decide⟩
theorem aicFlush : Statement .aicFlush := ⟨_, rfl, by decide⟩
theorem recon (dc8 : Bool) : Statement (.recon dc8) := by
  refine ⟨_, rfl, ?_⟩
  cases dc8 <;> decide
theorem reconAdd (dc8 : Bool) : Statement (.reconAdd dc8) := by
  refine ⟨_, rfl, ?_⟩
  cases dc8 <;> decide
theorem reconS16 (dc8 : Bool) : Statement (.reconS16 dc8) := by
  refine ⟨_, rfl, ?_⟩
  cases dc8 <;> decide
theorem reconAic (dc8 : Bool) : Statement (.reconAic dc8) := by
  refine ⟨_, rfl, ?_⟩
  cases dc8 <;> decide
theorem rruUpadd (nopred small : Bool) : Statement (.rruUpadd nopred small) := by
  refine ⟨_, rfl, ?_⟩
  cases nopred <;> cases small <;> decide
theorem dbkEdge : Statement .dbkEdge := ⟨_, rfl, by decide⟩
theorem dbkEdgeRru : Statement .dbkEdgeRru := ⟨_, rfl, by decide⟩
theorem deblockPic : Statement .deblockPic := ⟨_, rfl, by decide⟩
theorem deblockRruPic : Statement .deblockRruPic := ⟨_, rfl, by decide⟩
theorem decodeGob : Statement .decodeGob := ⟨_, rfl, by decide⟩
theorem concealGob : Statement .concealGob := ⟨_, rfl, by decide⟩
theorem convertRgb555 (sel : Bool) : Statement (.convertRgb555 sel) := by
  refine ⟨_, rfl, ?_⟩
  cases sel <;> decide
theorem convertYuy2 : Statement .convertYuy2 := ⟨_, rfl, by decide⟩
theorem convertYvu9 : Statement .convertYvu9 := ⟨_, rfl, by decide⟩
theorem mbSkip : Statement .mbSkip := rfl
theorem mbInter : Statement .mbInter := rfl
theorem mbInterQ : Statement .mbInterQ := rfl
theorem mbInter4v : Statement .mbInter4v := rfl
theorem mbIntra : Statement .mbIntra := rfl
theorem mbIntraQ : Statement .mbIntraQ := rfl
theorem mbUnknown (tag : Byte) : Statement (.mbUnknown tag) := by
  intro legacy h
  refine ⟨rfl, ?_⟩
  simp only [Instr.wellFormed, Bool.and_eq_true, decide_eq_true_eq] at h
  exact h.1

end Sys2Proof.Laws.TableMatch
end

