-- ==== Sys2Proof/Laws/Tables.lean ====
section
/-! SUPPORT. What the parameters and the configuration functions are, whether the defaults or replaced ones: the range of
MEMSIZE and the properties the rules require of every scan and every T. -/

namespace Sys2Proof.Machine

open Sys2Proof.Config

theorem memSize_range (p : Params) : 1 ≤ p.memSize ∧ p.memSize ≤ 2 ^ 32 := by
  have := p.lastAddress.isLt
  unfold Params.memSize; omega

theorem aicCols_pos (p : Params) : 1 ≤ p.aicCols := by
  unfold Params.aicCols; omega

theorem scanDefault_legal (s : Nat) : scanLegal (scanDefault s) := by
  unfold scanDefault
  split <;> decide +kernel

/-- Every scan is a permutation of 0..63 that starts with 0 (40_idct_engine.md R143). -/
theorem scanTable_legal (tb : TableSource) (s : Nat) : scanLegal (scanTable tb s) := by
  cases tb with
  | standard => exact scanDefault_legal s
  | replaced =>
    simp only [scanTable]
    split
    · next h => exact h
    · exact scanDefault_legal s

theorem length_scanTable (tb : TableSource) (s : Nat) : (scanTable tb s).length = 64 := by
  simpa using (scanTable_legal tb s).1.length_eq

theorem nodup_scanTable (tb : TableSource) (s : Nat) : (scanTable tb s).Nodup :=
  (scanTable_legal tb s).1.nodup_iff.2 List.nodup_range

theorem scanAt_zero (tb : TableSource) (s : Nat) : scanAt tb s 0 = 0 := (scanTable_legal tb s).2

theorem scanAt_lt (tb : TableSource) (s pos : Nat) : scanAt tb s pos < 64 := by
  unfold scanAt
  by_cases h : pos < (scanTable tb s).length
  · rw [List.getD_eq_getElem _ _ h]
    simpa using (scanTable_legal tb s).1.mem_iff.1 (List.getElem_mem h)
  · rw [List.getD_eq_default _ _ (by omega)]; omega

/-- A DC coefficient adds 8c to every cell (40_idct_engine.md R146). -/
theorem basisT_dc (tb : TableSource) {c : Int} (hc : |c| ≤ 2047) (i j : Nat) : basisT tb c 0 0 i j = 8 * c := by
  have h := abs_le.1 hc
  cases tb with
  | standard =>
    have hg : ∀ k, basisG 0 k = 759250125 := fun k => rfl
    simp only [basisT, basisDefault, hg, rndHafz, asr]
    norm_num
    split <;> omega
  | replaced =>
    simp only [basisT]
    split
    · next h0 => simp [h0]
    · simp [hc]

/-- A sum of 32 bits is held exactly (10_state.md R42). -/
theorem toInt_accWord {v : Int} (h : -2 ^ 31 ≤ v ∧ v < 2 ^ 31) : (accWord v).toInt = v := by
  rw [accWord, if_pos h]
  exact BitVec.toInt_ofInt_eq_self (by decide) (by simpa using h.1) (by simpa using h.2)

end Sys2Proof.Machine
end

