-- ==== Sys2Proof/Laws/TurnWrites.lean ====
section
/-! SUPPORT. A turn of the device changes only bytes that the running command may write (`turn_writes`): each command, and
the macroblock in hand of a DECODE_GOB. -/

namespace Sys2Proof.Machine

open Sys2Proof.Config Sys2Proof.Safety

/-- A byte of one of the regions. -/
abbrev inRegions (l : List Region) (a : Nat) : Prop := (l.any fun r => r.has a) = true

theorem inRegions_of_mem {l : List Region} {r : Region} {a : Nat} (h : r ∈ l) (ha : r.has a = true) : inRegions l a :=
  List.any_eq_true.2 ⟨r, h, ha⟩

theorem inRegions_cons {r : Region} {l : List Region} {a : Nat} :
    inRegions (r :: l) a ↔ r.has a = true ∨ inRegions l a := by simp [inRegions]

theorem inRegions_append {l k : List Region} {a : Nat} : inRegions (l ++ k) a ↔ inRegions l a ∨ inRegions k a := by
  simp [inRegions, List.any_append, Bool.or_eq_true]

theorem inRegions_flatMap {α : Type} {l : List α} {f : α → List Region} {a : Nat} :
    inRegions (l.flatMap f) a ↔ ∃ x ∈ l, inRegions (f x) a := by
  simp only [inRegions, List.any_flatMap, List.any_eq_true (l := l)]

theorem inRegions_single {r : Region} {a : Nat} : inRegions [r] a ↔ r.has a = true := by simp [inRegions]

/-! ### Commands that check everything first -/

theorem changes_end {P : Nat → Prop} {s t : State} {r : Except Raise State} (hr : ∀ u, r = .ok u → Changes P s u)
    (h : endCommand s r = .next t) : Changes P s t := by
  rcases endCommand_cases h with ⟨u, hu, rfl⟩ | ⟨e, -, rfl⟩
  · exact (hr u hu).mem_right rfl
  · exact .of_mem rfl

/-- The samples of a block lie in its square. -/
theorem blockSamples_region {top stride : Nat} {acc : List (BitVec 32)} {pred : Nat × Nat → Int} {q : Nat × Byte}
    (hq : q ∈ blockSamples top stride acc pred) : inRegions [squareRegion top stride 1 8] q.1 := by
  obtain ⟨p, hp, rfl⟩ := List.mem_map.1 hq
  exact inRegions_single.2 (squareRegion_has.2 ⟨p, hp, 0, by decide, rfl⟩)

theorem blockHalves_region {top stride : Nat} {acc : List (BitVec 32)} {q : Nat × Byte}
    (hq : q ∈ blockHalves top stride acc) : inRegions [squareRegion top stride 2 8] q.1 := by
  obtain ⟨p, hp, hq⟩ := List.mem_flatMap.1 hq
  have := placed_range hq
  have hl : (halfBytes (residual acc p.1 p.2)).length = 2 := rfl
  exact inRegions_single.2 (squareRegion_has.2 ⟨p, hp, q.1 - cell top stride 2 p, by omega, by omega⟩)

theorem upSamples_region {s : State} {n : Nat} {nopred : Bool} {q : Nat × Byte} (hq : q ∈ upSamples s n nopred) :
    inRegions [squareRegion s.regI.dest.toNat s.regI.stride.toNat 1 (2 * n)] q.1 := by
  obtain ⟨p, hp, rfl⟩ := List.mem_map.1 hq
  exact inRegions_single.2 (squareRegion_has.2 ⟨p, hp, 0, by decide, rfl⟩)

/-! ### Unit K -/

theorem byteRegions_has {l : List Int} {x : Int} (hx : x ∈ l) (h0 : 0 ≤ x) : inRegions (byteRegions l) x.toNat := by
  refine inRegions_of_mem (r := bytesFrom x.toNat 1) ?_ (bytesFrom_has.2 ⟨by omega, by omega⟩)
  exact List.mem_map_of_mem (List.mem_filter.2 ⟨hx, by simpa using h0⟩)

theorem changes_mem {P : Nat → Prop} {s : State} {m : Memory} (q : Word) (hw : s.mem.wf → m.wf)
    (hr : s.mem.wf → ∀ a, ¬P a → m.read a = s.mem.read a) : Changes P s { s with dbkQ := q, mem := m } := ⟨hw, hr⟩

theorem blendAddrs_mem {e : Edge} {n k : Nat} (hk : k < n) : e.b k ∈ blendAddrs e n ∧ e.c k ∈ blendAddrs e n := by
  constructor <;> exact List.mem_flatMap.2 ⟨k, List.mem_range.2 hk, by simp⟩

theorem edgeAddrs_mem {e : Edge} {k : Nat} (hk : k < 8) : e.b k ∈ edgeAddrs e ∧ e.c k ∈ edgeAddrs e := by
  constructor <;> exact List.mem_flatMap.2 ⟨k, List.mem_range.2 hk, by simp⟩

theorem changes_filterEdge {e : Edge} {q : Nat} {s t : State} (h : filterEdge e q s = .ok t) :
    Changes (inRegions (byteRegions (blendAddrs e 8))) s t := by
  obtain ⟨ha, rfl⟩ := filterEdge_eq_ok.1 h
  refine changes_mem _ (fun hw => wf_filters hw _ _ _) fun hw a hn => read_filters hw e q fun k hk => ?_
  have hk := List.mem_range.1 hk
  refine ⟨?_, ?_⟩ <;> rintro rfl
  · exact hn (byteRegions_has (blendAddrs_mem hk).1 (ha _ (edgeAddrs_mem hk).1).1)
  · exact hn (byteRegions_has (blendAddrs_mem hk).2 (ha _ (edgeAddrs_mem hk).2).1)

theorem changes_blendEdge {e : Edge} {n : Nat} {s t : State} (h : blendEdge e n s = .ok t) :
    Changes (inRegions (byteRegions (blendAddrs e n))) s t := by
  obtain ⟨ha, rfl⟩ := blendEdge_eq_ok.1 h
  refine changes_mem s.dbkQ (fun hw => wf_blends hw _ _) fun hw a hn => read_blends hw e fun k hk => ?_
  have hk := List.mem_range.1 hk
  refine ⟨?_, ?_⟩ <;> rintro rfl
  · exact hn (byteRegions_has (blendAddrs_mem hk).1 (ha _ (blendAddrs_mem hk).1).1)
  · exact hn (byteRegions_has (blendAddrs_mem hk).2 (ha _ (blendAddrs_mem hk).2).1)

/-- The two samples beside a horizontal boundary at row y. -/
theorem horizontal_touch {p : Plane} {x y k a : Nat} (hy : 1 ≤ y)
    (ha : a = ((p.horizontalEdge x y).b k).toNat ∨ a = ((p.horizontalEdge x y).c k).toNat) :
    ∃ j, (j = y - 1 ∨ j = y) ∧ a = p.base + j * p.stride + (x + k) := by
  obtain ⟨z, rfl⟩ := Nat.exists_eq_add_of_le' hy
  simp only [Plane.horizontalEdge, Edge.b, Edge.c, Plane.at] at ha
  rcases ha with rfl | rfl
  · refine ⟨z, .inl rfl, ?_⟩
    push_cast
    rw [show ((p.base : Int) + (z + 1) * p.stride + x + k * 1 - p.stride) = ((p.base + z * p.stride + (x + k) : Nat) : Int) by
      push_cast; ring, Int.toNat_natCast]
  · refine ⟨z + 1, .inr rfl, ?_⟩
    rw [show (((p.base + (z + 1) * p.stride + x : Nat) : Int) + k * 1) =
      ((p.base + (z + 1) * p.stride + (x + k) : Nat) : Int) by push_cast; ring, Int.toNat_natCast]

/-- The two samples beside a vertical boundary at column x. -/
theorem vertical_touch {p : Plane} {x y k a : Nat} (hx : 1 ≤ x)
    (ha : a = ((p.verticalEdge x y).b k).toNat ∨ a = ((p.verticalEdge x y).c k).toNat) :
    ∃ j, (j = x - 1 ∨ j = x) ∧ a = p.base + (y + k) * p.stride + j := by
  obtain ⟨z, rfl⟩ := Nat.exists_eq_add_of_le' hx
  simp only [Plane.verticalEdge, Edge.b, Edge.c, Plane.at] at ha
  rcases ha with rfl | rfl
  · refine ⟨z, .inl rfl, ?_⟩
    push_cast
    rw [show ((p.base : Int) + y * p.stride + (z + 1) + k * p.stride - 1) = ((p.base + (y + k) * p.stride + z : Nat) : Int) by
      push_cast; ring, Int.toNat_natCast]
  · refine ⟨z + 1, .inr rfl, ?_⟩
    rw [show (((p.base + y * p.stride + (z + 1) : Nat) : Int) + k * p.stride) =
      ((p.base + (y + k) * p.stride + (z + 1) : Nat) : Int) by push_cast; ring, Int.toNat_natCast]

theorem planeSize_mul (id : PlaneId) (u n : Nat) (h : u % 2 = 0) : planeSize id (u * n) = planeSize id u * n := by
  cases id
  · rfl
  all_goals
    obtain ⟨v, rfl⟩ := Nat.dvd_of_mod_eq_zero h
    simp [planeSize, Nat.mul_assoc]

/-- A sample of the grid area is in the picture's regions. -/
theorem pictureRegions_has {pic : Picture} {color : Bool} {w h : Nat} {id : PlaneId} {x y a : Nat}
    (hid : id ∈ planesInUse color) (hx : x < planeSize id w) (hy : y < planeSize id h)
    (ha : a = (pic.plane id).base + y * (pic.plane id).stride + x) : inRegions (pictureRegions pic color w h) a := by
  refine inRegions_of_mem (List.mem_map_of_mem hid) (Region.has_of (y := y) hy ?_ ?_) <;> simp only <;> omega

theorem edgeTouches_cases {e : Edge} {n a : Nat} (h : a ∈ edgeTouches e n) :
    ∃ k < n, a = (e.b k).toNat ∨ a = (e.c k).toNat := by
  obtain ⟨x, hx, rfl⟩ := List.mem_map.1 h
  obtain ⟨k, hk, hx⟩ := List.mem_flatMap.1 hx
  refine ⟨k, List.mem_range.1 hk, ?_⟩
  simp only [List.mem_cons, List.not_mem_nil, or_false] at hx
  rcases hx with rfl | rfl
  · exact .inl rfl
  · exact .inr rfl

/-- The samples an edge of the normal filter changes lie in the grid area. -/
theorem normalEdges_region {d : DeblockRun} {p : Edge × Nat} (hp : p ∈ normalEdges d) {a : Nat}
    (ha : a ∈ edgeTouches p.1 8) : inRegions (pictureRegions d.pic d.color (16 * d.cols) (16 * d.rows)) a := by
  obtain ⟨k, hk, ha⟩ := edgeTouches_cases ha
  simp only [normalEdges, List.mem_flatMap, List.mem_append, normalPass1, normalPass2, List.mem_filterMap] at hp
  obtain ⟨id, hid, hp⟩ := hp
  have e1 : planeSize id (16 * d.cols) = 8 * (blocksPerSide id * d.cols) := by
    rw [planeSize_mul _ _ _ rfl, planeSize_block, Nat.mul_assoc]
  have e2 : planeSize id (16 * d.rows) = 8 * (blocksPerSide id * d.rows) := by
    rw [planeSize_mul _ _ _ rfl, planeSize_block, Nat.mul_assoc]
  rcases hp with ⟨b, hb, hp⟩ | ⟨b, hb, hp⟩
  all_goals
    obtain ⟨hb1, hb2⟩ := mem_grid.1 hb
    split at hp
    · simp at hp
    · next hne =>
      obtain ⟨q, -, rfl⟩ := Option.map_eq_some_iff.1 hp
      first
      | obtain ⟨j, hj, e⟩ := horizontal_touch (y := 8 * b.2) (by omega) ha
        exact pictureRegions_has hid (by omega) (by omega) e
      | obtain ⟨j, hj, e⟩ := vertical_touch (x := 8 * b.1) (by omega) ha
        exact pictureRegions_has hid (by omega) (by omega) e

/-- The samples a boundary of the reduced-resolution filter changes lie in the grid area. -/
theorem rruEdges_region {d : DeblockRun} {p : Edge × Nat} (hp : p ∈ rruEdges d) {a : Nat}
    (ha : a ∈ edgeTouches p.1 p.2) : inRegions (pictureRegions d.pic d.color (32 * d.cols) (32 * d.rows)) a := by
  obtain ⟨k, hk, ha⟩ := edgeTouches_cases ha
  simp only [rruEdges, List.mem_flatMap, List.mem_append, rruPass1, rruPass2, List.mem_filterMap] at hp
  obtain ⟨id, hid, hp⟩ := hp
  have e1 : planeSize id (32 * d.cols) = cellSize id * d.cols := planeSize_mul _ _ _ rfl
  have e2 : planeSize id (32 * d.rows) = cellSize id * d.rows := planeSize_mul _ _ _ rfl
  have h16 := (planeSize_cell id).2
  rcases hp with ⟨b, hb, hp⟩ | ⟨b, hb, hp⟩
  all_goals
    obtain ⟨hb1, hb2⟩ := mem_grid.1 hb
    split at hp
    · next hne =>
      simp only [Option.some.injEq] at hp
      subst hp
      have m1 : cellSize id * (b.1 + 1) ≤ cellSize id * d.cols := Nat.mul_le_mul_left _ hb1
      have m2 : cellSize id * (b.2 + 1) ≤ cellSize id * d.rows := Nat.mul_le_mul_left _ hb2
      have m3 : cellSize id ≤ cellSize id * b.1 ∨ b.1 = 0 := by
        rcases Nat.eq_zero_or_pos b.1 with h | h
        · exact .inr h
        · exact .inl (Nat.le_mul_of_pos_right _ h)
      have m4 : cellSize id ≤ cellSize id * b.2 ∨ b.2 = 0 := by
        rcases Nat.eq_zero_or_pos b.2 with h | h
        · exact .inr h
        · exact .inl (Nat.le_mul_of_pos_right _ h)
      rw [Nat.mul_add] at m1 m2
      simp only at hk
      first
      | obtain ⟨j, hj, e⟩ := horizontal_touch (y := cellSize id * b.2) (by omega) ha
        exact pictureRegions_has hid (by omega) (by omega) e
      | obtain ⟨j, hj, e⟩ := vertical_touch (x := cellSize id * b.1) (by omega) ha
        exact pictureRegions_has hid (by omega) (by omega) e
    · simp at hp

theorem deblockFootprint_writes {s : State} {u : Nat} {checkQ : Bool} {d : DeblockRun}
    (h : validateDeblock u checkQ s = .ok d) :
    (deblockFootprint u checkQ s).writes = pictureRegions d.pic d.color (u * d.cols) (u * d.rows) := by
  obtain ⟨-, rfl⟩ := validateDeblock_eq_ok.1 h
  simp only [deblockFootprint, h]
  rfl

theorem changes_deblockPic {s t : State} (h : deblockPicBody s = .ok t) :
    Changes (inRegions (deblockFootprint 16 true s).writes) s t := by
  simp only [deblockPicBody, Checks.bind_eq_ok] at h
  obtain ⟨d, hd, h⟩ := h
  rw [deblockFootprint_writes hd]
  obtain ⟨hs, rfl⟩ := validateDeblock_eq_ok.1 hd
  rw [filterEdges_ok (normalEdges_allIn hs), Except.ok.injEq] at h
  subst h
  exact changes_mem _ (fun hw => wf_filtered hw _) fun hw a ha =>
    read_filtered hw fun p hp ht => ha (normalEdges_region hp ht)

theorem changes_deblockRruPic {s t : State} (h : deblockRruPicBody s = .ok t) :
    Changes (inRegions (deblockFootprint 32 false s).writes) s t := by
  simp only [deblockRruPicBody, Checks.bind_eq_ok] at h
  obtain ⟨d, hd, h⟩ := h
  rw [deblockFootprint_writes hd]
  obtain ⟨hs, rfl⟩ := validateDeblock_eq_ok.1 hd
  rw [blendEdges_ok (rruEdges_allIn hs), Except.ok.injEq] at h
  subst h
  exact changes_mem s.dbkQ (fun hw => wf_blended hw _) fun hw a ha =>
    read_blended hw fun p hp ht => ha (rruEdges_region hp ht)

/-! ### Unit F -/

/-- A byte of one of the rows of an output buffer. -/
theorem output_has {base rows width stride a y : Nat} (hy : y < rows) (h1 : base + y * stride ≤ a)
    (h2 : a < base + y * stride + width) :
    inRegions [{ base := base, rows := rows, width := width, stride := stride }] a :=
  inRegions_single.2 (Region.has_of (y := y) hy h1 h2)

theorem changes_checkThenCopy {P : Nat → Prop} {s t : State} {n : Nat} {items : List (Int × (Memory → List Byte))}
    (h : checkThenCopy s n items = .ok t) (hp : ∀ p ∈ items, ∀ k, ∀ q ∈ placed p.1.toNat (p.2 k), P q.1) :
    Changes P s t := by
  obtain ⟨-, rfl⟩ := checkThenCopy_eq_ok.1 h
  exact ⟨fun hw => wf_copyItems hw _, fun hw a ha =>
    read_copyItems hw fun p hpi k _ q hq e => ha (e ▸ hp p hpi k q hq)⟩

theorem pixel_region {s : State} {f : FormatRun} {x r : Nat} {v : Int} {q : Nat × Byte} (hx : x < f.dw) (hr : r < f.dh)
    (hq : q ∈ placed (pixelAddr s x r).toNat (halfBytes v)) : inRegions (rgbOutput s f) q.1 := by
  have hl : (halfBytes v).length = 2 := rfl
  have h := placed_range hq
  have e : (pixelAddr s x r).toNat = s.regF.fmtDst.toNat + r * s.regF.fmtDstStride.toNat + 2 * x := by
    rw [pixelAddr]; omega
  exact output_has hr (by omega) (by omega)

theorem dirtyPositions_lt {mw mh : Nat} {mask : List Nat} {p : Nat × Nat} (hp : p ∈ dirtyPositions mw mh mask) :
    p.1 < 16 * mw ∧ p.2 < 16 * mh := by
  obtain ⟨mb, hmb, hp⟩ := List.mem_flatMap.1 hp
  obtain ⟨b, hb, hp⟩ := List.mem_flatMap.1 hp
  obtain ⟨h1, h2⟩ := mem_grid.1 hmb
  have hb := List.mem_range.1 hb
  split at hp
  · obtain ⟨q, hq, rfl⟩ := List.mem_map.1 hp
    obtain ⟨h3, h4⟩ := mem_grid.1 hq
    simp only
    omega
  · simp at hp

theorem changes_rgb {s t : State} {f : FormatRun} {sel : Bool}
    (h : (if (sel && decide (scalePath f.w f.h f.dw f.dh = .direct)) = true then rgbSelective f s else rgbWhole f s) = .ok t) :
    Changes (inRegions (rgbOutput s f)) s t := by
  split at h
  · next hd =>
    have hsz : f.dw = f.w ∧ f.dh = f.h := by
      simp only [Bool.and_eq_true, decide_eq_true_eq] at hd
      simp only [scalePath] at hd
      have := hd.2
      split at this
      · assumption
      · split at this
        · simp at this
        · split at this <;> simp at this
    simp only [rgbSelective, Checks.bind_eq_ok] at h
    obtain ⟨_, -, mask, -, h⟩ := h
    refine changes_checkThenCopy h fun p hp k q hq => ?_
    obtain ⟨z, hz, rfl⟩ := List.mem_map.1 hp
    obtain ⟨h1, h2⟩ := dirtyPositions_lt hz
    exact pixel_region (by omega) (by omega) hq
  · obtain ⟨-, rfl⟩ := checkThenStore_eq_ok.1 h
    refine changes_store fun q hq => ?_
    obtain ⟨p, hp, hq⟩ := List.mem_flatMap.1 hq
    obtain ⟨z, hz, rfl⟩ := List.mem_map.1 hp
    obtain ⟨h1, h2⟩ := mem_grid.1 hz
    exact pixel_region h1 h2 hq

theorem formatFootprint_writes {checks : Except Raise FormatRun} {more output : FormatRun → List Region} {s : State}
    {f : FormatRun} (h : checks = .ok f) : (formatFootprint checks more output s).writes = output f := by
  subst h; rfl

theorem changes_yuy2 {s t : State} (h : yuy2Body s = .ok t) :
    Changes (inRegions (commandFootprint .convertYuy2 s).writes) s t := by
  simp only [yuy2Body, Checks.bind_eq_ok] at h
  obtain ⟨f, hf, _, -, _, -, _, -, h⟩ := h
  rw [show (commandFootprint .convertYuy2 s).writes = yuy2Output s f from formatFootprint_writes hf]
  refine changes_checkThenCopy h fun p hp k q hq => ?_
  obtain ⟨z, hz, hp⟩ := List.mem_flatMap.1 hp
  obtain ⟨h1, h2⟩ := mem_grid.1 hz
  have hlen : ∀ v : Int, [sampleByte v].length = 1 := fun _ => rfl
  have key : ∀ j < 4, q.1 = s.regF.fmtDst.toNat + z.2 * s.regF.fmtDstStride.toNat + 4 * z.1 + j →
      inRegions (yuy2Output s f) q.1 := fun j hj e => output_has h2 (by omega) (by omega)
  simp only [List.mem_cons, List.not_mem_nil, or_false] at hp
  rcases hp with rfl | rfl | rfl | rfl <;> simp only [placed_one, List.mem_singleton] at hq <;> subst hq
  · exact key 0 (by decide) (by simp only; omega)
  · exact key 1 (by decide) (by simp only; omega)
  · exact key 2 (by decide) (by simp only; omega)
  · exact key 3 (by decide) (by simp only; omega)

theorem changes_yvu9 {s t : State} (h : yvu9Body s = .ok t) :
    Changes (inRegions (commandFootprint .convertYvu9 s).writes) s t := by
  simp only [yvu9Body, Checks.bind_eq_ok] at h
  obtain ⟨f, hf, _, -, _, -, _, -, _, -, h⟩ := h
  rw [show (commandFootprint .convertYvu9 s).writes = yvu9Output s f from formatFootprint_writes hf]
  refine changes_checkThenCopy h fun p hp k q hq => ?_
  have key : ∀ j, q.1 = s.regF.fmtDst.toNat + j → j < f.w * f.h + 2 * (f.w / 4 * (f.h / 4)) →
      inRegions (yvu9Output s f) q.1 := fun j e hj =>
    inRegions_single.2 (bytesFrom_has.2 ⟨by omega, by omega⟩)
  have cellLt : ∀ {x y w h : Nat}, x < w → y < h → y * w + x < w * h := fun {x y w h} hx hy => by
    have : (y + 1) * w ≤ h * w := Nat.mul_le_mul_right _ hy
    rw [Nat.add_mul, Nat.mul_comm h w] at this
    omega
  simp only [List.mem_append, yvu9Chroma, List.mem_map] at hp
  rcases hp with (⟨z, hz, rfl⟩ | ⟨z, hz, rfl⟩) | ⟨z, hz, rfl⟩ <;>
    (obtain ⟨h1, h2⟩ := mem_grid.1 hz
     have hc := cellLt h1 h2
     simp only [placed_one, List.mem_singleton] at hq
     subst hq)
  · refine key (z.2 * f.w + z.1) ?_ (by omega)
    rw [show ((s.regF.fmtDst.toNat : Int) + z.2 * f.w + z.1) = ((s.regF.fmtDst.toNat + (z.2 * f.w + z.1) : Nat) : Int) by
      push_cast; ring, Int.toNat_natCast]
  · refine key (f.w * f.h + (z.2 * (f.w / 4) + z.1)) ?_ (by omega)
    rw [show (((s.regF.fmtDst.toNat + f.w * f.h : Nat) : Int) + z.2 * (f.w / 4 : Nat) + z.1) =
      ((s.regF.fmtDst.toNat + (f.w * f.h + (z.2 * (f.w / 4) + z.1)) : Nat) : Int) by push_cast; ring, Int.toNat_natCast]
  · refine key (f.w * f.h + f.w / 4 * (f.h / 4) + (z.2 * (f.w / 4) + z.1)) ?_ (by omega)
    rw [show (((s.regF.fmtDst.toNat + f.w * f.h + f.w / 4 * (f.h / 4) : Nat) : Int) + z.2 * (f.w / 4 : Nat) + z.1) =
      ((s.regF.fmtDst.toNat + (f.w * f.h + f.w / 4 * (f.h / 4) + (z.2 * (f.w / 4) + z.1)) : Nat) : Int) by
        push_cast; ring, Int.toNat_natCast]

/-! ### Unit D -/

theorem unitSize_congr {s t : State} (h : t.regD = s.regD) : unitSize t = unitSize s := by
  unfold unitSize State.modeRru
  rw [h]

theorem mbsFrom_congr {c : GobRun} {s t : State} (h : t.regD = s.regD) (n : Nat) (ck : Checkpoint) :
    mbsFrom c t n ck = mbsFrom c s n ck := by
  induction n generalizing ck with
  | zero => rfl
  | succ n ih => simp only [mbsFrom, ih, cursorMb, h]

theorem opens_iff {m : Mb} {s : State} : opens m s = true ↔ mbOpens s m := by
  have h2 : (∃ a, access s (m.d : Int) 4 = .ok a) ↔ wordAt s m.d := by
    refine ⟨fun ⟨a, h⟩ => ?_, fun h => ⟨m.d, access_eq_ok.2 ⟨⟨by omega, by omega, by omega⟩, rfl⟩⟩⟩
    obtain ⟨⟨-, h1, h2⟩, -⟩ := access_eq_ok.1 h
    exact ⟨by omega, by omega⟩
  unfold mbOpens
  rw [← h2, ← fitCheck_eq_ok (x := ()), opens]
  cases fitCheck m s <;> cases access s (m.d : Int) 4 <;> simp

theorem opens_congr {m : Mb} {s t : State} (hD : t.regD = s.regD) (hp : t.params = s.params) : opens m t = opens m s := by
  rw [Bool.eq_iff_iff, opens_iff, opens_iff, mbOpens, mbOpens, unitSize_congr hD, wordAt, wordAt, hp]

/-- The walk of the cursor is among the macroblocks from it as far as all before it pass their checks. -/
theorem mem_mbsFrom {c : GobRun} {s : State} {p : Mb → Bool} {n k : Nat} {ck : Checkpoint} (hk : k < n)
    (hp : ∀ j ≤ k, p (cursorMb c { s with ck := advanceBy c.gob j ck }) = true) :
    cursorMb c { s with ck := advanceBy c.gob k ck } ∈ (mbsFrom c s n ck).takeWhile p := by
  induction n generalizing k ck with
  | zero => omega
  | succ n ih =>
    have h0 : p (cursorMb c { s with ck := ck }) = true := hp 0 (by omega)
    rw [mbsFrom, List.takeWhile_cons_of_pos h0]
    cases k with
    | zero => exact List.mem_cons_self
    | succ k =>
      refine List.mem_cons_of_mem _ ?_
      exact ih (k := k) (ck := advance c.gob ck) (by omega) fun j hj => hp (j + 1) (by omega)

/-- The macroblock in hand stands on its command's walk. -/
theorem walkMb_cursor {c : GobRun} {s : State} (h : cursorSound c s.ck) :
    walkMb c s (s.ck.loop.toNat - c.entry.loop.toNat) = cursorMb c s := by
  obtain ⟨-, -, h3, h4⟩ := h
  simp only [walkMb, cursorMb, h3, h4]

/-- The macroblock in hand, once it passes its checks, is one its command comes to. -/
theorem cursorMb_mem {c : GobRun} {s : State} (h : cursorSound c s.ck)
    (hw : ∀ k < s.ck.loop.toNat - c.entry.loop.toNat, mbOpens s (walkMb c s k)) (ho : mbOpens s (cursorMb c s))
    (hm : s.ck.loop.toNat < c.gob.mbCount) : cursorMb c s ∈ reachedMbs c s := by
  have e := walkMb_cursor h
  have h1 := h.1
  rw [← e]
  refine mem_mbsFrom (by omega) fun j hj => opens_iff.2 ?_
  rcases Nat.lt_or_ge j (s.ck.loop.toNat - c.entry.loop.toNat) with hlt | hge
  · exact hw j hlt
  · rw [show j = s.ck.loop.toNat - c.entry.loop.toNat by omega]
    exact (congrArg (mbOpens s) e).mpr ho

/-- The bytes concealing a macroblock may store. -/
def concealTouches (m : Mb) (u : Nat) (a : Nat) : Prop :=
  (m.d ≤ a ∧ a < m.d + 12) ∨ a ∈ mbSamples m u m.run.newPic

theorem changes_concealOps (m : Mb) (u : Nat) : ∀ op ∈ concealOps m u, changesOp (concealTouches m u) op := by
  have word : ∀ {s t : State} {k v : Nat}, k + 4 ≤ 12 → memWrite s ((m.d : Int) + k) 4 v = .ok t →
      Changes (concealTouches m u) s t := fun {s t k v} hk h => by
    have e : ((m.d : Int) + k) = ((m.d + k : Nat) : Int) := by simp
    rw [e] at h
    exact changes_memWrite h fun _ h1 h2 => .inl ⟨by omega, by omega⟩
  have scratch : ∀ v, changesOp (concealTouches m u) fun s => writeMbScratch s m.d v := fun v s t h => by
    simp only [writeMbScratch, Checks.bind_eq_ok] at h
    obtain ⟨_, -, h⟩ := h
    exact word (k := 8) (by decide) h
  intro op hop
  simp only [concealOps, List.mem_append, List.mem_cons, List.not_mem_nil, or_false] at hop
  rcases hop with ((rfl | rfl | rfl) | hop) | rfl
  · intro s t h
    simp only [Checks.bind_eq_ok, Except.ok.injEq] at h
    obtain ⟨_, -, rfl⟩ := h
    exact .refl _ s
  · intro s t h
    exact changes_memWrite h fun _ h1 h2 => .inl ⟨h1, by omega⟩
  · intro s t h
    simp only [writeMbType, Checks.bind_eq_ok] at h
    obtain ⟨_, -, h⟩ := h
    exact word (k := 4) (by decide) h
  · split at hop <;> obtain ⟨id, hid, rfl⟩ := List.mem_map.1 hop
    · exact fun s t h => (changes_fillPlane hid s t h).mono fun _ => .inr
    · exact fun s t h => (changes_copyPlane hid s t h).mono fun _ => .inr
  · exact scratch _

theorem kept_concealOps (m : Mb) (u : Nat) : ∀ op ∈ concealOps m u, keptOp op := by
  intro op hop
  simp only [concealOps, List.mem_append, List.mem_cons, List.not_mem_nil, or_false] at hop
  rcases hop with ((rfl | rfl | rfl) | hop) | rfl
  · intro s t h
    simp only [Checks.bind_eq_ok, Except.ok.injEq] at h
    obtain ⟨_, -, rfl⟩ := h
    exact .refl s
  · exact fun s t h => kept_writeMbPosition h
  · exact fun s t h => kept_writeMbType h
  · split at hop <;> obtain ⟨id, -, rfl⟩ := List.mem_map.1 hop
    · exact kept_fillPlane _ _ _
    · exact kept_copyPlane _ _ _ _ _
  · exact fun s t h => kept_writeMbScratch h

/-- A macroblock that does not pass its checks is left as it was. -/
theorem concealOps_closed {m : Mb} {s : State} (h : ¬mbOpens s m) :
    ∃ e, runOps (concealOps m (unitSize s)) s = .error (e, s) := by
  cases hf : fitCheck m s with
  | error e => exact ⟨e, by simp only [concealOps, List.cons_append, runOps, hf]; rfl⟩
  | ok x =>
    cases hw : writeMbPosition s m.d m.col m.row with
    | error e => exact ⟨e, by simp only [concealOps, List.cons_append, List.nil_append, runOps, hf, Checks.ok_bind, hw]⟩
    | ok t =>
      refine absurd ?_ h
      simp only [writeMbPosition, memWrite, Checks.bind_eq_ok] at hw
      obtain ⟨a, ha, -⟩ := hw
      exact opens_iff.1 (by simp only [opens, hf, ha])

/-- The loop of CONCEAL_GOB changes bytes of the macroblocks it comes to. -/
theorem leaves_concealLoop (c : GobRun) (n : Nat) (s : State) :
    leaves (fun a => ∃ m ∈ (mbsFrom c s n s.ck).takeWhile fun m => opens m s, concealTouches m (unitSize s) a) s id
      (concealLoop c n s) := by
  induction n generalizing s with
  | zero => exact .refl _ s
  | succ n ih =>
    simp only [concealLoop]
    by_cases ho : mbOpens s (cursorMb c s)
    swap
    · obtain ⟨e, he⟩ := concealOps_closed ho
      rw [he]
      exact .refl _ s
    rw [show mbsFrom c s (n + 1) s.ck = cursorMb c s :: mbsFrom c s n (advance c.gob s.ck) from rfl,
      List.takeWhile_cons_of_pos (p := fun m => opens m s) (opens_iff.2 ho)]
    have hm : cursorMb c s ∈ cursorMb c s :: (mbsFrom c s n (advance c.gob s.ck)).takeWhile fun m => opens m s :=
      List.mem_cons_self
    have h1 := leaves_runOps (changes_concealOps (cursorMb c s) (unitSize s)) s
    have hk := keeps_runOps (kept_concealOps (cursorMb c s) (unitSize s)) s
    refine leaves_bind (f := id) ?_ fun t ht => ?_
    · cases hr : runOps (concealOps (cursorMb c s) (unitSize s)) s with
      | ok t => rw [hr] at h1; exact Changes.mono h1 fun a ha => ⟨_, hm, ha⟩
      | error p => rw [hr] at h1; exact Changes.mono h1 fun a ha => ⟨_, hm, ha⟩
    · rw [ht] at hk
      have hk' : Kept s t := hk
      have hD : (countConcealed c t).regD = s.regD := (congrArg State.regD hk'.rest).trans rfl
      have hck : (countConcealed c t).ck = advance c.gob s.ck := by
        have : t.ck = s.ck := (congrArg State.ck hk'.rest).trans rfl
        simp only [countConcealed, this]
      have hu := unitSize_congr hD
      have h2 := ih (countConcealed c t)
      have hp : (countConcealed c t).params = s.params := hk'.params
      simp only [hck, hu, mbsFrom_congr hD, opens_congr hD hp] at h2
      have sub : ∀ a, (∃ m ∈ (mbsFrom c s n (advance c.gob s.ck)).takeWhile fun m => opens m s,
          concealTouches m (unitSize s) a) →
          ∃ m ∈ cursorMb c s :: (mbsFrom c s n (advance c.gob s.ck)).takeWhile fun m => opens m s,
            concealTouches m (unitSize s) a :=
        fun a ⟨m, hm, ha⟩ => ⟨m, List.mem_cons_of_mem _ hm, ha⟩
      cases hc : concealLoop c n (countConcealed c t) with
      | ok v => rw [hc] at h2; exact (Changes.of_mem (s := t) (t := countConcealed c t) rfl).trans (Changes.mono h2 sub)
      | error p => rw [hc] at h2; exact (Changes.of_mem (s := t) (t := countConcealed c t) rfl).trans (Changes.mono h2 sub)

theorem mbsFrom_run {c : GobRun} {s : State} {n : Nat} {ck : Checkpoint} {m : Mb} (h : m ∈ mbsFrom c s n ck) :
    m.run = c := by
  induction n generalizing ck with
  | zero => simp [mbsFrom] at h
  | succ n ih =>
    rcases List.mem_cons.1 h with rfl | h
    · rfl
    · exact ih h

theorem changes_conceal {s t : State} (h : execConcealGob s = .next t) :
    Changes (inRegions (commandFootprint .concealGob s).writes) s t := by
  rw [execConcealGob] at h
  cases hc : startChecks true s with
  | error e =>
    rw [hc] at h
    simp only [Host.Outcome.next.injEq] at h
    subst h
    exact .of_mem rfl
  | ok c =>
    rw [hc] at h
    simp only at h
    have hmem : (enterConceal c s).mem = s.mem := by unfold enterConceal; split <;> rfl
    have hD : (enterConceal c s).regD = s.regD := by unfold enterConceal; split <;> rfl
    have hP : (enterConceal c s).params = s.params := by unfold enterConceal; split <;> rfl
    have hu := unitSize_congr hD
    have hfoot : (commandFootprint .concealGob s).writes =
        (concealFootprint { c with entry := (enterConceal c s).ck } s).writes := by
      simp only [commandFootprint, gobFootprint, hc]
    have hl := leaves_concealLoop c (c.gob.mbCount - (enterConceal c s).ck.loop.toNat) (enterConceal c s)
    simp only [mbsFrom_congr hD, hu, opens_congr hD hP] at hl
    have strip : ∀ n ck, (mbsFrom { c with entry := (enterConceal c s).ck } s n ck).takeWhile (fun m => opens m s) =
        ((mbsFrom c s n ck).takeWhile fun m => opens m s).map fun m =>
          { m with run := { c with entry := (enterConceal c s).ck } } := by
      intro n
      induction n with
      | zero => intro ck; rfl
      | succ n ih =>
        intro ck
        have e : opens (cursorMb { c with entry := (enterConceal c s).ck } { s with ck := ck }) s =
            opens (cursorMb c { s with ck := ck }) s := rfl
        have ea : advance { c with entry := (enterConceal c s).ck }.gob ck = advance c.gob ck := rfl
        rw [mbsFrom, mbsFrom, List.takeWhile_cons, List.takeWhile_cons, e, ea, ih]
        split <;> rfl
    have sub : ∀ a, (∃ m ∈ (mbsFrom c s (c.gob.mbCount - (enterConceal c s).ck.loop.toNat)
        (enterConceal c s).ck).takeWhile fun m => opens m s, concealTouches m (unitSize s) a) → inRegions (commandFootprint .concealGob s).writes a := by
      rintro a ⟨m, hm, ha⟩
      have hrun := mbsFrom_run ((List.takeWhile_sublist _).mem hm)
      rw [hfoot]
      simp only [concealFootprint, reachedMbs, gobMbs, strip, List.flatMap_map]
      refine inRegions_flatMap.2 ⟨m, hm, inRegions_cons.2 ?_⟩
      rcases ha with ha | ha
      · exact .inl (bytesFrom_has.2 ha)
      · rw [hrun] at ha
        exact .inr ((mbRegions_has (m := { m with run := { c with entry := (enterConceal c s).ck } })).2
          (by simpa only [mbSamples, hrun] using ha))
    have start : Changes (inRegions (commandFootprint .concealGob s).writes) s (enterConceal c s) := .of_mem hmem
    split at h
    · next e u hu' =>
      rw [hu'] at hl
      simp only [Host.Outcome.next.injEq] at h
      subst h
      exact (start.trans (Changes.mono hl sub)).mem_right rfl
    · next u hu' =>
      rw [hu'] at hl
      simp only [Host.Outcome.next.injEq] at h
      subst h
      exact (start.trans (Changes.mono hl sub)).mem_right rfl

/-- A command changes only bytes of its footprint. -/
theorem changes_exec {i : Instr} {s t : State} (ht : isTag i = false) (h : exec i s = .next t) :
    Changes (inRegions (commandFootprint i s).writes) s t := by
  cases i with
  | mbSkip | mbInter | mbInterQ | mbInter4v | mbIntra | mbIntraQ | mbUnknown => simp [isTag] at ht
  | nop =>
    have h' : Host.Outcome.next (finish .ok s) = .next t := h
    simp only [Host.Outcome.next.injEq] at h'; subst h'; exact .of_mem rfl
  | initTables =>
    have h' : Host.Outcome.next (finish .ok { s with tablesValid := true }) = .next t := h
    simp only [Host.Outcome.next.injEq] at h'; subst h'; exact .of_mem rfl
  | aicFlush =>
    have h' : Host.Outcome.next (finish .ok (clearAicc s)) = .next t := h
    simp only [Host.Outcome.next.injEq] at h'; subst h'; exact .of_mem rfl
  | recon dc8 =>
    refine changes_end (fun u hu => ?_) h
    obtain ⟨-, -, rfl⟩ := reconBody_eq_ok.1 hu
    exact (changes_store fun _ hq => blockSamples_region hq).noteBlock _ _
  | reconAdd dc8 =>
    refine changes_end (fun u hu => ?_) h
    obtain ⟨-, -, -, rfl⟩ := reconAddBody_eq_ok.1 hu
    exact (changes_store fun _ hq => blockSamples_region hq).noteBlock _ _
  | reconS16 dc8 =>
    refine changes_end (fun u hu => ?_) h
    obtain ⟨-, -, rfl⟩ := reconS16Body_eq_ok.1 hu
    exact (changes_store fun _ hq => blockHalves_region hq).noteBlock _ _
  | reconAic dc8 =>
    refine changes_end (fun u hu => ?_) h
    obtain ⟨-, -, -, -, -, rfl⟩ := reconAicBody_eq_ok.1 hu
    exact ((changes_store fun _ hq => blockSamples_region hq).aicc _).noteBlock _ _
  | rruUpadd nopred small =>
    refine changes_end (fun u hu => ?_) h
    obtain ⟨-, -, -, -, rfl⟩ := (upAddBody_eq_ok (by cases small <;> decide)).1 hu
    exact changes_store fun _ hq => upSamples_region hq
  | dbkEdge =>
    refine changes_end (fun u hu => ?_) h
    simp only [dbkEdgeBody, Checks.bind_eq_ok] at hu
    obtain ⟨_, -, _, -, hu⟩ := hu
    exact changes_filterEdge hu
  | dbkEdgeRru =>
    refine changes_end (fun u hu => ?_) h
    simp only [dbkEdgeRruBody, Checks.bind_eq_ok, raiseIf_eq_ok] at hu
    obtain ⟨_, -, _, hn, hu⟩ := hu
    have hn' : s.regK.edgeLen.toNat = 8 ∨ s.regK.edgeLen.toNat = 16 ∨ s.regK.edgeLen.toNat = 32 := by omega
    simp only [commandFootprint, blendFootprint, if_pos hn']
    exact changes_blendEdge hu
  | deblockPic => exact changes_end (fun u hu => changes_deblockPic hu) h
  | deblockRruPic => exact changes_end (fun u hu => changes_deblockRruPic hu) h
  | decodeGob =>
    have h' : execDecodeGob s = .next t := h
    rw [execDecodeGob] at h'
    split at h' <;> simp only [Host.Outcome.next.injEq] at h' <;> subst h'
    · exact .of_mem rfl
    · refine .of_mem ?_
      unfold enterGob noteGeomFail freshStart
      split <;> split <;> rfl
  | concealGob => exact changes_conceal h
  | convertRgb555 sel =>
    have h' : execConvertRgb555 sel s = .next t := h
    rw [execConvertRgb555] at h'
    cases hc : rgbChecks s with
    | error e =>
      rw [hc] at h'
      simp only [Host.Outcome.next.injEq] at h'
      subst h'
      exact .of_mem rfl
    | ok f =>
      rw [hc] at h'
      simp only at h'
      rw [show (commandFootprint (.convertRgb555 sel) s).writes = rgbOutput s f from formatFootprint_writes hc]
      have hs : Changes (inRegions (rgbOutput s f)) s { s with fmtPath := scalePath f.w f.h f.dw f.dh } := .of_mem rfl
      exact hs.trans (changes_end (fun u hu => changes_rgb hu) h')
  | convertYuy2 => exact changes_end (fun u hu => changes_yuy2 hu) h
  | convertYvu9 => exact changes_end (fun u hu => changes_yvu9 hu) h

/-- A command outside unit D that raises leaves memory as it was. -/
theorem onlyRaises_mem {i : Instr} {s t : State} (ht : isTag i = false) (hq : onlyRaises i s = true)
    (h : exec i s = .next t) : t.mem = s.mem := by
  simp only [onlyRaises, Bool.and_eq_true, Bool.not_eq_true', h, decide_eq_true_eq] at hq
  obtain ⟨hg, hf⟩ := hq
  have key : ∀ {u : State} {r : Except Raise State}, u.mem = s.mem → endCommand u r = .next t → t.mem = s.mem := by
    intro u r hu he
    rcases endCommand_cases he with ⟨v, -, rfl⟩ | ⟨e, -, rfl⟩
    · simp [finish] at hf
    · exact hu
  cases i with
  | mbSkip | mbInter | mbInterQ | mbInter4v | mbIntra | mbIntraQ | mbUnknown => simp [isTag] at ht
  | decodeGob | concealGob => simp [isGobCommand] at hg
  | nop =>
    have h' : Host.Outcome.next (finish .ok s) = .next t := h
    simp only [Host.Outcome.next.injEq] at h'; subst h'; rfl
  | initTables =>
    have h' : Host.Outcome.next (finish .ok { s with tablesValid := true }) = .next t := h
    simp only [Host.Outcome.next.injEq] at h'; subst h'; rfl
  | aicFlush =>
    have h' : Host.Outcome.next (finish .ok (clearAicc s)) = .next t := h
    simp only [Host.Outcome.next.injEq] at h'; subst h'; rfl
  | convertRgb555 sel =>
    have h' : execConvertRgb555 sel s = .next t := h
    rw [execConvertRgb555] at h'
    split at h'
    · simp only [Host.Outcome.next.injEq] at h'; subst h'; rfl
    · next f _ => exact key (u := { s with fmtPath := scalePath f.w f.h f.dw f.dh }) rfl h'
  | _ => exact key rfl h

/-! ### A turn -/

theorem isTag_decodeCommand {w : Word} {i : Instr} (h : decodeCommand w = .ok i) : isTag i = false := by
  unfold decodeCommand decodeOpc at h
  simp only [withNoFlag, withF0] at h
  repeat' split at h
  all_goals first | (simp only [Except.ok.injEq] at h; subst h; rfl) | cases h

theorem isTag_decodeTag (legacy : LegacyMap) (b : Byte) : isTag (decodeTag legacy b) = true := by
  unfold decodeTag
  repeat' split
  case h_7.isTrue =>
    cases legacy261 legacy b with
    | none => rfl
    | some x => cases x <;> rfl
  all_goals rfl

theorem mbTouches_footprint {c : GobRun} {s : State} {m : Mb} (hm : m ∈ reachedMbs c s) {a : Nat}
    (ha : mbTouches m (unitSize s) a) : inRegions (decodeFootprint c s).writes a := by
  have hrun := mbsFrom_run ((List.takeWhile_sublist _).mem hm)
  refine inRegions_flatMap.2 ⟨m, hm, ?_⟩
  rw [← hrun]
  simp only [List.cons_append, List.nil_append, inRegions_cons, inRegions_append]
  rcases ha with ha | ha | ha | ⟨hb, ha⟩
  · exact .inl (bytesFrom_has.2 ha)
  · exact .inr (.inl (bytesFrom_has.2 ⟨ha.1, by omega⟩))
  · exact .inr (.inr (.inl (mbRegions_has.2 ha)))
  · refine .inr (.inr (.inr ?_))
    rw [if_pos hb]
    exact mbRegions_has.2 ha

/-- A macroblock that does not pass its checks is left as it was. -/
theorem fetchTag_closed {m : Mb} {s : State} (h : ¬mbOpens s m) : ∃ e, fetchTag m s = .error (e, s) := by
  cases hf : fitCheck m s with
  | error e => exact ⟨e, by simp only [fetchTag, hf]; rfl⟩
  | ok x =>
    cases hw : writeMbPosition s m.d m.col m.row with
    | error e => exact ⟨e, by simp only [fetchTag, hf, hw]; rfl⟩
    | ok t =>
      refine absurd ?_ h
      simp only [writeMbPosition, memWrite, Checks.bind_eq_ok] at hw
      obtain ⟨a, ha, -⟩ := hw
      exact opens_iff.1 (by simp only [opens, hf, ha])

theorem leaves_fetchTag (m : Mb) (u : Nat) (s : State) : leaves (mbTouches m u) s Prod.snd (fetchTag m s) := by
  refine leaves_bind (leaves_inState _ s _) fun _ _ => ?_
  show leaves _ s Prod.snd (inState s (writeMbPosition s m.d m.col m.row) >>= _)
  cases hw : writeMbPosition s m.d m.col m.row with
  | error e => exact .refl _ s
  | ok t =>
    have ht := changes_writeMbPosition (u := u) hw
    show leaves _ s Prod.snd (inState t (mbType t m.d) >>= _)
    cases mbType t m.d <;> exact ht

theorem keeps_fetchTag (m : Mb) (s : State) : keeps s Prod.snd (fetchTag m s) := by
  refine keeps_bind (keeps_inState s _) fun _ => ?_
  show keeps s Prod.snd (inState s (writeMbPosition s m.d m.col m.row) >>= _)
  cases hw : writeMbPosition s m.d m.col m.row with
  | error e => exact Kept.refl s
  | ok t =>
    have ht := kept_writeMbPosition hw
    show keeps s Prod.snd (inState t (mbType t m.d) >>= _)
    cases mbType t m.d <;> exact ht

/-- A turn of the device changes only bytes that the running command may write. -/
theorem turn_writes {s u : State} (hi : Inv s) (h : deviceTurn s = .next u) {a : Nat} (ha : mayWrite s a = false) :
    u.mem.read a = s.mem.read a := by
  refine (?_ : Changes (inRegions (footprint s).writes) s u).read hi.1.1 a (by simpa [mayWrite, inRegions] using ha)
  simp only [deviceTurn] at h
  cases hr : s.run with
  | idle =>
    rw [hr] at h
    simp only [Host.Outcome.next.injEq] at h
    subst h
    exact .refl _ s
  | command w =>
    rw [hr] at h
    simp only [commandTurn] at h
    cases hd : decodeCommand w with
    | error e =>
      rw [hd] at h
      simp only [Host.Outcome.next.injEq] at h
      subst h
      exact .of_mem rfl
    | ok i =>
      rw [hd] at h
      have ht := isTag_decodeCommand hd
      simp only [footprint, hr, hd]
      split
      · next hq => exact .of_mem (onlyRaises_mem ht hq h)
      · exact changes_exec ht h
  | gob c =>
    have e : footprint s = decodeFootprint c s := by simp only [footprint, hr]
    rw [e]
    rw [hr] at h
    simp only [gobTurn] at h
    split at h
    · next hm0 =>
      have hmore : s.ck.loop.toNat < c.gob.mbCount := by simpa [moreMacroblocks] using hm0
      obtain ⟨-, -, ⟨-, -, hcs, hwalk⟩, -⟩ := hi.2.2.2.1 c (by simp [loops, hr])
      by_cases ho : mbOpens s (cursorMb c s)
      swap
      · obtain ⟨e', he⟩ := fetchTag_closed ho
        rw [he] at h
        simp only [Host.Outcome.next.injEq] at h
        subst h
        exact .of_mem rfl
      have hm := cursorMb_mem hcs hwalk ho hmore
      have hl := leaves_fetchTag (cursorMb c s) (unitSize s) s
      have hk := keeps_fetchTag (cursorMb c s) s
      split at h
      · next e' t hf =>
        rw [hf] at hl
        simp only [Host.Outcome.next.injEq] at h
        subst h
        exact (Changes.mono hl fun _ => mbTouches_footprint hm).mem_right rfl
      · next tag t hf =>
        rw [hf] at hl hk
        have hk' : Kept s t := hk
        have hD : t.regD = s.regD := (congrArg State.regD hk'.rest).trans rfl
        have hck : t.ck = s.ck := (congrArg State.ck hk'.rest).trans rfl
        have hcm : cursorMb c t = cursorMb c s := by simp only [cursorMb, hD, hck]
        have hu := unitSize_congr hD
        have ht := changes_tag (isTag_decodeTag t.params.legacy tag) (by rw [hk'.rest]; exact hr) h
        rw [hcm, hu] at ht
        exact (Changes.trans hl ht).mono fun _ => mbTouches_footprint hm
    · simp only [Host.Outcome.next.injEq] at h
      subst h
      exact .of_mem rfl

end Sys2Proof.Machine
end

