-- ==== Sys2Proof/Tests/Slice0.lean ====
section
/-! SUPPORT. Tests: ill-formed terms refused, words written out from 30_encoding.md decoded, single steps with the values
of 95_test_vectors.md (named in each comment), and for each statement with hypotheses a state and operands that meet
them, boundary values among them. -/

namespace Sys2Proof.Tests

open Sys2Proof.Machine Sys2Proof.Config Sys2Proof.Safety

-- One theorem at a time: evaluations by the kernel side by side need more memory than the checks allow.
set_option Elab.async false

/-! ### Helpers -/

/-- The step goes on, to a state of which p holds. -/
def check (r : Result) (p : State → Bool) : Bool :=
  match r with
  | .next t => p t
  | _ => false

theorem next_of_check {r : Result} {p : State → Bool} (h : check r p = true) : ∃ t, r = .next t ∧ p t = true := by
  cases r with
  | next t => exact ⟨t, rfl, h⟩
  | fault _ => cases h
  | refused _ => cases h

/-- Addresses that rise strictly are distinct; the chain is decided in one pass. -/
theorem nodup_of_rising {l : List Nat} (h : l.IsChain (· < ·)) : l.Nodup :=
  (List.isChain_iff_pairwise.1 h).imp Nat.ne_of_lt

/-- Words stored from an address on. -/
def put (a : Nat) (words : List Nat) (m : Memory) : Memory :=
  words.zipIdx.foldl (fun m p => m.writeAll (bytesLE (a + 4 * p.2) 4 p.1)) m

/-- Bytes stored from an address on. -/
def putBytes (a : Nat) (l : List Nat) (m : Memory) : Memory :=
  l.zipIdx.foldl (fun m p => m.write (a + p.2) (BitVec.ofNat 8 p.1)) m

/-- n bytes from an address on. -/
def bytes (t : State) (a n : Nat) : List Nat := (List.range n).map fun i => (t.mem.read (a + i)).toNat

/-- n halfwords from an address on. -/
def halves (t : State) (a n : Nat) : List Nat := (List.range n).map fun i => t.mem.readLE (a + 2 * i) 2

/-- The machine after reset with its tables built and a memory, motion compensation being ExtMC0. -/
def built (m : Memory) : State :=
  { State.reset with tablesValid := true, mem := m, params := { defaultParams with agent := .zeroMotion } }

/-- The convention of 95_test_vectors.md 2.1: symbols at 0x1000, DEST = PRED = 0x2000, STRIDE 8. -/
def block (words : List Nat) (q n : Nat) : State :=
  { built (put 0x1000 words []) with
    regI := { State.reset.regI with
      symPtr := 0x1000, symCnt := BitVec.ofNat 32 n, quant := BitVec.ofNat 32 q, pred := 0x2000, dest := 0x2000
      stride := 8, upSrc := 0x1000, upSrcStride := 16 } }

/-- A luma-only 16x16 picture of one plane at 0x1000 with its reference at 0x2000, one macroblock with descriptor words
1 and 2, symbols at 0x400, one for each block, a running DECODE_GOB at it (cf. program P3). -/
def lone (w1 w2 : Nat) (symbolWords : List Nat) : State :=
  let m := put 0x0100 [0x1000, 16, 16, 16] []
  let m := put 0x0140 [0x2000, 16, 16, 16] m
  let m := put 0x0180 [0, 0x00010001, 1] m
  let m := put 0x0200 [0, w1, w2] m
  let m := put 0x0220 [0x400, 1, 0x404, 1, 0x408, 1, 0x40C, 1] m
  let m := put 0x0400 symbolWords m
  let s := built (putBytes 0x2000 [100] m)
  { s with
    run := .gob placedGob
    regD := { s.regD with gobPtr := 0x180, mbBase := 0x200, picNew := 0x100, picOld := 0x140 } }

/-- The same with a macroblock type of two pictures: a B picture at 0x3000, every plane in use. -/
def pair (w1 w2 : Nat) (symbolWords : List Nat) : State :=
  let s := lone w1 w2 symbolWords
  { s with
    run := .gob { placedGob with useB := true, bPic := { placedPicture with y := { placedPicture.y with base := 0x3000 } } }
    mem := put 0x01C0 [0x3000, 16, 16, 16] s.mem
    regD := { s.regD with picB := 0x1C0, dmode := 1 } }

/-- A pair whose macroblock asks for the B picture with the first block of the B set coded (cf. VD3). -/
def asked (type : Nat) : State :=
  let s := pair (0x00081000 + type) 0x00020100 []
  { s with mem := put 0x250 [0x410, 1] (put 0x410 [3] s.mem) }

/-- A luma-only 32x32 picture with a 32x32 reference, one reduced-resolution unit. -/
def unit32 (w1 w2 : Nat) (symbolWords : List Nat) : State :=
  let s := lone w1 w2 symbolWords
  let p : Picture := { placedPicture with y := { base := 0x1000, width := 32, height := 32, stride := 32 } }
  { s with
    run := .gob { placedGob with newPic := p, oldPic := p }
    mem := put 0x0100 [0x1000, 32, 32, 32] (put 0x0140 [0x2000, 32, 32, 32] s.mem)
    regD := { s.regD with dmode := 4 } }

/-! ### WellFormed -/

theorem test_refused_unknown_tag_that_is_inter4v : (Instr.mbUnknown 3).wellFormed [] = false := by decide
theorem test_refused_unknown_tag_that_is_skip : (Instr.mbUnknown 0).wellFormed [] = false := by decide
theorem test_accepted_unknown_tag_at_the_boundary : (Instr.mbUnknown 6).wellFormed [] = true := by decide
theorem test_refused_unknown_tag_with_a_base_type : (Instr.mbUnknown 7).wellFormed [(7, .intra)] = false := by decide
theorem test_accepted_flags : (Instr.rruUpadd true true).wellFormed [] = true := by decide

/-! ### Decoding: words written out bit by bit from 30_encoding.md R101 to R103 and R121 -/

theorem test_decode_nop : decodeCommand 0b00000000000000000000000000000000 = .ok .nop := by decide
theorem test_decode_initTables : decodeCommand 0b00000000000000000000000000000001 = .ok .initTables := by decide
theorem test_decode_aicFlush : decodeCommand 0b00000000000000000000000000000010 = .ok .aicFlush := by decide
theorem test_decode_recon : decodeCommand 0b00000000000000000000000100010000 = .ok (.recon true) := by decide
theorem test_decode_reconAdd : decodeCommand 0b00000000000000000000000000010001 = .ok (.reconAdd false) := by decide
theorem test_decode_reconS16 : decodeCommand 0b00000000000000000000000000010010 = .ok (.reconS16 false) := by decide
theorem test_decode_reconAic : decodeCommand 0b00000000000000000000000100010011 = .ok (.reconAic true) := by decide
theorem test_decode_rruUpadd_small : decodeCommand 0b00000000000000000000001000010100 = .ok (.rruUpadd false true) := by
  decide
theorem test_decode_rruUpadd_nopred : decodeCommand 0b00000000000000000000000100010100 = .ok (.rruUpadd true false) := by
  decide
theorem test_decode_dbkEdge : decodeCommand 0b00000000000000000000000000100000 = .ok .dbkEdge := by decide
theorem test_decode_dbkEdgeRru : decodeCommand 0b00000000000000000000000000100001 = .ok .dbkEdgeRru := by decide
theorem test_decode_deblockPic : decodeCommand 0b00000000000000000000000000100010 = .ok .deblockPic := by decide
theorem test_decode_deblockRruPic : decodeCommand 0b00000000000000000000000000100011 = .ok .deblockRruPic := by decide
theorem test_decode_decodeGob : decodeCommand 0b00000000000000000000000000110000 = .ok .decodeGob := by decide
theorem test_decode_concealGob : decodeCommand 0b00000000000000000000000000110001 = .ok .concealGob := by decide
theorem test_decode_convertRgb555 : decodeCommand 0b00000000000000000000000101000000 = .ok (.convertRgb555 true) := by
  decide
theorem test_decode_convertYuy2 : decodeCommand 0b00000000000000000000000001000001 = .ok .convertYuy2 := by decide
theorem test_decode_convertYvu9 : decodeCommand 0b00000000000000000000000001000010 = .ok .convertYvu9 := by decide
theorem test_decode_mbSkip : decodeTag [] 0b00000000 = .mbSkip := by decide
theorem test_decode_mbInter : decodeTag [] 0b00000001 = .mbInter := by decide
theorem test_decode_mbInterQ : decodeTag [] 0b00000010 = .mbInterQ := by decide
theorem test_decode_mbInter4v : decodeTag [] 0b00000011 = .mbInter4v := by decide
theorem test_decode_mbIntra : decodeTag [] 0b00000100 = .mbIntra := by decide
theorem test_decode_mbIntraQ : decodeTag [] 0b00000101 = .mbIntraQ := by decide
theorem test_decode_mbUnknown : decodeTag [] 0b00100000 = .mbUnknown 0x20 := by decide
/-- Rule R14: a legacy tag with a base type; the map reaches no tag but 6..15. -/
theorem test_decode_legacy : decodeTag [(7, .intra)] 7 = .mbIntra ∧ decodeTag [(7, .intra)] 8 = .mbUnknown 8 ∧
    decodeTag [(3, .skip), (16, .skip)] 3 = .mbInter4v ∧ decodeTag [(16, .skip)] 16 = .mbUnknown 16 := by decide
/-- VT6: the illegal words, by reason. -/
theorem test_decode_illegal :
    [0x00000003, 0x00000100, 0x00000210, 0x00000130, 0x00000240, 0x00000410, 0x80000010, 0xFFFFFFFF].map decodeCommand =
      [.error .unknownOpcode, .error .undefinedFlag, .error .undefinedFlag, .error .undefinedFlag,
       .error .undefinedFlag, .error .zeroField, .error .zeroField, .error .zeroField] := by decide
/-- The table word of a tag has eight bits, that of a command 32. -/
theorem test_tableWord : decodeTableWord 8 4 = some .mbIntra ∧ decodeTableWord 32 0x140 = some (.convertRgb555 true) ∧
    decodeTableWord 16 0 = none := by decide

/-! ### Single steps -/

/-- VA9. -/
theorem test_nop : check (exec .nop (built [])) (fun t => t.result = .ok && t.irq.done && t.tablesValid) = true := by
  decide +kernel
/-- VA10, by the step that fetches the word. -/
theorem test_initTables :
    check (step (State.reset.withFetchWord 32 1)) (fun t => regRead .status t = 2 && t.result = .ok) = true := by decide +kernel
/-- VA8: a block cached by VA1 is gone. -/
theorem test_aicFlush : check (exec (.reconAic true) (block [0xFFFD] 10 1)) (fun t =>
    (aicSlot t 0 0).isSome && check (exec .aicFlush t) fun u => (aicSlot u 0 0).isNone) = true := by decide +kernel
/-- VI3. -/
theorem test_recon : check (exec (.recon false) (block [10, 3] 8 2)) (fun t =>
    bytes t 0x2000 8 = [30, 29, 26, 23, 19, 15, 13, 11] && bytes t 0x2038 8 = [30, 29, 26, 23, 19, 15, 13, 11] &&
      bytes t 0x2040 1 = [0] && t.lastCase = .dcH1) = true := by decide +kernel
/-- VI2. -/
theorem test_recon_dc8 : check (exec (.recon true) (block [128] 7 1)) (fun t =>
    bytes t 0x2000 64 = List.replicate 64 128 && t.lastCase = .dcOnly) = true := by decide +kernel
/-- Program P1, recon.add: every sample + 6, in place; a sum past 255 is clipped. -/
theorem test_reconAdd : check (exec (.reconAdd false)
    { block [1] 16 1 with mem := putBytes 0x2000 [8, 11, 252] (put 0x1000 [1] []) })
    (fun t => bytes t 0x2000 4 = [14, 17, 255, 6]) = true := by decide +kernel
/-- Program P1, recon.s16: the residual is negative and not clipped. -/
theorem test_reconS16 : check (exec (.reconS16 false)
    { block [0xFFFF] 16 1 with regI := { (block [] 16 1).regI with stride := 16 } })
    (fun t => halves t 0x2000 64 = List.replicate 64 0xFFFA) = true := by decide +kernel
/-- VA1, then VA2 with the cache it left. -/
theorem test_reconAic : check (exec (.reconAic true) (block [0xFFFD] 10 1)) (fun t =>
    bytes t 0x2000 64 = List.replicate 64 125 && t.lastCase = .general &&
      check (exec (.reconAic true) { t with
        mem := put 0x1000 [2, 0x00010004] []
        regI := { t.regI with symCnt := 2, aicPos := 0x00210000 } }) fun u =>
        bytes u 0x2000 8 = List.replicate 8 142 && bytes u 0x2008 8 = List.replicate 8 133 &&
          bytes u 0x2018 8 = List.replicate 8 112) = true := by decide +kernel
/-- VA5. -/
theorem test_reconAic_mode3 : check (exec (.reconAic false)
    { block [] 10 0 with regI := { (block [] 10 0).regI with aicPos := 0x00300000 } })
    (fun t => t.fault = ⟨true, 8, 0x00300000⟩ && t.mem = []) = true := by decide +kernel
/-- VU3: the top-left rows. -/
theorem test_rruUpadd : check (exec (.rruUpadd true true)
    { built (putBytes 0x107E [0xC0, 0xFF] (putBytes 0x1000 [64] [])) with
      regI := { (block [] 1 0).regI with stride := 16 } })
    (fun t => bytes t 0x2000 4 = [64, 48, 16, 0] && bytes t 0x2010 4 = [48, 36, 12, 0] &&
      bytes t 0x2020 4 = [16, 12, 4, 0] && bytes t 0x20FC 4 = [0, 0, 0, 0]) = true := by decide +kernel
/-- VU5. -/
theorem test_rruUpadd_misaligned : check (exec (.rruUpadd true true)
    { built [] with regI := { (block [] 1 0).regI with upSrc := 0x1001 } })
    (fun t => t.fault = ⟨true, 7, 0x1001⟩ && t.mem = []) = true := by decide +kernel

/-- The eight rows of VK1 at 0x3000, edge 0x3002, 4, 1. -/
def edgeRows (q : Word) : State :=
  { built (putBytes 0x3000 [100, 100, 110, 110, 100, 100, 130, 130, 50, 50, 150, 150, 110, 110, 100, 100, 0, 0, 255, 255,
      90, 100, 104, 120, 255, 255, 250, 250, 3, 0, 6, 0] []) with
    regK := { State.reset.regK with edgeAddr := 0x3002, edgeAlong := 4, edgeAcross := 1, edgeQ := q } }

/-- VK1, q = 16. -/
theorem test_dbkEdge : check (exec .dbkEdge (edgeRows 16)) (fun t => bytes t 0x3000 32 =
    [100, 103, 107, 110, 100, 103, 127, 130, 50, 50, 150, 150, 110, 107, 103, 100, 0, 0, 255, 255, 90, 99, 105, 120,
      255, 254, 251, 250, 3, 3, 3, 0] && t.dbkQ = 16) = true := by decide +kernel
/-- VK2: sample A of position 0 is at -1. -/
theorem test_dbkEdge_below_zero : check (exec .dbkEdge
    { edgeRows 16 with regK := { (edgeRows 16).regK with edgeAddr := 1 } })
    (fun t => t.fault = ⟨true, 6, 0xFFFFFFFF⟩ && t.dbkQ = 0) = true := by decide +kernel

/-- The eight pairs of VK3. -/
def blendRows (n : Word) : State :=
  { built (putBytes 0x3100 [100, 120, 0, 255, 255, 0, 7, 7, 1, 2, 2, 1, 0, 1, 254, 255] []) with
    regK := { State.reset.regK with edgeAddr := 0x3101, edgeAlong := 2, edgeAcross := 1, edgeLen := n } }

/-- VK3. -/
theorem test_dbkEdgeRru : check (exec .dbkEdgeRru (blendRows 8)) (fun t => bytes t 0x3100 16 =
    [105, 115, 64, 191, 191, 64, 7, 7, 1, 2, 2, 1, 0, 1, 254, 255] && t.dbkQ = 0) = true := by decide +kernel
/-- VK4. -/
theorem test_dbkEdgeRru_length : check (exec .dbkEdgeRru (blendRows 12)) (fun t => t.fault = ⟨true, 0x0E, 0xC⟩) = true := by
  decide +kernel

/-- Two macroblocks, or units, side by side in a luma-only picture whose row 0 is 0 on the left and v on the right (VK5
and VK7 less 100, with every other row 0). -/
def twoWide (u v w1 : Nat) : State :=
  let m := put 0x0100 [0x1000, 2 * u, u, 2 * u] []
  let m := put 0x0284 [w1] m
  { built (putBytes (0x1000 + u) (List.replicate u v) m) with
    regK := { State.reset.regK with dbkPic := 0x100, dbkMbBase := 0x200, dbkGeom := 0x00010002, dbkRowStride := 2 } }

/-- VK5: SKIP | coded with QUANT 16, a step of 10. -/
theorem test_deblockPic : check (exec .deblockPic (twoWide 16 10 0x1001)) (fun t =>
    bytes t 0x100C 8 = [0, 0, 0, 3, 7, 10, 10, 10] && bytes t 0x102C 8 = List.replicate 8 0 && t.dbkQ = 16) = true := by
  decide +kernel
/-- VK8: a coded macroblock with QUANT 0. -/
theorem test_deblockPic_quant : check (exec .deblockPic (twoWide 16 10 1)) (fun t => t.fault = ⟨true, 3, 0⟩) = true := by
  decide +kernel
/-- VK7: a step of 20. -/
theorem test_deblockRruPic : check (exec .deblockRruPic (twoWide 32 20 1)) (fun t =>
    bytes t 0x101C 8 = [0, 0, 0, 5, 15, 20, 20, 20] && t.dbkQ = 0) = true := by decide +kernel

/-- Rules R240, R241: a fresh start, then the turn that ends a GOB of one SKIP macroblock's loop. -/
theorem test_decodeGob : check (exec .decodeGob { lone 0 0 [] with run := .command 0x30, ck := ⟨7, 7, 7, 7, false⟩ }) (fun t =>
    t.ck = ⟨0, 0, 0, 0, false⟩ && t.busy) = true := by decide +kernel
/-- VD7: the first of its two invalid descriptors. -/
theorem test_decodeGob_invalid : check (exec .decodeGob { lone 0 0 [] with mem := put 0x184 [0x00020003] (lone 0 0 []).mem })
    (fun t => t.fault = ⟨true, 0x0A, 0x180⟩ && t.ck = (lone 0 0 []).ck) = true := by decide +kernel
/-- Program P4 step 2: the reference's samples, SKIP, no dirty flag, the position. -/
theorem test_concealGob : check (exec .concealGob (lone 0x1004 0xAB000001 [])) (fun t =>
    bytes t 0x1000 2 = [100, 0] && word t 0x204 = 0x1000 && word t 0x208 = 1 && t.stats.concealed = 1 && t.result = .ok)
    = true := by decide +kernel
/-- VF2: two by two pixels. -/
def tiny : State :=
  let m := put 0x0100 [0x1000, 2, 2, 2, 0x1010, 1, 1, 1, 0x1020, 1, 1, 1, 1] []
  let m := putBytes 0x1000 [16, 235, 128, 81] m
  { built (putBytes 0x1020 [128] (putBytes 0x1010 [128] m)) with
    regF := { State.reset.regF with fmtSrc := 0x100, fmtDst := 0x2000, fmtDstStride := 4, fmtDstW := 2, fmtDstH := 2 } }

/-- VF2. -/
theorem test_convertRgb555 : check (exec (.convertRgb555 false) tiny) (fun t =>
    halves t 0x2000 4 = [0x4210, 0x2529, 0x0000, 0x7FFF] && t.fmtPath = .direct) = true := by decide +kernel
/-- VF3, the first and last output row. -/
theorem test_convertRgb555_doubled : check (exec (.convertRgb555 false)
    { tiny with regF := { tiny.regF with fmtDstStride := 8, fmtDstW := 4, fmtDstH := 4 } })
    (fun t => halves t 0x2000 4 = [0x4210, 0x318C, 0x2529, 0x2529] &&
      halves t 0x2018 4 = [0x0000, 0x3DEF, 0x7FFF, 0x7FFF] && t.fmtPath = .fast2x) = true := by decide +kernel
/-- VF6. -/
theorem test_convertYuy2 : check (exec .convertYuy2 tiny) (fun t =>
    bytes t 0x2000 8 = [128, 128, 81, 128, 16, 128, 235, 128] && t.fmtPath = .direct) = true := by decide +kernel
/-- VF7. -/
theorem test_convertYvu9 : check (exec .convertYvu9
    { tiny with
      mem := putBytes 0x1020 [5, 6, 7, 8] (putBytes 0x1010 [1, 2, 3, 4]
        (putBytes 0x1000 [0, 1, 2, 3, 10, 11, 12, 13, 20, 21, 22, 23, 30, 31, 32, 33]
          (put 0x100 [0x1000, 4, 4, 4, 0x1010, 2, 2, 2, 0x1020, 2, 2, 2, 1] [])))
      regF := { tiny.regF with fmtDstW := 4, fmtDstH := 4 } })
    (fun t => bytes t 0x2000 18 = [30, 31, 32, 33, 20, 21, 22, 23, 10, 11, 12, 13, 0, 1, 2, 3, 7, 3]) = true := by
  decide +kernel

/-- Program P3, MB0: ExtMC0's answer, SCRATCH cleared, and the end of a GOB of one macroblock. -/
theorem test_mbSkip : check (step (lone 0 0xAB000000 [])) (fun t => bytes t 0x1000 2 = [100, 0] && word t 0x208 = 0 &&
    t.ck = ⟨1, 1, 0, 1, false⟩ && t.stats.mbDone = 1) = true := by decide +kernel
/-- Program P3, MB1: block 0 is prediction + 6, the others the prediction. -/
theorem test_mbInter : check (step (lone 0x1001 1 [1])) (fun t => bytes t 0x1000 2 = [106, 6] && bytes t 0x1007 2 = [6, 0] &&
    bytes t 0x1080 1 = [0] && word t 0x208 = 0x0F000001) = true := by decide +kernel
/-- Rule R255, cf. VD3: the B picture is the mean of the two predictions with its own residual. -/
theorem test_mbInterQ_pair : check (exec .mbInterQ (asked 2)) (fun t =>
    bytes t 0x1000 2 = [100, 0] && bytes t 0x3000 2 = [107, 7] && t.ck.work = 1) = true := by decide +kernel
/-- Rule R247: FLAGS.OVERLAP costs 2 more. -/
theorem test_mbInter4v_cost : check (exec .mbInter4v (lone 0x1003 0x00010000 [])) (fun t =>
    bytes t 0x1000 2 = [100, 0] && t.ck.work = 3) = true := by decide +kernel
/-- Program P3, MB2: the value of its block 3, whose place is the lower right quarter. -/
theorem test_mbIntra : check (exec .mbIntra (lone 0x1004 0 [0, 0, 0, 13])) (fun t =>
    bytes t 0x1087 2 = [0, 54] && bytes t 0x10FE 2 = [54, 54] && bytes t 0x1078 1 = [0] && word t 0x208 = 0x0F000000)
    = true := by decide +kernel
/-- Rules R14, R122: the same by a step, its tag being a legacy one that behaves as INTRA. -/
theorem test_mbIntra_legacy :
    let s := lone 0x1007 0 [0, 0, 0, 13]
    check (step { s with params := { s.params with legacy := [(7, .intra)] } }) (fun t =>
      bytes t 0x1087 2 = [0, 54] && t.ck.work = 1) = true := by decide +kernel
/-- Rule R253: FLAGS.OVERLAP is ignored. -/
theorem test_mbIntra_cost : check (exec .mbIntra (lone 0x1004 0x00010000 [0, 0, 0, 13])) (fun t =>
    bytes t 0x1087 2 = [0, 54] && t.ck.work = 1) = true := by decide +kernel
/-- Conflict C9: a reduced-resolution unit costs 16, and 2 more with overlap. -/
theorem test_mbIntra_cost_rru : check (exec .mbIntra (unit32 0x1004 0x00010000 [0, 0, 0, 0])) (fun t =>
    t.ck.work = 18 && t.result = .none) = true := by decide +kernel
/-- A symbol beyond the scan in a block: the macroblock faults, the cursor stays (P2 step 5, rule R268). -/
theorem test_mbIntraQ_fault : check (exec .mbIntraQ (lone 0x1005 0 [0x00460001])) (fun t =>
    t.fault = ⟨true, 5, 0⟩ && t.ck = ⟨0, 0, 0, 0, false⟩ && t.run = .idle) = true := by decide +kernel
/-- Program P4 step 1. -/
theorem test_mbUnknown : check (step (lone 0x1020 1 [])) (fun t => t.result = .gobAborted && t.stats.badType = 1 &&
    t.irq.done && !t.fault.pending && t.ck.loop = 0) = true := by decide +kernel
/-- VD1: the derived vector of a reduced-resolution unit. -/
theorem test_derived_vector : deriveVector ⟨-2, 3⟩ = ⟨-3, 5⟩ ∧ deriveVector ⟨0, -1⟩ = ⟨0, -1⟩ := by decide
/-- VU1: the example of 40_idct_engine.md R161. -/
theorem test_upSample : (grid 4 4).map (fun p => upSample [0, 16, -16, 32] 2 p.1 p.2) =
    [0, 4, 12, 16, -4, 2, 14, 20, -12, -2, 18, 28, -16, -4, 20, 32] := by decide
/-- A tag placed where the next step fetches it is run. -/
theorem test_fetch_tag : check (step (State.reset.withFetchWord 8 0x20)) (fun t => t.result = .gobAborted) = true := by
  decide +kernel
/-- Rules R87, R89: beside a running RECON a store above its 64 samples and the load of its symbol are exact. -/
theorem test_host_beside_recon :
    let s := { block [1] 16 1 with run := .command 0x10 }
    check (step { s with script := [.store 0x2040 [7, 9]] }) (fun t => bytes t 0x2040 2 = [7, 9] && t.busy) = true ∧
      check (step { s with script := [.load 0x1000] }) (fun t => t.readData = 1) = true := by decide +kernel
/-- Rule R272: a suspended GOB waits as it is, and CONCEAL_GOB goes on from its cursor, here behind its one macroblock. -/
theorem test_suspended_waits :
    let s := { lone 0x1004 0xAB000001 [] with run := .idle, result := .suspended, ck := ⟨1, 1, 0, 5, true⟩ }
    check (step s) (fun t => t.ck = s.ck && t.result = .suspended) = true ∧
      check (exec .concealGob s) (fun t => t.ck = ⟨1, 1, 0, 5, false⟩ && t.stats.concealed = 0 && word t 0x204 = 0x1004)
        = true := by decide +kernel
/-- Rule R146: what is required of every T holds of a replaced one. -/
theorem test_replaced_basis : basisT .replaced 0 3 2 1 0 = 0 ∧ basisT .replaced (-2047) 0 0 3 1 = 8 * -2047 := by decide
/-- Rule R350: an idle device keeps its state. -/
theorem test_idle : step State.reset = .next State.reset := rfl

end Sys2Proof.Tests
end

