-- ==== Sys2Proof/Tests/Witnesses.lean ====
section
/-! SUPPORT. For each statement of Sys2Proof/Certificates/Slice0/Obligations.lean that has hypotheses, a state and
operands that meet them together; where a statement has several clauses, one for each, at the values where clauses
meet. -/

namespace Sys2Proof.Tests

open Sys2Proof.Machine Sys2Proof.Config Sys2Proof.Safety

-- One theorem at a time: evaluations by the kernel side by side need more memory than the checks allow.
set_option Elab.async false

/-- The machine while a command runs, with a script. -/
def running (l : List HostOp) : State := { State.reset with run := .command 0x10, script := l }

/-- The machine with a fault latched. -/
def faulted : State := raise ⟨.quant, 0⟩ State.reset

/-! ### Encoding -/

theorem witness_DecodeOfEncodeIsTheInstruction : (Instr.mbUnknown 6).wellFormed [] = true ∧
    (Instr.mbUnknown 255).wellFormed [] = true ∧ (Instr.rruUpadd false true).wellFormed [(7, .skip)] = true := by decide
theorem witness_LegalCodeIsTheEncodingOfItsInstruction : decode [] (.command 0x314) = .ok (.rruUpadd true true) ∧
    decode [] (.tag 6) = .ok (.mbUnknown 6) ∧ decode [(6, .skip)] (.tag 6) = .ok .mbSkip := by decide
theorem witness_IllegalWordOnlyRaisesOpcodeFault : ¬legalWord 3 ∧ ¬legalWord 0x400 ∧ ¬legalWord 0x214110 ∧
    ¬legalWord 0x210 ∧ legalWord 0x314 ∧ State.reset.busy = false ∧ State.reset.fault.pending = false := by decide

/-! ### Steps -/

theorem witness_StepRunsTheStartedCommand_noScript : deviceMoves (running []) (running []) ∧
    (running []).run = .command 0x10 ∧ decodeCommand 0x10 = .ok (.recon false) := ⟨.inl ⟨rfl, rfl⟩, rfl, rfl⟩
theorem witness_StepRunsTheStartedCommand_wait : deviceMoves (running [.wait, .read 0]) (running [.wait, .read 0]) :=
  .inr (.inl ⟨_, rfl, rfl, rfl⟩)
theorem witness_StepRunsTheStartedCommand_pause : deviceMoves (running [.pause, .read 0]) (running [.read 0]) :=
  .inr (.inr ⟨_, rfl, rfl⟩)

theorem witness_StepRunsTheFetchedTag : let u := lone 0x1001 0 []
    deviceMoves u u ∧ u.run = .gob placedGob ∧ u.ck.loop.toNat < placedGob.gob.mbCount ∧
      fits placedGob (unitSize u) u.ck.col.toNat (u.ck.mbNum.toNat / placedGob.gob.rowStride) ∧
      (u.regD.mbBase.toNat + 128 * u.ck.mbNum.toNat) % 4 = 0 ∧
      u.regD.mbBase.toNat + 128 * u.ck.mbNum.toNat + 8 ≤ u.params.memSize :=
  ⟨.inl ⟨rfl, rfl⟩, rfl, by decide +kernel⟩

/-- A legacy tag that behaves as INTRA. -/
theorem witness_StepRunsTheFetchedTag_legacy :
    let s := lone 0x1007 0 []
    let u := { s with params := { s.params with legacy := [(7, .intra)] } }
    let tag := (u.store (bytesLE 0x200 4 0)).mem.read 0x204
    6 ≤ tag.toNat ∧ tag.toNat ≤ 15 ∧ legacy261 u.params.legacy tag = some .intra := by decide +kernel

/-- The macroblock one column to the right of the picture. -/
theorem witness_MacroblockThatDoesNotFitRaises :
    let u := { lone 0 0 [] with ck := ⟨0, 1, 1, 0, false⟩ }
    deviceMoves u u ∧ u.run = .gob placedGob ∧ u.ck.loop.toNat < placedGob.gob.mbCount ∧
      ¬fits placedGob (unitSize u) u.ck.col.toNat (u.ck.mbNum.toNat / placedGob.gob.rowStride) :=
  ⟨.inl ⟨rfl, rfl⟩, rfl, by decide +kernel⟩

theorem witness_LoopEndCompletesTheGob : let u := { lone 0 0 [] with ck := ⟨1, 1, 0, 1, false⟩ }
    deviceMoves u u ∧ u.run = .gob placedGob ∧ placedGob.gob.mbCount ≤ u.ck.loop.toNat :=
  ⟨.inl ⟨rfl, rfl⟩, rfl, by decide +kernel⟩

theorem witness_IdleDeviceKeepsItsState : deviceMoves State.reset State.reset ∧ State.reset.run = .idle ∧
    State.reset.fault.pending = false := ⟨.inl ⟨rfl, rfl⟩, rfl, rfl⟩

/-! ### The register window -/

theorem witness_CmdWriteStartsOrIsIgnored : (State.reset.busy = false ∧ State.reset.fault.pending = false) ∧
    (running []).busy = true ∧ faulted.fault.pending = true := ⟨⟨rfl, rfl⟩, rfl, rfl⟩
theorem witness_BusyDeviceIgnoresRegisterWrites : (running []).busy = true ∧
    (0x000 : BitVec 9).toNat % 4 = 0 ∧ (0x000 : BitVec 9) ≠ 0x004 ∧ (0x1FC : BitVec 9).toNat % 4 = 0 ∧
    (0x1FC : BitVec 9) ≠ 0x01C := ⟨rfl, by decide⟩
/-- The first and the last register of the table; a CTRL write with every bit but 31; DMODE with its four bits. -/
theorem witness_WrittenRegisterHoldsTheValue : (RegName.id, 0x000) ∈ windowTable ∧ (RegName.fmtPath, 0x120) ∈ windowTable ∧
    (0x7FFFFFFF : Word).getLsbD 31 = false ∧ (RegName.quant, (0xFFFFFFFF : Word)) ∈ writable ∧
    (RegName.dmode, (0xF : Word)) ∈ writable ∧ (RegName.ckCtl, (1 : Word)) ∈ writable ∧ State.reset.busy = false ∧
    (running []).busy = true :=
  ⟨by decide, by decide, by decide, by decide, by decide, by decide, rfl, rfl⟩
/-- VG5: offset 0x1F0 holds no register; that of FMT_PATH holds one. -/
theorem witness_WindowAccessIsAlignedOrRefused : (0x1FF : BitVec 9).toNat % 4 ≠ 0 ∧ (0x001 : BitVec 9).toNat % 4 ≠ 0 ∧
    (0x1F0 : BitVec 9).toNat % 4 = 0 ∧ RegName.fmtPath.offset = (0x120 : BitVec 9).toNat ∧
    ∀ r : RegName, r.offset ≠ (0x1F0 : BitVec 9).toNat :=
  ⟨by decide, by decide, by decide, by decide, fun r => by cases r <;> decide⟩

/-! ### Reset -/

theorem witness_SoftResetIsAHardReset : (0x80000007 : Word).getLsbD 31 = true := by decide
theorem witness_ResetKeepsMemoryByteByByte_idle : State.reset.mem.wf ∧ State.reset.busy = false ∧
    mayLose State.reset 0 = false := ⟨by decide, rfl, rfl⟩

/-- RECON started, its operands those of `block`: one symbol at 0x1000, DEST 0x2000, STRIDE 8. -/
def started : State := { block [1] 16 1 with run := .command 0x10 }

/-- The first and the last byte RECON may write, the bytes beside them, and a turn that writes the first. -/
theorem witness_ResetKeepsMemoryByteByByte_busy : let s := started
    s.mem.wf ∧ s.busy = true ∧ Inv s ∧ mayLose s 0x1FFF = false ∧ mayLose s 0x2040 = false ∧
      (mayWrite s 0x2000 = true ∧ mayLose s 0x203F = true ∧ 0x203F < s.params.memSize) ∧
      mayWrite s 0x1000 = false ∧ ∃ u, deviceTurn s = .next u ∧ (u.mem.read 0x2000 = 6) = true :=
  ⟨by decide +kernel, rfl, by decide +kernel, by decide +kernel, by decide +kernel, by decide +kernel, by decide +kernel,
   by simpa using next_of_check (p := fun u => u.mem.read 0x2000 = 6) (by decide +kernel)⟩
/-- A GOB's descriptor is lost whole, though the command writes two of its words only. -/
theorem witness_ResetKeepsMemoryByteByByte_gob : let s := lone 0 0 []
    mayLose s 0x204 = true ∧ mayWrite s 0x204 = false ∧ mayWrite s 0x200 = true ∧ mayLose s 0x280 = false := by
  decide +kernel

/-- The GOB of `lone` with a second macroblock, which is right of the picture. -/
def wide : State :=
  { lone 0 0 [] with
    run := .gob { placedGob with gob := { placedGob.gob with mbPerRow := 2, rowStride := 2, mbCount := 2 } } }

/-- Rule R233: the macroblock that does not fit is not written, its samples nor its descriptor; R373 lets the descriptor
change all the same. -/
theorem witness_ResetKeepsMemoryByteByByte_wide : let s := wide
    Inv s ∧ mayWrite s 0x1000 = true ∧ mayLose s 0x10FF = true ∧ mayLose s 0x1100 = false ∧ mayWrite s 0x280 = false ∧
      mayLose s 0x280 = true ∧ mayLose s 0x300 = false := by decide +kernel

/-! ### Faults and ends -/

theorem witness_FinishSetsResultAndOneCause : ∃ c : ResultCode, c = .ok ∨ c = .gobAborted ∨ c = .passFailed :=
  ⟨.passFailed, by decide⟩
theorem witness_CommandsNeedTheTables : needsTables .convertYvu9 = true ∧ needsTables (.recon false) = true ∧
    State.reset.tablesValid = false := ⟨rfl, rfl, rfl⟩
theorem witness_FaultOfACommandLeavesTheStateAsBefore : isTag (.convertRgb555 true) = false ∧
    Instr.convertRgb555 true ≠ .decodeGob ∧ Instr.convertRgb555 true ≠ .concealGob := by decide
/-- Each clause at its first and last operands. -/
theorem witness_ReconArgumentsAreCheckedInOrder : isRecon (.reconAic false) = true ∧ (block [] 0 0).tablesValid = true ∧
    (block [] 0 65).regI.quant.toNat < 1 ∧ 31 < (block [] 32 65).regI.quant.toNat ∧
    (1 ≤ (block [] 1 65).regI.quant.toNat ∧ (block [] 31 65).regI.quant.toNat ≤ 31 ∧
      64 < (block [] 31 65).regI.symCnt.toNat) ∧
    ((block [] 31 64).regI.symCnt.toNat ≤ 64 ∧ 0x00300000 / 2 ^ 20 % 4 = 3 ∧ 5 < 0x00060000 / 2 ^ 16 % 8) ∧
    (0x00250058 / 2 ^ 20 % 4 ≠ 3 ∧ 0x00250058 / 2 ^ 16 % 8 ≤ 5 ∧
      (block [] 31 64).params.aicCols ≤ 0x00250058 % 2 ^ 16) := by decide
/-- Program P2, step 5: symbol 1 of (0,1), (70,1); and symbol 0 with SKIP 64. -/
theorem witness_SymbolBeyondTheScanRaises : let s := block [1, 0x00460001] 16 2
    let u := block [0x00400000] 31 1
    isRecon (.recon false) = true ∧ (∀ dc8, Instr.recon false ≠ .reconAic dc8) ∧ s.tablesValid = true ∧
      1 ≤ s.regI.quant.toNat ∧ s.regI.quant.toNat ≤ 31 ∧ s.regI.symCnt.toNat ≤ 64 ∧ 1 < s.regI.symCnt.toNat ∧
      s.regI.symPtr.toNat % 4 = 0 ∧ s.regI.symPtr.toNat + 4 * (1 + 1) ≤ s.params.memSize ∧
      (∀ j < 1, symPos s.mem s.regI.symPtr.toNat j ≤ 63) ∧ 63 < symPos s.mem s.regI.symPtr.toNat 1 ∧
      symPos u.mem u.regI.symPtr.toNat 0 = 64 := by decide +kernel
/-- RECON_AIC with column 87, block 5, mode 2, the last of each; the symbol with SKIP 64. -/
theorem witness_SymbolBeyondTheScanRaises_aic :
    let s := { block [0x00400000] 31 1 with regI := { (block [] 31 1).regI with aicPos := 0x00250057 } }
    let pos := s.regI.aicPos.toNat
    isRecon (.reconAic true) = true ∧ s.tablesValid = true ∧
      (pos / 2 ^ 20 % 4 ≠ 3 ∧ pos / 2 ^ 16 % 8 ≤ 5 ∧ pos % 2 ^ 16 < s.params.aicCols) ∧
      1 ≤ s.regI.quant.toNat ∧ s.regI.quant.toNat ≤ 31 ∧ s.regI.symCnt.toNat ≤ 64 ∧ 0 < s.regI.symCnt.toNat ∧
      s.regI.symPtr.toNat % 4 = 0 ∧ s.regI.symPtr.toNat + 4 * (0 + 1) ≤ s.params.memSize ∧
      63 < symPos s.mem s.regI.symPtr.toNat 0 := by decide +kernel
theorem witness_FaultInTheLoopKeepsTheCursor : let s := lone 0x1005 0 [0x00460001]
    isTag .mbIntraQ = true ∧ s.run = .gob placedGob ∧ s.fault.pending = false ∧
      ∃ t, exec .mbIntraQ s = .next t ∧ t.fault.pending = true :=
  ⟨rfl, rfl, rfl, next_of_check (p := fun t => t.fault.pending) (by decide +kernel)⟩

/-! ### Memory -/

theorem witness_StoredWordReadsBackLittleEndian : (put 0x100 [0x12345678] []).wf ∧ ((0x103 : Nat) < 0x104) ∧
    (0x104 : Nat) + 4 ≤ 0x108 := by decide
/-- A store that ends with the last byte of memory and one that ends beyond it; the last byte loaded and the one beyond;
and, while RECON runs, a byte it writes, one it only reads, and one beside each. -/
theorem witness_StoredWordReadsBackLittleEndian_host : let s := started
    s.mem.wf ∧ 0xFFFE + ([1, 2] : List Byte).length ≤ s.params.memSize ∧
      s.params.memSize < 0xFFFF + ([1, 2] : List Byte).length ∧ 0xFFFF < s.params.memSize ∧ s.params.memSize ≤ 0x10000 ∧
      mayUse s 0x2000 = true ∧ (mayUse s 0x1003 = true ∧ mayWrite s 0x1003 = false) ∧ mayUse s 0x2040 = false ∧
      mayUse s 0x1004 = false := by decide +kernel
/-- RECON that only raises: QUANT 0. -/
theorem witness_StoredWordReadsBackLittleEndian_raising :
    let s := { block [1] 0 1 with run := .command 0x10 }
    mayWrite s 0x2000 = false ∧ mayUse s 0x2000 = false ∧ mayUse s 0x1000 = true := by decide +kernel
theorem witness_StoredWordReadsBackLittleEndian_footprint : decodeCommand 0x10 = .ok (.recon false) ∧
    started.run = .command 0x10 ∧ (lone 0x1001 1 [1]).run = .gob placedGob ∧ State.reset.busy = false :=
  ⟨rfl, rfl, rfl, rfl⟩
/-- The last byte, the first byte past the end, and a misaligned word. -/
theorem witness_AccessChecksRangeThenAlignment : let s := built []
    ((-1 : Int) < 0) ∧ ((s.params.memSize : Int) < 0xFFFD + 4) ∧
      ((0 : Int) ≤ 0xFFFA ∧ 0xFFFA + 4 ≤ (s.params.memSize : Int) ∧ (0xFFFA : Int) % 4 ≠ 0) ∧
      ((0 : Int) ≤ 0xFFFF ∧ 0xFFFF + 1 ≤ (s.params.memSize : Int) ∧ (0xFFFF : Int) % 1 = 0) := by decide

/-! ### The invariant -/

theorem witness_EveryStepKeepsTheInvariant_idle : Inv State.reset ∧ ∃ t, step State.reset = .next t :=
  ⟨by decide +kernel, _, rfl⟩
theorem witness_EveryStepKeepsTheInvariant_loop : Inv (lone 0x1020 0 []) ∧
    ∃ t, step (lone 0x1020 0 []) = .next t ∧ (t.result = .gobAborted) = true :=
  ⟨by decide +kernel, by simpa using next_of_check (p := fun t => t.result = .gobAborted) (by decide +kernel)⟩

/-! ### Unit I -/

theorem witness_ReconStoresTheClippedResidual : let s := block [10, 3] 8 2
    s.mem.wf ∧ blockSound s (regBlock s true) ∧ squareIn s s.regI.dest.toNat s.regI.stride.toNat 1 8 ∧
      8 ≤ s.regI.stride.toNat := by decide +kernel
/-- No symbols, a stride below 8, and the square that ends with the last byte of memory. -/
theorem witness_ReconStoresTheClippedResidual_edge :
    let s := { block [] 31 0 with regI := { (block [] 31 0).regI with dest := 0xFFF8, stride := 0 } }
    s.mem.wf ∧ blockSound s (regBlock s false) ∧ squareIn s s.regI.dest.toNat s.regI.stride.toNat 1 8 := by
  decide +kernel
theorem witness_ReconAddSumsOntoThePrediction : let s := block [10, 3] 8 2
    s.mem.wf ∧ blockSound s (regBlock s false) ∧ squareIn s s.regI.pred.toNat s.regI.stride.toNat 1 8 ∧
      squareIn s s.regI.dest.toNat s.regI.stride.toNat 1 8 ∧ 8 ≤ s.regI.stride.toNat := by decide +kernel
theorem witness_ReconS16StoresTheResidual :
    let s := { block [1] 16 1 with regI := { (block [1] 16 1).regI with stride := 16 } }
    s.mem.wf ∧ blockSound s (regBlock s false) ∧ squareIn s s.regI.dest.toNat s.regI.stride.toNat 2 8 ∧
      s.regI.dest.toNat % 2 = 0 ∧ s.regI.stride.toNat % 2 = 0 ∧ 16 ≤ s.regI.stride.toNat := by decide +kernel
/-- Column 87, block 5, mode 2: the last of each. -/
theorem witness_ReconAicPredictsAndCaches :
    let s := { block [0xFFFD] 10 1 with regI := { (block [0xFFFD] 10 1).regI with aicPos := 0x00250057 } }
    s.mem.wf ∧ blockSound s (regBlock s true) ∧ s.regI.aicPos.toNat / 2 ^ 20 % 4 ≠ 3 ∧
      s.regI.aicPos.toNat / 2 ^ 16 % 8 ≤ 5 ∧ s.regI.aicPos.toNat % 2 ^ 16 < s.params.aicCols ∧
      squareIn s s.regI.dest.toNat s.regI.stride.toNat 1 8 ∧ arraysSound s := by decide +kernel
theorem witness_RruUpaddAddsTheUpsampledResidual :
    let s := { built (put 0x1000 [64] []) with
               regI := { (block [] 1 0).regI with stride := 32, upSrcStride := 32 } }
    s.mem.wf ∧ s.tablesValid = true ∧ squareIn s s.regI.upSrc.toNat s.regI.upSrcStride.toNat 2 16 ∧
      s.regI.upSrc.toNat % 2 = 0 ∧ s.regI.upSrcStride.toNat % 2 = 0 ∧
      squareIn s s.regI.pred.toNat s.regI.stride.toNat 1 (2 * 16) ∧
      squareIn s s.regI.dest.toNat s.regI.stride.toNat 1 (2 * 16) ∧ 2 * 16 ≤ s.regI.stride.toNat := by decide +kernel
/-- 64 symbols, each at the next position, at the first and the last quantiser; and the largest coefficient. -/
theorem witness_AccumulatorsHoldTheExactSums : let s := block [] 1 64
    let b := { regBlock s false with quant := 31 }
    (2 ≤ 2 ∧ symbolsSound s (regBlock s false) ∧ 1 ≤ b.quant ∧ b.quant ≤ 31 ∧ symbolsSound s b) ∧
      (([⟨7, 7, -2047⟩, ⟨0, 0, 2047⟩] : List Coef).map fun k => (k.u, k.v)).Nodup ∧
      ∀ k ∈ ([⟨7, 7, -2047⟩, ⟨0, 0, 2047⟩] : List Coef), k.u < 8 ∧ k.v < 8 ∧ -2047 ≤ k.c ∧ k.c ≤ 2047 := by
  decide +kernel
/-- The sums of one DC coefficient fit, under every T. -/
theorem witness_AccumulatorsHoldTheExactSums_fit : ∀ pu < 2, ∀ pv < 2, ∀ j < 4, ∀ i < 4,
    -2 ^ 31 ≤ accSum .replaced [⟨0, 0, 2047⟩] pu pv j i ∧ accSum .replaced [⟨0, 0, 2047⟩] pu pv j i < 2 ^ 31 := by
  decide +kernel
theorem witness_RecLevelIsMonotoneAndOdd : (1 ≤ 31 ∧ 31 ≤ 31) ∧ ((-1 : Int) ≤ 0) ∧ ((-1 : Int) < 0) ∧
    recLevel .standard 31 (-1) < 2047 ∧ -2047 < recLevel .standard 31 0 := by decide
theorem witness_DcOnlyBlockIsFlat : let s := block [1] 16 1
    let b := regBlock s false
    1 ≤ b.quant ∧ b.quant ≤ 31 ∧ b.count = 1 ∧ symSkip s.mem b.symPtr 0 = 0 := by decide +kernel

/-! ### Unit K -/

theorem witness_DbkEdgeFiltersEightPositions : let s := edgeRows 31
    s.mem.wf ∧ s.tablesValid = true ∧ (edgeRows 0).regK.edgeQ.toNat < 1 ∧ 31 < (edgeRows 32).regK.edgeQ.toNat ∧
      1 ≤ (edgeRows 1).regK.edgeQ.toNat ∧ s.regK.edgeQ.toNat ≤ 31 ∧ allIn s (edgeAddrs (regEdge s)) ∧
      (edgeAddrs (regEdge s)).Nodup := by decide +kernel
theorem witness_DbkEdgeRruBlendsItsPositions : let s := blendRows 32
    s.mem.wf ∧ s.tablesValid = true ∧ ((9 : Nat) ≠ 8 ∧ (9 : Nat) ≠ 16 ∧ (9 : Nat) ≠ 32) ∧
      s.regK.edgeLen.toNat = 32 ∧ allIn s (blendAddrs (regEdge s) 32) ∧ (blendAddrs (regEdge s) 32).Nodup := by
  decide +kernel
theorem witness_DeblockingCorrectionIsARamp : (1 ≤ 1 ∧ 31 ≤ 31) ∧ |(12 : Int)| ≤ strength 31 ∧
    2 * strength 31 ≤ |(-24 : Int)| := by decide
theorem witness_DeblockPicFiltersItsEdges : let s := twoWide 16 10 0x1F01
    s.mem.wf ∧ deblockSound s 16 true := by decide +kernel
theorem witness_DeblockPicFiltersItsEdges_skip : let s := twoWide 16 10 0
    s.mem.wf ∧ deblockSound s 16 true ∧ ∀ m ∈ (dbkRun s).mbs, m.type = 0 := by decide +kernel
theorem witness_DeblockRruPicBlendsItsBoundaries : let s := twoWide 32 20 1
    s.mem.wf ∧ deblockSound s 32 false := by decide +kernel
theorem witness_DeblockRruPicBlendsItsBoundaries_skip : let s := twoWide 32 20 0
    s.mem.wf ∧ deblockSound s 32 false ∧ ∀ m ∈ (dbkRun s).mbs, m.type = 0 := by decide +kernel

/-! ### Unit F -/

theorem witness_ResampledLineFollowsTheRule : ([16, 255] : List Nat) ≠ [] ∧ (∀ v ∈ ([16, 255] : List Nat), v ≤ 255) ∧
    ∀ u ∈ ([7, 7] : List Nat), u = 7 := by decide
theorem witness_Rgb555ConvertsTheWholePicture_direct : tiny.mem.wf ∧ rgbSound tiny ∧ fmtPathOf tiny = .direct := by
  decide +kernel
/-- SEL is not acted on where the picture is scaled. -/
theorem witness_Rgb555ConvertsTheWholePicture_scaled :
    let s := { tiny with regF := { tiny.regF with fmtDstStride := 8, fmtDstW := 4, fmtDstH := 4 } }
    s.mem.wf ∧ rgbSound s ∧ fmtPathOf s ≠ .direct := by decide +kernel

/-- A luma-only 16x16 picture whose macroblock's first region is dirty. -/
def selective : State :=
  { built (putBytes 0x0300 [1] (put 0x0100 [0x1000, 16, 16, 16] [])) with
    regF := { State.reset.regF with
      fmtSrc := 0x100, fmtDst := 0x2000, fmtDstStride := 32, fmtDstW := 16, fmtDstH := 16, fmtMask := 0x300
      fmtMaskStep := 1, fmtMaskPitch := 1 } }

theorem selective_cells : (∀ a ∈ sourceCells (fmtRun selective), a < 0x2000) ∧
    ∀ x < 16, ∀ r < 16, 0x2000 ≤ pixelCell selective x r := by decide +kernel

theorem witness_SelectiveUpdateConvertsDirtyRegions : let s := selective
    let f := fmtRun s
    s.mem.wf ∧ rgbSound s ∧ fmtPathOf s = .direct ∧ f.w % 16 = 0 ∧ f.h % 16 = 0 ∧
      (∀ c < f.w / 16, ∀ r < f.h / 16, maskCell s c r < s.params.memSize) ∧ dirtyAt s 7 7 = true ∧
      dirtyAt s 8 8 = false := by decide +kernel
theorem witness_SelectiveUpdateConvertsDirtyRegions_apart : let s := selective
    let f := fmtRun s
    ∀ a ∈ sourceCells f, ∀ x < f.w, ∀ r < f.h, a ≠ pixelCell s x r ∧ a ≠ pixelCell s x r + 1 := by
  intro s f a ha x hx r hr
  have h1 := selective_cells.1 a ha
  have hw : f.w = 16 := by decide +kernel
  have hh : f.h = 16 := by decide +kernel
  have h2 : 0x2000 ≤ pixelCell s x r := selective_cells.2 x (hw ▸ hx) r (hh ▸ hr)
  omega

/-- The picture of `tiny` with every sample 128. -/
def gray : State :=
  let m := putBytes 0x1020 [128] (putBytes 0x1010 [128] (putBytes 0x1000 [128, 128, 128, 128] (put 0x100
    [0x1000, 2, 2, 2, 0x1010, 1, 1, 1, 0x1020, 1, 1, 1, 1] [])))
  { tiny with mem := m }

theorem witness_GrayPictureConvertsToOneValue : gray.mem.wf ∧ rgbSound gray ∧
    ∀ a ∈ sourceCells (fmtRun gray), gray.mem.read a = 128 := by decide +kernel
/-- The selective clause: a gray picture of one macroblock, its target above its source. -/
theorem witness_GrayPictureConvertsToOneValue_selective :
    let s := { selective with
      mem := selective.mem ++ (List.range 256).map fun i => (0x1000 + i, 128)
      regF := { selective.regF with fmtMaskStep := 0 } }
    s.mem.wf ∧ rgbSound s ∧ (∀ a ∈ sourceCells (fmtRun s), s.mem.read a = 128) ∧ fmtPathOf s = .direct ∧
      dirtyAt s 0 0 = true ∧ check (exec (.convertRgb555 true) s) (fun t => t.result = .ok) = true := by decide +kernel
theorem witness_Yuy2RepacksPixelPairs : tiny.mem.wf ∧ formatSound tiny ∧
    ((fmtRun tiny).dw = (fmtRun tiny).w ∧ (fmtRun tiny).dh = (fmtRun tiny).h ∧
      2 * (fmtRun tiny).w ≤ tiny.regF.fmtDstStride.toNat ∧
      tiny.regF.fmtDst.toNat + ((fmtRun tiny).h - 1) * tiny.regF.fmtDstStride.toNat + 2 * (fmtRun tiny).w ≤
        tiny.params.memSize) ∧
    ∀ a ∈ sourceCells (fmtRun tiny), ∀ r < (fmtRun tiny).h, ∀ j < 2 * (fmtRun tiny).w,
      a ≠ tiny.regF.fmtDst.toNat + r * tiny.regF.fmtDstStride.toNat + j := by decide +kernel
/-- The clause that refuses another size. -/
theorem witness_Yuy2RepacksPixelPairs_size : let s := { tiny with regF := { tiny.regF with fmtDstW := 4 } }
    s.mem.wf ∧ formatSound s ∧ (fmtRun s).dw ≠ (fmtRun s).w := by decide +kernel
/-- A luma-only 4x4 picture, its target ending with the last byte of memory. -/
theorem witness_Yvu9WritesThreeContiguousPlanes :
    let s := { built (put 0x100 [0x1000, 4, 4, 4] []) with
               regF := { tiny.regF with fmtDst := 0xFFEE, fmtDstW := 4, fmtDstH := 4 } }
    let f := fmtRun s
    s.mem.wf ∧ formatSound s ∧ f.dw = f.w ∧ f.dh = f.h ∧ f.w % 4 = 0 ∧ f.h % 4 = 0 ∧
      s.regF.fmtDstStride.toNat = f.w ∧
      s.regF.fmtDst.toNat + f.w * f.h + 2 * (f.w / 4 * (f.h / 4)) = s.params.memSize ∧
      ∀ a ∈ sourceCells f, a < s.regF.fmtDst.toNat := by decide +kernel

/-! ### Unit D -/

/-- A fresh start, a start from the checkpoint, and a start with a B picture. -/
theorem witness_DecodeGobEntersItsLoop_fresh : startSound false (lone 0 0 []) := by
  refine ⟨?_, ?_, ?_, ?_, ?_, ?_, ?_, ?_, ?_, ?_, ?_⟩ <;> decide +kernel
theorem witness_DecodeGobEntersItsLoop_resumed : startSound false { lone 0 0 [] with ck := ⟨0, 0, 0, 9, true⟩ } := by
  refine ⟨?_, ?_, ?_, ?_, ?_, ?_, ?_, ?_, ?_, ?_, ?_⟩ <;> decide +kernel
theorem witness_DecodeGobEntersItsLoop_pair : startSound false (pair 0 0 []) ∧ gobUseB false (pair 0 0 []) = true := by
  refine ⟨⟨?_, ?_, ?_, ?_, ?_, ?_, ?_, ?_, ?_, ?_, ?_⟩, ?_⟩ <;> decide +kernel
/-- VD7, a mode that is refused (VD2), and a restored cursor outside the GOB. -/
theorem witness_DecodeGobEntersItsLoop_refused :
    ¬startSound false { lone 0 0 [] with mem := put 0x184 [0x00020003] (lone 0 0 []).mem } ∧
    ¬startSound false { lone 0 0 [] with regD := { (lone 0 0 []).regD with dmode := 5 } } ∧
    ¬startSound false { lone 0 0 [] with ck := ⟨0, 0, 1, 0, true⟩ } :=
  ⟨fun h => absurd h.2.2.1 (by decide +kernel),
   fun h => absurd ((h.2.2.2.1 rfl).1 (by decide +kernel)) (by decide +kernel),
   fun h => absurd (h.2.2.2.2.2.2.2.2.2.2 rfl) (by decide +kernel)⟩
/-- VD6: FIRSTROW 2, FIRSTCOL 1, ROWSTRIDE 3; and the last row that a 32-bit macroblock number reaches. -/
theorem witness_CursorWalksTheGobInRasterOrder :
    let g : GobDescr := { firstRow := 2, firstCol := 1, mbPerRow := 2, rowStride := 3, mbCount := 4 }
    (g.valid = true ∧ g.rowStride < 2 ^ 16 ∧ (g.firstRow + 3 / g.mbPerRow + 1) * g.rowStride ≤ 2 ^ 32) ∧
      (65535 + 1) * 65535 ≤ 2 ^ 32 := by decide

/-- What a concealment of s covers from a fresh start. -/
def covered (s : State) : List Mb :=
  let c := gobRun true s
  concealMbs c s (c.gob.mbCount - (gobStart c.gob s.ck).loop.toNat) (gobStart c.gob s.ck)

/-- The macroblock it consists of for `lone`. -/
def only (s : State) : Mb := { run := gobRun true s, d := 0x200, col := 0, row := 0 }

theorem witness_ConcealGobCompletes : let s := lone 0x1004 0 []
    s.mem.wf ∧ startSound true s ∧ s.ck.valid = false ∧ covered s = [only s] ∧
      ∀ m ∈ covered s, m.d % 4 = 0 ∧ m.d + 12 ≤ s.params.memSize ∧ fits (gobRun true s) (unitSize s) m.col m.row := by
  refine ⟨?_, ⟨?_, ?_, ?_, ?_, ?_, ?_, ?_, ?_, ?_, ?_, ?_⟩, ?_, ?_, ?_⟩ <;> decide +kernel

/-- The same at mismatched geometry. -/
theorem witness_ConcealmentReproducesTheReference_mismatch :
    let s := { lone 0 0 [] with mem := put 0x144 [32] (lone 0 0 []).mem }
    s.mem.wf ∧ startSound true s ∧ (gobRun true s).geomFail = true ∧ covered s = [only s] ∧
      (∀ m ∈ covered s, m.d % 4 = 0 ∧ m.d + 12 ≤ s.params.memSize ∧ fits (gobRun true s) (unitSize s) m.col m.row) ∧
      ((covered s).flatMap fun m => bytesAt m.d 12 ++ mbSamples m (unitSize s) (gobRun true s).newPic).Nodup := by
  refine ⟨?_, ⟨?_, ?_, ?_, ?_, ?_, ?_, ?_, ?_, ?_, ?_, ?_⟩, ?_, ?_, ?_, nodup_of_rising ?_⟩ <;> decide +kernel

theorem lone_samples_apart : (∀ a ∈ mbSamples (only (lone 0x1004 0 [])) 16 (gobRun true (lone 0x1004 0 [])).oldPic, 0x2000 ≤ a) ∧
    ∀ a ∈ bytesAt 0x200 12 ++ mbSamples (only (lone 0x1004 0 [])) 16 (gobRun true (lone 0x1004 0 [])).newPic, a < 0x2000 := by
  decide +kernel

theorem witness_ConcealmentReproducesTheReference : let s := lone 0x1004 0 []
    let c := gobRun true s
    ((covered s).flatMap fun m => bytesAt m.d 12 ++ mbSamples m (unitSize s) c.newPic).Nodup ∧ c.geomFail = false ∧
      ∀ m ∈ covered s, ∀ a ∈ mbSamples m (unitSize s) c.oldPic, ∀ m' ∈ covered s,
        a ∉ bytesAt m'.d 12 ∧ a ∉ mbSamples m' (unitSize s) c.newPic := by
  refine ⟨nodup_of_rising (by decide +kernel), by decide +kernel, ?_⟩
  have h : covered (lone 0x1004 0 []) = [only (lone 0x1004 0 [])] := by decide +kernel
  intro m hm a ha m' hm'
  rw [h, List.mem_singleton] at hm hm'
  subst hm hm'
  have h1 := lone_samples_apart.1 a ha
  constructor <;> intro h2
  · have := lone_samples_apart.2 a (List.mem_append_left _ h2); omega
  · have := lone_samples_apart.2 a (List.mem_append_right _ h2); omega

/-! The macroblock in hand of `lone`, `asked` and `unit32`. -/

theorem apart {l : List Nat} {d : Nat} (hl : ∀ b ∈ l, 0x1000 ≤ b) (hd : d + 128 ≤ 0x1000) : ∀ a ∈ bytesAt d 128, a ∉ l := by
  intro a ha hb
  obtain ⟨i, hi, rfl⟩ := List.mem_map.1 ha
  have := hl _ hb
  have := List.mem_range.1 hi
  omega

/-- The command `lone` runs, `asked` runs and `unit32` runs. -/
def pairGob : GobRun :=
  { placedGob with useB := true, bPic := { placedPicture with y := { placedPicture.y with base := 0x3000 } } }
def picture32 : Picture := { placedPicture with y := { base := 0x1000, width := 32, height := 32, stride := 32 } }
def unitGob : GobRun := { placedGob with newPic := picture32, oldPic := picture32 }

/-- The only macroblock of each. -/
def mbOf (c : GobRun) : Mb := { run := c, d := 0x200, col := 0, row := 0 }

/-- mbSound does not look at memory or at the registers but DMODE. -/
theorem mbSound_congr {s t : State} {m : Mb} (hp : t.params = s.params) (hr : t.modeRru = s.modeRru) (h : mbSound s m) :
    mbSound t m := by
  have hu : unitSize t = unitSize s := by rw [unitSize, unitSize, hr]
  unfold mbSound pictureSound planeSound at *
  rw [hp, hr, hu]
  exact h

/-- A state with the parameters and DMODE of the three. -/
def bare (dmode : BitVec 4) : State := { built [] with regD := { State.reset.regD with dmode := dmode } }

theorem mbSound_lone : mbSound (bare 0) (mbOf placedGob) := by
  refine ⟨?_, ?_, ?_, ?_, ?_, fun a ha => ⟨apart ?_ ?_ a ha, fun h => absurd h ?_⟩⟩ <;> decide +kernel
theorem mbSound_asked : mbSound (bare 1) (mbOf pairGob) := by
  refine ⟨?_, ?_, ?_, ?_, ?_, fun a ha => ⟨apart ?_ ?_ a ha, fun _ => apart ?_ ?_ a ha⟩⟩ <;> decide +kernel
theorem mbSound_unit : mbSound (bare 4) (mbOf unitGob) := by
  refine ⟨?_, ?_, ?_, ?_, ?_, fun a ha => ⟨apart ?_ ?_ a ha, fun h => absurd h ?_⟩⟩ <;> decide +kernel
theorem samples_lone : (mbSamples (mbOf placedGob) 16 placedGob.newPic).Nodup := nodup_of_rising (by decide +kernel)
theorem samples_unit : (mbSamples (mbOf unitGob) 32 unitGob.newPic).Nodup := nodup_of_rising (by decide +kernel)
theorem samples_asked : (mbSamples (mbOf pairGob) 16 pairGob.bPic).Nodup ∧
    ∀ a ∈ mbSamples (mbOf pairGob) 16 pairGob.bPic, a ∉ mbSamples (mbOf pairGob) 16 pairGob.newPic := by
  have h1 : ∀ a ∈ mbSamples (mbOf pairGob) 16 pairGob.bPic, 0x3000 ≤ a := by decide +kernel
  have h2 : ∀ a ∈ mbSamples (mbOf pairGob) 16 pairGob.newPic, a < 0x3000 := by decide +kernel
  exact ⟨nodup_of_rising (by decide +kernel), fun a ha hb => by have := h1 a ha; have := h2 a hb; omega⟩

theorem witness_MbSkipCompletes : let s := lone 0 0 []
    let m := mbOf placedGob
    s.run = .gob placedGob ∧ cursorMb placedGob s = m ∧ s.mem.wf ∧ mbSound s m ∧ s.modeRru = false ∧
      (mbSamples m 16 placedGob.newPic).Nodup ∧ placedGob.useB = false :=
  ⟨rfl, rfl, by decide +kernel, mbSound_congr rfl rfl mbSound_lone, rfl, samples_lone, rfl⟩
/-- With useB. -/
theorem witness_MbSkipCompletes_pair : let s := asked 2
    let m := mbOf pairGob
    s.run = .gob pairGob ∧ cursorMb pairGob s = m ∧ s.mem.wf ∧ mbSound s m ∧ pairGob.useB = true ∧
      pairGob.geomFail = false ∧ s.modeRru = false ∧ (mbSamples m 16 pairGob.newPic).Nodup ∧
      (mbSamples m 16 pairGob.bPic).Nodup ∧ ∀ a ∈ mbSamples m 16 pairGob.bPic, a ∉ mbSamples m 16 pairGob.newPic :=
  ⟨rfl, rfl, by decide +kernel, mbSound_congr rfl rfl mbSound_asked, rfl, rfl, rfl, samples_lone, samples_asked⟩
/-- A reduced-resolution unit. -/
theorem witness_MbSkipCompletes_unit : let s := unit32 0 0 []
    let m := mbOf unitGob
    s.run = .gob unitGob ∧ cursorMb unitGob s = m ∧ s.mem.wf ∧ mbSound s m ∧ s.modeRru = true ∧
      (mbSamples m 32 unitGob.newPic).Nodup :=
  ⟨rfl, rfl, by decide +kernel, mbSound_congr rfl rfl mbSound_unit, rfl, samples_unit⟩

/-- INTER with block 0 coded. -/
theorem witness_MbInterCompletes : let s := lone 0x1001 1 [1]
    let m := mbOf placedGob
    s.run = .gob placedGob ∧ cursorMb placedGob s = m ∧ s.mem.wf ∧ mbSound s m ∧ s.modeRru = false ∧
      codedOf s m 0 = true ∧
      (∀ n ∈ blocksInUse placedGob.color, codedOf s m n = true → mbBlockSound s m n (quantOf s m)) ∧ bBlocksSound s m :=
  ⟨rfl, rfl, by decide +kernel, mbSound_congr rfl rfl mbSound_lone, rfl, by decide +kernel, by decide +kernel,
   fun h => absurd h (by decide +kernel)⟩
/-- On the B path, with a block of the B set coded. -/
theorem witness_MbInterCompletes_pair : let s := asked 2
    let m := mbOf pairGob
    s.run = .gob pairGob ∧ cursorMb pairGob s = m ∧ s.mem.wf ∧ mbSound s m ∧ takesB s m = true ∧
      codedOf s m 8 = true ∧
      (∀ n ∈ blocksInUse pairGob.color, codedOf s m n = true → mbBlockSound s m n (quantOf s m)) ∧ bBlocksSound s m :=
  ⟨rfl, rfl, by decide +kernel, mbSound_congr rfl rfl mbSound_asked, by decide +kernel, by decide +kernel,
   by decide +kernel, fun _ => by decide +kernel⟩
/-- The two states above with what else this statement asks for; the second takes the B path. -/
theorem witness_InterSampleIsPredictionPlusResidual :
    (Instr.mbInter, McKind.inter) ∈ [(Instr.mbInter, McKind.inter), (.mbInterQ, .inter), (.mbInter4v, .inter4v)] ∧
      (mbSamples (mbOf placedGob) 16 placedGob.newPic).Nodup ∧ placedGob.useB = false ∧ (asked 2).modeRru = false ∧
      (∀ a ∈ mbSamples (mbOf pairGob) 16 pairGob.bPic, a ∉ mbSamples (mbOf pairGob) 16 pairGob.newPic) ∧
      pairGob.useB = true ∧ (mbSamples (mbOf pairGob) 16 pairGob.bPic).Nodup ∧
      takesB (asked 2) (mbOf pairGob) = true :=
  ⟨by decide, samples_lone, rfl, rfl, samples_asked.2, rfl, samples_asked.1, by decide +kernel⟩
/-- INTRA in the plain mode. -/
theorem witness_MbIntraCompletes : let s := lone 0x1004 0 [10, 11, 12, 13]
    let m := mbOf placedGob
    s.run = .gob placedGob ∧ cursorMb placedGob s = m ∧ s.mem.wf ∧ mbSound s m ∧ s.modeRru = false ∧
      s.modeAic = false ∧ (∀ n ∈ blocksInUse placedGob.color, mbBlockSound s m n (quantOf s m)) ∧ bBlocksSound s m ∧
      (mbSamples m 16 placedGob.newPic).Nodup ∧ placedGob.useB = false :=
  ⟨rfl, rfl, by decide +kernel, mbSound_congr rfl rfl mbSound_lone, rfl, rfl, by decide +kernel,
   fun h => absurd h (by decide +kernel), samples_lone, rfl⟩
/-- With advanced intra, AICMODE 2, the last. -/
theorem witness_MbIntraCompletes_aic :
    let s := { lone 0x02001004 0 [10, 11, 12, 13] with regD := { (lone 0 0 []).regD with dmode := 2 } }
    let m := mbOf placedGob
    cursorMb placedGob s = m ∧ s.mem.wf ∧ mbSound s m ∧ s.modeRru = false ∧ s.modeAic = true ∧ aicModeOf s m = 2 ∧
      m.col < s.params.aicCols ∧ (∀ n ∈ blocksInUse placedGob.color, mbBlockSound s m n (quantOf s m)) ∧
      bBlocksSound s m ∧ (mbSamples m 16 placedGob.newPic).Nodup :=
  ⟨rfl, by decide +kernel, mbSound_congr rfl rfl mbSound_lone, rfl, rfl, by decide +kernel, by decide +kernel,
   by decide +kernel, fun h => absurd h (by decide +kernel), samples_lone⟩
/-- On the B path, an INTRA type in the plain mode. -/
theorem witness_MbIntraCompletes_pair : let s := asked 4
    let m := mbOf pairGob
    s.run = .gob pairGob ∧ cursorMb pairGob s = m ∧ s.mem.wf ∧ mbSound s m ∧ s.modeRru = false ∧ s.modeAic = false ∧
      takesB s m = true ∧ (∀ n ∈ blocksInUse pairGob.color, mbBlockSound s m n (quantOf s m)) ∧ bBlocksSound s m ∧
      pairGob.useB = true ∧ (mbSamples m 16 pairGob.newPic).Nodup ∧ (mbSamples m 16 pairGob.bPic).Nodup ∧
      ∀ a ∈ mbSamples m 16 pairGob.bPic, a ∉ mbSamples m 16 pairGob.newPic :=
  ⟨rfl, rfl, by decide +kernel, mbSound_congr rfl rfl mbSound_asked, rfl, rfl, by decide +kernel, by decide +kernel,
   fun _ => by decide +kernel, rfl, samples_lone, samples_asked.1, samples_asked.2⟩
/-- A reduced-resolution unit of an INTRA type. -/
theorem witness_ReducedResolutionUnitAddsUpsampledResidual : let s := unit32 0x1004 0 [10, 11, 12, 13]
    let m := mbOf unitGob
    s.run = .gob unitGob ∧ cursorMb unitGob s = m ∧ s.mem.wf ∧ mbSound s m ∧ s.modeRru = true ∧
      (∀ n ∈ blocksInUse unitGob.color, mbBlockSound s m n (quantOf s m)) ∧
      (mbSamples m 32 unitGob.newPic).Nodup :=
  ⟨rfl, rfl, by decide +kernel, mbSound_congr rfl rfl mbSound_unit, rfl, by decide +kernel, samples_unit⟩
/-- One of an INTER type with block 0 coded, the others not. -/
theorem witness_ReducedResolutionUnitAddsUpsampledResidual_inter : let s := unit32 0x1001 1 [1]
    let m := mbOf unitGob
    (Instr.mbInter, some McKind.inter) ∈ [(Instr.mbInter, some McKind.inter), (.mbInterQ, some .inter)] ∧
      s.run = .gob unitGob ∧ cursorMb unitGob s = m ∧ s.mem.wf ∧ mbSound s m ∧ s.modeRru = true ∧
      codedOf s m 0 = true ∧ codedOf s m 1 = false ∧
      (∀ n ∈ blocksInUse unitGob.color, codedOf s m n = true → mbBlockSound s m n (quantOf s m)) ∧
      (mbSamples m 32 unitGob.newPic).Nodup :=
  ⟨by decide, rfl, rfl, by decide +kernel, mbSound_congr rfl rfl mbSound_unit, rfl, by decide +kernel, by decide +kernel,
   by decide +kernel, samples_unit⟩
theorem witness_MbUnknownAbortsTheGob : (lone 0x1020 0 []).run = .gob placedGob := rfl

end Sys2Proof.Tests
end

section
/-! The host's register accesses: which register an offset reaches, what a write of each of ID and CMD does, what they
read (10_state.md R21, R23, R26). -/

namespace Sys2Proof.Proofs

open Sys2Proof.Machine

/-! ### The window -/

/-- No two registers share an offset, and every offset of the table fits the window (10_state.md R21). -/
theorem regAt_offset (r : RegName) : regAt (BitVec.ofNat 9 r.offset) = some r := by
  cases r <;> decide

theorem offset_aligned (r : RegName) : (BitVec.ofNat 9 r.offset).toNat % 4 = 0 := by
  cases r <;> decide

theorem windowWrite_offset (r : RegName) (v : Word) (s : State) :
    windowWrite (BitVec.ofNat 9 r.offset) v s = .next (regWrite r v s) := by
  simp [windowWrite, -BitVec.toNat_ofNat, offset_aligned, regAt_offset]

/-- A write is the host's step, whoever else could move (log entry 1). -/
theorem step_write (offset : BitVec 9) (v : Word) (rest : List HostOp) (s : State) :
    step { s with script := .write offset v :: rest } = windowWrite offset v { s with script := rest } := rfl

/-- One step of a write to a register's offset is the write to that register. -/
theorem step_write_register (r : RegName) (v : Word) (rest : List HostOp) (s : State) :
    step { s with script := .write (BitVec.ofNat 9 r.offset) v :: rest } =
      .next (regWrite r v { s with script := rest }) := by
  rw [step_write, windowWrite_offset]

/-! ### Reads and writes of a register -/

/-- A register that is not volatile, and is not STATUS, reads its value in a busy device too (10_state.md R22). -/
theorem regRead_of_not_volatile {r : RegName} (hv : r.volatile = false) (hr : r ≠ .status) (s : State) :
    regRead r s = regValue r s := by
  simp [regRead, hv, hr]

/-- ID holds nothing a write could change, busy or not (10_state.md R21: an RO row). -/
theorem regWrite_id (v : Word) (s : State) : regWrite .id v s = s := by
  cases h : s.busy <;> simp [regWrite, regStore, h]

theorem writeCmd_of_ready {s : State} (hb : s.busy = false) (hf : s.fault.pending = false) (v : Word) :
    writeCmd v s = { s with run := .command v } := by
  simp [writeCmd, hb, hf]

theorem writeCmd_of_busy_or_pending {s : State} (h : s.busy = true ∨ s.fault.pending = true) (v : Word) :
    writeCmd v s = s := by
  simp [writeCmd, h]

/-! ### The statements -/

/-- Settles O10. -/
theorem identificationIsConstant : Obligations.IdentificationIsConstant := by
  intro s v rest
  have hread : regRead .id s = regValue .id s := regRead_of_not_volatile rfl (by decide) s
  have hwrite := step_write_register .id v rest s
  rw [regWrite_id] at hwrite
  exact ⟨hread, hwrite⟩

/-- Settles O11: BUSY and FAULT decide which branch of the CMD write is taken. -/
theorem cmdWriteStartsOrIsIgnored : Obligations.CmdWriteStartsOrIsIgnored := by
  intro s v rest u
  have hwrite : step { s with script := .write 0x00C v :: rest } = .next (writeCmd v u) :=
    step_write_register .cmd v rest s
  refine ⟨?starts, ?ignored, ?reads⟩
  case starts =>
    rintro ⟨hidle, hclear⟩
    have hready : writeCmd v u = { u with run := .command v } :=
      writeCmd_of_ready (s := u) hidle hclear v
    exact ⟨by rw [hwrite, hready], rfl⟩
  case ignored =>
    intro hblocked
    have hstay : writeCmd v u = u := writeCmd_of_busy_or_pending (s := u) hblocked v
    rw [hwrite, hstay]
  case reads => exact regRead_of_not_volatile rfl (by decide) s

end Sys2Proof.Proofs
end

section
/-! The window at any offset: an aligned access reaches the register there or finds none, every other access is refused
(20_memory.md R72, 10_state.md R21). -/

namespace Sys2Proof.Proofs

open Sys2Proof.Machine

/-! ### Which register an offset holds -/

theorem regAt_eq_some_iff {offset : BitVec 9} {r : RegName} : regAt offset = some r ↔ r.offset = offset.toNat := by
  constructor
  · intro hfound
    simpa using List.find?_some hfound
  · intro hoffset
    have hat : regAt (BitVec.ofNat 9 r.offset) = some r := regAt_offset r
    rwa [hoffset, BitVec.ofNat_toNat, BitVec.setWidth_eq] at hat

theorem regAt_eq_none_iff {offset : BitVec 9} : regAt offset = none ↔ ∀ r : RegName, r.offset ≠ offset.toNat := by
  simp only [Option.eq_none_iff_forall_ne_some, ne_eq, regAt_eq_some_iff]

/-! ### An access by what it finds at its offset -/

theorem windowWrite_misaligned {offset : BitVec 9} (h : offset.toNat % 4 ≠ 0) (v : Word) (s : State) :
    windowWrite offset v s = .refused (.windowAccess offset) := if_pos h

theorem windowRead_misaligned {offset : BitVec 9} (h : offset.toNat % 4 ≠ 0) (s : State) :
    windowRead offset s = .refused (.windowAccess offset) := if_pos h

theorem windowWrite_register {offset : BitVec 9} {r : RegName} (ha : offset.toNat % 4 = 0)
    (hr : regAt offset = some r) (v : Word) (s : State) : windowWrite offset v s = .next (regWrite r v s) := by
  simp [windowWrite, ha, hr]

theorem windowRead_register {offset : BitVec 9} {r : RegName} (ha : offset.toNat % 4 = 0)
    (hr : regAt offset = some r) (s : State) :
    windowRead offset s = .next { drawn s with readData := regRead r s } := by
  simp [windowRead, ha, hr]

theorem windowWrite_no_register {offset : BitVec 9} (ha : offset.toNat % 4 = 0) (hr : regAt offset = none) (v : Word)
    (s : State) : windowWrite offset v s = .next s := by
  simp [windowWrite, ha, hr]

theorem windowRead_no_register {offset : BitVec 9} (ha : offset.toNat % 4 = 0) (hr : regAt offset = none) (s : State) :
    windowRead offset s = .next { s with readData := 0 } := by
  simp [windowRead, ha, hr]

/-! ### The host's step -/

theorem step_read (offset : BitVec 9) (rest : List HostOp) (s : State) :
    step { s with script := .read offset :: rest } = windowRead offset { s with script := rest } := rfl

theorem step_narrow (offset : BitVec 9) (n : Nat) (rest : List HostOp) (s : State) :
    step { s with script := .narrow offset n :: rest } = .refused (.windowAccess offset) := rfl

/-- What the host has yet to do is outside the device, so no register shows it. -/
theorem regRead_script (r : RegName) (rest : List HostOp) (s : State) :
    regRead r { s with script := rest } = regRead r s := rfl

/-! ### The statement -/

/-- Settles O14: an aligned offset holds exactly one register or none, and the access answers in either case. -/
theorem windowAccessIsAlignedOrRefused : Obligations.WindowAccessIsAlignedOrRefused := by
  intro s offset v n rest
  rw [step_narrow, step_write, step_read]
  refine ⟨rfl, fun hmis => ⟨windowWrite_misaligned hmis v _, windowRead_misaligned hmis _⟩, fun ha => ?aligned⟩
  case aligned =>
    cases hr : regAt offset with
    | some r =>
      have honly : ∀ r' : RegName, r'.offset = offset.toNat → r' = r := fun r' h' =>
        Option.some.inj ((regAt_eq_some_iff.2 h').symm.trans hr)
      refine ⟨⟨_, windowWrite_register ha hr v _, ?written⟩, ⟨_, windowRead_register ha hr _, ?returned⟩, ?vacant⟩
      case written =>
        intro r' h'
        rw [honly r' h']
      case returned =>
        intro r' h'
        rw [honly r' h', regRead_script]
      case vacant =>
        intro hnone
        exact absurd (regAt_eq_some_iff.1 hr) (hnone r)
    | none =>
      have hvacant : ∀ r : RegName, r.offset ≠ offset.toNat := regAt_eq_none_iff.1 hr
      have hwrite := windowWrite_no_register ha hr v { s with script := rest }
      have hread := windowRead_no_register ha hr { s with script := rest }
      exact ⟨⟨_, hwrite, fun r h => absurd h (hvacant r)⟩, ⟨_, hread, fun r h => absurd h (hvacant r)⟩,
        fun _ => ⟨hwrite, hread⟩⟩

end Sys2Proof.Proofs
end

section
/-! Which command words are legal, and the turn of one that is not (30_encoding.md R101 to R106). -/

namespace Sys2Proof.Proofs

open Sys2Proof.Machine Sys2Proof.Safety

/-! ### Legal words -/

theorem withNoFlag_decodes_iff {f0 f1 : Bool} {i : Instr} :
    (∃ j, withNoFlag f0 f1 i = .ok j) ↔ f0 = false ∧ f1 = false := by
  cases f0 <;> cases f1 <;> simp [withNoFlag]

theorem withF0_decodes_iff {f0 f1 : Bool} {i : Bool → Instr} : (∃ j, withF0 f0 f1 i = .ok j) ↔ f1 = false := by
  cases f1 <;> simp [withF0]

/-- The opcodes that define no flag (R102, R103). -/
def noFlagOpcodes : List Nat := [0x00, 0x01, 0x02, 0x20, 0x21, 0x22, 0x23, 0x30, 0x31, 0x41, 0x42]

/-- The opcodes that define F0 only (R102, R103). -/
def f0Opcodes : List Nat := [0x10, 0x11, 0x12, 0x13, 0x40]

/-- `legalWord` below its zero field: one of the seventeen opcodes, with no flag set that it does not define. -/
def legalOpcode (opc : Nat) (f0 f1 : Bool) : Prop :=
  (opc ∈ noFlagOpcodes ∧ f0 = false ∧ f1 = false) ∨ (opc ∈ f0Opcodes ∧ f1 = false) ∨ opc = 0x14

theorem legalWord_iff {w : Word} : legalWord w ↔ cmdZero w = 0 ∧ legalOpcode (cmdOpc w) (cmdF0 w) (cmdF1 w) :=
  Iff.rfl

/-- One case for each row of the opcode map, of which the eighth (RRU_UPADD) takes any flags, and a last one for every
other opcode. -/
theorem decodeOpc_decodes_iff {opc : Nat} {f0 f1 : Bool} :
    (∃ i, decodeOpc opc f0 f1 = .ok i) ↔ legalOpcode opc f0 f1 := by
  unfold decodeOpc
  split
  case h_8 => exact ⟨fun _ => .inr (.inr rfl), fun _ => ⟨_, rfl⟩⟩
  case h_18 =>
    have hother : ¬legalOpcode opc f0 f1 := by simp_all [legalOpcode, noFlagOpcodes, f0Opcodes]
    exact ⟨fun ⟨_, h⟩ => (nomatch h), fun h => absurd h hother⟩
  all_goals simp [legalOpcode, noFlagOpcodes, f0Opcodes, withNoFlag_decodes_iff, withF0_decodes_iff]

theorem decodeCommand_decodes_iff {w : Word} : (∃ i, decodeCommand w = .ok i) ↔ legalWord w := by
  rw [legalWord_iff, ← decodeOpc_decodes_iff]
  by_cases hzero : cmdZero w = 0 <;> simp [decodeCommand, hzero]

/-! ### The turn of an illegal word -/

theorem commandTurn_of_illegal {w : Word} (hw : ¬legalWord w) (s : State) :
    commandTurn w s = .next (raise ⟨.opcode, w⟩ s) := by
  cases hd : decodeCommand w with
  | ok i => exact absurd (decodeCommand_decodes_iff.1 ⟨i, hd⟩) hw
  | error e => simp [commandTurn, hd]

/-- Settles O3: the write starts the word as a command whatever it is, and the turn that follows finds no instruction
in it. -/
theorem illegalWordOnlyRaisesOpcodeFault : Obligations.IllegalWordOnlyRaisesOpcodeFault := by
  intro w s rest
  refine ⟨decodeCommand_decodes_iff, fun hw hidle hclear => ⟨?started, ?raised⟩⟩
  case started =>
    have hready := writeCmd_of_ready (s := { s with script := rest }) hidle hclear w
    exact (step_write_register .cmd w rest s).trans (congrArg Host.Outcome.next hready)
  case raised => exact commandTurn_of_illegal hw _

end Sys2Proof.Proofs
end

section
/-! The system commands: the end they share, and the one change each makes beside it (40_idct_engine.md R141, R142,
R184). -/

namespace Sys2Proof.Proofs

open Sys2Proof.Machine Sys2Proof.Safety

/-! ### What each command does -/

/-- The end of a command that ran to OK (60_exceptions.md R333), in the words of the statements. -/
theorem finish_ok (s : State) : finish .ok s = ended s := rfl

theorem exec_nop (s : State) : exec .nop s = .next (ended s) :=
  congrArg Host.Outcome.next (finish_ok s)

theorem exec_initTables (s : State) : exec .initTables s = .next { ended s with tablesValid := true } :=
  congrArg Host.Outcome.next (finish_ok { s with tablesValid := true })

/-- The end of the command touches no array, so the cache may be cleared after it. -/
theorem ended_clearAicc (s : State) : ended (clearAicc s) = clearAicc (ended s) := rfl

theorem exec_aicFlush (s : State) : exec .aicFlush s = .next (clearAicc (ended s)) :=
  congrArg Host.Outcome.next ((finish_ok (clearAicc s)).trans (ended_clearAicc s))

/-! ### The statement -/

/-- Settles O31: no command of the three looks at the state before it acts, so each ends with OK from any. -/
theorem systemCommandsComplete : Obligations.SystemCommandsComplete := by
  intro s t
  refine ⟨⟨?nopWord, exec_nop s⟩, ⟨?initTablesWord, exec_initTables s⟩, ?aicFlushWord, exec_aicFlush s⟩
  case nopWord => decide
  case initTablesWord => decide
  case aicFlushWord => decide

end Sys2Proof.Proofs
end

section
/-! Decoding and encoding undo each other (30_encoding.md R101 to R106, R121, R122). -/

namespace Sys2Proof.Proofs

open Sys2Proof.Machine Sys2Proof.Safety Sys2Proof.Config

/-! ### The fields of a command word -/

theorem toNat_cmdWord {opc : Nat} (ho : opc < 256) (f0 f1 : Bool) :
    (cmdWord opc f0 f1).toNat = opc + (if f0 then 256 else 0) + (if f1 then 512 else 0) := by
  rw [cmdWord, BitVec.toNat_ofNat]
  refine Nat.mod_eq_of_lt ?_
  split <;> split <;> omega

theorem cmdZero_cmdWord {opc : Nat} (ho : opc < 256) (f0 f1 : Bool) : cmdZero (cmdWord opc f0 f1) = 0 := by
  rw [cmdZero, toNat_cmdWord ho]
  split <;> split <;> omega

theorem cmdOpc_cmdWord {opc : Nat} (ho : opc < 256) (f0 f1 : Bool) : cmdOpc (cmdWord opc f0 f1) = opc := by
  rw [cmdOpc, toNat_cmdWord ho]
  split <;> split <;> omega

theorem getLsbD_eq_div_mod (w : Word) (n : Nat) : w.getLsbD n = decide (w.toNat / 2 ^ n % 2 = 1) := by
  rw [BitVec.getLsbD, Nat.testBit_eq_decide_div_mod_eq]

theorem cmdF0_cmdWord {opc : Nat} (ho : opc < 256) (f0 f1 : Bool) : cmdF0 (cmdWord opc f0 f1) = f0 := by
  rw [cmdF0, getLsbD_eq_div_mod, toNat_cmdWord ho]
  cases f0 <;> cases f1 <;> simp <;> omega

theorem cmdF1_cmdWord {opc : Nat} (ho : opc < 256) (f0 f1 : Bool) : cmdF1 (cmdWord opc f0 f1) = f1 := by
  rw [cmdF1, getLsbD_eq_div_mod, toNat_cmdWord ho]
  cases f0 <;> cases f1 <;> simp <;> omega

theorem decodeCommand_cmdWord {opc : Nat} (ho : opc < 256) (f0 f1 : Bool) :
    decodeCommand (cmdWord opc f0 f1) = decodeOpc opc f0 f1 := by
  simp [decodeCommand, cmdZero_cmdWord ho, cmdOpc_cmdWord ho, cmdF0_cmdWord ho, cmdF1_cmdWord ho]

/-- A word whose ZERO field is 0 is its opcode and its flags (R101). -/
theorem cmdWord_of_fields {w : Word} (hz : cmdZero w = 0) : cmdWord (cmdOpc w) (cmdF0 w) (cmdF1 w) = w := by
  apply BitVec.eq_of_toNat_eq
  have hopc : cmdOpc w < 256 := Nat.mod_lt _ (by decide)
  rw [toNat_cmdWord hopc]
  simp only [cmdZero, cmdOpc, cmdF0, cmdF1, getLsbD_eq_div_mod, decide_eq_true_eq] at *
  split <;> split <;> omega

/-! ### Type tags -/

/-- The tags of R121 with a handler of their own. -/
def ownTags : List (Byte × Instr) :=
  [(0, .mbSkip), (1, .mbInter), (2, .mbInterQ), (3, .mbInter4v), (4, .mbIntra), (5, .mbIntraQ)]

theorem decodeTag_own (legacy : LegacyMap) : ∀ p ∈ ownTags, decodeTag legacy p.1 = p.2 := by
  simp [ownTags, decodeTag]

theorem exists_ownTag {t : Byte} (ht : t.toNat < 6) : ∃ i, (t, i) ∈ ownTags := by
  have hcases : t = 0 ∨ t = 1 ∨ t = 2 ∨ t = 3 ∨ t = 4 ∨ t = 5 := by bv_omega
  rcases hcases with rfl | rfl | rfl | rfl | rfl | rfl <;> simp [ownTags]

theorem decodeTag_of_le (legacy : LegacyMap) {t : Byte} (h : 6 ≤ t.toNat) :
    decodeTag legacy t =
      if t.toNat ≤ 15 then ((legacy261 legacy t).map baseInstr).getD (.mbUnknown t) else .mbUnknown t := by
  unfold decodeTag
  split
  case h_7 => rfl
  all_goals omega

theorem encode_own : ∀ p ∈ ownTags, encode p.2 = .tag p.1 := by
  simp [ownTags, encode]

/-- An own tag's handler is well formed whatever LEGACY261 is. -/
theorem wellFormed_own (legacy : LegacyMap) : ∀ p ∈ ownTags, p.2.wellFormed legacy = true := by
  simp [ownTags, Instr.wellFormed]

theorem wellFormed_mbUnknown_iff {legacy : LegacyMap} {t : Byte} :
    (Instr.mbUnknown t).wellFormed legacy = true ↔
      6 ≤ t.toNat ∧ (15 < t.toNat ∨ legacy261 legacy t = none) := by
  simp [Instr.wellFormed]

theorem decodeTag_of_wellFormed {legacy : LegacyMap} {t : Byte} (h : (Instr.mbUnknown t).wellFormed legacy = true) :
    decodeTag legacy t = .mbUnknown t := by
  obtain ⟨hle, hfar⟩ := wellFormed_mbUnknown_iff.1 h
  rw [decodeTag_of_le legacy hle]
  rcases hfar with hfar | hnone
  · exact if_neg (by omega)
  · simp [hnone]

/-- A tag of 6..255 is unknown, and then well formed, or one LEGACY261 gives a base type (R122). -/
theorem decodeTag_cases (legacy : LegacyMap) {t : Byte} (h : 6 ≤ t.toNat) :
    (decodeTag legacy t = .mbUnknown t ∧ (Instr.mbUnknown t).wellFormed legacy = true) ∨
      ∃ b, t.toNat ≤ 15 ∧ legacy261 legacy t = some b ∧ decodeTag legacy t = baseInstr b := by
  rw [decodeTag_of_le legacy h, wellFormed_mbUnknown_iff]
  by_cases hfar : 15 < t.toNat
  · exact .inl ⟨if_neg (by omega), h, .inl hfar⟩
  · rw [if_pos (by omega : t.toNat ≤ 15)]
    cases hb : legacy261 legacy t with
    | none => exact .inl ⟨rfl, h, .inr rfl⟩
    | some b => exact .inr ⟨b, by omega, rfl, rfl⟩

theorem wellFormed_baseInstr (legacy : LegacyMap) (b : BaseType) : (baseInstr b).wellFormed legacy = true := by
  cases b <;> rfl

/-! ### Commands -/

/-- The opcode and the flags of a command (R102, R103), and nothing for a tag. -/
def commandFields : Instr → Option (Nat × Bool × Bool)
  | .nop => some (0x00, false, false)
  | .initTables => some (0x01, false, false)
  | .aicFlush => some (0x02, false, false)
  | .recon dc8 => some (0x10, dc8, false)
  | .reconAdd dc8 => some (0x11, dc8, false)
  | .reconS16 dc8 => some (0x12, dc8, false)
  | .reconAic dc8 => some (0x13, dc8, false)
  | .rruUpadd nopred small => some (0x14, nopred, small)
  | .dbkEdge => some (0x20, false, false)
  | .dbkEdgeRru => some (0x21, false, false)
  | .deblockPic => some (0x22, false, false)
  | .deblockRruPic => some (0x23, false, false)
  | .decodeGob => some (0x30, false, false)
  | .concealGob => some (0x31, false, false)
  | .convertRgb555 sel => some (0x40, sel, false)
  | .convertYuy2 => some (0x41, false, false)
  | .convertYvu9 => some (0x42, false, false)
  | _ => none

theorem encode_command {i : Instr} {f : Nat × Bool × Bool} (h : commandFields i = some f) :
    encode i = .command (cmdWord f.1 f.2.1 f.2.2) := by
  cases i <;> cases h <;> rfl

theorem wellFormed_command {i : Instr} {f : Nat × Bool × Bool} (h : commandFields i = some f) (legacy : LegacyMap) :
    i.wellFormed legacy = true := by
  cases i <;> cases h <;> rfl

theorem decodeOpc_fields {i : Instr} {f : Nat × Bool × Bool} (h : commandFields i = some f) :
    f.1 < 256 ∧ decodeOpc f.1 f.2.1 f.2.2 = .ok i := by
  cases i <;> cases h <;> exact ⟨by simp, rfl⟩

theorem withNoFlag_eq_ok {f0 f1 : Bool} {i j : Instr} :
    withNoFlag f0 f1 i = .ok j ↔ f0 = false ∧ f1 = false ∧ j = i := by
  cases f0 <;> cases f1 <;> simp [withNoFlag, eq_comm]

theorem withF0_eq_ok {f0 f1 : Bool} {i : Bool → Instr} {j : Instr} :
    withF0 f0 f1 i = .ok j ↔ f1 = false ∧ j = i f0 := by
  cases f1 <;> simp [withF0, eq_comm]

/-- One case for each row of the opcode map, of which the eighth (RRU_UPADD) takes any flags; no other opcode decodes. -/
theorem fields_of_decodeOpc {opc : Nat} {f0 f1 : Bool} {i : Instr} (h : decodeOpc opc f0 f1 = .ok i) :
    commandFields i = some (opc, f0, f1) := by
  unfold decodeOpc at h
  split at h
  case h_8 => cases h; rfl
  case h_18 => cases h
  all_goals
    simp only [withNoFlag_eq_ok, withF0_eq_ok] at h
    simp [h, commandFields]

/-- The decoder of command words is the inverse of the encoder of commands. -/
theorem decodeCommand_eq_ok {w : Word} {i : Instr} :
    decodeCommand w = .ok i ↔ ∃ f, commandFields i = some f ∧ w = cmdWord f.1 f.2.1 f.2.2 := by
  constructor
  · intro h
    by_cases hz : cmdZero w = 0
    · have hopc : decodeOpc (cmdOpc w) (cmdF0 w) (cmdF1 w) = .ok i := by simpa [decodeCommand, hz] using h
      exact ⟨_, fields_of_decodeOpc hopc, (cmdWord_of_fields hz).symm⟩
    · simp [decodeCommand, hz] at h
  · rintro ⟨f, hf, rfl⟩
    obtain ⟨hlt, hdec⟩ := decodeOpc_fields hf
    exact (decodeCommand_cmdWord hlt _ _).trans hdec

/-- Every instruction is a command, one of the six handlers with a tag of their own, or an unknown tag. -/
theorem instr_cases (i : Instr) :
    (∃ f, commandFields i = some f) ∨ (∃ t, (t, i) ∈ ownTags) ∨ ∃ t, i = .mbUnknown t := by
  cases i <;> simp [commandFields, ownTags]

/-! ### The statements -/

/-- Settles O1: a command through its fields, a tag through the tag it is. -/
theorem decodeOfEncodeIsTheInstruction : Obligations.DecodeOfEncodeIsTheInstruction := by
  intro legacy i hwf
  rcases instr_cases i with ⟨f, hf⟩ | ⟨t, ht⟩ | ⟨t, rfl⟩
  · rw [encode_command hf]
    exact decodeCommand_eq_ok.2 ⟨f, hf, rfl⟩
  · rw [encode_own _ ht]
    exact congrArg Except.ok (decodeTag_own legacy _ ht)
  · exact congrArg Except.ok (decodeTag_of_wellFormed hwf)

/-- Settles O2: the code is a command word or a tag, and a tag is below 6, unknown or a second tag of a base type. -/
theorem legalCodeIsTheEncodingOfItsInstruction : Obligations.LegalCodeIsTheEncodingOfItsInstruction := by
  intro legacy c i h
  cases c with
  | command w =>
    obtain ⟨f, hf, rfl⟩ := decodeCommand_eq_ok.1 h
    exact ⟨wellFormed_command hf legacy, .inl (encode_command hf)⟩
  | tag t =>
    obtain rfl : decodeTag legacy t = i := Except.ok.inj h
    by_cases hlow : t.toNat < 6
    · obtain ⟨i, hi⟩ := exists_ownTag hlow
      rw [decodeTag_own legacy _ hi]
      exact ⟨wellFormed_own legacy _ hi, .inl (encode_own _ hi)⟩
    · rcases decodeTag_cases legacy (t := t) (by omega) with ⟨hd, hwf⟩ | ⟨b, hle, hb, hd⟩
      · rw [hd]
        exact ⟨hwf, .inl rfl⟩
      · rw [hd]
        exact ⟨wellFormed_baseInstr legacy b, .inr ⟨t, b, rfl, by omega, hle, hb, rfl⟩⟩

end Sys2Proof.Proofs
end

section
/-! The invariant: what a command, a macroblock and the host keep of it (10_state.md R42 to R46, 60_exceptions.md R334,
42_dispatcher.md R244). -/

namespace Sys2Proof.Proofs

open Sys2Proof.Machine Sys2Proof.Safety Sys2Proof.Config

/-! ### Changes that keep memory, arrays, latch and DBK_Q sound -/

/-- From s to t memory, the arrays and DBK_Q stay sound, and the fault latch is as it was. -/
structure SoundStep (s t : State) : Prop where
  mem : memorySound s → memorySound t
  arrays : arraysSound s → arraysSound t
  fault : t.fault = s.fault
  irq : t.irq.fault = s.irq.fault
  dbkQ : s.dbkQ.toNat ≤ 31 → t.dbkQ.toNat ≤ 31

theorem SoundStep.refl (s : State) : SoundStep s s := ⟨id, id, rfl, rfl, id⟩

theorem SoundStep.trans {s t u : State} (h : SoundStep s t) (h' : SoundStep t u) : SoundStep s u :=
  ⟨h'.mem ∘ h.mem, h'.arrays ∘ h.arrays, h'.fault.trans h.fault, h'.irq.trans h.irq, h'.dbkQ ∘ h.dbkQ⟩

theorem SoundStep.ofKept {s t : State} (h : Kept s t) : SoundStep s t :=
  ⟨h.mem, h.arrays, (congrArg State.fault h.rest).trans rfl, (congrArg (·.irq.fault) h.rest).trans rfl,
    fun hq => by rw [h.rest]; exact hq⟩

/-! ### The end of a command -/

theorem loopSound_of_not_gob {s : State} (h : ∀ c, s.run ≠ .gob c) : loopSound s := by
  intro c hc
  cases hr : s.run with
  | idle | command w => simp [loops, hr] at hc
  | gob c' => exact absurd hr (h c')

theorem code_range (n : FaultName) : 1 ≤ n.code.toNat ∧ n.code.toNat ≤ 14 := by
  cases n <;> decide

/-- Taking a fault makes the latch coherent whatever it was (60_exceptions.md R334). -/
theorem inv_raise {s u : State} (hi : Inv s) (h : SoundStep s u) (e : Raise) : Inv (raise e u) := by
  obtain ⟨hmem, harr, -, -, hq⟩ := hi
  refine ⟨h.mem hmem, h.arrays harr, ⟨rfl, ?_⟩, loopSound_of_not_gob (by simp), h.dbkQ hq⟩
  obtain ⟨hlo, hhi⟩ := code_range e.name
  exact (if_pos rfl).mpr ⟨hlo, hhi, rfl, rfl⟩

theorem inv_raiseInLoop {s u : State} (hi : Inv s) (h : SoundStep s u) (e : Raise) : Inv (raiseInLoop e u) :=
  inv_raise hi (h.trans ⟨id, id, rfl, rfl, id⟩) e

/-- A busy device has no fault latched, so both fault registers are 0 (60_exceptions.md R337). -/
theorem latch_clear {s : State} (hl : latchSound s) (hb : s.run ≠ .idle) :
    s.fault.pending = false ∧ s.irq.fault = false ∧ s.fault.code = 0 ∧ s.fault.info = 0 := by
  obtain ⟨hirq, hcase⟩ := hl
  cases hp : s.fault.pending with
  | true =>
    rw [if_pos hp] at hcase
    exact absurd hcase.2.2.2 hb
  | false =>
    rw [if_neg (by simp [hp])] at hcase
    exact ⟨rfl, hirq.trans hp, hcase⟩

theorem latchSound_of_clear {s : State} (hp : s.fault.pending = false) (hirq : s.irq.fault = false)
    (hcode : s.fault.code = 0) (hinfo : s.fault.info = 0) : latchSound s :=
  ⟨hirq.trans hp.symm, by rw [if_neg (by simp [hp])]; exact ⟨hcode, hinfo⟩⟩

theorem SoundStep.latch {s u : State} (h : SoundStep s u) (hl : latchSound s) (hb : s.run ≠ .idle) : latchSound u := by
  obtain ⟨hp, hirq, hcode, hinfo⟩ := latch_clear hl hb
  exact latchSound_of_clear (by rw [h.fault, hp]) (by rw [h.irq, hirq]) (by rw [h.fault, hcode]) (by rw [h.fault, hinfo])

theorem finish_irq_fault (c : ResultCode) (s : State) : (finish c s).irq.fault = s.irq.fault := by
  rw [finish_irq]
  split <;> rfl

theorem soundStep_finish (c : ResultCode) (s : State) : SoundStep s (finish c s) :=
  ⟨id, id, rfl, finish_irq_fault c s, id⟩

theorem inv_finish {s u : State} (hi : Inv s) (hb : s.run ≠ .idle) (h : SoundStep s u) (c : ResultCode) :
    Inv (finish c u) := by
  obtain ⟨hmem, harr, hlatch, -, hq⟩ := hi
  have hf := h.trans (soundStep_finish c u)
  exact ⟨hf.mem hmem, hf.arrays harr, hf.latch hlatch hb, loopSound_of_not_gob (by simp), hf.dbkQ hq⟩

/-! ### The filters of unit K and the copies of unit F stay below MEMSIZE -/

theorem below_filterPosition {tb : TableSource} {e : Edge} {q n k : Nat} {m : Memory}
    (hk : (e.b k).toNat < n ∧ (e.c k).toNat < n) (h : m.below n) : (filterPosition tb e q m k).below n :=
  Memory.below_write hk.2 (Memory.below_write hk.1 h _) _

theorem below_blendPosition {e : Edge} {n k : Nat} {m : Memory} (hk : (e.b k).toNat < n ∧ (e.c k).toNat < n)
    (h : m.below n) : (blendPosition e m k).below n :=
  Memory.below_write hk.2 (Memory.below_write hk.1 h _) _

theorem below_foldl {α : Type} {f : Memory → α → Memory} {n : Nat} {l : List α} {m : Memory}
    (hf : ∀ a ∈ l, ∀ k : Memory, k.below n → (f k a).below n) (h : m.below n) : (l.foldl f m).below n := by
  induction l generalizing m with
  | nil => exact h
  | cons a l ih => exact ih (fun b hb => hf b (by simp [hb])) (hf a (by simp) m h)

theorem toNat_lt_of_allIn {s : State} {l : List Int} (h : allIn s l) {a : Int} (ha : a ∈ l) :
    a.toNat < s.params.memSize := by
  have := h a ha
  omega

/-- Memory replaced by one that is canonical and below MEMSIZE where the memory before is. -/
theorem soundStep_mem {s : State} {m : Memory} (hw : s.mem.wf → m.wf)
    (hb : s.mem.below s.params.memSize → m.below s.params.memSize) : SoundStep s { s with mem := m } :=
  ⟨fun h => ⟨hw h.1, hb h.2⟩, id, rfl, rfl, id⟩

theorem soundStep_dbkQ (s : State) {q : Nat} (hq : q ≤ 31) : SoundStep s { s with dbkQ := BitVec.ofNat 32 q } := by
  refine ⟨id, id, rfl, rfl, fun _ => ?_⟩
  rw [BitVec.toNat_ofNat]
  omega

theorem soundStep_filterEdge {e : Edge} {q : Nat} {s t : State} (hq : q ≤ 31) (h : filterEdge e q s = .ok t) :
    SoundStep s t := by
  obtain ⟨hin, ht⟩ := filterEdge_eq_ok.1 h
  have hw : s.mem.wf → _ := fun hm => wf_filters (tb := s.params.tables) hm e q (List.range 8)
  have hb : s.mem.below s.params.memSize → _ := below_foldl (f := filterPosition s.params.tables e q) fun k hk m => by
    obtain ⟨hb, hc⟩ := edgeAddrs_mem (e := e) (List.mem_range.1 hk)
    exact below_filterPosition ⟨toNat_lt_of_allIn hin hb, toNat_lt_of_allIn hin hc⟩
  generalize (List.range 8).foldl (filterPosition s.params.tables e q) s.mem = m at hw hb ht
  rw [ht]
  exact (soundStep_dbkQ s hq).trans (soundStep_mem hw hb)

theorem soundStep_blendEdge {e : Edge} {n : Nat} {s t : State} (h : blendEdge e n s = .ok t) : SoundStep s t := by
  obtain ⟨hin, ht⟩ := blendEdge_eq_ok.1 h
  have hw : s.mem.wf → _ := fun hm => wf_blends hm e (List.range n)
  have hb : s.mem.below s.params.memSize → _ := below_foldl (f := blendPosition e) fun k hk m => by
    obtain ⟨hb, hc⟩ := blendAddrs_mem (e := e) (List.mem_range.1 hk)
    exact below_blendPosition ⟨toNat_lt_of_allIn hin hb, toNat_lt_of_allIn hin hc⟩
  generalize (List.range n).foldl (blendPosition e) s.mem = m at hw hb ht
  rw [ht]
  exact soundStep_mem hw hb

theorem soundStep_filterEdges {l : List (Edge × Nat)} {s t : State} (hl : ∀ p ∈ l, p.2 ≤ 31)
    (h : filterEdges l s = .ok t) : SoundStep s t := by
  induction l generalizing s with
  | nil => cases h; exact .refl _
  | cons p l ih =>
    obtain ⟨u, hu, ht⟩ := Checks.bind_eq_ok.1 h
    exact (soundStep_filterEdge (hl p (by simp)) hu).trans (ih (fun q hq => hl q (by simp [hq])) ht)

theorem soundStep_blendEdges {l : List (Edge × Nat)} {s t : State} (h : blendEdges l s = .ok t) : SoundStep s t := by
  induction l generalizing s with
  | nil => cases h; exact .refl _
  | cons p l ih =>
    obtain ⟨u, hu, ht⟩ := Checks.bind_eq_ok.1 h
    exact (soundStep_blendEdge hu).trans (ih ht)

/-- A coded macroblock of a validated grid has a quantiser of at most 31 (41_deblocking.md R207). -/
theorem dbkRun_quant_le {s : State} (h : deblockSound s 16 true) (r c : Nat)
    (hcoded : ((dbkRun s).mb r c).type ≠ 0) : ((dbkRun s).mb r c).quant ≤ 31 := by
  obtain ⟨-, -, -, -, hwords⟩ := h
  have hmb : (dbkRun s).mb r c ∈ (dbkRun s).mbs ∨ (dbkRun s).mb r c = { type := 0, quant := 0 } := by
    rw [DeblockRun.mb, List.getD_eq_getElem?_getD]
    cases hget : (dbkRun s).mbs[(dbkRun s).cols * r + c]? with
    | none => exact .inr rfl
    | some m => exact .inl (List.mem_of_getElem? hget)
  rcases hmb with hmem | hnone
  · obtain ⟨p, hp, heq⟩ := List.mem_map.1 hmem
    rw [← heq] at hcoded ⊢
    exact ((hwords p hp).2 rfl hcoded).2
  · exact absurd (by rw [hnone]) hcoded

theorem edgeQ_eq_some {p n : MbInfo} {q : Nat} (h : edgeQ p n = some q) :
    (n.type ≠ 0 ∧ q = n.quant) ∨ (p.type ≠ 0 ∧ q = p.quant) := by
  unfold edgeQ at h
  split at h
  · cases h
  · next hboth =>
    split at h
    · next hn => exact .inl ⟨hn, (Option.some.inj h).symm⟩
    · next hn => exact .inr ⟨fun hp => hboth ⟨hp, not_not.1 hn⟩, (Option.some.inj h).symm⟩

theorem normalEdges_quant_le {s : State} (h : deblockSound s 16 true) : ∀ p ∈ normalEdges (dbkRun s), p.2 ≤ 31 := by
  have hle : ∀ {r c r' c' q}, edgeQ ((dbkRun s).mb r c) ((dbkRun s).mb r' c') = some q → q ≤ 31 := by
    intro r c r' c' q hq
    rcases edgeQ_eq_some hq with ⟨hcoded, rfl⟩ | ⟨hcoded, rfl⟩ <;> exact dbkRun_quant_le h _ _ hcoded
  intro p hp
  simp only [normalEdges, normalPass1, normalPass2, List.mem_flatMap, List.mem_append, List.mem_filterMap,
    Option.ite_none_left_eq_some, Option.map_eq_some_iff] at hp
  obtain ⟨id, -, ⟨b, -, -, q, hq, rfl⟩ | ⟨b, -, -, q, hq, rfl⟩⟩ := hp <;> exact hle hq

theorem kept_checkThenCopy {s t : State} {n : Nat} {items : List (Int × (Memory → List Byte))}
    (h : checkThenCopy s n items = .ok t) (hl : ∀ p ∈ items, ∀ m, (p.2 m).length ≤ n) : Kept s t := by
  obtain ⟨ha, rfl⟩ := checkThenCopy_eq_ok.1 h
  refine ⟨rfl, fun hm => ⟨wf_copyItems hm.1 items, below_foldl (fun p hp m => ?_) hm.2⟩, id⟩
  exact Memory.below_writeAll fun q hq => Nat.lt_of_lt_of_le (placed_lt hq (hl p hp m)) (accessible_bound (ha p hp))

/-! ### What a command can do -/

/-- A command ended, with a result or with a fault, in a state that is sound where the state before it was. -/
def CommandEnds (s t : State) : Prop :=
  ∃ u, SoundStep s u ∧ ((∃ c, t = finish c u) ∨ ∃ e, t = raise e u)

theorem commandEnds_of_endCommand {s u t : State} {r : Except Raise State} (hu : SoundStep s u)
    (hr : ∀ v, r = .ok v → SoundStep u v) (h : endCommand u r = .next t) : CommandEnds s t := by
  rcases endCommand_cases h with ⟨v, hv, rfl⟩ | ⟨e, -, rfl⟩
  · exact ⟨v, hu.trans (hr v hv), .inl ⟨_, rfl⟩⟩
  · exact ⟨u, hu, .inr ⟨e, rfl⟩⟩

theorem inv_commandEnds {s t : State} (hi : Inv s) (hb : s.run ≠ .idle) (h : CommandEnds s t) : Inv t := by
  obtain ⟨u, hu, ⟨c, rfl⟩ | ⟨e, rfl⟩⟩ := h
  · exact inv_finish hi hb hu c
  · exact inv_raise hi hu e

/-- What a loop that may raise part-way leaves is sound, either way. -/
def leavesSound (s : State) : Partial State → Prop
  | .ok t => SoundStep s t
  | .error p => SoundStep s p.2

theorem leavesSound_concealLoop (c : GobRun) (n : Nat) (s : State) : leavesSound s (concealLoop c n s) := by
  induction n generalizing s with
  | zero => exact .refl s
  | succ n ih =>
    have hops := keeps_runOps (kept_concealOps (cursorMb c s) (unitSize s)) s
    rw [concealLoop]
    cases hr : runOps (concealOps (cursorMb c s) (unitSize s)) s with
    | error p =>
      rw [hr] at hops
      exact SoundStep.ofKept hops
    | ok t =>
      rw [hr] at hops
      have hcount : SoundStep s (countConcealed c t) := (SoundStep.ofKept hops).trans ⟨id, id, rfl, rfl, id⟩
      have hrest := ih (countConcealed c t)
      rw [Checks.ok_bind]
      cases hl : concealLoop c n (countConcealed c t) with
      | error p => rw [hl] at hrest; exact hcount.trans hrest
      | ok u => rw [hl] at hrest; exact hcount.trans hrest

theorem soundStep_enterConceal (c : GobRun) (s : State) : SoundStep s (enterConceal c s) := by
  unfold enterConceal
  split
  · exact .refl s
  · exact ⟨id, id, rfl, rfl, id⟩

theorem commandEnds_concealGob {s t : State} (h : execConcealGob s = .next t) : CommandEnds s t := by
  unfold execConcealGob at h
  split at h
  · cases h
    exact ⟨s, .refl s, .inr ⟨_, rfl⟩⟩
  · next c _ =>
    have hloop := leavesSound_concealLoop c (c.gob.mbCount - (enterConceal c s).ck.loop.toNat) (enterConceal c s)
    dsimp only at h
    split at h
    · next e u hl =>
      cases h
      rw [hl] at hloop
      exact ⟨setCkValid false u, ((soundStep_enterConceal c s).trans hloop).trans ⟨id, id, rfl, rfl, id⟩, .inr ⟨e, rfl⟩⟩
    · next u hl =>
      cases h
      rw [hl] at hloop
      have hvalid : SoundStep u (setCkValid false u) := ⟨id, id, rfl, rfl, id⟩
      have hend := hvalid.trans (.ofKept (kept_clearAicc (setCkValid false u)))
      exact ⟨_, ((soundStep_enterConceal c s).trans hloop).trans hend, .inl ⟨_, rfl⟩⟩

theorem length_halfBytes (v : Int) : (halfBytes v).length = 2 := rfl

theorem kept_rgb {f : FormatRun} {sel : Bool} {s t : State}
    (h : (if (sel && decide (scalePath f.w f.h f.dw f.dh = .direct)) = true then rgbSelective f s else rgbWhole f s) =
      .ok t) : Kept s t := by
  split at h
  · simp only [rgbSelective, Checks.bind_eq_ok] at h
    obtain ⟨-, -, mask, -, h⟩ := h
    refine kept_checkThenCopy h fun p hp m => ?_
    obtain ⟨q, -, rfl⟩ := List.mem_map.1 hp
    exact (length_halfBytes _).le
  · refine kept_checkThenStore h fun p hp => ?_
    obtain ⟨q, -, rfl⟩ := List.mem_map.1 hp
    exact (length_halfBytes _).le

theorem kept_yuy2Body {s t : State} (h : yuy2Body s = .ok t) : Kept s t := by
  simp only [yuy2Body, Checks.bind_eq_ok] at h
  obtain ⟨f, -, -, -, -, -, -, -, h⟩ := h
  refine kept_checkThenCopy h fun p hp m => ?_
  obtain ⟨q, -, hp⟩ := List.mem_flatMap.1 hp
  simp only [List.mem_cons, List.not_mem_nil, or_false] at hp
  rcases hp with rfl | rfl | rfl | rfl <;> simp

theorem kept_yvu9Body {s t : State} (h : yvu9Body s = .ok t) : Kept s t := by
  simp only [yvu9Body, Checks.bind_eq_ok] at h
  obtain ⟨f, -, -, -, -, -, -, -, -, -, h⟩ := h
  refine kept_checkThenCopy h fun p hp m => ?_
  simp only [yvu9Chroma, List.mem_append, List.mem_map] at hp
  obtain (⟨q, -, rfl⟩ | ⟨q, -, rfl⟩) | ⟨q, -, rfl⟩ := hp <;> simp

/-- Every command but DECODE_GOB ends in its one turn. -/
theorem commandEnds_exec {i : Instr} {s t : State} (ht : isTag i = false) (hg : i ≠ .decodeGob)
    (h : exec i s = .next t) : CommandEnds s t := by
  cases i with
  | mbSkip | mbInter | mbInterQ | mbInter4v | mbIntra | mbIntraQ | mbUnknown => simp [isTag] at ht
  | decodeGob => exact absurd rfl hg
  | nop =>
    cases (Host.Outcome.next.inj h)
    exact ⟨s, .refl s, .inl ⟨_, rfl⟩⟩
  | initTables =>
    cases (Host.Outcome.next.inj h)
    exact ⟨{ s with tablesValid := true }, ⟨id, id, rfl, rfl, id⟩, .inl ⟨_, rfl⟩⟩
  | aicFlush =>
    cases (Host.Outcome.next.inj h)
    exact ⟨clearAicc s, .ofKept (kept_clearAicc s), .inl ⟨_, rfl⟩⟩
  | recon dc8 => exact commandEnds_of_endCommand (.refl s) (fun v hv => .ofKept (kept_reconBody hv)) h
  | reconAdd dc8 => exact commandEnds_of_endCommand (.refl s) (fun v hv => .ofKept (kept_reconAddBody hv)) h
  | reconS16 dc8 => exact commandEnds_of_endCommand (.refl s) (fun v hv => .ofKept (kept_reconS16Body hv)) h
  | reconAic dc8 => exact commandEnds_of_endCommand (.refl s) (fun v hv => .ofKept (kept_reconAicBody hv)) h
  | rruUpadd nopred small => exact commandEnds_of_endCommand (.refl s) (fun v hv => .ofKept (kept_upAddBody hv)) h
  | dbkEdge =>
    refine commandEnds_of_endCommand (.refl s) (fun v hv => ?_) h
    simp only [dbkEdgeBody, Checks.bind_eq_ok, raiseIf_eq_ok] at hv
    obtain ⟨-, -, -, hq, hv⟩ := hv
    exact soundStep_filterEdge (by omega) hv
  | dbkEdgeRru =>
    refine commandEnds_of_endCommand (.refl s) (fun v hv => ?_) h
    simp only [dbkEdgeRruBody, Checks.bind_eq_ok] at hv
    obtain ⟨-, -, -, -, hv⟩ := hv
    exact soundStep_blendEdge hv
  | deblockPic =>
    refine commandEnds_of_endCommand (.refl s) (fun v hv => ?_) h
    obtain ⟨d, hd, hv⟩ := Checks.bind_eq_ok.1 hv
    obtain ⟨hsound, rfl⟩ := validateDeblock_eq_ok.1 hd
    exact soundStep_filterEdges (normalEdges_quant_le hsound) hv
  | deblockRruPic =>
    refine commandEnds_of_endCommand (.refl s) (fun v hv => ?_) h
    obtain ⟨d, -, hv⟩ := Checks.bind_eq_ok.1 hv
    exact soundStep_blendEdges hv
  | concealGob => exact commandEnds_concealGob h
  | convertRgb555 sel =>
    change execConvertRgb555 sel s = .next t at h
    unfold execConvertRgb555 at h
    split at h
    · cases h
      exact ⟨s, .refl s, .inr ⟨_, rfl⟩⟩
    · next f _ =>
      have hpath : SoundStep s { s with fmtPath := scalePath f.w f.h f.dw f.dh } := ⟨id, id, rfl, rfl, id⟩
      exact commandEnds_of_endCommand hpath (fun v hv => .ofKept (kept_rgb hv)) h
  | convertYuy2 => exact commandEnds_of_endCommand (.refl s) (fun v hv => .ofKept (kept_yuy2Body hv)) h
  | convertYvu9 => exact commandEnds_of_endCommand (.refl s) (fun v hv => .ofKept (kept_yvu9Body hv)) h

end Sys2Proof.Proofs
end

section
/-! The invariant inside a macroblock loop and across a step (42_dispatcher.md R240 to R246). -/

namespace Sys2Proof.Proofs

open Sys2Proof.Machine Sys2Proof.Safety Sys2Proof.Config

/-! ### The loop -/

theorem walkMb_congr {s t : State} (hD : t.regD = s.regD) (c : GobRun) (k : Nat) : walkMb c t k = walkMb c s k := by
  simp only [walkMb, cursorMb, hD]

theorem mbOpens_congr {s t : State} (hD : t.regD = s.regD) (hp : t.params = s.params) (m : Mb) :
    mbOpens t m ↔ mbOpens s m := by
  rw [← opens_iff, ← opens_iff, opens_congr hD hp]

/-- The loop's part of the invariant is about these fields only. -/
theorem loopSound_congr {s t : State} (hrun : t.run = s.run) (htab : t.tablesValid = s.tablesValid) (hck : t.ck = s.ck)
    (hD : t.regD = s.regD) (hp : t.params = s.params) (h : loopSound s) : loopSound t := by
  intro c hc
  obtain ⟨htables, hvalid, ⟨hstride, hcount, hcursor, hopens⟩, hlo, hhi⟩ := h c (hrun ▸ hc)
  refine ⟨htab ▸ htables, hvalid, ⟨hstride, hcount, hck ▸ hcursor, fun k hk => ?_⟩, hck ▸ hlo, hck ▸ hhi⟩
  rw [walkMb_congr hD, mbOpens_congr hD hp]
  exact hopens k (hck ▸ hk)

theorem advanceBy_succ (g : GobDescr) (n : Nat) (ck : Checkpoint) :
    advanceBy g (n + 1) ck = advance g (advanceBy g n ck) := by
  induction n generalizing ck with
  | zero => rfl
  | succ n ih => exact ih (advance g ck)

/-- Where the cursor comes to depends on where it stands, not on CK.WORK and CK.VALID. -/
theorem advance_congr {g : GobDescr} {a b : Checkpoint} (hl : a.loop = b.loop) (hn : a.mbNum = b.mbNum)
    (hc : a.col = b.col) : (advance g a).loop = (advance g b).loop ∧ (advance g a).mbNum = (advance g b).mbNum ∧
      (advance g a).col = (advance g b).col := by
  unfold advance
  rw [hl, hn, hc]
  dsimp only
  split <;> exact ⟨rfl, rfl, rfl⟩

theorem advance_loop (g : GobDescr) (ck : Checkpoint) : (advance g ck).loop = ck.loop + 1 := by
  unfold advance
  dsimp only
  split <;> rfl

/-- The cursor stays among the GOB's columns. -/
theorem advance_col {g : GobDescr} (hv : g.valid = true) (hs : g.rowStride < 2 ^ 16) {ck : Checkpoint}
    (hlo : g.firstCol ≤ ck.col.toNat) (hhi : ck.col.toNat < g.firstCol + g.mbPerRow) :
    g.firstCol ≤ (advance g ck).col.toNat ∧ (advance g ck).col.toNat < g.firstCol + g.mbPerRow := by
  simp only [GobDescr.valid, Bool.and_eq_true, decide_eq_true_eq] at hv
  unfold advance
  dsimp only
  split
  · rw [BitVec.toNat_ofNat]
    omega
  · next hne =>
    have hcol : (ck.col + 1).toNat = ck.col.toNat + 1 := by bv_omega
    have hne' : ck.col.toNat + 1 ≠ g.firstCol + g.mbPerRow := fun e =>
      hne (BitVec.eq_of_toNat_eq (by rw [hcol, BitVec.toNat_ofNat]; omega))
    show g.firstCol ≤ (ck.col + 1).toNat ∧ (ck.col + 1).toNat < g.firstCol + g.mbPerRow
    omega

theorem toNat_advance_loop {g : GobDescr} {ck : Checkpoint} {n : Nat} (h : ck.loop.toNat < n) (hn : n < 2 ^ 16) :
    (advance g ck).loop.toNat = ck.loop.toNat + 1 := by
  rw [advance_loop]
  bv_omega

/-- The loop goes on after a macroblock that passed its checks (R244). -/
theorem loopSound_advance {s u : State} {c : GobRun} (h : loopSound s) (hr : s.run = .gob c)
    (hmore : s.ck.loop.toNat < c.gob.mbCount) (hopen : mbOpens s (cursorMb c s))
    (hrun : u.run = s.run) (htab : u.tablesValid = s.tablesValid) (hD : u.regD = s.regD) (hp : u.params = s.params)
    {ck : Checkpoint} (hck : u.ck = advance c.gob ck) (hl : ck.loop = s.ck.loop) (hn : ck.mbNum = s.ck.mbNum)
    (hc : ck.col = s.ck.col) : loopSound u := by
  obtain ⟨htables, hvalid, ⟨hstride, hcount, hcursor, hopens⟩, hlo, hhi⟩ := h c (by simp [loops, hr])
  have hwalk := walkMb_cursor hcursor
  obtain ⟨hentry, heloop, hembNum, hecol⟩ := hcursor
  have hloop : u.ck.loop.toNat = s.ck.loop.toNat + 1 := by
    rw [hck, toNat_advance_loop (hl ▸ hmore) hcount, hl]
  have hplace : s.ck.loop.toNat + 1 - c.entry.loop.toNat = (s.ck.loop.toNat - c.entry.loop.toNat) + 1 := by omega
  intro c' hc'
  obtain rfl : c' = c := by simpa [loops, hrun, hr] using hc'
  refine ⟨htab ▸ htables, hvalid, ⟨hstride, hcount, ?cursor, fun k hk => ?opens⟩, ?columns⟩
  case cursor =>
    have hstep := advance_congr (g := c'.gob) (hl.trans heloop) (hn.trans hembNum) (hc.trans hecol)
    rw [← advanceBy_succ, ← hplace] at hstep
    rw [cursorSound, hloop, hck]
    exact ⟨by omega, hstep⟩
  case opens =>
    rw [walkMb_congr hD, mbOpens_congr hD hp]
    rw [hloop, hplace] at hk
    rcases Nat.lt_succ_iff_lt_or_eq.1 hk with hlt | rfl
    · exact hopens k hlt
    · rw [hwalk]
      exact hopen
  case columns =>
    rw [hck]
    exact advance_col hvalid hstride (hc ▸ hlo) (hc ▸ hhi)

/-! ### DECODE_GOB -/

theorem field_lt (v lo width : Nat) : field v lo width < 2 ^ width := Nat.mod_lt _ (Nat.two_pow_pos width)

theorem gobAt_lt (s : State) : (gobAt s).firstCol < 2 ^ 16 ∧ (gobAt s).rowStride < 2 ^ 16 ∧ (gobAt s).mbCount < 2 ^ 16 :=
  ⟨field_lt _ _ _, field_lt _ _ _, field_lt _ _ _⟩

/-- DECODE_GOB up to its loop changes the cursor, STAT_GEOMFAIL and AICC. -/
theorem enterGob_eq (c : GobRun) (s : State) :
    enterGob c s = { s with
      ck := if s.ck.valid then s.ck else startCursor c.gob { s.ck with work := 0 }
      stats := if c.geomFail then { s.stats with geomFail := s.stats.geomFail + 1 } else s.stats
      aicc := if s.ck.valid then s.aicc else (clearAicc s).aicc
      run := .gob { c with entry := if s.ck.valid then s.ck else startCursor c.gob { s.ck with work := 0 } } } := by
  unfold enterGob noteGeomFail freshStart
  cases hv : s.ck.valid <;> cases hg : c.geomFail <;> simp

theorem soundStep_enterGob (c : GobRun) (s : State) : SoundStep s (enterGob c s) := by
  rw [enterGob_eq]
  refine ⟨id, fun ha => ?_, rfl, rfl, id⟩
  have hclear := (kept_clearAicc s).arrays ha
  cases hv : s.ck.valid with
  | true => exact ha
  | false => exact hclear

theorem loopSound_enterGob {s : State} (h : startSound false s) : loopSound (enterGob (gobRun false s) s) := by
  obtain ⟨htables, -, hvalid, -, -, -, -, -, -, -, hcol⟩ := h
  obtain ⟨hcol16, hstride, hcount⟩ := gobAt_lt s
  rw [enterGob_eq]
  intro c hc
  obtain rfl : c = _ := by simpa only [loops, List.mem_singleton] using hc
  refine ⟨htables, hvalid, ⟨hstride, hcount, ?cursor, fun k hk => ?opens⟩, ?columns⟩
  case cursor => exact ⟨le_rfl, by rw [Nat.sub_self]; exact ⟨rfl, rfl, rfl⟩⟩
  case opens => exact absurd hk (by simp)
  case columns =>
    dsimp only
    cases hv : s.ck.valid with
    | true => exact hcol hv
    | false =>
      simp only [GobDescr.valid, Bool.and_eq_true, decide_eq_true_eq] at hvalid
      have hstart : (startCursor (gobAt s) { s.ck with work := 0 }).col.toNat = (gobAt s).firstCol := by
        rw [startCursor, BitVec.toNat_ofNat]
        omega
      show (gobAt s).firstCol ≤ (startCursor (gobAt s) { s.ck with work := 0 }).col.toNat ∧
        (startCursor (gobAt s) { s.ck with work := 0 }).col.toNat < (gobAt s).firstCol + (gobAt s).mbPerRow
      omega

theorem inv_decodeGob {s t : State} (hi : Inv s) (hb : s.run ≠ .idle) (h : execDecodeGob s = .next t) : Inv t := by
  unfold execDecodeGob at h
  split at h
  · cases h
    exact inv_raise hi (.refl s) _
  · next c hc =>
    cases h
    obtain ⟨hstart, rfl⟩ := startChecks_eq_ok.1 hc
    obtain ⟨hmem, harr, hlatch, -, hq⟩ := hi
    have hs := soundStep_enterGob (gobRun false s) s
    exact ⟨hs.mem hmem, hs.arrays harr, hs.latch hlatch hb, loopSound_enterGob hstart, hs.dbkQ hq⟩

/-! ### A turn -/

theorem inv_commandTurn {s t : State} {w : Word} (hi : Inv s) (hb : s.run ≠ .idle) (h : commandTurn w s = .next t) :
    Inv t := by
  unfold commandTurn at h
  split at h
  · cases h
    exact inv_raise hi (.refl s) _
  · next i hd =>
    by_cases hg : i = .decodeGob
    · subst hg
      exact inv_decodeGob hi hb h
    · exact inv_commandEnds hi hb (commandEnds_exec (isTag_decodeCommand hd) hg h)

theorem soundStep_countMacroblock (c : GobRun) (cost : Nat) (s : State) : SoundStep s (countMacroblock c cost s) :=
  ⟨id, id, rfl, rfl, id⟩

/-- What a tag leaves: an end of the command, or the macroblock counted with the loop going on. -/
theorem tag_cases {i : Instr} {c : GobRun} {s t : State} (ht : isTag i = true) (hr : s.run = .gob c)
    (h : exec i s = .next t) : CommandEnds s t ∨ ∃ u cost, Kept s u ∧ t = countMacroblock c cost u := by
  have settled : ∀ (skip : Bool) (handler : Mb → State → Partial (State × Nat)),
      keeps s Prod.fst (handler (cursorMb c s) s) → runTag skip handler s = .next t →
      CommandEnds s t ∨ ∃ u cost, Kept s u ∧ t = countMacroblock c cost u := by
    intro skip handler hk hrun
    simp only [runTag, hr] at hrun
    rcases settle_cases hk hrun with ⟨e, u, hu, rfl⟩ | ⟨u, cost, hu, rfl⟩
    · exact .inl ⟨setCkValid false u, (SoundStep.ofKept hu).trans ⟨id, id, rfl, rfl, id⟩, .inr ⟨e, rfl⟩⟩
    · unfold endMacroblock
      dsimp only
      split
      · have hcount := (SoundStep.ofKept hu).trans (soundStep_countMacroblock c cost u)
        exact .inl ⟨setCkValid true (countMacroblock c cost u), hcount.trans ⟨id, id, rfl, rfl, id⟩, .inl ⟨.suspended, rfl⟩⟩
      · exact .inr ⟨u, cost, hu, rfl⟩
  cases i <;> simp only [isTag, Bool.false_eq_true] at ht
  case mbSkip => exact settled _ _ (keeps_skipHandler _ _) h
  case mbInter => exact settled _ _ (keeps_interHandler _ _ _) h
  case mbInterQ => exact settled _ _ (keeps_interHandler _ _ _) h
  case mbInter4v => exact settled _ _ (keeps_interHandler _ _ _) h
  case mbIntra => exact settled _ _ (keeps_intraHandler _ _) h
  case mbIntraQ => exact settled _ _ (keeps_intraHandler _ _) h
  case mbUnknown tag =>
    change execMbUnknown tag s = .next t at h
    simp only [execMbUnknown, hr, Host.Outcome.next.injEq] at h
    exact .inl ⟨setCkValid false { s with stats := { s.stats with badType := s.stats.badType + 1 } },
      ⟨id, id, rfl, rfl, id⟩, .inl ⟨.gobAborted, h.symm⟩⟩

theorem inv_gobTurn {s t : State} {c : GobRun} (hi : Inv s) (hr : s.run = .gob c) (h : gobTurn c s = .next t) :
    Inv t := by
  have hb : s.run ≠ .idle := by simp [hr]
  unfold gobTurn at h
  split at h
  swap
  · cases h
    exact inv_finish hi hb ⟨id, id, rfl, rfl, id⟩ _
  next hm =>
  have hmore : s.ck.loop.toNat < c.gob.mbCount := by simpa [moreMacroblocks] using hm
  have hkeep := keeps_fetchTag (cursorMb c s) s
  split at h
  · next e u hf =>
    cases h
    rw [hf] at hkeep
    exact inv_raiseInLoop hi (.ofKept hkeep) e
  · next tag u hf =>
    rw [hf] at hkeep
    have hu : Kept s u := hkeep
    have hopen : mbOpens s (cursorMb c s) := by
      by_contra hclosed
      obtain ⟨e, he⟩ := fetchTag_closed hclosed
      rw [he] at hf
      cases hf
    have hru : u.run = .gob c := by rw [hu.rest]; exact hr
    rcases tag_cases (isTag_decodeTag u.params.legacy tag) hru h with ⟨v, hv, hend⟩ | ⟨v, cost, hv, rfl⟩
    · exact inv_commandEnds hi hb ⟨v, (SoundStep.ofKept hu).trans hv, hend⟩
    · have hsv := hu.trans hv
      have hs := (SoundStep.ofKept hsv).trans (soundStep_countMacroblock c cost v)
      have hloop : loopSound (countMacroblock c cost v) :=
        loopSound_advance (ck := { v.ck with work := v.ck.work + BitVec.ofNat 32 cost }) hi.2.2.2.1 hr hmore hopen
          (by rw [hsv.rest]; rfl) (by rw [hsv.rest]; rfl) (by rw [hsv.rest]; rfl) (by rw [hsv.rest]; rfl) rfl
          (by rw [hsv.rest]) (by rw [hsv.rest]) (by rw [hsv.rest])
      obtain ⟨hmem, harr, hlatch, -, hq⟩ := hi
      exact ⟨hs.mem hmem, hs.arrays harr, hs.latch hlatch hb, hloop, hs.dbkQ hq⟩

theorem inv_deviceTurn {s t : State} (hi : Inv s) (h : deviceTurn s = .next t) : Inv t := by
  unfold deviceTurn at h
  split at h
  · cases h
    exact hi
  · next w hr => exact inv_commandTurn hi (by simp [hr]) h
  · next c hr => exact inv_gobTurn hi hr h

/-! ### The host -/

/-- A change to fields the invariant does not speak of, and of memory that stays sound, keeps it. -/
theorem inv_congr {s t : State} (hi : Inv s) (hs : SoundStep s t) (hr : t.result = s.result)
    (hrun : t.run = s.run) (htab : t.tablesValid = s.tablesValid) (hck : t.ck = s.ck) (hD : t.regD = s.regD)
    (hp : t.params = s.params) : Inv t := by
  obtain ⟨hmem, harr, hlatch, hloop, hq⟩ := hi
  refine ⟨hs.mem hmem, hs.arrays harr, ?_, loopSound_congr hrun htab hck hD hp hloop, hs.dbkQ hq⟩
  rw [latchSound, hs.irq, hs.fault, hr, hrun]
  exact hlatch

theorem arraysSound_reset (s : State) (m : Memory) : arraysSound (resetDevice s m) := by
  refine ⟨List.length_replicate, List.length_replicate, List.length_replicate, fun e he => ?_⟩
  obtain rfl : e = List.replicate 6 AicSlot.reset := List.eq_of_mem_replicate he
  refine ⟨List.length_replicate, fun x hx => ?_⟩
  obtain rfl : x = AicSlot.reset := List.eq_of_mem_replicate hx
  decide

theorem inv_resetNow {s : State} (hi : Inv s) : Inv (resetNow s) := by
  obtain ⟨⟨hwf, hbelow⟩, -⟩ := hi
  have hmem : (abandonedMemory s).wf ∧ (abandonedMemory s).below s.params.memSize := by
    unfold abandonedMemory
    split
    · exact ⟨hwf, hbelow⟩
    · exact ⟨Memory.wf_overlay hwf _ _ _, Memory.below_overlay hbelow _ _⟩
  have hidle : (resetNow s).run = .idle := rfl
  exact ⟨hmem, arraysSound_reset s (abandonedMemory s), ⟨rfl, rfl, rfl⟩, loopSound_of_not_gob (by simp [hidle]),
    Nat.zero_le _⟩

theorem inv_writeCtrl {s : State} (hi : Inv s) (v : Word) : Inv (writeCtrl v s) := by
  unfold writeCtrl
  split
  · exact inv_resetNow hi
  · exact inv_congr hi ⟨id, id, rfl, rfl, id⟩ rfl rfl rfl rfl rfl rfl

theorem inv_acknowledge {s : State} (hi : Inv s) : Inv (acknowledge s) := by
  obtain ⟨hmem, harr, -, hloop, hq⟩ := hi
  exact ⟨hmem, harr, ⟨rfl, rfl, rfl⟩, loopSound_congr rfl rfl rfl rfl rfl hloop, hq⟩

theorem inv_writeIrqStat {s : State} (hi : Inv s) (v : Word) : Inv (writeIrqStat v s) := by
  have hack : Inv (if v.getLsbD 1 then acknowledge s else s) := by
    split
    · exact inv_acknowledge hi
    · exact hi
  exact inv_congr hack ⟨id, id, rfl, rfl, id⟩ rfl rfl rfl rfl rfl rfl

theorem busy_eq_false_iff {s : State} : s.busy = false ↔ s.run = .idle := by
  unfold State.busy
  cases s.run <;> simp

theorem inv_writeCmd {s : State} (hi : Inv s) (v : Word) : Inv (writeCmd v s) := by
  unfold writeCmd
  split
  · exact hi
  · next hready =>
    obtain ⟨hmem, harr, ⟨hirq, hcase⟩, -, hq⟩ := hi
    have hp : s.fault.pending = false := by simp_all
    rw [if_neg (by simp [hp])] at hcase
    exact ⟨hmem, harr, latchSound_of_clear hp (hirq.trans hp) hcase.1 hcase.2, loopSound_of_not_gob (by simp), hq⟩

/-- Plain storage is no part of memory, the arrays, the latch, DBK_Q, RESULT and the running command. -/
theorem regStore_frame (r : RegName) (v : Word) (s : State) :
    SoundStep s (regStore r v s) ∧ (regStore r v s).result = s.result ∧ (regStore r v s).run = s.run := by
  cases r <;> exact ⟨⟨id, id, rfl, rfl, id⟩, rfl, rfl⟩

theorem inv_regStore {s : State} (hi : Inv s) (hidle : s.run = .idle) (r : RegName) (v : Word) :
    Inv (regStore r v s) := by
  obtain ⟨hs, hresult, hrun⟩ := regStore_frame r v s
  obtain ⟨hmem, harr, hlatch, -, hq⟩ := hi
  refine ⟨hs.mem hmem, hs.arrays harr, ?_, loopSound_of_not_gob (by simp [hrun, hidle]), hs.dbkQ hq⟩
  rw [latchSound, hs.irq, hs.fault, hresult, hrun]
  exact hlatch

theorem inv_regWrite {s : State} (hi : Inv s) (r : RegName) (v : Word) : Inv (regWrite r v s) := by
  have hstore : Inv (if s.busy then s else regStore r v s) := by
    split
    · exact hi
    · next hidle => exact inv_regStore hi (busy_eq_false_iff.1 (by simpa using hidle)) r v
  cases r
  case ctrl => exact inv_writeCtrl hi v
  case irqStat => exact inv_writeIrqStat hi v
  case cmd => exact inv_writeCmd hi v
  all_goals exact hstore

theorem inv_windowWrite {s t : State} {offset : BitVec 9} {v : Word} (hi : Inv s)
    (h : windowWrite offset v s = .next t) : Inv t := by
  unfold windowWrite at h
  split at h
  · cases h
  · split at h
    · cases h
      exact inv_regWrite hi _ v
    · cases h
      exact hi

theorem inv_windowRead {s t : State} {offset : BitVec 9} (hi : Inv s) (h : windowRead offset s = .next t) : Inv t := by
  unfold windowRead at h
  split at h
  · cases h
  · split at h <;> cases h <;> exact inv_congr hi ⟨id, id, rfl, rfl, id⟩ rfl rfl rfl rfl rfl rfl

theorem inv_store {s : State} (hi : Inv s) {l : List (Nat × Byte)} (hl : ∀ p ∈ l, p.1 < s.params.memSize) :
    Inv (s.store l) :=
  inv_congr hi (.ofKept (kept_store hl)) rfl rfl rfl rfl rfl rfl

theorem inv_hostStore {s t : State} {addr : Nat} {bytes : List Byte} (hi : Inv s)
    (h : hostStore addr bytes s = .next t) : Inv t := by
  unfold hostStore at h
  split at h
  · cases h
  next hin =>
  have hplaced : ∀ p ∈ placed addr bytes, p.1 < s.params.memSize := fun p hp => by
    have := placed_lt hp le_rfl
    omega
  split at h <;> cases h
  · refine inv_congr (inv_store hi (l := _) fun p hp => ?_) ⟨id, id, rfl, rfl, id⟩ rfl rfl rfl rfl rfl rfl
    obtain ⟨q, hq, rfl⟩ := List.mem_map.1 hp
    exact hplaced q hq
  · exact inv_store hi hplaced

theorem inv_hostLoad {s t : State} {addr : Nat} (hi : Inv s) (h : hostLoad addr s = .next t) : Inv t := by
  unfold hostLoad at h
  split at h
  · cases h
  · split at h <;> cases h <;> exact inv_congr hi ⟨id, id, rfl, rfl, id⟩ rfl rfl rfl rfl rfl rfl

theorem inv_hostStep {s t : State} {op : HostOp} (hi : Inv s) (h : hostStep op s = .next t) : Inv t := by
  cases op with
  | write offset v => exact inv_windowWrite hi h
  | read offset => exact inv_windowRead hi h
  | narrow offset n => cases h
  | store addr bytes => exact inv_hostStore hi h
  | load addr => exact inv_hostLoad hi h
  | hardReset => cases h; exact inv_resetNow hi
  | wait => cases h; exact hi
  | pause => cases h; exact hi

theorem inv_script {s : State} (hi : Inv s) (l : List HostOp) : Inv { s with script := l } :=
  inv_congr hi ⟨id, id, rfl, rfl, id⟩ rfl rfl rfl rfl rfl rfl

/-! ### The statement -/

/-- Settles O30: by who moves next, the device or the host. -/
theorem everyStepKeepsTheInvariant : Obligations.EveryStepKeepsTheInvariant := by
  intro s t hi h
  unfold step schedule at h
  split at h
  · exact inv_deviceTurn hi h
  · exact inv_deviceTurn (inv_script hi _) h
  · split at h
    · exact inv_deviceTurn hi h
    · cases h
      exact inv_script hi _
  · exact inv_hostStep (inv_script hi _) h

end Sys2Proof.Proofs
end

section
/-! What the host's register writes leave in the registers, and reset (10_state.md R21 to R29, R50;
70_reset_and_hazards.md R371 to R373). -/

namespace Sys2Proof.Proofs

open Sys2Proof.Machine Sys2Proof.Safety Sys2Proof.Config

/-! ### The window table -/

theorem windowTable_offset : ∀ p ∈ windowTable, p.2 = p.1.offset := by decide

theorem mem_windowTable (r : RegName) : (r, r.offset) ∈ windowTable := by
  cases r <;> decide

theorem windowRead_offset (r : RegName) (s : State) :
    windowRead (BitVec.ofNat 9 r.offset) s = .next { drawn s with readData := regRead r s } :=
  windowRead_register (offset_aligned r) (regAt_offset r) s

theorem step_read_register (r : RegName) (rest : List HostOp) (s : State) :
    step { s with script := .read (BitVec.ofNat 9 r.offset) :: rest } =
      .next { s with script := rest, readData := regRead r s, freeCount := s.freeCount + 1 } := by
  rw [step_read, windowRead_offset, regRead_script]
  rfl

/-! ### CTRL -/

theorem writeCtrl_enables {v : Word} (hv : v.getLsbD 31 = false) (s : State) :
    writeCtrl v s = { s with ctrl := ctrlOfWord v } := by
  rw [writeCtrl, hv]
  rfl

/-- The n low bits of a word. -/
theorem and_lowMask (v : Word) {n : Nat} (hn : n < 32) :
    v &&& BitVec.ofNat 32 (2 ^ n - 1) = BitVec.ofNat 32 (v.toNat % 2 ^ n) := by
  apply BitVec.eq_of_toNat_eq
  have hpow : 2 ^ n < 2 ^ 32 := Nat.pow_lt_pow_right (by decide) hn
  rw [BitVec.toNat_and, BitVec.toNat_ofNat, BitVec.toNat_ofNat, Nat.mod_eq_of_lt (by omega : 2 ^ n - 1 < 2 ^ 32),
    Nat.and_two_pow_sub_one_eq_mod]
  have hlt : v.toNat % 2 ^ n < 2 ^ n := Nat.mod_lt _ (Nat.two_pow_pos n)
  exact (Nat.mod_eq_of_lt (hlt.trans hpow)).symm

/-- CTRL reads back the three enables it holds (10_state.md R24). -/
theorem ctrlWord_ctrlOfWord (v : Word) : ctrlWord (ctrlOfWord v) = v &&& 7 := by
  rw [show (7 : Word) = BitVec.ofNat 32 (2 ^ 3 - 1) from rfl, and_lowMask v (by decide), ctrlWord, ctrlOfWord]
  simp only [flagBit, getLsbD_eq_div_mod, decide_eq_true_eq]
  congr 1
  split <;> split <;> split <;> omega

/-! ### Plain storage -/

theorem regRead_of_idle {s : State} (hb : s.busy = false) (r : RegName) : regRead r s = regValue r s := by
  simp [regRead, hb]

/-- A register without an operation of its own takes a write while the device is idle, and ignores it otherwise. -/
theorem regWrite_plain {r : RegName} (hc : r ≠ .ctrl) (hi : r ≠ .irqStat) (hm : r ≠ .cmd) (v : Word) (s : State) :
    regWrite r v s = if s.busy then s else regStore r v s := by
  cases r with
  | ctrl => exact absurd rfl hc
  | irqStat => exact absurd rfl hi
  | cmd => exact absurd rfl hm
  | _ => rfl

theorem regWrite_of_idle {r : RegName} (hc : r ≠ .ctrl) (hi : r ≠ .irqStat) (hm : r ≠ .cmd) (v : Word) {s : State}
    (hb : s.busy = false) : regWrite r v s = regStore r v s := by
  rw [regWrite_plain hc hi hm, hb]
  rfl

theorem writable_plain : ∀ q ∈ writable, q.1 ≠ .ctrl ∧ q.1 ≠ .irqStat ∧ q.1 ≠ .cmd := by decide

theorem and_fullMask (v : Word) : v &&& 0xFFFFFFFF = v := BitVec.and_allOnes

/-- DMODE holds its four named bits (log entry 13). -/
theorem dmode_reads (v : Word) : (v.setWidth 4).setWidth 32 = v &&& 0xF := by
  rw [show (0xF : Word) = BitVec.ofNat 32 (2 ^ 4 - 1) from rfl, and_lowMask v (by decide)]
  apply BitVec.eq_of_toNat_eq
  simp

/-- CKCTL holds CK.VALID alone (10_state.md R37). -/
theorem ckCtl_reads (v : Word) : BitVec.ofNat 32 (flagBit (v.getLsbD 0) 0) = v &&& 1 := by
  rw [show (1 : Word) = BitVec.ofNat 32 (2 ^ 1 - 1) from rfl, and_lowMask v (by decide), flagBit, getLsbD_eq_div_mod]
  congr 1
  simp only [decide_eq_true_eq]
  split <;> omega

/-- A register of the RW rows reads back what was written in the bits it holds. -/
theorem regValue_regStore_same (v : Word) (s : State) : ∀ q ∈ writable, regValue q.1 (regStore q.1 v s) = v &&& q.2 := by
  intro q hq
  rcases List.mem_append.1 hq with hq | hq
  · obtain ⟨r, hr, rfl⟩ := List.mem_map.1 hq
    rw [and_fullMask]
    fin_cases hr <;> rfl
  · fin_cases hq
    · exact dmode_reads v
    · exact ckCtl_reads v

/-- Every register is a field of its own, or the low bits of one, so a store of another leaves it; STATUS copies CKCTL. -/
theorem regValue_regStore_ne {q r : RegName} (h : r ≠ q) (hr : r ≠ .status) (v : Word) (s : State) :
    regValue r (regStore q v s) = regValue r s := by
  cases q <;> cases r <;> first | rfl | contradiction

theorem regStore_arrays (q : RegName) (v : Word) (s : State) :
    (regStore q v s).mem = s.mem ∧ (regStore q v s).acc = s.acc ∧ (regStore q v s).rrubuf = s.rrubuf ∧
      (regStore q v s).aicc = s.aicc ∧ (regStore q v s).run = s.run := by
  cases q <;> exact ⟨rfl, rfl, rfl, rfl, rfl⟩

theorem regStore_busy (q : RegName) (v : Word) (s : State) : (regStore q v s).busy = s.busy := by
  obtain ⟨-, -, -, -, hrun⟩ := regStore_arrays q v s
  rw [State.busy, State.busy, hrun]

/-- Settles O13. -/
theorem writtenRegisterHoldsTheValue : Obligations.WrittenRegisterHoldsTheValue := by
  refine ⟨fun r => ⟨r.offset, mem_windowTable r⟩, fun s v rest => ⟨fun p hp => ?window, fun hv => ?ctrl,
    fun q hq hidle => ?storage⟩⟩
  case window =>
    rw [windowTable_offset p hp]
    exact ⟨step_write_register p.1 v rest s, step_read_register p.1 rest s⟩
  case ctrl =>
    have hwrite : regWrite .ctrl v s = { s with ctrl := ctrlOfWord v } := writeCtrl_enables hv s
    refine ⟨hwrite, ?_⟩
    rw [hwrite, regRead_of_not_volatile rfl (by decide)]
    exact ctrlWord_ctrlOfWord v
  case storage =>
    obtain ⟨hc, hi, hm⟩ := writable_plain q hq
    dsimp only
    rw [regWrite_of_idle hc hi hm v hidle]
    have hidle' : (regStore q.1 v s).busy = false := (regStore_busy q.1 v s).trans hidle
    refine ⟨?_, fun r hr hst => ?_, regStore_arrays q.1 v s⟩
    · rw [regRead_of_idle hidle', regValue_regStore_same v s q hq]
    · rw [regRead_of_idle hidle', regRead_of_idle hidle, regValue_regStore_ne hr hst]

/-! ### Reset -/

theorem step_hardReset (rest : List HostOp) (s : State) :
    step { s with script := .hardReset :: rest } = .next (resetNow { s with script := rest }) := rfl

theorem resetNow_busy (s : State) : (resetNow s).busy = false := rfl

/-- Every register is at its value after reset, whatever is abandoned (10_state.md R50). -/
theorem regRead_resetNow (s : State) (r : RegName) : regRead r (resetNow s) = regRead r State.reset := by
  rw [regRead_of_idle (resetNow_busy s), regRead_of_idle rfl]
  cases r <;> rfl

theorem aicc_resetNow {s : State} {e : AicEntry} (he : e ∈ (resetNow s).aicc) {x : AicSlot} (hx : x ∈ e) :
    x.valid = false := by
  obtain rfl : e = List.replicate 6 AicSlot.reset := List.eq_of_mem_replicate he
  obtain rfl : x = AicSlot.reset := List.eq_of_mem_replicate hx
  rfl

/-- Settles O18. -/
theorem softResetIsAHardReset : Obligations.SoftResetIsAHardReset := by
  intro s v rest hv
  have hsoft : step { s with script := .write 0x004 v :: rest } = .next (resetNow { s with script := rest }) := by
    have hwrite : regWrite .ctrl v { s with script := rest } = resetNow { s with script := rest } := by
      rw [regWrite, writeCtrl, hv]
      rfl
    exact (step_write_register .ctrl v rest s).trans (congrArg Host.Outcome.next hwrite)
  rw [hsoft, step_hardReset]
  exact ⟨rfl, _, rfl, rfl, rfl, regRead_resetNow _, fun e he x hx => aicc_resetNow he hx, rfl, rfl⟩

theorem mayLose_of_idle {s : State} (hr : s.run = .idle) (a : Nat) : mayLose s a = false := by
  simp [mayLose, mayWrite, footprint, hr, Footprint.none]

/-- A byte after a reset: a free value where the abandoned command may have written it, and the byte before elsewhere. -/
theorem read_abandonedMemory {s : State} (hw : s.mem.wf) (a : Nat) :
    (abandonedMemory s).read a =
      if a < s.params.memSize ∧ mayLose s a = true then abandonedByte s.freeCount a else s.mem.read a := by
  unfold abandonedMemory
  split
  · next hr => simp [mayLose_of_idle hr]
  · exact Memory.read_overlay hw _ _ _ a

theorem mayLose_of_mayWrite {s : State} {a : Nat} (h : mayWrite s a = true) : mayLose s a = true := by
  simp [mayLose, h]

/-- Settles O19: the bytes that change are those the footprint names, and no turn writes another (`turn_writes`). -/
theorem resetKeepsMemoryByteByByte : Obligations.ResetKeepsMemoryByteByByte := by
  intro s hw
  refine ⟨⟨resetNow s, step_hardReset s.script s, fun hidle a => ?_, fun a ha => ?_, fun a ha hlose => ?_⟩,
    fun a => mayLose_of_mayWrite, fun u hi hu a ha => turn_writes hi hu ha⟩
  all_goals refine (read_abandonedMemory hw a).trans ?_
  · rw [mayLose_of_idle (busy_eq_false_iff.1 hidle)]
    exact if_neg (by simp)
  · exact if_neg (by simp [ha])
  · exact if_pos ⟨ha, hlose⟩

end Sys2Proof.Proofs
end

section
/-! How a command ends, and the checks it makes first (60_exceptions.md R334, R335; 40_idct_engine.md R148, R154, R178;
10_state.md R43). -/

namespace Sys2Proof.Proofs

open Sys2Proof.Machine Sys2Proof.Safety Sys2Proof.Config

/-! ### A command outside unit D as checks and a body -/

/-- The body of a command that checks everything before it acts; CONVERT_RGB555, the commands of unit D and the tags have
none. -/
def commandBody : Instr → Option Op
  | .nop => some .ok
  | .initTables => some fun s => .ok { s with tablesValid := true }
  | .aicFlush => some fun s => .ok (clearAicc s)
  | .recon dc8 => some fun s => reconBody (regBlock s dc8) s.regI.dest.toNat s.regI.stride.toNat s
  | .reconAdd dc8 => some fun s =>
    reconAddBody (regBlock s dc8) s.regI.pred.toNat s.regI.dest.toNat s.regI.stride.toNat s
  | .reconS16 dc8 => some fun s => reconS16Body (regBlock s dc8) s.regI.dest.toNat s.regI.stride.toNat s
  | .reconAic dc8 => some fun s =>
    let pos := s.regI.aicPos.toNat
    reconAicBody (regBlock s dc8) (field pos 0 16) (field pos 16 3) (field pos 20 2) pos s.regI.dest.toNat
      s.regI.stride.toNat s
  | .rruUpadd nopred small => some (upAddBody (if small then 8 else 16) nopred)
  | .dbkEdge => some dbkEdgeBody
  | .dbkEdgeRru => some dbkEdgeRruBody
  | .deblockPic => some deblockPicBody
  | .deblockRruPic => some deblockRruPicBody
  | .convertYuy2 => some yuy2Body
  | .convertYvu9 => some yvu9Body
  | _ => none

theorem exec_of_body {i : Instr} {op : Op} (h : commandBody i = some op) (s : State) :
    exec i s = endCommand s (op s) := by
  cases i <;> cases h <;> rfl

theorem exec_convertRgb555 (sel : Bool) (s : State) : exec (.convertRgb555 sel) s =
    match rgbChecks s with
    | .error e => .next (raise e s)
    | .ok f => endCommand { s with fmtPath := scalePath f.w f.h f.dw f.dh }
        (if sel && scalePath f.w f.h f.dw f.dh = .direct then rgbSelective f { s with fmtPath := scalePath f.w f.h f.dw f.dh }
          else rgbWhole f { s with fmtPath := scalePath f.w f.h f.dw f.dh }) := rfl

/-! ### What a body leaves of the fault latch and IRQSTAT -/

/-- No body touches the latch: it is the end of the command that does (R333, R334). -/
def LatchKept (s t : State) : Prop := t.fault = s.fault ∧ t.irq = s.irq

theorem LatchKept.ofKept {s t : State} (h : Kept s t) : LatchKept s t := by
  rw [h.rest]
  exact ⟨rfl, rfl⟩

theorem latchKept_filterEdge {e : Edge} {q : Nat} {s t : State} (h : filterEdge e q s = .ok t) : LatchKept s t := by
  obtain ⟨xs, -, ht⟩ := Checks.bind_eq_ok.1 h
  generalize (List.range 8).foldl (filterPosition s.params.tables e q) s.mem = m at ht
  cases ht
  exact ⟨rfl, rfl⟩

theorem latchKept_blendEdge {e : Edge} {n : Nat} {s t : State} (h : blendEdge e n s = .ok t) : LatchKept s t := by
  obtain ⟨xs, -, ht⟩ := Checks.bind_eq_ok.1 h
  generalize (List.range n).foldl (blendPosition e) s.mem = m at ht
  cases ht
  exact ⟨rfl, rfl⟩

theorem LatchKept.trans {s t u : State} (h : LatchKept s t) (h' : LatchKept t u) : LatchKept s u :=
  ⟨h'.1.trans h.1, h'.2.trans h.2⟩

theorem latchKept_filterEdges {l : List (Edge × Nat)} {s t : State} (h : filterEdges l s = .ok t) : LatchKept s t := by
  induction l generalizing s with
  | nil => cases h; exact ⟨rfl, rfl⟩
  | cons p l ih =>
    obtain ⟨u, hu, ht⟩ := Checks.bind_eq_ok.1 h
    exact (latchKept_filterEdge hu).trans (ih ht)

theorem latchKept_blendEdges {l : List (Edge × Nat)} {s t : State} (h : blendEdges l s = .ok t) : LatchKept s t := by
  induction l generalizing s with
  | nil => cases h; exact ⟨rfl, rfl⟩
  | cons p l ih =>
    obtain ⟨u, hu, ht⟩ := Checks.bind_eq_ok.1 h
    exact (latchKept_blendEdge hu).trans (ih ht)

theorem latchKept_body {i : Instr} {op : Op} (hi : commandBody i = some op) {s t : State} (h : op s = .ok t) :
    LatchKept s t := by
  cases i <;> cases hi
  case nop | initTables => cases h; exact ⟨rfl, rfl⟩
  case aicFlush => cases h; exact .ofKept (kept_clearAicc s)
  case recon => exact .ofKept (kept_reconBody h)
  case reconAdd => exact .ofKept (kept_reconAddBody h)
  case reconS16 => exact .ofKept (kept_reconS16Body h)
  case reconAic => exact .ofKept (kept_reconAicBody h)
  case rruUpadd => exact .ofKept (kept_upAddBody h)
  case dbkEdge =>
    simp only [dbkEdgeBody, Checks.bind_eq_ok] at h
    obtain ⟨-, -, -, -, h⟩ := h
    exact latchKept_filterEdge h
  case dbkEdgeRru =>
    simp only [dbkEdgeRruBody, Checks.bind_eq_ok] at h
    obtain ⟨-, -, -, -, h⟩ := h
    exact latchKept_blendEdge h
  case deblockPic =>
    obtain ⟨d, -, h⟩ := Checks.bind_eq_ok.1 h
    exact latchKept_filterEdges h
  case deblockRruPic =>
    obtain ⟨d, -, h⟩ := Checks.bind_eq_ok.1 h
    exact latchKept_blendEdges h
  case convertYuy2 => exact .ofKept (kept_yuy2Body h)
  case convertYvu9 => exact .ofKept (kept_yvu9Body h)

/-- A command outside unit D has a body, or is CONVERT_RGB555. -/
theorem body_or_rgb {i : Instr} (ht : isTag i = false) (hd : i ≠ .decodeGob) (hc : i ≠ .concealGob) :
    (∃ op, commandBody i = some op) ∨ ∃ sel, i = .convertRgb555 sel := by
  cases i <;> simp_all [isTag, commandBody]

/-- The two ends of 60_exceptions.md R335: OK with the latch as it was, or the fault and nothing else. -/
theorem endCommand_ends {s : State} {r : Except Raise State} (hr : ∀ u, r = .ok u → LatchKept s u) :
    ∃ t, endCommand s r = .next t ∧
      ((t.result = .ok ∧ t.run = .idle ∧ t.fault = s.fault ∧ t.irq = { s.irq with done := true }) ∨
        ∃ e, t = raise e s) := by
  cases r with
  | error e => exact ⟨_, rfl, .inr ⟨e, rfl⟩⟩
  | ok u =>
    obtain ⟨hf, hirq⟩ := hr u rfl
    exact ⟨_, rfl, .inl ⟨rfl, rfl, hf, congrArg (fun q : IrqStat => { q with done := true }) hirq⟩⟩

/-- Settles O23. -/
theorem faultOfACommandLeavesTheStateAsBefore : Obligations.FaultOfACommandLeavesTheStateAsBefore := by
  intro i s ht hd hc
  rcases body_or_rgb ht hd hc with ⟨op, hop⟩ | ⟨sel, rfl⟩
  · obtain ⟨t, hexec, hend⟩ := endCommand_ends fun u => latchKept_body (s := s) hop
    refine ⟨t, (exec_of_body hop s).trans hexec, hend.imp id fun ⟨e, he⟩ => ⟨e, .inl he⟩⟩
  · rw [exec_convertRgb555]
    cases rgbChecks s with
    | error e => exact ⟨_, rfl, .inr ⟨e, .inl rfl⟩⟩
    | ok f =>
      dsimp only
      obtain ⟨t, hexec, hend⟩ :=
        endCommand_ends (s := { s with fmtPath := scalePath f.w f.h f.dw f.dh }) fun u hu => .ofKept (kept_rgb hu)
      refine ⟨t, hexec, hend.imp id fun ⟨e, he⟩ => ⟨e, .inr ⟨⟨sel, rfl⟩, ?_⟩⟩⟩
      have hpath : t.fmtPath = scalePath f.w f.h f.dw f.dh := by rw [he]; rfl
      rw [hpath]
      exact he

/-! ### The tables (10_state.md R43) -/

theorem needTables_of_invalid {s : State} (h : s.tablesValid = false) : needTables s = .error ⟨.noTables, 0⟩ := by
  simp [needTables, h]

/-- Settles O22: the check of the tables opens every body. -/
theorem commandsNeedTheTables : Obligations.CommandsNeedTheTables := by
  intro i s hi hs
  have hn := needTables_of_invalid hs
  cases i <;> simp only [needsTables, Bool.false_eq_true] at hi
  case decodeGob | concealGob =>
    simp only [exec, execDecodeGob, execConcealGob, startChecks, hn, Checks.error_bind]
  case convertRgb555 =>
    rw [exec_convertRgb555]
    simp only [rgbChecks, formatChecks, hn, Checks.error_bind]
  all_goals
    rw [exec_of_body rfl]
    simp only [reconBody, reconAddBody, reconS16Body, walkBlock, reconAicBody, upAddBody, dbkEdgeBody, dbkEdgeRruBody,
      deblockPicBody, deblockRruPicBody, validateDeblock, yuy2Body, yvu9Body, formatChecks, hn, Checks.error_bind,
      endCommand_error]

end Sys2Proof.Proofs
end

section
/-! The checks of the reconstruction commands in their order, the walk that leaves the scan, and a fault inside the loop of
DECODE_GOB (40_idct_engine.md R148, R154, R178; 42_dispatcher.md R268). -/

namespace Sys2Proof.Proofs

open Sys2Proof.Machine Sys2Proof.Safety Sys2Proof.Config

/-! ### Information words -/

theorem trunc32_natCast (n : Nat) : trunc32 (n : Int) = BitVec.ofNat 32 n := BitVec.ofInt_natCast 32 n

theorem trunc32_toNat (w : Word) : trunc32 (w.toNat : Int) = w := by
  rw [trunc32_natCast, BitVec.ofNat_toNat, BitVec.setWidth_eq]

theorem raiseIf_of {c : Prop} [Decidable c] (h : c) (name : FaultName) (info : Int) :
    raiseIf c name info = .error ⟨name, trunc32 info⟩ := if_pos h

/-! ### Quantiser and count -/

theorem checkQuantCount_quant {q : Nat} (h : q < 1 ∨ 31 < q) (n : Nat) :
    checkQuantCount q n = .error ⟨.quant, trunc32 q⟩ := by
  rw [checkQuantCount, raiseIf_of h, Checks.error_bind]

theorem checkQuantCount_count {q n : Nat} (h1 : 1 ≤ q) (h31 : q ≤ 31) (h : 64 < n) :
    checkQuantCount q n = .error ⟨.symCount, trunc32 n⟩ := by
  rw [checkQuantCount, raiseIf_of_not (by omega), Checks.ok_bind, raiseIf_of h]

/-- The check of the quantiser and the count comes before every other check of the four commands but the tables. -/
theorem exec_recon_of_quantCount {i : Instr} {s : State} {e : Raise} (hi : isRecon i = true) (ht : s.tablesValid = true)
    (he : checkQuantCount s.regI.quant.toNat s.regI.symCnt.toNat = .error e) : exec i s = .next (raise e s) := by
  have hn := needTables_of_valid ht
  cases i <;> simp only [isRecon, Bool.false_eq_true] at hi
  all_goals
    rw [exec_of_body rfl]
    simp only [reconBody, reconAddBody, reconS16Body, walkBlock, reconAicBody, regBlock, hn, he, Checks.ok_bind,
      Checks.error_bind, endCommand_error]

/-! ### The arguments of RECON_AIC -/

theorem aicMode_field (pos : Nat) : field pos 20 2 = pos / 2 ^ 20 % 4 := rfl

theorem aicBlock_field (pos : Nat) : field pos 16 3 = pos / 2 ^ 16 % 8 := rfl

theorem aicColumn_field (pos : Nat) : field pos 0 16 = pos % 2 ^ 16 := by simp [field]

theorem reconAicBody_arg {b : BlockArgs} {col blk mode : Nat} {info dest : Int} {stride : Nat} {s : State}
    (ht : s.tablesValid = true) (hq : checkQuantCount b.quant b.count = .ok ()) (h : 3 ≤ mode ∨ 5 < blk) :
    reconAicBody b col blk mode info dest stride s = .error ⟨.aicArg, trunc32 info⟩ := by
  rw [reconAicBody, needTables_of_valid ht, Checks.ok_bind, hq, Checks.ok_bind, raiseIf_of h, Checks.error_bind]

theorem reconAicBody_bound {b : BlockArgs} {col blk mode : Nat} {info dest : Int} {stride : Nat} {s : State}
    (ht : s.tablesValid = true) (hq : checkQuantCount b.quant b.count = .ok ()) (h : ¬(3 ≤ mode ∨ 5 < blk))
    (hcol : s.params.aicCols ≤ col) :
    reconAicBody b col blk mode info dest stride s = .error ⟨.aicBound, trunc32 col⟩ := by
  rw [reconAicBody, needTables_of_valid ht, Checks.ok_bind, hq, Checks.ok_bind, raiseIf_of_not h, Checks.ok_bind,
    raiseIf_of hcol, Checks.error_bind]

theorem reconAicBody_walk {b : BlockArgs} {col blk mode : Nat} {info dest : Int} {stride : Nat} {s : State} {e : Raise}
    (ht : s.tablesValid = true) (hq : checkQuantCount b.quant b.count = .ok ()) (h : ¬(3 ≤ mode ∨ 5 < blk))
    (hcol : ¬s.params.aicCols ≤ col) (he : walkSymbols s b.symPtr b.count b.quant b.dc8 mode = .error e) :
    reconAicBody b col blk mode info dest stride s = .error e := by
  rw [reconAicBody, needTables_of_valid ht, Checks.ok_bind, hq, Checks.ok_bind, raiseIf_of_not h, Checks.ok_bind,
    raiseIf_of_not hcol, Checks.ok_bind, he, Checks.error_bind]

/-- Settles O24. -/
theorem reconArgumentsAreCheckedInOrder : Obligations.ReconArgumentsAreCheckedInOrder := by
  intro i s hi ht
  refine ⟨fun hq => ?quant, fun h1 h31 hn => ?count, fun h1 h31 hn dc8 hrecon => ⟨fun harg => ?arg, fun hm hb hcol => ?bound⟩⟩
  case quant =>
    rw [exec_recon_of_quantCount hi ht (checkQuantCount_quant hq _), trunc32_toNat]
  case count =>
    rw [exec_recon_of_quantCount hi ht (checkQuantCount_count h1 h31 hn), trunc32_toNat]
  all_goals
    have hq : checkQuantCount s.regI.quant.toNat s.regI.symCnt.toNat = .ok () :=
      checkQuantCount_eq_ok.2 ⟨h1, h31, hn⟩
    subst hrecon
  case arg =>
    have hbad : 3 ≤ field s.regI.aicPos.toNat 20 2 ∨ 5 < field s.regI.aicPos.toNat 16 3 := by
      rw [aicMode_field, aicBlock_field]
      omega
    rw [exec_of_body rfl, reconAicBody_arg ht hq hbad, trunc32_toNat, endCommand_error]
  case bound =>
    have hgood : ¬(3 ≤ field s.regI.aicPos.toNat 20 2 ∨ 5 < field s.regI.aicPos.toNat 16 3) := by
      rw [aicMode_field, aicBlock_field]
      omega
    rw [exec_of_body rfl, reconAicBody_bound ht hq hgood (by rw [aicColumn_field]; exact hcol), trunc32_natCast,
      aicColumn_field, endCommand_error]

/-! ### The walk that leaves the scan -/

/-- The walk from symbol k of a list whose symbol k + n is the first beyond the scan (R148). -/
theorem walkFrom_symRange {s : State} {sp q : Nat} {dc8 : Bool} {scan : Nat} {n left k : Nat} (hl : n < left)
    (ha : sp % 4 = 0) (hm : sp + 4 * (k + n + 1) ≤ s.params.memSize)
    (hin : ∀ j < n, symPos s.mem sp (k + j) ≤ 63) (hout : 63 < symPos s.mem sp (k + n)) :
    walkFrom s sp q dc8 scan left k (symBase s.mem sp k) = .error ⟨.symRange, BitVec.ofNat 32 (k + n)⟩ := by
  induction n generalizing left k with
  | zero =>
    obtain ⟨left, rfl⟩ := Nat.exists_eq_succ_of_ne_zero (by omega : left ≠ 0)
    have hread := memRead_word (s := s) (a := sp + 4 * k) (by omega) (by omega)
    have hpos : 63 < symBase s.mem sp k + field (s.mem.readLE (sp + 4 * k) 4) 16 16 := by
      rw [Nat.add_zero, symPos_eq] at hout
      exact hout
    rw [walkFrom]
    push_cast at hread ⊢
    rw [hread, Checks.ok_bind, raiseIf_of hpos, Checks.error_bind, trunc32_natCast, Nat.add_zero]
  | succ n ih =>
    obtain ⟨left, rfl⟩ := Nat.exists_eq_succ_of_ne_zero (by omega : left ≠ 0)
    have hread := memRead_word (s := s) (a := sp + 4 * k) (by omega) (by omega)
    have hbase : symBase s.mem sp (k + 1) = symBase s.mem sp k + field (s.mem.readLE (sp + 4 * k) 4) 16 16 + 1 := by
      rw [symBase, symPos_eq]
      rfl
    have hpos : ¬63 < symBase s.mem sp k + field (s.mem.readLE (sp + 4 * k) 4) 16 16 := by
      have hk := hin 0 (by omega)
      rw [Nat.add_zero, symPos_eq] at hk
      exact Nat.not_lt.2 hk
    have hrest := ih (left := left) (k := k + 1) (by omega) (by omega)
      (fun j hj => by rw [show k + 1 + j = k + (j + 1) by omega]; exact hin (j + 1) (by omega))
      (by rw [show k + 1 + n = k + (n + 1) by omega]; exact hout)
    rw [walkFrom]
    push_cast at hread ⊢
    rw [hread, Checks.ok_bind, raiseIf_of_not hpos, Checks.ok_bind, ← hbase, hrest, Checks.error_bind,
      show k + 1 + n = k + (n + 1) by omega]

/-- Settles O25. -/
theorem symbolBeyondTheScanRaises : Obligations.SymbolBeyondTheScanRaises := by
  intro i s k hi ht
  dsimp only
  intro hargs h1 h31 hn hk ha hm hin hout
  have htab := needTables_of_valid ht
  have hq : checkQuantCount s.regI.quant.toNat s.regI.symCnt.toNat = .ok () := checkQuantCount_eq_ok.2 ⟨h1, h31, hn⟩
  have hwalk : ∀ dc8 scan, walkSymbols s s.regI.symPtr.toNat s.regI.symCnt.toNat s.regI.quant.toNat dc8 scan =
      .error ⟨.symRange, BitVec.ofNat 32 k⟩ := fun dc8 scan => by
    have hfrom := walkFrom_symRange (s := s) (q := s.regI.quant.toNat) (dc8 := dc8) (scan := scan) (k := 0) hk ha
      (by simpa using hm) (by simpa using hin) (by simpa using hout)
    rw [Nat.zero_add] at hfrom
    exact hfrom
  cases i <;> simp only [isRecon, Bool.false_eq_true] at hi
  case reconAic dc8 =>
    obtain ⟨hmode, hblk, hcol⟩ := hargs dc8 rfl
    have hgood : ¬(3 ≤ field s.regI.aicPos.toNat 20 2 ∨ 5 < field s.regI.aicPos.toNat 16 3) := by
      rw [aicMode_field, aicBlock_field]
      omega
    have hcol' : ¬s.params.aicCols ≤ field s.regI.aicPos.toNat 0 16 := by
      rw [aicColumn_field]
      omega
    rw [exec_of_body rfl, reconAicBody_walk ht hq hgood hcol' (hwalk dc8 _), endCommand_error]
  all_goals
    rw [exec_of_body rfl]
    simp only [reconBody, reconAddBody, reconS16Body, walkBlock, regBlock, htab, hq, hwalk, Checks.ok_bind,
      Checks.error_bind, endCommand_error]

/-! ### A fault inside the loop -/

/-- What a macroblock's operations leave is outside the registers (Laws/Kept.lean), so a raise names them as they were. -/
theorem raiseInLoop_keeps {s u : State} (h : Kept s u) (e : Raise) :
    let t := raiseInLoop e u
    t.ck = { s.ck with valid := false } ∧ t.result = .faulted ∧ t.run = .idle ∧ t.irq = { s.irq with fault := true } ∧
      t.stats = s.stats ∧ t.regI = s.regI ∧ t.regK = s.regK ∧ t.regD = s.regD ∧ t.regF = s.regF ∧ t.ctrl = s.ctrl ∧
      t.dbkQ = s.dbkQ ∧ t.fmtPath = s.fmtPath ∧ t.tablesValid = s.tablesValid := by
  rw [h.rest]
  exact ⟨rfl, rfl, rfl, rfl, rfl, rfl, rfl, rfl, rfl, rfl, rfl, rfl, rfl⟩

/-- Settles O26: a tag that leaves a fault latched raised it after operations that keep every register. -/
theorem faultInTheLoopKeepsTheCursor : Obligations.FaultInTheLoopKeepsTheCursor := by
  intro i s t c ht hr hclear h hfault
  have settled : ∀ (skip : Bool) (handler : Mb → State → Partial (State × Nat)),
      keeps s Prod.fst (handler (cursorMb c s) s) → runTag skip handler s = .next t →
      ∃ e u, Kept s u ∧ t = raiseInLoop e u := by
    intro skip handler hk hrun
    simp only [runTag, hr] at hrun
    rcases settle_cases hk hrun with hraised | ⟨u, cost, hu, rfl⟩
    · exact hraised
    · obtain ⟨-, -, -, -, -, hend⟩ := mbEnd_fields c cost u
      rw [endMacroblock_eq, hend, hu.rest] at hfault
      exact absurd hfault (by simp [hclear])
  have raised : ∃ e u, Kept s u ∧ t = raiseInLoop e u := by
    cases i <;> simp only [isTag, Bool.false_eq_true] at ht
    case mbSkip => exact settled _ _ (keeps_skipHandler _ _) h
    case mbInter => exact settled _ _ (keeps_interHandler _ _ _) h
    case mbInterQ => exact settled _ _ (keeps_interHandler _ _ _) h
    case mbInter4v => exact settled _ _ (keeps_interHandler _ _ _) h
    case mbIntra => exact settled _ _ (keeps_intraHandler _ _) h
    case mbIntraQ => exact settled _ _ (keeps_intraHandler _ _) h
    case mbUnknown tag =>
      change execMbUnknown tag s = .next t at h
      simp only [execMbUnknown, hr, Host.Outcome.next.injEq] at h
      rw [← h] at hfault
      exact absurd hfault (by simp [hclear])
  obtain ⟨e, u, hu, rfl⟩ := raised
  exact raiseInLoop_keeps hu e

end Sys2Proof.Proofs
end

section
/-! Little-endian words, the host's path to memory, and what a running command may use of it (20_memory.md R70, R71, R87,
R89). -/

namespace Sys2Proof.Proofs

open Sys2Proof.Machine Sys2Proof.Safety Sys2Proof.Config

/-! ### Words -/

theorem notMem_bytesLE {a n v b : Nat} (h : b < a ∨ a + n ≤ b) : b ∉ (bytesLE a n v).map (·.1) := by
  rw [bytesLE_fst]
  intro hb
  obtain ⟨i, hi, rfl⟩ := List.mem_map.1 hb
  have := List.mem_range.1 hi
  omega

/-- The n low bytes of v read back as v modulo 256^n (R71). -/
theorem readLE_writeAll_bytesLE {m : Memory} (h : m.wf) (a n v : Nat) :
    (m.writeAll (bytesLE a n v)).readLE a n = v % 256 ^ n := by
  induction n generalizing m a v with
  | zero => simp [Memory.readLE, Nat.mod_one]
  | succ n ih =>
    have hw := Memory.wf_write h a (BitVec.ofNat 8 v)
    have hfirst : ((m.write a (BitVec.ofNat 8 v)).writeAll (bytesLE (a + 1) n (v / 256))).read a = BitVec.ofNat 8 v := by
      rw [Memory.read_writeAll_of_notMem hw (notMem_bytesLE (.inl (Nat.lt_succ_self a))), Memory.read_write h, if_pos rfl]
    have hsplit : v % 256 ^ (n + 1) = v % 256 + 256 * (v / 256 % 256 ^ n) := by rw [Nat.pow_succ', Nat.mod_mul]
    rw [bytesLE, Memory.writeAll_cons, Memory.readLE, hfirst, ih hw, BitVec.toNat_ofNat, hsplit]

theorem readLE_four (m : Memory) (a : Nat) :
    m.readLE a 4 = (m.read a).toNat + 256 * (m.read (a + 1)).toNat + 65536 * (m.read (a + 2)).toNat
      + 16777216 * (m.read (a + 3)).toNat := by
  simp only [Memory.readLE, Nat.add_assoc, Nat.reduceAdd]
  omega

/-! ### The host's stores and loads -/

theorem step_store (addr : Nat) (bytes : List Byte) (rest : List HostOp) (s : State) :
    step { s with script := .store addr bytes :: rest } = hostStore addr bytes { s with script := rest } := rfl

theorem step_load (addr : Nat) (rest : List HostOp) (s : State) :
    step { s with script := .load addr :: rest } = hostLoad addr { s with script := rest } := rfl

theorem mayUse_of_idle {s : State} (h : s.busy = false) (a : Nat) : mayUse s a = false := by
  simp [mayUse, mayWrite, footprint, busy_eq_false_iff.1 h, Footprint.none]

theorem mayWrite_of_idle {s : State} (h : s.busy = false) (a : Nat) : mayWrite s a = false := by
  simp [mayWrite, footprint, busy_eq_false_iff.1 h, Footprint.none]

theorem placed_eq_map (a : Nat) (l : List Byte) :
    placed a l = (List.range l.length).map fun i => (a + i, l.getD i 0) := by
  apply List.ext_getElem
  · simp [placed]
  · intro i h1 h2
    simp only [placed, List.length_map, List.length_zipIdx] at h1
    simp [placed, h1]

/-- What the host leaves in the bytes it stores: what it gave, but a free value where the running command uses the byte
(R89). -/
def hostByte (s : State) (p : Nat × Byte) : Byte :=
  if mayUse s p.1 then raceByte s.freeCount p.1 else p.2

theorem hostStore_ok {s : State} {addr : Nat} {bytes : List Byte} (h : addr + bytes.length ≤ s.params.memSize) :
    hostStore addr bytes s = .next
      { s.store ((placed addr bytes).map fun p => (p.1, hostByte s p)) with
        freeCount := if s.busy then s.freeCount + 1 else s.freeCount } := by
  rw [hostStore, if_neg (by omega)]
  cases hb : s.busy with
  | true => rfl
  | false =>
    have hexact : (placed addr bytes).map (fun p => (p.1, hostByte s p)) = placed addr bytes := by
      simp [hostByte, mayUse_of_idle hb]
    rw [hexact]
    rfl

theorem read_hostStore {s : State} (hw : s.mem.wf) {addr : Nat} {bytes : List Byte} :
    let m := s.mem.writeAll ((placed addr bytes).map fun p => (p.1, hostByte s p))
    (∀ a, a < addr ∨ addr + bytes.length ≤ a → m.read a = s.mem.read a) ∧
    ∀ i < bytes.length, m.read (addr + i) = hostByte s (addr + i, bytes.getD i 0) := by
  rw [placed_eq_map, List.map_map]
  refine ⟨fun a ha => Memory.read_writeAll_of_notMem hw fun hmem => ?_, fun i hi => ?_⟩
  · obtain ⟨p, hp, rfl⟩ := List.mem_map.1 hmem
    obtain ⟨i, hi, rfl⟩ := List.mem_map.1 hp
    have := List.mem_range.1 hi
    simp only [Function.comp_apply] at ha
    omega
  · have hnodup : ((List.range bytes.length).map fun i => addr + i).Nodup :=
      List.nodup_range.map fun _ _ h => Nat.add_left_cancel h
    exact Memory.read_writeAll_map (f := fun i => addr + i) (v := fun i => hostByte s (addr + i, bytes.getD i 0)) hw
      hnodup (List.mem_range.2 hi)

theorem hostLoad_ok {s : State} {addr : Nat} (h : addr < s.params.memSize) :
    hostLoad addr s = .next { s with
      readData := (if mayWrite s addr then raceByte s.freeCount addr else s.mem.read addr).setWidth 32
      freeCount := if s.busy then s.freeCount + 1 else s.freeCount } := by
  rw [hostLoad, if_neg (by omega)]
  cases hb : s.busy with
  | true => rfl
  | false => rw [mayWrite_of_idle hb]; rfl

/-! ### The footprints of RECON and of a running GOB -/

theorem onlyRaises_recon (dc8 : Bool) (s : State) :
    onlyRaises (.recon dc8) s = false ↔
      blockSound s (regBlock s dc8) ∧ squareIn s s.regI.dest.toNat s.regI.stride.toNat 1 8 := by
  have hok := fun t => reconBody_eq_ok (b := regBlock s dc8) (dest := s.regI.dest.toNat) (stride := s.regI.stride.toNat)
    (s := s) (t := t)
  rw [onlyRaises, exec_of_body rfl]
  cases hr : reconBody (regBlock s dc8) s.regI.dest.toNat s.regI.stride.toNat s with
  | ok t =>
    obtain ⟨hb, hs, -⟩ := (hok t).1 hr
    simp only [endCommand_ok, finish_result, isGobCommand, reduceCtorEq, decide_false, Bool.not_false, Bool.and_false,
      true_iff]
    exact ⟨hb, hs⟩
  | error e =>
    have hbad : ¬(blockSound s (regBlock s dc8) ∧ squareIn s s.regI.dest.toNat s.regI.stride.toNat 1 8) := by
      rintro ⟨hb, hs⟩
      have := (hok _).2 ⟨hb, hs, rfl⟩
      rw [hr] at this
      cases this
    simp only [endCommand_error, raise_result, isGobCommand, decide_true, Bool.not_false, Bool.and_self,
      Bool.true_eq_false, false_iff]
    exact hbad

theorem mayWrite_recon {s : State} {w : Word} {dc8 : Bool} (hd : decodeCommand w = .ok (.recon dc8))
    (hr : s.run = .command w) (a : Nat) :
    mayWrite s a = true ↔ blockSound s (regBlock s dc8) ∧ squareIn s s.regI.dest.toNat s.regI.stride.toNat 1 8 ∧
      ∃ p ∈ grid 8 8, a = cell s.regI.dest.toNat s.regI.stride.toNat 1 p := by
  have hraise := onlyRaises_recon dc8 s
  simp only [mayWrite, footprint, hr, hd]
  cases ho : onlyRaises (.recon dc8) s with
  | true =>
    rw [ho] at hraise
    simp only [Bool.true_eq_false, false_iff] at hraise
    simp only [if_true, List.any_nil, Bool.false_eq_true, false_iff]
    exact fun h => hraise ⟨h.1, h.2.1⟩
  | false =>
    obtain ⟨hb, hs⟩ := hraise.1 ho
    have hhas : (squareRegion s.regI.dest.toNat s.regI.stride.toNat 1 8).has a = true ↔
        ∃ p ∈ grid 8 8, a = cell s.regI.dest.toNat s.regI.stride.toNat 1 p := by
      simp [squareRegion_has]
    simp only [Bool.false_eq_true, if_false, commandFootprint, reconFootprint, List.any_cons, List.any_nil, Bool.or_false, hhas]
    exact ⟨fun h => ⟨hb, hs, h⟩, fun h => h.2.2⟩

theorem mayUse_recon {s : State} {w : Word} {dc8 : Bool} (hd : decodeCommand w = .ok (.recon dc8))
    (hr : s.run = .command w) (a : Nat) :
    mayUse s a = true ↔
      mayWrite s a = true ∨ a ∈ bytesAt (regBlock s dc8).symPtr (4 * min (regBlock s dc8).count 64) := by
  have hreads : (footprint s).reads = [symbolRegion (regBlock s false)] := by
    simp only [footprint, hr, hd]
    split <;> rfl
  rw [mayUse, hreads, Bool.or_eq_true, List.any_cons, List.any_nil, Bool.or_false, symbolRegion, bytesFrom_has,
    mem_bytesAt]
  rfl

theorem mbsFrom_eq_concealMbs (c : GobRun) (s : State) (n : Nat) (ck : Checkpoint) :
    mbsFrom c s n ck = concealMbs c s n ck := by
  induction n generalizing ck with
  | zero => rfl
  | succ n ih => rw [mbsFrom, concealMbs, ih]

theorem reachedMbs_eq (c : GobRun) (s : State) :
    reachedMbs c s = (concealMbs c s (c.gob.mbCount - c.entry.loop.toNat) c.entry).takeWhile
      fun m => decide (mbOpens s m) := by
  rw [reachedMbs, gobMbs, mbsFrom_eq_concealMbs]
  congr 1
  funext m
  rw [Bool.eq_iff_iff, opens_iff, decide_eq_true_iff]

theorem mayWrite_gob {s : State} {c : GobRun} (hr : s.run = .gob c) (a : Nat) :
    mayWrite s a = true ↔ ∃ m ∈ reachedMbs c s, a ∈ bytesAt m.d 4 ∨ a ∈ bytesAt (m.d + 8) 4 ∨
      a ∈ mbSamples m (unitSize s) c.newPic ∨ (c.useB = true ∧ c.geomFail = false ∧ a ∈ mbSamples m 16 c.bPic) := by
  have hb : ∀ m, inRegions (if (c.useB && !c.geomFail) = true then mbRegions m 16 c.bPic else []) a ↔
      c.useB = true ∧ c.geomFail = false ∧ a ∈ mbSamples m 16 c.bPic := by
    intro m
    split
    · next h =>
      simp only [Bool.and_eq_true, Bool.not_eq_true'] at h
      exact mbRegions_has.trans ⟨fun ha => ⟨h.1, h.2, ha⟩, fun ha => ha.2.2⟩
    · next h => exact ⟨fun ha => by simp [inRegions] at ha, fun ha => absurd (by simp [ha.1, ha.2.1]) h⟩
  have hfoot : footprint s = decodeFootprint c s := by simp only [footprint, hr]
  show inRegions (footprint s).writes a ↔ _
  rw [hfoot]
  refine inRegions_flatMap.trans (exists_congr fun m => and_congr_right fun _ => ?_)
  simp only [List.cons_append, List.nil_append, inRegions_cons, inRegions_append, bytesFrom_has, mem_bytesAt, hb]
  exact or_congr_right (or_congr_right (or_congr_left mbRegions_has))

theorem mayLose_gob {s : State} {c : GobRun} (hr : s.run = .gob c) (a : Nat) :
    mayLose s a = true ↔ mayWrite s a = true ∨ ∃ m ∈ gobMbs c s, a ∈ bytesAt m.d 128 := by
  have hfoot : footprint s = decodeFootprint c s := by simp only [footprint, hr]
  rw [mayLose, hfoot, Bool.or_eq_true]
  refine or_congr_right ?_
  simp [decodeFootprint, List.any_map, bytesFrom_has, mem_bytesAt]

/-- Settles O27. -/
theorem storedWordReadsBackLittleEndian : Obligations.StoredWordReadsBackLittleEndian := by
  refine ⟨fun m a n v hw => ⟨readLE_writeAll_bytesLE hw a n v, fun b hb => ?elsewhere, readLE_four m a⟩,
    fun s addr bytes hw => ⟨fun h => ?storeFault, fun h => ?loadFault, fun h => ?store, fun h => ?load⟩,
    fun s a => ⟨fun h => ?use, fun h => mayUse_of_idle h a, fun w dc8 hd hr => ?recon, fun c hr => ?gob⟩⟩
  case elsewhere => exact Memory.read_writeAll_of_notMem hw (notMem_bytesLE hb)
  case storeFault => exact (step_store addr bytes s.script s).trans (if_pos h)
  case loadFault => exact (step_load addr s.script s).trans (if_pos h)
  case store => exact ⟨_, (step_store addr bytes s.script s).trans (hostStore_ok h), rfl, read_hostStore hw⟩
  case load => exact ⟨_, (step_load addr s.script s).trans (hostLoad_ok h), rfl, rfl⟩
  case use => simp [mayUse, h]
  case recon => exact ⟨mayWrite_recon hd hr a, mayUse_recon hd hr a⟩
  case gob =>
    dsimp only
    rw [← reachedMbs_eq, ← mbsFrom_eq_concealMbs]
    exact ⟨mayWrite_gob hr a, mayLose_gob hr a⟩

end Sys2Proof.Proofs
end

section
/-! The configuration functions (00_scope.md R11): the reconstruction level, the deblocking correction, and the sums of the
basis functions, which fit the accumulators under the default T (40_idct_engine.md R144 to R151, R187 to R189;
41_deblocking.md R203). -/

namespace Sys2Proof.Proofs

open Sys2Proof.Machine Sys2Proof.Safety Sys2Proof.Config

/-! ### The reconstruction level (40_idct_engine.md R144) -/

/-- The size of RECLEVEL(q, ·) at amplitude n before its clip. -/
def levelSize (tb : TableSource) (q n : Nat) : Nat :=
  match tb with
  | .standard => q * (2 * n + 1) - (if q % 2 = 0 then 1 else 0)
  | .replaced => replacedLevel q n

theorem recLevel_eq (tb : TableSource) {q : Nat} (hq : 1 ≤ q) (i : Int) :
    recLevel tb q i = Int.sign i * min (levelSize tb q i.natAbs : Int) 2047 := by
  cases tb with
  | replaced => rfl
  | standard =>
    rw [recLevel, recLevelDefault]
    split
    · next h0 => simp [h0]
    · have hpos : 1 ≤ q * (2 * i.natAbs + 1) := Nat.mul_pos hq (by omega)
      have hsize : (levelSize .standard q i.natAbs : Int) = q * (2 * |i| + 1) - (if q % 2 = 0 then 1 else 0) := by
        have hcast : ((q * (2 * i.natAbs + 1) : Nat) : Int) = q * (2 * |i| + 1) := by
          push_cast
          rfl
        rw [levelSize, ← hcast]
        split <;> omega
      rw [hsize]

theorem levelSize_mono (tb : TableSource) (q : Nat) {m n : Nat} (h : m ≤ n) : levelSize tb q m ≤ levelSize tb q n := by
  cases tb with
  | standard => exact Nat.sub_le_sub_right (Nat.mul_le_mul_left q (by omega)) _
  | replaced => exact monotone_nat_of_le_succ (f := replacedLevel q) (fun k => Nat.le_add_right _ _) h

/-- The default rises at every amplitude (R188). -/
theorem levelSize_strictMono {q : Nat} (hq : 1 ≤ q) {m n : Nat} (h : m < n) :
    levelSize .standard q m < levelSize .standard q n := by
  have hstep : q * (2 * m + 1) + 2 * q ≤ q * (2 * n + 1) := by nlinarith
  have hpos : 1 ≤ q * (2 * m + 1) := Nat.mul_pos hq (by omega)
  show q * (2 * m + 1) - (if q % 2 = 0 then 1 else 0) < q * (2 * n + 1) - (if q % 2 = 0 then 1 else 0)
  split <;> omega

/-- Odd extension of a clipped size: how the sign and the size of an index make its level. -/
theorem sign_mul_cases (i : Int) (c : Int) :
    (0 < i ∧ Int.sign i * c = c) ∨ (i = 0 ∧ Int.sign i * c = 0) ∨ (i < 0 ∧ Int.sign i * c = -c) := by
  rcases lt_trichotomy i 0 with h | h | h
  · exact .inr (.inr ⟨h, by rw [Int.sign_eq_neg_one_of_neg h, neg_one_mul]⟩)
  · exact .inr (.inl ⟨h, by rw [h, Int.sign_zero, zero_mul]⟩)
  · exact .inl ⟨h, by rw [Int.sign_eq_one_of_pos h, one_mul]⟩

theorem recLevel_bound (tb : TableSource) {q : Nat} (hq : 1 ≤ q) (i : Int) : |recLevel tb q i| ≤ 2047 := by
  rw [recLevel_eq tb hq, abs_le]
  rcases sign_mul_cases i (min (levelSize tb q i.natAbs : Int) 2047) with ⟨-, h⟩ | ⟨-, h⟩ | ⟨-, h⟩ <;> rw [h] <;> omega

/-- Settles O38: the level is the odd extension of a size that does not fall, and rises where the default does. -/
theorem recLevelIsMonotoneAndOdd : Obligations.RecLevelIsMonotoneAndOdd := by
  intro tb q i j hq _
  have hi := sign_mul_cases i (min (levelSize tb q i.natAbs : Int) 2047)
  have hj := sign_mul_cases j (min (levelSize tb q j.natAbs : Int) 2047)
  rw [← recLevel_eq tb hq] at hi hj
  have hup := fun h => levelSize_mono tb q (m := i.natAbs) (n := j.natAbs) h
  have hdown := fun h => levelSize_mono tb q (m := j.natAbs) (n := i.natAbs) h
  refine ⟨fun hij => ?mono, fun htb hij hlow hhigh => ?strict, ?odd, recLevel_bound tb hq i⟩
  case mono => omega
  case strict =>
    subst htb
    have hup' := fun h => levelSize_strictMono hq (m := i.natAbs) (n := j.natAbs) h
    have hdown' := fun h => levelSize_strictMono hq (m := j.natAbs) (n := i.natAbs) h
    have hzero := fun n (h : 0 < n) => levelSize_strictMono hq (m := 0) (n := n) h
    have hi0 := hzero i.natAbs
    have hj0 := hzero j.natAbs
    omega
  case odd => rw [recLevel_eq tb hq, recLevel_eq tb hq, Int.sign_neg, Int.natAbs_neg, neg_mul]

/-! ### The deblocking correction (41_deblocking.md R203) -/

/-- DBKTAB(q, ·) at a difference of size n, 0 or more: the default ramp, or a replaced one within its limit. -/
def correctionSize (tb : TableSource) (q n : Nat) : Int :=
  match tb with
  | .standard => max 0 ((n : Int) - max 0 (2 * ((n : Int) - strength q)))
  | .replaced => clipS (replacedCorrection q n) n

theorem dbkTab_eq (tb : TableSource) (q : Nat) (d : Int) :
    dbkTab tb q d = Int.sign d * correctionSize tb q d.natAbs := by
  cases tb
  · rw [dbkTab, dbkTabDefault, correctionSize, Int.abs_eq_natAbs]
  · rw [dbkTab, correctionSize, Int.abs_eq_natAbs]

theorem abs_correctionSize (tb : TableSource) (q n : Nat) : |correctionSize tb q n| ≤ n := by
  rw [abs_le]
  cases tb <;> simp only [correctionSize, clipS] <;> omega

theorem strength_nonneg {q : Nat} (h : q ≤ 31) : 0 ≤ strength q := by
  have hall : ∀ k < 32, 0 ≤ strength k := by decide
  exact hall q (by omega)

/-- Settles O42. -/
theorem deblockingCorrectionIsARamp : Obligations.DeblockingCorrectionIsARamp := by
  intro tb q d _ hq
  have hs := strength_nonneg hq
  have hsize := abs_le.1 (abs_correctionSize tb q d.natAbs)
  have hd := sign_mul_cases d (correctionSize tb q d.natAbs)
  rw [← dbkTab_eq] at hd
  refine ⟨by rw [dbkTab_eq, Int.sign_zero, zero_mul], ?odd, ?bound, fun htb h => ?inside, fun htb h => ?outside⟩
  case odd => rw [dbkTab_eq, dbkTab_eq, Int.sign_neg, Int.natAbs_neg, neg_mul]
  case bound =>
    rw [abs_le, Int.abs_eq_natAbs]
    omega
  all_goals
    subst htb
    rw [Int.abs_eq_natAbs] at h
    simp only [correctionSize] at hd
    omega

end Sys2Proof.Proofs
end

section
/-! The sums of the basis functions: the butterfly gives them where they fit the accumulators, and under the default T they
fit (40_idct_engine.md R148 to R151, R187, R189). -/

namespace Sys2Proof.Proofs

open Sys2Proof.Machine Sys2Proof.Safety Sys2Proof.Config

/-! ### The list of a walk (R148) -/

theorem symPos_strictMono (m : Memory) (sp : Nat) : StrictMono (symPos m sp) :=
  strictMono_nat_of_lt_succ fun k => by rw [symPos]; omega

theorem level_bound (tb : TableSource) {q : Nat} (hq : 1 ≤ q) (idx : Int) (pos : Nat) (dc8 : Bool) :
    -2047 ≤ level tb q idx pos dc8 ∧ level tb q idx pos dc8 ≤ 2047 := by
  unfold level
  split
  · unfold clipS
    omega
  · exact abs_le.1 (recLevel_bound tb hq idx)

/-- A scan names each frequency once. -/
theorem scanAt_inj {tb : TableSource} {scan p q : Nat} (hp : p ≤ 63) (hq : q ≤ 63)
    (h : scanAt tb scan p = scanAt tb scan q) : p = q := by
  have hlen := length_scanTable tb scan
  rw [scanAt, scanAt, List.getD_eq_getElem _ _ (by omega), List.getD_eq_getElem _ _ (by omega)] at h
  exact (nodup_scanTable tb scan).getElem_inj_iff.1 h

theorem frequencies_nodup {s : State} {b : BlockArgs} (scan : Nat) (h : symbolsSound s b) :
    ((coefs (symbols s.params.tables s.mem b scan)).map fun k => (k.u, k.v)).Nodup := by
  obtain ⟨-, -, hpos⟩ := h
  simp only [coefs, symbols, List.map_map]
  refine List.nodup_range.map_on fun j hj k hk e => ?_
  have hj' := hpos j (List.mem_range.1 hj)
  have hk' := hpos k (List.mem_range.1 hk)
  simp only [Function.comp_apply, symbolAt, Prod.mk.injEq] at e
  have hscan : scanAt s.params.tables scan (symPos s.mem b.symPtr j) =
      scanAt s.params.tables scan (symPos s.mem b.symPtr k) := by omega
  exact (symPos_strictMono s.mem b.symPtr).injective (scanAt_inj hj' hk' hscan)

/-- What the bounds of R189 ask of a coefficient. -/
def CoefSound (k : Coef) : Prop := k.u < 8 ∧ k.v < 8 ∧ -2047 ≤ k.c ∧ k.c ≤ 2047

theorem coefSound_of_mem_symbols {s : State} {b : BlockArgs} {scan : Nat} (hq : 1 ≤ b.quant) {k : Coef}
    (hk : k ∈ coefs (symbols s.params.tables s.mem b scan)) : CoefSound k := by
  simp only [coefs, symbols, List.map_map, List.mem_map] at hk
  obtain ⟨j, -, rfl⟩ := hk
  have hlt := scanAt_lt s.params.tables scan (symPos s.mem b.symPtr j)
  simp only [Function.comp_apply, symbolAt]
  exact ⟨by dsimp only; omega, by dsimp only; omega, level_bound _ hq _ _ _⟩

/-! ### The butterfly (R149, R151) -/

/-- Every one of the 64 sums fits an accumulator of 32 bits. -/
def SumsFit (tb : TableSource) (l : List Coef) : Prop :=
  ∀ pu < 2, ∀ pv < 2, ∀ j < 4, ∀ i < 4, -2 ^ 31 ≤ accSum tb l pu pv j i ∧ accSum tb l pu pv j i < 2 ^ 31

theorem accCell_superpose {tb : TableSource} {l : List Coef} (h : SumsFit tb l) {pu pv j i : Nat} (hpu : pu < 2)
    (hpv : pv < 2) (hj : j < 4) (hi : i < 4) : accCell (superpose tb l) pu pv j i = accSum tb l pu pv j i := by
  have hn : 32 * pu + 16 * pv + 4 * j + i < 64 := by omega
  have h1 : (32 * pu + 16 * pv + 4 * j + i) / 32 = pu := by omega
  have h2 : (32 * pu + 16 * pv + 4 * j + i) / 16 % 2 = pv := by omega
  have h3 : (32 * pu + 16 * pv + 4 * j + i) / 4 % 4 = j := by omega
  have h4 : (32 * pu + 16 * pv + 4 * j + i) % 4 = i := by omega
  rw [accCell, superpose, List.getD_eq_getElem _ _ (by simpa using hn), List.getElem_map, List.getElem_range, h1, h2, h3,
    h4, toInt_accWord (h pu hpu pv hpv j hj i hi)]

/-- The sign the butterfly gives the accumulators of an odd frequency. -/
def half (x : Nat) : Int := if x < 4 then 1 else -1

theorem mirror_eq (u x : Nat) : mirror u x = if u % 2 = 1 then half x else 1 := by
  unfold mirror half
  split_ifs <;> omega

theorem exactSum_eq_accSums (tb : TableSource) (l : List Coef) (x y : Nat) :
    let i := if x < 4 then x else 7 - x
    let j := if y < 4 then y else 7 - y
    exactSum tb l x y = accSum tb l 0 0 j i + half x * accSum tb l 1 0 j i + half y * accSum tb l 0 1 j i
      + half x * half y * accSum tb l 1 1 j i := by
  intro i j
  unfold exactSum accSum
  induction l with
  | nil => simp
  | cons k l ih =>
    simp only [List.map_cons, List.sum_cons]
    have hu : k.u % 2 = 0 ∨ k.u % 2 = 1 := by omega
    have hv : k.v % 2 = 0 ∨ k.v % 2 = 1 := by omega
    rw [ih, mirror_eq, mirror_eq]
    rcases hu with hu | hu <;> rcases hv with hv | hv <;> simp [hu, hv] <;> ring

theorem butterfly_eq_exactSum {tb : TableSource} {l : List Coef} (h : SumsFit tb l) {x y : Nat} (hx : x < 8)
    (hy : y < 8) : butterfly (superpose tb l) x y = exactSum tb l x y := by
  have hi : (if x < 4 then x else 7 - x) < 4 := by split <;> omega
  have hj : (if y < 4 then y else 7 - y) < 4 := by split <;> omega
  rw [butterfly, exactSum_eq_accSums, accCell_superpose h (by decide) (by decide) hj hi,
    accCell_superpose h (by decide) (by decide) hj hi,
    accCell_superpose h (by decide) (by decide) hj hi, accCell_superpose h (by decide) (by decide) hj hi]
  rfl

/-! ### The default T (R146, R147, R189) -/

/-- What a coefficient of frequency p can add at most to a sum at (i, j), in size. -/
def basisBound (i j : Nat) (p : Nat × Nat) : Nat :=
  (2047 * ((basisG p.1 i).natAbs * (basisG p.2 j).natAbs) + 2 ^ 55) / 2 ^ 56

/-- The 64 frequencies together, at each of the sixteen positions (R189). -/
theorem sum_basisBound : ∀ q ∈ grid 4 4, ((grid 8 8).map (basisBound q.1 q.2)).sum ≤ 914348 := by decide +kernel

theorem natAbs_rndHafz (n : Int) : (rndHafz n 56).natAbs = (n.natAbs + 2 ^ 55) / 2 ^ 56 := by
  unfold rndHafz asr
  split <;> omega

theorem natAbs_basisDefault_le {k : Coef} (hk : CoefSound k) (i j : Nat) :
    (basisDefault k.c k.u k.v i j).natAbs ≤ basisBound i j (k.u, k.v) := by
  obtain ⟨-, -, hlo, hhi⟩ := hk
  have hc : k.c.natAbs ≤ 2047 := by omega
  rw [basisDefault, natAbs_rndHafz, basisBound, Int.natAbs_mul, Int.natAbs_mul, Nat.mul_assoc]
  exact Nat.div_le_div_right (Nat.add_le_add_right (Nat.mul_le_mul_right _ hc) _)

/-- A sum over distinct things that all lie in a list is no more than the sum over the list. -/
theorem sum_map_le_of_nodup {α β : Type} [DecidableEq β] {l : List α} {key : α → β} {all : List β}
    (hn : (l.map key).Nodup) (hall : all.Nodup) (hsub : ∀ a ∈ l, key a ∈ all) (w : β → Nat) :
    (l.map fun a => w (key a)).sum ≤ (all.map w).sum := by
  have hl : (l.map fun a => w (key a)).sum = ((l.map key).map w).sum := by rw [List.map_map]; rfl
  rw [hl, ← List.sum_toFinset w hn, ← List.sum_toFinset w hall]
  refine Finset.sum_le_sum_of_subset fun b hb => ?_
  obtain ⟨a, ha, rfl⟩ := List.mem_map.1 (List.mem_toFinset.1 hb)
  exact List.mem_toFinset.2 (hsub a ha)

theorem natAbs_sum_le {α : Type} (l : List α) (f : α → Int) (w : α → Nat) (h : ∀ a ∈ l, (f a).natAbs ≤ w a) :
    (l.map f).sum.natAbs ≤ (l.map w).sum := by
  induction l with
  | nil => simp
  | cons a l ih =>
    simp only [List.map_cons, List.sum_cons]
    have h1 := h a (by simp)
    have h2 := ih fun b hb => h b (by simp [hb])
    omega

/-- A list of coefficients of distinct frequencies. -/
def ListSound (l : List Coef) : Prop := (l.map fun k => (k.u, k.v)).Nodup ∧ ∀ k ∈ l, CoefSound k

/-- Any sum with a share of each coefficient's T of at most its size stays within the bound of R189. -/
theorem natAbs_share_le {l : List Coef} (hl : ListSound l) {i j : Nat} (hi : i < 4) (hj : j < 4) {f : Coef → Int}
    (hf : ∀ k ∈ l, (f k).natAbs ≤ (basisDefault k.c k.u k.v i j).natAbs) : (l.map f).sum.natAbs ≤ 914348 := by
  obtain ⟨hnodup, hsound⟩ := hl
  calc (l.map f).sum.natAbs
      ≤ (l.map fun k => basisBound i j (k.u, k.v)).sum :=
        natAbs_sum_le l f _ fun k hk => (hf k hk).trans (natAbs_basisDefault_le (hsound k hk) i j)
    _ ≤ ((grid 8 8).map (basisBound i j)).sum :=
        sum_map_le_of_nodup hnodup (grid_nodup 8 8) (fun k hk => mem_grid.2 ⟨(hsound k hk).1, (hsound k hk).2.1⟩) _
    _ ≤ 914348 := sum_basisBound (i, j) (mem_grid.2 ⟨hi, hj⟩)

theorem sumsFit_standard {l : List Coef} (hl : ListSound l) : SumsFit .standard l := by
  intro pu _ pv _ j hj i hi
  have hle : (accSum .standard l pu pv j i).natAbs ≤ 914348 := by
    refine natAbs_share_le hl hi hj fun k _ => ?_
    show (if k.u % 2 = pu ∧ k.v % 2 = pv then basisT .standard k.c k.u k.v i j else 0).natAbs ≤ _
    split
    · exact le_rfl
    · exact Nat.zero_le _
  omega

theorem natAbs_mirror (u x : Nat) : (mirror u x).natAbs = 1 := by
  unfold mirror
  split <;> rfl

theorem exactSum_standard_le {l : List Coef} (hl : ListSound l) {x y : Nat} (hx : x < 8) (hy : y < 8) :
    |exactSum .standard l x y| ≤ 914348 := by
  have hle : (exactSum .standard l x y).natAbs ≤ 914348 := by
    refine natAbs_share_le hl (i := if x < 4 then x else 7 - x) (j := if y < 4 then y else 7 - y) (by split <;> omega)
      (by split <;> omega) fun k _ => ?_
    rw [Int.natAbs_mul, Int.natAbs_mul, natAbs_mirror, natAbs_mirror, Nat.one_mul]
    exact le_rfl
  rw [Int.abs_eq_natAbs]
  exact_mod_cast hle

theorem residual_standard_le {l : List Coef} (hl : ListSound l) {x y : Nat} (hx : x < 8) (hy : y < 8) :
    |Machine.residual (superpose .standard l) x y| ≤ 14288 := by
  have hsum := exactSum_standard_le hl hx hy
  rw [Machine.residual, butterfly_eq_exactSum (sumsFit_standard hl) hx hy]
  unfold asr
  rw [abs_le] at hsum ⊢
  omega

/-- Settles O37. -/
theorem accumulatorsHoldTheExactSums : Obligations.AccumulatorsHoldTheExactSums := by
  refine ⟨fun s b scan _ hq _ hs => ⟨frequencies_nodup scan hs, fun k hk => coefSound_of_mem_symbols hq hk⟩,
    fun tb l hfit x hx y hy => butterfly_eq_exactSum hfit hx hy, fun l hnodup hsound x hx y hy => ?_⟩
  have hl : ListSound l := ⟨hnodup, hsound⟩
  exact ⟨butterfly_eq_exactSum (sumsFit_standard hl) hx hy, (exactSum_standard_le hl hx hy).trans (by decide),
    residual_standard_le hl hx hy⟩

/-! ### The list of one symbol (R187) -/

theorem exactSum_dc (tb : TableSource) {c : Int} (hc : |c| ≤ 2047) (x y : Nat) :
    exactSum tb [{ u := 0, v := 0, c := c }] x y = 8 * c := by
  simp [exactSum, mirror, basisT_dc tb hc]

theorem sumsFit_dc (tb : TableSource) {c : Int} (hc : |c| ≤ 2047) : SumsFit tb [{ u := 0, v := 0, c := c }] := by
  intro pu _ pv _ j _ i _
  have hc' := abs_le.1 hc
  simp only [accSum, List.map_cons, List.map_nil, List.sum_cons, List.sum_nil, basisT_dc tb hc]
  split <;> omega

/-- Settles O39. -/
theorem dcOnlyBlockIsFlat : Obligations.DcOnlyBlockIsFlat := by
  intro s b hq _ hone hskip
  dsimp only
  have hc : |level s.params.tables b.quant (symAmp s.mem b.symPtr 0) 0 b.dc8| ≤ 2047 := abs_le.2 (level_bound _ hq _ _ _)
  have hpos : symPos s.mem b.symPtr 0 = 0 := hskip
  have hlist : symbols s.params.tables s.mem b 0 =
      [{ skip := 0, coef := { u := 0, v := 0, c := level s.params.tables b.quant (symAmp s.mem b.symPtr 0) 0 b.dc8 } }] := by
    simp [symbols, hone, symbolAt, hpos, hskip, scanAt_zero]
  rw [hlist]
  refine ⟨rfl, fun x hx y hy => ?_⟩
  have hsum := (butterfly_eq_exactSum (sumsFit_dc s.params.tables hc) hx hy).trans (exactSum_dc s.params.tables hc x y)
  refine ⟨hsum, congrArg (fun v => asr (v + 32) 6) hsum, ?_⟩
  unfold asr
  omega

end Sys2Proof.Proofs
end

section
/-! The commands of unit I on sound arguments: what they store, and that nothing else changes (40_idct_engine.md R152 to
R180). -/

namespace Sys2Proof.Proofs

open Sys2Proof.Machine Sys2Proof.Safety Sys2Proof.Config

/-! ### Squares of samples -/

theorem cell_one (top stride x y : Nat) : cell top stride 1 (x, y) = top + y * stride + x := by
  rw [cell, Nat.one_mul]

/-- Samples stored over a square: elsewhere memory is as before, and with rows apart each sample reads back. -/
theorem read_square {m : Memory} (hw : m.wf) (top stride n : Nat) (v : Nat × Nat → Byte) :
    let k := m.writeAll ((grid n n).map fun p => (cell top stride 1 p, v p))
    (∀ a, a ∉ (grid n n).map (cell top stride 1) → k.read a = m.read a) ∧
    (n ≤ stride → ∀ x < n, ∀ y < n, k.read (top + y * stride + x) = v (x, y)) := by
  refine ⟨fun a ha => Memory.read_writeAll_of_notMem hw ?_, fun hs x hx y hy => ?_⟩
  · rw [List.map_map]
    exact ha
  · rw [← cell_one]
    exact Memory.read_writeAll_map hw (cells_nodup (by omega) Nat.one_pos) (mem_grid.2 ⟨hx, hy⟩)

theorem read_blockSamples {m : Memory} (hw : m.wf) (top stride : Nat) (acc : List (BitVec 32)) (pred : Nat × Nat → Int) :
    let k := m.writeAll (blockSamples top stride acc pred)
    (∀ a, a ∉ (grid 8 8).map (cell top stride 1) → k.read a = m.read a) ∧
    (8 ≤ stride → ∀ x < 8, ∀ y < 8, k.read (top + y * stride + x) =
      sampleByte (clip255 (pred (x, y) + Machine.residual acc x y))) :=
  read_square hw top stride 8 fun p => sampleByte (clip255 (pred p + Machine.residual acc p.1 p.2))

/-! ### RECON and RECON_ADD -/

theorem finish_noteBlock (acc : List (BitVec 32)) (c : PatternCase) (l : List (Nat × Byte)) (s : State) :
    finish .ok (noteBlock acc c (s.store l)) =
      { ended s with mem := s.mem.writeAll l, acc := acc, lastCase := c } := rfl

/-- Settles O32. -/
theorem reconStoresTheClippedResidual : Obligations.ReconStoresTheClippedResidual := by
  intro dc8 s
  dsimp only
  intro hw hb hs
  obtain ⟨helse, hread⟩ := read_blockSamples hw s.regI.dest.toNat s.regI.stride.toNat
    (superpose s.params.tables (coefs (symbols s.params.tables s.mem (regBlock s dc8) 0))) fun _ => 0
  refine ⟨?_, helse, fun hst x hx y hy => by rw [hread hst x hx y hy, zero_add]⟩
  rw [exec_of_body rfl, reconBody_eq_ok.2 ⟨hb, hs, rfl⟩, endCommand_ok, finish_noteBlock]

/-- Settles O33: the prediction is read whole before the first sample is stored, so PRED may be DEST. -/
theorem reconAddSumsOntoThePrediction : Obligations.ReconAddSumsOntoThePrediction := by
  intro dc8 s
  dsimp only
  intro hw hb hp hs
  obtain ⟨helse, hread⟩ := read_blockSamples hw s.regI.dest.toNat s.regI.stride.toNat
    (superpose s.params.tables (coefs (symbols s.params.tables s.mem (regBlock s dc8) 0)))
    fun q => (s.mem.read (cell s.regI.pred.toNat s.regI.stride.toNat 1 q)).toNat
  refine ⟨?_, helse, fun hst x hx y hy => by rw [hread hst x hx y hy, cell_one]⟩
  rw [exec_of_body rfl, reconAddBody_eq_ok.2 ⟨hb, hp, hs, rfl⟩, endCommand_ok, finish_noteBlock]

/-! ### Halfwords -/

theorem halfBytes_readLE (v : Int) :
    ((BitVec.ofInt 16 v).extractLsb' 0 8).toNat + 256 * ((BitVec.ofInt 16 v).extractLsb' 8 8).toNat =
      (BitVec.ofInt 16 v).toNat := by
  simp only [BitVec.extractLsb'_toNat, Nat.shiftRight_eq_div_pow]
  have := (BitVec.ofInt 16 v).isLt
  omega

/-- Halfwords stored at places that do not overlap read back, the lower address first (20_memory.md R71). -/
theorem readLE_halves {α : Type} {m : Memory} (hw : m.wf) {l : List α} (hl : l.Nodup) {f : α → Nat} (v : α → Int)
    (hf : ∀ p ∈ l, ∀ q ∈ l, ∀ i < 2, ∀ j < 2, f p + i = f q + j → p = q ∧ i = j) {p : α} (hp : p ∈ l) :
    (m.writeAll (l.flatMap fun p => placed (f p) (halfBytes (v p)))).readLE (f p) 2 = (BitVec.ofInt 16 (v p)).toNat := by
  have hkeys : ((l.flatMap fun p => placed (f p) (halfBytes (v p))).map (·.1)).Nodup := by
    have hmap : (l.flatMap fun p => placed (f p) (halfBytes (v p))).map (·.1) = l.flatMap fun p => [f p, f p + 1] := by
      simp [List.map_flatMap, halfBytes]
    rw [hmap, List.nodup_flatMap]
    refine ⟨fun q _ => by simp, hl.imp_of_mem fun {q r} hq hr hne => ?_⟩
    rw [Function.onFun, List.disjoint_left]
    intro a haq har
    simp only [List.mem_cons, List.not_mem_nil, or_false] at haq har
    rcases haq with rfl | rfl <;> rcases har with e | e
    · exact hne (hf q hq r hr 0 (by decide) 0 (by decide) e).1
    · exact hne (hf q hq r hr 0 (by decide) 1 (by decide) e).1
    · exact hne (hf q hq r hr 1 (by decide) 0 (by decide) e).1
    · exact hne (hf q hq r hr 1 (by decide) 1 (by decide) e).1
  have hmem : ∀ b ∈ placed (f p) (halfBytes (v p)),
      (m.writeAll (l.flatMap fun p => placed (f p) (halfBytes (v p)))).read b.1 = b.2 := fun b hb =>
    Memory.read_writeAll_of_mem hw hkeys (List.mem_flatMap.2 ⟨p, hp, hb⟩)
  have h0 := hmem (f p, (BitVec.ofInt 16 (v p)).extractLsb' 0 8) (by simp [halfBytes])
  have h1 := hmem (f p + 1, (BitVec.ofInt 16 (v p)).extractLsb' 8 8) (by simp [halfBytes])
  rw [← halfBytes_readLE]
  simp only [Memory.readLE, h0, h1]
  rfl

/-- Bytes that no halfword covers stay. -/
theorem read_halves_of_ne {α : Type} {m : Memory} (hw : m.wf) {l : List α} {f : α → Nat} (v : α → Int) {a : Nat}
    (ha : ∀ p ∈ l, a ≠ f p ∧ a ≠ f p + 1) :
    (m.writeAll (l.flatMap fun p => placed (f p) (halfBytes (v p)))).read a = m.read a := by
  refine Memory.read_writeAll_of_notMem hw fun hmem => ?_
  obtain ⟨b, hb, rfl⟩ := List.mem_map.1 hmem
  obtain ⟨p, hp, hb⟩ := List.mem_flatMap.1 hb
  obtain ⟨h0, h1⟩ := ha p hp
  simp only [halfBytes, placed_two, List.mem_cons, List.not_mem_nil, or_false] at hb
  rcases hb with rfl | rfl
  · exact h0 rfl
  · exact h1 rfl

theorem sext16_toNat (b : BitVec 16) : sext16 b.toNat = b.toInt := by
  rw [sext16, BitVec.ofNat_toNat, BitVec.setWidth_eq]

theorem toInt_ofInt16 {v : Int} (h : |v| ≤ 14288) : (BitVec.ofInt 16 v).toInt = v := by
  rw [abs_le] at h
  rw [BitVec.toInt_ofInt, Int.bmod_eq_of_le (by omega) (by omega)]

/-- The residual of a sound block fits 16 bits under the default T (R189). -/
theorem block_residual_le {s : State} {b : BlockArgs} (hb : blockSound s b) (ht : s.params.tables = .standard) {x y : Nat}
    (hx : x < 8) (hy : y < 8) :
    |Machine.residual (superpose s.params.tables (coefs (symbols s.params.tables s.mem b 0))) x y| ≤ 14288 := by
  obtain ⟨-, hq, -, hsym⟩ := hb
  have hl : ListSound (coefs (symbols s.params.tables s.mem b 0)) :=
    ⟨frequencies_nodup 0 hsym, fun k hk => coefSound_of_mem_symbols hq hk⟩
  rw [ht] at hl ⊢
  exact residual_standard_le hl hx hy

/-- Settles O34. -/
theorem reconS16StoresTheResidual : Obligations.ReconS16StoresTheResidual := by
  intro dc8 s
  dsimp only
  intro hw hb hs hd hst
  have hcells : ∀ p ∈ grid 8 8, cell s.regI.dest.toNat s.regI.stride.toNat 2 p + 2 ≤ s.params.memSize ∧
      cell s.regI.dest.toNat s.regI.stride.toNat 2 p % 2 = 0 := fun p hp => by
    have hmul := Nat.mul_mod p.2 s.regI.stride.toNat 2
    rw [hst, Nat.mul_zero, Nat.zero_mod] at hmul
    exact ⟨(squareIn_iff (by decide)).1 hs p hp, by unfold cell; omega⟩
  refine ⟨?exact, fun a ha => read_halves_of_ne hw _ ha, fun hrows x hx y hy => ?reads⟩
  case exact =>
    rw [exec_of_body rfl, reconS16Body_eq_ok.2 ⟨hb, hcells, rfl⟩, endCommand_ok, finish_noteBlock]
  case reads =>
    have hread := readLE_halves hw (grid_nodup 8 8) (f := cell s.regI.dest.toNat s.regI.stride.toNat 2)
      (fun p => Machine.residual (superpose s.params.tables
        (coefs (symbols s.params.tables s.mem (regBlock s dc8) 0))) p.1 p.2)
      (fun p hp q hq i hi j hj e => cell_inj (n := 8) (by omega) (by decide) (mem_grid.1 hp).1 (mem_grid.1 hq).1 hi hj e)
      (p := (x, y)) (mem_grid.2 ⟨hx, hy⟩)
    have hhalf := (congrArg sext16 hread).trans (sext16_toNat _)
    exact ⟨hhalf, fun ht => hhalf.trans (toInt_ofInt16 (block_residual_le hb ht hx hy))⟩

/-! ### RECON_AIC -/

theorem finish_noteBlock_aicc (acc : List (BitVec 32)) (c : PatternCase) (l : List (Nat × Byte)) (a : List AicEntry)
    (s : State) :
    finish .ok (noteBlock acc c { s.store l with aicc := a }) =
      { ended s with mem := s.mem.writeAll l, acc := acc, lastCase := c, aicc := a } := rfl

/-- A slot of a cache whose column col is changed at slot b. -/
theorem getElem?_modify_set (aicc : List AicEntry) (col b c n : Nat) (x : AicSlot) :
    ((aicc.modify col fun e => e.set b x)[c]?.bind fun e => e[n]?) =
      if c = col ∧ n = b then (aicc[c]?.bind fun e => e[n]?).map fun _ => x else aicc[c]?.bind fun e => e[n]? := by
  rw [List.getElem?_modify]
  cases hc : aicc[c]? with
  | none => simp
  | some e =>
    by_cases hcol : col = c
    · subst hcol
      by_cases hn : n = b
      · subst hn
        cases hx : e[n]? with
        | none => simp_all
        | some y => simp_all [(List.getElem?_eq_some_iff.1 hx).1]
      · simp [hn, Ne.symm hn]
    · simp [hcol, Ne.symm hcol]

/-- The cache after a block: its slot holds what was written and is available, every other is as before (R178, R180). -/
theorem aicSlot_cached {s : State} (h : arraysSound s) {col b : Nat} (hcol : col < s.params.aicCols) (hb : b ≤ 5)
    (coef : Nat → Nat → Int) (t : State) (ht : t.aicc = cached s.aicc col b coef) :
    aicSlot t col b = some { valid := true, row := (List.range 8).map fun u => coef u 0,
                             colv := (List.range 8).map fun v => coef 0 v } ∧
      ∀ c n, c ≠ col ∨ n ≠ b → aicSlot t c n = aicSlot s c n := by
  obtain ⟨-, -, hlen, hentries⟩ := h
  refine ⟨?_, fun c n hne => ?_⟩
  · have hcol' : col < s.aicc.length := hlen ▸ hcol
    have hb' : b < (s.aicc[col]).length := by
      rw [(hentries _ (List.getElem_mem hcol')).1]
      omega
    simp [aicSlot, ht, cached, hcol', hb']
  · rw [aicSlot, aicSlot, ht, cached, getElem?_modify_set, if_neg (by omega)]

/-- Settles O35. -/
theorem reconAicPredictsAndCaches : Obligations.ReconAicPredictsAndCaches := by
  intro dc8 s
  dsimp only
  intro hw hb hmode hblk hcol hs
  have hmode' : s.regI.aicPos.toNat / 2 ^ 20 % 4 ≤ 2 := by omega
  obtain ⟨helse, hread⟩ := read_blockSamples hw s.regI.dest.toNat s.regI.stride.toNat
    (superpose s.params.tables (coefList (aicCoef (s.regI.aicPos.toNat / 2 ^ 20 % 4)
      (aboveEntry s (s.regI.aicPos.toNat % 2 ^ 16) (s.regI.aicPos.toNat / 2 ^ 16 % 8))
      (leftEntry s (s.regI.aicPos.toNat % 2 ^ 16) (s.regI.aicPos.toNat / 2 ^ 16 % 8))
      (symbols s.params.tables s.mem (regBlock s dc8) (s.regI.aicPos.toNat / 2 ^ 20 % 4))))) fun _ => 0
  refine ⟨?_, helse, fun hst x hx y hy => by rw [hread hst x hx y hy, zero_add], fun ha =>
    aicSlot_cached ha hcol hblk _ _ rfl⟩
  rw [exec_of_body rfl]
  dsimp only
  rw [aicMode_field, aicBlock_field, aicColumn_field, reconAicBody_eq_ok.2 ⟨hb, hmode', hblk, hcol, hs, rfl⟩,
    endCommand_ok, finish_noteBlock_aicc]

/-! ### RRU_UPADD -/

/-- Settles O36. -/
theorem rruUpaddAddsTheUpsampledResidual : Obligations.RruUpaddAddsTheUpsampledResidual := by
  intro nopred small s
  dsimp only
  have hn : 0 < (if small then 8 else 16) := by split <;> decide
  generalize hsize : (if small then 8 else 16) = n at hn
  intro hw ht hsrc hodd hstride hp hd
  have hcells : ∀ p ∈ grid n n, cell s.regI.upSrc.toNat s.regI.upSrcStride.toNat 2 p + 2 ≤ s.params.memSize ∧
      cell s.regI.upSrc.toNat s.regI.upSrcStride.toNat 2 p % 2 = 0 := fun p hp => by
    have hmul := Nat.mul_mod p.2 s.regI.upSrcStride.toNat 2
    rw [hstride, Nat.mul_zero, Nat.zero_mod] at hmul
    exact ⟨(squareIn_iff hn).1 hsrc p hp, by unfold cell; omega⟩
  obtain ⟨helse, hread⟩ := read_square hw s.regI.dest.toNat s.regI.stride.toNat (2 * n) fun p =>
    sampleByte (clip255 ((if nopred then 0 else (s.mem.read (cell s.regI.pred.toNat s.regI.stride.toNat 1 p)).toNat : Nat) +
      upSample (halvesAt s s.regI.upSrc.toNat s.regI.upSrcStride.toNat n) n p.1 p.2))
  refine ⟨?_, helse, fun hst x hx y hy => (hread hst x hx y hy).trans ?_⟩
  · rw [exec_of_body rfl, hsize, (upAddBody_eq_ok hn).2 ⟨ht, hcells, hp, hd, rfl⟩, endCommand_ok]
    rfl
  · rw [cell_one]
    cases nopred <;> rfl

end Sys2Proof.Proofs
end

section
/-! The turns of the device, the registers a busy device answers, and the states after reset, a fault and an end
(10_state.md R22, R50; 42_dispatcher.md R233, R240, R262; 60_exceptions.md R331 to R341). -/

namespace Sys2Proof.Proofs

open Sys2Proof.Machine Sys2Proof.Safety Sys2Proof.Config

/-! ### Whose turn it is -/

theorem step_of_deviceMoves {s u : State} (h : deviceMoves s u) : step s = deviceTurn u := by
  rcases h with ⟨hs, rfl⟩ | ⟨rest, hs, hb, rfl⟩ | ⟨rest, hs, rfl⟩
  · rw [step, schedule, hs]
  · rw [step, schedule, hs]
    exact if_pos hb
  · rw [step, schedule, hs]

theorem deviceTurn_idle {u : State} (h : u.run = .idle) : deviceTurn u = .next u := by rw [deviceTurn, h]

theorem deviceTurn_gob {u : State} {c : GobRun} (h : u.run = .gob c) : deviceTurn u = gobTurn c u := by rw [deviceTurn, h]

theorem deviceTurn_command {u : State} {w : Word} {i : Instr} (h : u.run = .command w) (hi : decodeCommand w = .ok i) :
    deviceTurn u = exec i u := by
  rw [deviceTurn, h]
  show commandTurn w u = _
  rw [commandTurn, hi]

/-- Settles O4. -/
theorem wordsWrittenOutDecodeAsTheTablesSay : Obligations.WordsWrittenOutDecodeAsTheTablesSay := by
  unfold Obligations.WordsWrittenOutDecodeAsTheTablesSay
  decide

/-- Settles O5. -/
theorem stepRunsTheStartedCommand : Obligations.StepRunsTheStartedCommand := fun _ _ _ _ hm hr hi =>
  (step_of_deviceMoves hm).trans (deviceTurn_command hr hi)

/-! ### The loop of DECODE_GOB -/

/-- Checks that all raise the same fault. -/
theorem checkEach_raiseIf {α : Type} {c : α → Prop} [DecidablePred c] {name : FaultName} {info : Int} {l : List α}
    (h : ∃ a ∈ l, c a) : checkEach (fun a => raiseIf (c a) name info) l = .error ⟨name, trunc32 info⟩ := by
  induction l with
  | nil => simp at h
  | cons a l ih =>
    rw [checkEach]
    by_cases ha : c a
    · rw [raiseIf_of ha, Checks.error_bind]
    · rw [raiseIf_of_not ha, Checks.ok_bind]
      refine ih ?_
      obtain ⟨b, hb, hc⟩ := h
      rcases List.mem_cons.1 hb with rfl | hb
      · exact absurd hc ha
      · exact ⟨b, hb, hc⟩

theorem fitCheck_of_not_fits {m : Mb} {s : State} (h : ¬fits m.run (unitSize s) m.col m.row) :
    fitCheck m s = .error ⟨.picDesc, s.ck.mbNum⟩ := by
  rw [← trunc32_toNat s.ck.mbNum]
  refine checkEach_raiseIf ?_
  unfold fits at h
  push Not at h
  obtain ⟨id, hid, h⟩ := h
  exact ⟨id, hid, by omega⟩

theorem gobTurn_of_more {c : GobRun} {s : State} (h : s.ck.loop.toNat < c.gob.mbCount) :
    gobTurn c s = match fetchTag (cursorMb c s) s with
      | .error (e, t) => .next (raiseInLoop e t)
      | .ok (tag, t) => exec (decodeTag t.params.legacy tag) t := if_pos (decide_eq_true h)

/-- The low byte of a word is the one at the lowest address (20_memory.md R71). -/
theorem ofNat_readLE (m : Memory) (a n : Nat) : BitVec.ofNat 8 (m.readLE a (n + 1)) = m.read a := by
  apply BitVec.eq_of_toNat_eq
  rw [BitVec.toNat_ofNat, Memory.readLE, Nat.add_mul_mod_self_left]
  exact Nat.mod_eq_of_lt (m.read a).isLt

theorem mbType_ok {s : State} {d : Nat} (hd : d % 4 = 0) (hl : d + 8 ≤ s.params.memSize) :
    mbType s d = .ok (s.mem.read (d + 4)) := by
  have haddr : (d : Int) + 4 * (1 : Nat) = ((d + 4 : Nat) : Int) := by push_cast; ring
  rw [mbType, mbWord, haddr, memRead_word (by omega) (by omega), Checks.ok_bind, ofNat_readLE]

theorem fetchTag_ok {m : Mb} {s : State} (hf : fits m.run (unitSize s) m.col m.row) (hd : m.d % 4 = 0)
    (hl : m.d + 8 ≤ s.params.memSize) :
    let t := s.store (bytesLE m.d 4 (m.col % 2 ^ 16 + m.row % 2 ^ 16 * 2 ^ 16))
    fetchTag m s = .ok (t.mem.read (m.d + 4), t) := by
  intro t
  have hpos : writeMbPosition s m.d m.col m.row = .ok t := writeMbPosition_ok hd (by omega)
  have htype : mbType t m.d = .ok (t.mem.read (m.d + 4)) := mbType_ok hd hl
  rw [fetchTag, (fitCheck_eq_ok (x := ())).2 hf, hpos]
  show (inState t (mbType t m.d) >>= _) = _
  rw [htype]
  rfl

theorem fetchTag_of_not_fits {m : Mb} {s : State} (h : ¬fits m.run (unitSize s) m.col m.row) :
    fetchTag m s = .error (⟨.picDesc, s.ck.mbNum⟩, s) := by
  rw [fetchTag, fitCheck_of_not_fits h]
  rfl

/-- A tag with a base type is handled as that type (30_encoding.md R122). -/
theorem decodeTag_legacy {legacy : LegacyMap} {t : Byte} {b : BaseType} (h6 : 6 ≤ t.toNat) (h15 : t.toNat ≤ 15)
    (hb : legacy261 legacy t = some b) : decodeTag legacy t = baseInstr b := by
  rw [decodeTag_of_le legacy h6, if_pos h15, hb]
  rfl

/-- Settles O6. -/
theorem stepRunsTheFetchedTag : Obligations.StepRunsTheFetchedTag := by
  intro s u c hm hr hmore
  dsimp only
  intro hfit hd hl
  have hfetch := fetchTag_ok (m := cursorMb c u) (s := u) hfit hd hl
  rw [step_of_deviceMoves hm, deviceTurn_gob hr, gobTurn_of_more hmore, hfetch]
  exact ⟨rfl, fun b h6 h15 hb => congrArg (exec · _) (decodeTag_legacy h6 h15 hb)⟩

/-- Settles O7. -/
theorem macroblockThatDoesNotFitRaises : Obligations.MacroblockThatDoesNotFitRaises := by
  intro s u c hm hr hmore hfit
  rw [step_of_deviceMoves hm, deviceTurn_gob hr, gobTurn_of_more hmore, fetchTag_of_not_fits (m := cursorMb c u) hfit]
  rfl

/-- Settles O8. -/
theorem loopEndCompletesTheGob : Obligations.LoopEndCompletesTheGob := by
  intro s u c hm hr hdone
  have hmore : moreMacroblocks c u = false := decide_eq_false (by omega)
  rw [step_of_deviceMoves hm, deviceTurn_gob hr, gobTurn, hmore]
  cases hg : c.geomFail <;> simp [completeGob, hg, finish, setCkValid]

/-- Settles O60. -/
theorem mbUnknownAbortsTheGob : Obligations.MbUnknownAbortsTheGob := by
  intro tag s c hr
  show execMbUnknown tag s = _
  rw [execMbUnknown, hr]
  rfl

/-! ### An idle device -/

/-- Turns given to an idle device only use up the host's script. -/
theorem steps_pauses (n m : Nat) {s : State} (rest : List HostOp) (h : s.run = .idle) :
    steps (n + m) { s with script := List.replicate n .pause ++ rest } = steps m { s with script := rest } := by
  induction n with
  | zero => rw [Nat.zero_add]; rfl
  | succ n ih =>
    have hturn : step { s with script := List.replicate (n + 1) .pause ++ rest } =
        .next { s with script := List.replicate n .pause ++ rest } := deviceTurn_idle h
    rw [Nat.add_right_comm, steps, hturn]
    exact ih

/-- Settles O9. -/
theorem idleDeviceKeepsItsState : Obligations.IdleDeviceKeepsItsState := by
  refine ⟨fun s u hm hr => (step_of_deviceMoves hm).trans (deviceTurn_idle hr), fun s n rest hr =>
    ⟨steps_pauses n 0 rest hr, fun hf => ?_⟩⟩
  have hwrite : step { s with script := .write 0x00C 0x31 :: rest } =
      .next { s with script := rest, run := .command 0x31 } := by
    rw [show (0x00C : BitVec 9) = BitVec.ofNat 9 RegName.cmd.offset from rfl, step_write_register]
    exact congrArg Host.Outcome.next (writeCmd_of_ready (s := { s with script := rest }) (busy_eq_false_iff.2 hr) hf 0x31)
  refine ⟨{ s with script := rest, run := .command 0x31 }, ?_, rfl, rfl, rfl, deviceTurn_command rfl (by decide)⟩
  rw [steps_pauses n 1 _ hr, steps, hwrite]
  rfl

/-! ### A busy device's registers -/

theorem regWrite_of_busy {s : State} (hb : s.busy = true) {r : RegName} (hc : r ≠ .ctrl) (hi : r ≠ .irqStat) (v : Word) :
    regWrite r v s = s := by
  by_cases hm : r = .cmd
  · subst hm
    exact writeCmd_of_busy_or_pending (.inl hb) v
  · rw [regWrite_plain hc hi hm, if_pos hb]

theorem windowWrite_of_busy {s : State} (hb : s.busy = true) {offset : BitVec 9} (ha : offset.toNat % 4 = 0)
    (hc : offset ≠ 0x004) (hi : offset ≠ 0x01C) (v : Word) : windowWrite offset v s = .next s := by
  cases hr : regAt offset with
  | none => exact windowWrite_no_register ha hr v s
  | some r =>
    rw [windowWrite_register ha hr, regWrite_of_busy hb]
    · rintro rfl
      exact hc (BitVec.eq_of_toNat_eq (regAt_eq_some_iff.1 hr).symm)
    · rintro rfl
      exact hi (BitVec.eq_of_toNat_eq (regAt_eq_some_iff.1 hr).symm)

/-- BUSY and FAULT of STATUS (10_state.md R25). -/
theorem statusWord_flags (s : State) :
    (statusWord s).getLsbD 0 = s.busy ∧ (statusWord s).getLsbD 2 = s.fault.pending := by
  rw [getLsbD_eq_div_mod, getLsbD_eq_div_mod, statusWord, BitVec.toNat_ofNat]
  unfold flagBit
  have hcode : s.lastCase.code ≤ 4 := by cases s.lastCase <;> decide
  cases s.busy <;> cases s.fault.pending <;> simp <;> split <;> split <;> omega

/-- A busy device masks the other bits of STATUS alone (10_state.md R22). -/
theorem regRead_status_busy {s : State} (hb : s.busy = true) {i : Nat} (hi : statusTrueMask.getLsbD i = true) :
    (regRead .status s).getLsbD i = (statusWord s).getLsbD i := by
  have hread : regRead .status s =
      (statusWord s &&& statusTrueMask) ||| (busyRead s.freeCount &&& ~~~statusTrueMask) := by
    simp [regRead, hb, RegName.volatile]
  simp [hread, hi]

/-- Settles O12. -/
theorem busyDeviceIgnoresRegisterWrites : Obligations.BusyDeviceIgnoresRegisterWrites := by
  intro s offset v rest hb ha
  refine ⟨fun hc hi => windowWrite_of_busy (s := { s with script := rest }) hb ha hc hi v, ?read, ?busy, ?fault, ?_, ?_⟩
  case read =>
    rw [step_read]
    cases hr : regAt offset with
    | none =>
      refine ⟨0, s.freeCount, windowRead_no_register ha hr _, fun r h => ?_⟩
      exact absurd h (regAt_eq_none_iff.1 hr r)
    | some r =>
      refine ⟨regRead r s, s.freeCount + 1, ?_, fun q hq => ?_⟩
      · rw [windowRead_register ha hr, regRead_script]
        rfl
      · rw [Option.some.inj (hr.symm.trans (regAt_eq_some_iff.2 hq))]
  case busy => rw [regRead_status_busy hb (by decide), (statusWord_flags s).1, hb]
  case fault => rw [regRead_status_busy hb (by decide), (statusWord_flags s).2]
  · exact regRead_of_not_volatile rfl (by decide) s
  · exact regRead_of_not_volatile rfl (by decide) s

/-! ### Interrupts -/

/-- Settles O15. -/
theorem interruptLineIsPendingAndEnabled : Obligations.InterruptLineIsPendingAndEnabled := by
  intro s
  simp only [interruptLine, Bool.or_eq_true, Bool.and_eq_true, or_assoc]

/-- Settles O16. -/
theorem irqStatWriteAcknowledges : Obligations.IrqStatWriteAcknowledges := by
  intro s v rest
  rw [show (0x01C : BitVec 9) = BitVec.ofNat 9 RegName.irqStat.offset from rfl, step_write_register]
  show Host.Outcome.next (writeIrqStat v { s with script := rest }) = _
  rw [writeIrqStat]
  generalize v.getLsbD 1 = clears
  cases clears <;> simp [acknowledge]

/-! ### Reset, faults and ends -/

/-- Settles O17. -/
theorem resetValuesAreThoseOfTheTable : Obligations.ResetValuesAreThoseOfTheTable := by
  refine ⟨fun r => ?_, rfl, rfl, fun e he x hx => ?_⟩
  · cases r <;> decide
  · have he' : e = List.replicate 6 AicSlot.reset := List.eq_of_mem_replicate he
    have hx' : x = AicSlot.reset := List.eq_of_mem_replicate (he' ▸ hx)
    rw [hx']
    rfl

/-- Settles O29. -/
theorem invariantHoldsAtReset : Obligations.InvariantHoldsAtReset :=
  ⟨⟨reset_mem_wf, by decide⟩, arraysSound_reset State.reset State.reset.mem, ⟨rfl, rfl, rfl⟩,
    loopSound_of_not_gob (fun _ => nofun), Nat.zero_le _⟩

/-- Settles O20. -/
theorem takingAFaultLatchesCodeAndInfo : Obligations.TakingAFaultLatchesCodeAndInfo := fun _ _ => ⟨rfl, rfl, rfl, rfl⟩

/-- Settles O21. -/
theorem finishSetsResultAndOneCause : Obligations.FinishSetsResultAndOneCause := by
  refine fun c s => ⟨fun hc => ?_, rfl⟩
  rcases hc with rfl | rfl | rfl <;> rfl

/-- Settles O28. -/
theorem accessChecksRangeThenAlignment : Obligations.AccessChecksRangeThenAlignment := by
  intro s a n
  refine ⟨memSize_range s.params, fun h => if_pos h, fun h0 h1 hn => ?_, fun h0 h1 hn =>
    access_of_accessible ⟨h0, h1, hn⟩⟩
  rw [access, if_neg (by omega), if_pos hn]
  rfl

end Sys2Proof.Proofs
end

section
/-! One edge of the deblocking filters, and the edges of a picture in order (41_deblocking.md R201 to R214). -/

namespace Sys2Proof.Proofs

open Sys2Proof.Machine Sys2Proof.Safety Sys2Proof.Config

/-! ### Samples -/

theorem sampleByte_toNat {v : Int} (h0 : 0 ≤ v) (h1 : v ≤ 255) : ((sampleByte v).toNat : Int) = v := by
  rw [sampleByte, BitVec.toNat_ofInt]
  omega

theorem clip255_range (v : Int) : 0 ≤ clip255 v ∧ clip255 v ≤ 255 := by
  unfold clip255
  omega

theorem sampleAt_range (m : Memory) (a : Int) : 0 ≤ sampleAt m a ∧ sampleAt m a ≤ 255 := by
  have := (m.read a.toNat).isLt
  unfold sampleAt
  omega

/-- The blend stays between its samples (R211). -/
theorem rruPair_range {b c : Int} (hb : 0 ≤ b ∧ b ≤ 255) (hc : 0 ≤ c ∧ c ≤ 255) :
    (0 ≤ (rruPair b c).1 ∧ (rruPair b c).1 ≤ 255) ∧ 0 ≤ (rruPair b c).2 ∧ (rruPair b c).2 ≤ 255 := by
  simp only [rruPair, asr]
  omega

theorem sampleAt_congr {m k : Memory} {a : Int} (h : m.read a.toNat = k.read a.toNat) : sampleAt m a = sampleAt k a := by
  rw [sampleAt, sampleAt, h]

/-- Two samples written at different bytes. -/
theorem sampleAt_write_pair {m : Memory} (hw : m.wf) {b c u v : Int} (hne : b.toNat ≠ c.toNat) (hu : 0 ≤ u ∧ u ≤ 255)
    (hv : 0 ≤ v ∧ v ≤ 255) :
    let k := (m.write b.toNat (sampleByte u)).write c.toNat (sampleByte v)
    (sampleAt k b, sampleAt k c) = (u, v) := by
  intro k
  have hk := Memory.wf_write hw b.toNat (sampleByte u)
  rw [sampleAt, sampleAt, Memory.read_write hk, Memory.read_write hk, if_neg hne, Memory.read_write hw, if_pos rfl,
    if_pos rfl, sampleByte_toNat hu.1 hu.2, sampleByte_toNat hv.1 hv.2]

/-! ### One edge -/

/-- A position stands between those before it and those after it. -/
theorem range_split {n k : Nat} (hk : k < n) :
    ∃ before after, List.range n = before ++ k :: after ∧ (∀ j ∈ before, j < n ∧ j ≠ k) ∧ ∀ j ∈ after, j < n ∧ j ≠ k := by
  obtain ⟨before, after, h⟩ := List.append_of_mem (List.mem_range.2 hk)
  have hnodup : (before ++ k :: after).Nodup := h ▸ List.nodup_range
  obtain ⟨-, hafter, hdisj⟩ := List.nodup_append.1 hnodup
  have hlt : ∀ j ∈ before ++ k :: after, j < n := fun j hj => List.mem_range.1 (h ▸ hj)
  refine ⟨before, after, h, fun j hj => ⟨hlt j (by simp [hj]), hdisj j hj k (by simp)⟩, fun j hj =>
    ⟨hlt j (by simp [hj]), ?_⟩⟩
  rintro rfl
  exact (List.nodup_cons.1 hafter).1 hj

/-- Addresses listed for each position, all different: those of two positions differ, as bytes too. -/
theorem toNat_ne_of_nodup {s : State} {f : Nat → List Int} {n : Nat} (hin : allIn s ((List.range n).flatMap f))
    (hnodup : ((List.range n).flatMap f).Nodup) {j k : Nat} (hj : j < n) (hk : k < n) (hne : j ≠ k) {a b : Int}
    (ha : a ∈ f j) (hb : b ∈ f k) : a.toNat ≠ b.toNat := by
  obtain ⟨-, hdisj⟩ := List.nodup_flatMap.1 hnodup
  have hsymm : Std.Symm (Function.onFun List.Disjoint f) := ⟨fun _ _ h => h.symm⟩
  have hjk : List.Disjoint (f j) (f k) := hdisj.forall (List.mem_range.2 hj) (List.mem_range.2 hk) hne
  have hab : a ≠ b := fun e => hjk ha (e ▸ hb)
  have ha0 := (hin a (List.mem_flatMap.2 ⟨j, List.mem_range.2 hj, ha⟩)).1
  have hb0 := (hin b (List.mem_flatMap.2 ⟨k, List.mem_range.2 hk, hb⟩)).1
  omega

/-- What a filter does at one position of an edge of distinct addresses: the positions before leave its samples as they
are, and those after leave what it wrote (R205, R212). `f` lists the samples of a position. -/
theorem fold_at_position {s : State} {e : Edge} {step : Memory → Nat → Memory} {f : Nat → List Int} {n : Nat}
    (hwf : ∀ m, m.wf → ∀ l : List Nat, (l.foldl step m).wf)
    (hread : ∀ m, m.wf → ∀ (l : List Nat) a, (∀ k ∈ l, a ≠ (e.b k).toNat ∧ a ≠ (e.c k).toNat) →
      (l.foldl step m).read a = m.read a)
    (hf : ∀ k, e.b k ∈ f k ∧ e.c k ∈ f k) (hw : s.mem.wf) (hin : allIn s ((List.range n).flatMap f))
    (hnodup : ((List.range n).flatMap f).Nodup) {k : Nat} (hk : k < n) :
    ∃ m, m.wf ∧ (∀ x ∈ f k, sampleAt m x = sampleAt s.mem x) ∧
      ∀ x ∈ f k, sampleAt ((List.range n).foldl step s.mem) x = sampleAt (step m k) x := by
  have hother : ∀ j, j < n ∧ j ≠ k → ∀ x ∈ f k, x.toNat ≠ (e.b j).toNat ∧ x.toNat ≠ (e.c j).toNat := fun j hj x hx =>
    ⟨toNat_ne_of_nodup hin hnodup hk hj.1 hj.2.symm hx (hf j).1, toNat_ne_of_nodup hin hnodup hk hj.1 hj.2.symm hx (hf j).2⟩
  obtain ⟨before, after, hsplit, hbefore, hafter⟩ := range_split hk
  have hm := hwf s.mem hw before
  refine ⟨before.foldl step s.mem, hm, fun x hx => ?_, fun x hx => ?_⟩
  · exact sampleAt_congr (hread s.mem hw before _ fun j hj => hother j (hbefore j hj) x hx)
  · rw [hsplit, List.foldl_append, List.foldl_cons]
    exact sampleAt_congr (hread _ (hwf _ hm [k]) after _ fun j hj => hother j (hafter j hj) x hx)

/-- B and C of a position of distinct addresses are different bytes. -/
theorem toNat_b_ne_c {s : State} {e : Edge} {f : Nat → List Int} {n : Nat} (hin : allIn s ((List.range n).flatMap f))
    {k : Nat} (hk : k < n) (hf : e.b k ∈ f k ∧ e.c k ∈ f k) (hne : e.b k ≠ e.c k) : (e.b k).toNat ≠ (e.c k).toNat := by
  have hb0 := (hin _ (List.mem_flatMap.2 ⟨k, List.mem_range.2 hk, hf.1⟩)).1
  have hc0 := (hin _ (List.mem_flatMap.2 ⟨k, List.mem_range.2 hk, hf.2⟩)).1
  omega

/-- Each position of a normal edge of distinct addresses is filtered from the samples before (R205). -/
theorem filters_pair {s : State} (hw : s.mem.wf) {tb : TableSource} {e : Edge} {q : Nat} (hin : allIn s (edgeAddrs e))
    (hnodup : (edgeAddrs e).Nodup) {k : Nat} (hk : k < 8) :
    let t := (List.range 8).foldl (filterPosition tb e q) s.mem
    (sampleAt t (e.b k), sampleAt t (e.c k)) =
      dbkPair tb (sampleAt s.mem (e.a k)) (sampleAt s.mem (e.b k)) (sampleAt s.mem (e.c k)) (sampleAt s.mem (e.d k)) q := by
  have hone := (List.nodup_flatMap.1 hnodup).1 k (List.mem_range.2 hk)
  have hbc : (e.b k).toNat ≠ (e.c k).toNat :=
    toNat_b_ne_c hin hk (by simp) fun heq => by simp [heq] at hone
  obtain ⟨m, hm, hold, hlate⟩ := fold_at_position (step := filterPosition tb e q) (fun m h => wf_filters h e q)
    (fun m h l a => read_filters h e q) (fun k => by simp) hw hin hnodup hk
  dsimp only
  rw [hlate _ (by simp), hlate _ (by simp), ← hold (e.a k) (by simp), ← hold (e.b k) (by simp), ← hold (e.c k) (by simp),
    ← hold (e.d k) (by simp)]
  exact sampleAt_write_pair hm hbc (clip255_range _) (clip255_range _)

/-- Each position of a boundary of distinct addresses is blended from the samples before (R212). -/
theorem blends_pair {s : State} (hw : s.mem.wf) {e : Edge} {n : Nat} (hin : allIn s (blendAddrs e n))
    (hnodup : (blendAddrs e n).Nodup) {k : Nat} (hk : k < n) :
    let t := (List.range n).foldl (blendPosition e) s.mem
    (sampleAt t (e.b k), sampleAt t (e.c k)) = rruPair (sampleAt s.mem (e.b k)) (sampleAt s.mem (e.c k)) := by
  have hone := (List.nodup_flatMap.1 hnodup).1 k (List.mem_range.2 hk)
  have hbc : (e.b k).toNat ≠ (e.c k).toNat :=
    toNat_b_ne_c hin hk (by simp) fun heq => by simp [heq] at hone
  obtain ⟨m, hm, hold, hlate⟩ := fold_at_position (step := blendPosition e) (fun m h => wf_blends h e)
    (fun m h l a => read_blends h e) (fun k => by simp) hw hin hnodup hk
  dsimp only
  rw [hlate _ (by simp), hlate _ (by simp), ← hold (e.b k) (by simp), ← hold (e.c k) (by simp)]
  obtain ⟨hu, hv⟩ := rruPair_range (sampleAt_range m (e.b k)) (sampleAt_range m (e.c k))
  exact sampleAt_write_pair hm hbc hu hv

theorem finish_filtered (q : Word) (m : Memory) (s : State) :
    finish .ok { s with dbkQ := q, mem := m } = { ended s with dbkQ := q, mem := m } := rfl

theorem finish_blended (m : Memory) (s : State) : finish .ok { s with mem := m } = { ended s with mem := m } := rfl

/-- Settles O40. -/
theorem dbkEdgeFiltersEightPositions : Obligations.DbkEdgeFiltersEightPositions := by
  intro s
  dsimp only
  intro hw ht
  refine ⟨fun hq => ?_, fun h1 h31 hin => ⟨?_, fun a ha => read_filters hw _ _ (notMem_edgeTouches ha), fun hnodup k hk =>
    filters_pair hw hin hnodup hk⟩⟩
  · rw [exec_of_body rfl, dbkEdgeBody, needTables_of_valid ht, Checks.ok_bind]
    dsimp only
    rw [raiseIf_of hq, Checks.error_bind, endCommand_error, trunc32_toNat]
  · rw [exec_of_body rfl, dbkEdgeBody, needTables_of_valid ht, Checks.ok_bind]
    dsimp only
    rw [raiseIf_of_not (by omega), Checks.ok_bind, filterEdge_eq_ok.2 ⟨hin, rfl⟩, endCommand_ok, finish_filtered,
      BitVec.ofNat_toNat, BitVec.setWidth_eq]

/-- Settles O41. -/
theorem dbkEdgeRruBlendsItsPositions : Obligations.DbkEdgeRruBlendsItsPositions := by
  intro s
  dsimp only
  intro hw ht
  refine ⟨fun h8 h16 h32 => ?_, fun hn hin => ⟨?_, fun a ha => read_blends hw _ (notMem_edgeTouches ha), fun hnodup k hk =>
    blends_pair hw hin hnodup hk⟩⟩
  · rw [exec_of_body rfl, dbkEdgeRruBody, needTables_of_valid ht, Checks.ok_bind]
    dsimp only
    rw [raiseIf_of ⟨h8, h16, h32⟩, Checks.error_bind, endCommand_error, trunc32_toNat]
  · rw [exec_of_body rfl, dbkEdgeRruBody, needTables_of_valid ht, Checks.ok_bind]
    dsimp only
    rw [raiseIf_of_not (by omega), Checks.ok_bind, blendEdge_eq_ok.2 ⟨hin, rfl⟩, endCommand_ok, finish_blended]

end Sys2Proof.Proofs
end

section
/-! DEBLOCK_PIC and DEBLOCK_RRU_PIC: their edges are those of the grid of which one side is coded, in order
(41_deblocking.md R208, R209, R213, R214). -/

namespace Sys2Proof.Proofs

open Sys2Proof.Machine Sys2Proof.Safety Sys2Proof.Config

/-! ### The grid by rows -/

theorem getElem?_grid {w h x y : Nat} (hx : x < w) (hy : y < h) : (grid w h)[w * y + x]? = some (x, y) := by
  induction h with
  | zero => omega
  | succ h ih =>
    have hgrid : grid w (h + 1) = grid w h ++ (List.range w).map fun x => (x, h) := by
      simp [grid, List.range_succ]
    rw [hgrid]
    rcases Nat.lt_succ_iff_lt_or_eq.1 hy with hlt | rfl
    · have hle : w * (y + 1) ≤ w * h := Nat.mul_le_mul_left w hlt
      rw [Nat.mul_add, Nat.mul_one] at hle
      rw [List.getElem?_append_left (by rw [length_grid]; omega), ih hlt]
    · rw [List.getElem?_append_right (by rw [length_grid]; omega), length_grid, Nat.add_sub_cancel_left]
      simp [hx]

theorem grid_pairwise (w h : Nat) : (grid w h).Pairwise fun p q => p.2 < q.2 ∨ p.2 = q.2 ∧ p.1 < q.1 := by
  rw [grid, List.pairwise_flatMap]
  refine ⟨fun y _ => ?_, List.pairwise_lt_range.imp fun {y z} hyz p hp q hq => ?_⟩
  · rw [List.pairwise_map]
    exact List.pairwise_lt_range.imp fun h => .inr ⟨rfl, h⟩
  · obtain ⟨_, -, rfl⟩ := List.mem_map.1 hp
    obtain ⟨_, -, rfl⟩ := List.mem_map.1 hq
    exact .inl hyz

/-- The word the validation read for a macroblock of the grid. -/
theorem dbkRun_mb {s : State} {r c : Nat} (hr : r < dbkRows s) (hc : c < dbkCols s) :
    (dbkRun s).mb r c = { type := dbkType s r c, quant := dbkQuant s r c } := by
  rw [DeblockRun.mb, List.getD_eq_getElem?_getD]
  show (((grid (dbkCols s) (dbkRows s)).map _)[dbkCols s * r + c]?).getD _ = _
  rw [List.getElem?_map, getElem?_grid hc hr]
  rfl

theorem dbkRun_mb_skip {s : State} (h : ∀ m ∈ (dbkRun s).mbs, m.type = 0) (r c : Nat) : ((dbkRun s).mb r c).type = 0 := by
  rw [DeblockRun.mb, List.getD_eq_getElem?_getD]
  cases hget : (dbkRun s).mbs[(dbkRun s).cols * r + c]? with
  | none => rfl
  | some m => exact h m (List.mem_of_getElem? hget)

/-! ### The edges of a tiling in order -/

/-- The edges of one pass over a tiling of w x h tiles that have a property. -/
def passPlaces (id : PlaneId) (vertical : Bool) (w h : Nat) (wanted : EdgePlace → Bool) : List EdgePlace :=
  ((grid w h).map fun b => { id := id, vertical := vertical, row := b.2, col := b.1 }).filter wanted

/-- The edges of a picture whose planes have `per id` tiles for each macroblock that have a property. -/
def picturePlaces (s : State) (per : PlaneId → Nat) (wanted : EdgePlace → Bool) : List EdgePlace :=
  (planesInUse (dbkRun s).color).flatMap fun id =>
    passPlaces id false (per id * dbkCols s) (per id * dbkRows s) wanted ++
      passPlaces id true (per id * dbkCols s) (per id * dbkRows s) wanted

theorem mem_passPlaces {id : PlaneId} {vertical : Bool} {w h : Nat} {wanted : EdgePlace → Bool} {p : EdgePlace} :
    p ∈ passPlaces id vertical w h wanted ↔
      p.id = id ∧ p.vertical = vertical ∧ p.row < h ∧ p.col < w ∧ wanted p = true := by
  rw [passPlaces, List.mem_filter, List.mem_map]
  constructor
  · rintro ⟨⟨b, hb, rfl⟩, hp⟩
    obtain ⟨hx, hy⟩ := mem_grid.1 hb
    exact ⟨rfl, rfl, hy, hx, hp⟩
  · rintro ⟨rfl, rfl, hy, hx, hp⟩
    exact ⟨⟨(p.col, p.row), mem_grid.2 ⟨hx, hy⟩, rfl⟩, hp⟩

theorem mem_picturePlaces {s : State} {per : PlaneId → Nat} {wanted : EdgePlace → Bool} {p : EdgePlace} :
    p ∈ picturePlaces s per wanted ↔ p.id ∈ planesInUse (dbkRun s).color ∧ p.row < per p.id * dbkRows s ∧
      p.col < per p.id * dbkCols s ∧ wanted p = true := by
  simp only [picturePlaces, List.mem_flatMap, List.mem_append, mem_passPlaces]
  constructor
  · rintro ⟨id, hid, ⟨rfl, -, h⟩ | ⟨rfl, -, h⟩⟩ <;> exact ⟨hid, h⟩
  · rintro ⟨hid, h⟩
    cases hv : p.vertical
    · exact ⟨p.id, hid, .inl ⟨rfl, rfl, h⟩⟩
    · exact ⟨p.id, hid, .inr ⟨rfl, rfl, h⟩⟩

theorem planesInUse_pairwise (color : Bool) : (planesInUse color).Pairwise fun a b =>
    ∀ v w r c r' c', (EdgePlace.mk a v r c).rank < (EdgePlace.mk b w r' c').rank := by
  cases color <;> simp [planesInUse, EdgePlace.rank, List.cons_lt_cons_iff]

theorem passPlaces_pairwise (id : PlaneId) (vertical : Bool) (w h : Nat) (wanted : EdgePlace → Bool) :
    (passPlaces id vertical w h wanted).Pairwise fun p q => p.rank < q.rank := by
  refine List.Pairwise.filter _ (List.pairwise_map.2 ((grid_pairwise w h).imp fun {p q} hpq => ?_))
  simpa [EdgePlace.rank, List.cons_lt_cons_iff] using hpq

theorem picturePlaces_pairwise (s : State) (per : PlaneId → Nat) (wanted : EdgePlace → Bool) :
    (picturePlaces s per wanted).Pairwise fun p q => p.rank < q.rank := by
  rw [picturePlaces, List.pairwise_flatMap]
  refine ⟨fun id _ => List.pairwise_append.2 ⟨passPlaces_pairwise _ _ _ _ _, passPlaces_pairwise _ _ _ _ _, ?_⟩,
    (planesInUse_pairwise _).imp fun {a b} hab p hp q hq => ?_⟩
  · intro p hp q hq
    obtain ⟨hpid, hpv, -⟩ := mem_passPlaces.1 hp
    obtain ⟨hqid, hqv, -⟩ := mem_passPlaces.1 hq
    simp [EdgePlace.rank, hpid, hpv, hqid, hqv, List.cons_lt_cons_iff]
  · have hpid : p.id = a := by
      rcases List.mem_append.1 hp with hp | hp <;> exact (mem_passPlaces.1 hp).1
    have hqid : q.id = b := by
      rcases List.mem_append.1 hq with hq | hq <;> exact (mem_passPlaces.1 hq).1
    have hrank := hab p.vertical q.vertical p.row p.col q.row q.col
    rw [← hpid, ← hqid] at hrank
    exact hrank

/-- A pass as the model writes it: the tiles in order, those without an edge left out. -/
theorem map_passPlaces {α : Type} (f : EdgePlace → α) (id : PlaneId) (vertical : Bool) (w h : Nat)
    (wanted : EdgePlace → Bool) (pass : Nat × Nat → Option α)
    (hpass : ∀ b ∈ grid w h, pass b =
      if wanted { id := id, vertical := vertical, row := b.2, col := b.1 } then
        some (f { id := id, vertical := vertical, row := b.2, col := b.1 }) else none) :
    (grid w h).filterMap pass = (passPlaces id vertical w h wanted).map f := by
  rw [List.filterMap_congr hpass, passPlaces, List.filter_map, List.map_map]
  generalize grid w h = l
  induction l with
  | nil => rfl
  | cons b l ih =>
    by_cases hb : wanted { id := id, vertical := vertical, row := b.2, col := b.1 } = true
    · simp [hb, ih]
    · simp [hb, ih]

/-- The property that selects the edges: not on the border of the grid, and of which one side is coded. -/
def wantedPlace (s : State) (per : PlaneId → Nat) (p : EdgePlace) : Bool :=
  decide ((0 < if p.vertical then p.col else p.row) ∧ p.coded s (per p.id))

theorem mem_wantedPlaces {s : State} {per : PlaneId → Nat} {p : EdgePlace} :
    p ∈ picturePlaces s per (wantedPlace s per) ↔ p.inside s (per p.id) ∧ p.coded s (per p.id) := by
  rw [mem_picturePlaces, wantedPlace, decide_eq_true_eq]
  constructor
  · rintro ⟨hid, hr, hc, h0, hcoded⟩
    exact ⟨⟨hid, hr, hc, h0⟩, hcoded⟩
  · rintro ⟨⟨hid, hr, hc, h0⟩, hcoded⟩
    exact ⟨hid, hr, hc, h0, hcoded⟩

/-- The edge the model takes at a tile is that of its place. -/
theorem edge_eq (s : State) (n : Nat) (p : EdgePlace) :
    (if p.vertical then ((dbkRun s).pic.plane p.id).verticalEdge (n * p.col) (n * p.row)
      else ((dbkRun s).pic.plane p.id).horizontalEdge (n * p.col) (n * p.row)) = p.edge s n := by
  cases hv : p.vertical <;>
    simp [EdgePlace.edge, hv, Plane.verticalEdge, Plane.horizontalEdge, Plane.at]

/-- An edge is filtered when a side is coded, with the second side's quantiser where it is coded (R209). -/
theorem edgeQ_place {s : State} {per : Nat} {p : EdgePlace} (hr : p.row < per * dbkRows s) (hc : p.col < per * dbkCols s) :
    edgeQ ((dbkRun s).mb (p.first per).1 (p.first per).2) ((dbkRun s).mb (p.second per).1 (p.second per).2) =
      if p.coded s per then some (p.quant s per) else none := by
  have hfirst : (p.first per).1 < dbkRows s ∧ (p.first per).2 < dbkCols s := by
    unfold EdgePlace.first
    split
    · exact ⟨Nat.div_lt_of_lt_mul hr, Nat.div_lt_of_lt_mul (by omega)⟩
    · exact ⟨Nat.div_lt_of_lt_mul (by omega), Nat.div_lt_of_lt_mul hc⟩
  have hsecond : (p.second per).1 < dbkRows s ∧ (p.second per).2 < dbkCols s :=
    ⟨Nat.div_lt_of_lt_mul hr, Nat.div_lt_of_lt_mul hc⟩
  rw [dbkRun_mb hfirst.1 hfirst.2, dbkRun_mb hsecond.1 hsecond.2, edgeQ]
  unfold EdgePlace.coded EdgePlace.quant
  generalize dbkType s (p.first per).1 (p.first per).2 = a
  generalize dbkType s (p.second per).1 (p.second per).2 = b
  by_cases ha : a = 0 <;> by_cases hb : b = 0 <;> simp [ha, hb]

/-! ### DEBLOCK_PIC -/

/-- The tiles of the normal filter: 8x8 blocks (R208). -/
theorem planeSize_div (id : PlaneId) : planeSize id 16 / 8 = blocksPerSide id := by cases id <;> rfl

theorem normalEdges_eq (s : State) :
    normalEdges (dbkRun s) = (picturePlaces s blocksPerSide (wantedPlace s blocksPerSide)).map
      fun p => (p.edge s 8, p.quant s (blocksPerSide p.id)) := by
  rw [normalEdges, picturePlaces, List.map_flatMap]
  congr 1
  funext id
  rw [List.map_append]
  congr 1
  · refine map_passPlaces _ id false _ _ _ _ fun b hb => ?_
    obtain ⟨hx, hy⟩ := mem_grid.1 hb
    have hedge := edge_eq s 8 ⟨id, false, b.2, b.1⟩
    have hq := edgeQ_place (p := ⟨id, false, b.2, b.1⟩) hy hx
    simp only [EdgePlace.first, EdgePlace.second, Bool.false_eq_true, if_false] at hq hedge
    by_cases h0 : b.2 = 0
    · simp [h0, wantedPlace]
    · rw [if_neg h0, hq, hedge]
      simp only [wantedPlace, decide_eq_true_eq, Bool.false_eq_true, if_false, Nat.pos_of_ne_zero h0, true_and]
      split <;> rfl
  · refine map_passPlaces _ id true _ _ _ _ fun b hb => ?_
    obtain ⟨hx, hy⟩ := mem_grid.1 hb
    have hedge := edge_eq s 8 ⟨id, true, b.2, b.1⟩
    have hq := edgeQ_place (p := ⟨id, true, b.2, b.1⟩) hy hx
    simp only [EdgePlace.first, EdgePlace.second, if_true] at hq hedge
    by_cases h0 : b.1 = 0
    · simp [h0, wantedPlace]
    · rw [if_neg h0, hq, hedge]
      simp only [wantedPlace, decide_eq_true_eq, if_true, Nat.pos_of_ne_zero h0, true_and]
      split <;> rfl

/-- With every macroblock SKIP there is no edge to filter. -/
theorem normalEdges_skip {s : State} (h : ∀ m ∈ (dbkRun s).mbs, m.type = 0) : normalEdges (dbkRun s) = [] := by
  simp [normalEdges, normalPass1, normalPass2, edgeQ, dbkRun_mb_skip h]

/-- Settles O43. -/
theorem deblockPicFiltersItsEdges : Obligations.DeblockPicFiltersItsEdges := by
  intro s
  dsimp only
  intro hw hs
  have hexec : exec .deblockPic s = .next { ended s with
      dbkQ := lastQ (normalEdges (dbkRun s)) s.dbkQ
      mem := filtered s.params.tables (normalEdges (dbkRun s)) s.mem } := by
    rw [exec_of_body rfl, deblockPicBody, validateDeblock_eq_ok.2 ⟨hs, rfl⟩, Checks.ok_bind,
      filterEdges_ok (normalEdges_allIn hs), endCommand_ok, finish_filtered]
  refine ⟨hexec, fun a ha => read_filtered hw ha, fun hskip => ?_,
    picturePlaces s blocksPerSide (wantedPlace s blocksPerSide),
    picturePlaces_pairwise _ _ _, fun p => ?_, ?_⟩
  · rw [hexec, normalEdges_skip hskip]
    rfl
  · rw [planeSize_div, mem_wantedPlaces]
  · simp only [planeSize_div, normalEdges_eq]

/-! ### DEBLOCK_RRU_PIC -/

theorem rruEdges_eq (s : State) :
    rruEdges (dbkRun s) = (picturePlaces s (fun _ => 1) (wantedPlace s fun _ => 1)).map
      fun p => (p.edge s (planeSize p.id 32), planeSize p.id 32) := by
  rw [rruEdges, picturePlaces, List.map_flatMap]
  congr 1
  funext id
  rw [List.map_append]
  simp only [Nat.one_mul]
  congr 1
  · refine map_passPlaces _ id false _ _ _ _ fun b hb => ?_
    obtain ⟨hx, hy⟩ := mem_grid.1 hb
    have hedge := edge_eq s (cellSize id) ⟨id, false, b.2, b.1⟩
    simp only [Bool.false_eq_true, if_false] at hedge
    rw [dbkRun_mb (Nat.lt_of_le_of_lt (Nat.sub_le _ 1) hy : b.2 - 1 < dbkRows s) hx, dbkRun_mb hy hx, hedge]
    simp [wantedPlace, EdgePlace.coded, EdgePlace.first, EdgePlace.second, Nat.pos_iff_ne_zero, cellSize]
  · refine map_passPlaces _ id true _ _ _ _ fun b hb => ?_
    obtain ⟨hx, hy⟩ := mem_grid.1 hb
    have hedge := edge_eq s (cellSize id) ⟨id, true, b.2, b.1⟩
    simp only [if_true] at hedge
    rw [dbkRun_mb hy (Nat.lt_of_le_of_lt (Nat.sub_le _ 1) hx : b.1 - 1 < dbkCols s), dbkRun_mb hy hx, hedge]
    simp [wantedPlace, EdgePlace.coded, EdgePlace.first, EdgePlace.second, Nat.pos_iff_ne_zero, cellSize]

/-- With every unit SKIP there is no boundary to blend. -/
theorem rruEdges_skip {s : State} (h : ∀ m ∈ (dbkRun s).mbs, m.type = 0) : rruEdges (dbkRun s) = [] := by
  simp [rruEdges, rruPass1, rruPass2, dbkRun_mb_skip h]

/-- Settles O44. -/
theorem deblockRruPicBlendsItsBoundaries : Obligations.DeblockRruPicBlendsItsBoundaries := by
  intro s
  dsimp only
  intro hw hs
  have hexec : exec .deblockRruPic s = .next { ended s with mem := blended (rruEdges (dbkRun s)) s.mem } := by
    rw [exec_of_body rfl, deblockRruPicBody, validateDeblock_eq_ok.2 ⟨hs, rfl⟩, Checks.ok_bind,
      blendEdges_ok (rruEdges_allIn hs), endCommand_ok, finish_blended]
  refine ⟨hexec, fun a ha => read_blended hw ha, fun hskip => ?_, picturePlaces s (fun _ => 1) (wantedPlace s fun _ => 1),
    picturePlaces_pairwise _ _ _, fun p => mem_wantedPlaces, rruEdges_eq s⟩
  rw [hexec, rruEdges_skip hskip]
  rfl

end Sys2Proof.Proofs
end

section
/-! The resampler, and CONVERT_RGB555 of a whole picture (43_formatter.md R294, R295, R300, R308). -/

namespace Sys2Proof.Proofs

open Sys2Proof.Machine Sys2Proof.Safety Sys2Proof.Config

/-! ### One line -/

/-- The rounded interpolation between two samples stays between them. -/
theorem blend16_range {a b f lo hi : Nat} (hf : f < 65536) (ha : lo ≤ a ∧ a ≤ hi) (hb : lo ≤ b ∧ b ≤ hi) :
    lo ≤ (a * (65536 - f) + b * f + 32768) / 65536 ∧ (a * (65536 - f) + b * f + 32768) / 65536 ≤ hi := by
  obtain ⟨g, hg⟩ : ∃ g, 65536 - f = g := ⟨_, rfl⟩
  rw [hg]
  have hsum : ∀ v : Nat, v * g + v * f = v * 65536 := fun v => by rw [← Nat.mul_add]; congr 1; omega
  have hlo := hsum lo
  have hhi := hsum hi
  have h1 := Nat.mul_le_mul_right g ha.1
  have h2 := Nat.mul_le_mul_right g ha.2
  have h3 := Nat.mul_le_mul_right f hb.1
  have h4 := Nat.mul_le_mul_right f hb.2
  omega

/-- A position of the target has its whole part in the line. -/
theorem position_lt {sn dn t : Nat} (hsn : 0 < sn) (ht : t < dn) : t * (sn * 65536 / dn) / 65536 < sn := by
  rw [Nat.div_lt_iff_lt_mul (by decide)]
  rcases Nat.eq_zero_or_pos (sn * 65536 / dn) with h0 | hpos
  · rw [h0]
    omega
  · calc t * (sn * 65536 / dn) < dn * (sn * 65536 / dn) := Nat.mul_lt_mul_of_pos_right ht hpos
      _ ≤ sn * 65536 := Nat.mul_div_le _ _

theorem getD_mem {row : List Nat} {i : Nat} (h : i < row.length) : row.getD i 0 ∈ row := by
  rw [List.getD_eq_getElem _ _ h]
  exact List.getElem_mem h

/-- Samples of a line between two bounds stay between them. -/
theorem resample1d_range {row : List Nat} (hrow : row ≠ []) {lo hi : Nat} (h : ∀ v ∈ row, lo ≤ v ∧ v ≤ hi) (dn : Nat) :
    ∀ v ∈ resample1d row dn, lo ≤ v ∧ v ≤ hi := by
  intro v hv
  obtain ⟨t, ht, rfl⟩ := List.mem_map.1 hv
  have hlen : 0 < row.length := List.length_pos_iff.2 hrow
  have hi := position_lt hlen (List.mem_range.1 ht)
  exact blend16_range (Nat.mod_lt _ (by decide)) (h _ (getD_mem hi)) (h _ (getD_mem (by omega)))

theorem resample1d_const {row : List Nat} (hrow : row ≠ []) {v : Nat} (h : ∀ u ∈ row, u = v) (dn : Nat) :
    ∀ u ∈ resample1d row dn, u = v := fun u hu => by
  have := resample1d_range hrow (fun w hw => ⟨(h w hw).ge, (h w hw).le⟩) dn u hu
  omega

/-- Settles O45. -/
theorem resampledLineFollowsTheRule : Obligations.ResampledLineFollowsTheRule := by
  intro row dn hrow h
  have hlen : 0 < row.length := List.length_pos_iff.2 hrow
  refine ⟨length_resample1d row dn, fun v hv => ?_, fun t ht => ⟨position_lt hlen ht, ?_⟩, resample1d_same row,
    fun v hv => resample1d_const hrow hv dn⟩
  · exact (resample1d_range hrow (lo := 0) (fun w hw => ⟨Nat.zero_le w, h w hw⟩) dn v hv).2
  · simp [resample1d, ht]

/-! ### A constant picture -/

theorem samplePos_columns {h x y : Nat} {cols : List (List Nat)} (hx : x < cols.length) (hy : y < h) :
    samplePos (columns h cols) x y = (cols[x]).getD y 0 := by
  simp [samplePos, columns, List.getD_eq_getElem?_getD, hx, hy]

/-- A plane of one value keeps it (R295). -/
theorem samplePos_resample_const {rows : List (List Nat)} (hrows : rows ≠ []) {v : Nat}
    (h : ∀ r ∈ rows, r ≠ [] ∧ ∀ u ∈ r, u = v) {dw dh x y : Nat} (hx : x < dw) (hy : y < dh) :
    samplePos (resample rows dw dh) x y = v := by
  have hrow : ∀ r ∈ rows.map fun row => resample1d row dw, ∀ i < dw, r.getD i 0 = v := fun r hr i hi => by
    obtain ⟨r', hr', rfl⟩ := List.mem_map.1 hr
    obtain ⟨hne, hall⟩ := h r' hr'
    exact resample1d_const hne hall dw _ (getD_mem (by rw [length_resample1d]; exact hi))
  have hcol : ∀ c ∈ columns dw (rows.map fun row => resample1d row dw), c ≠ [] ∧ ∀ u ∈ c, u = v := fun c hc => by
    obtain ⟨i, hi, rfl⟩ := List.mem_map.1 hc
    refine ⟨by simpa using hrows, fun u hu => ?_⟩
    obtain ⟨r, hr, rfl⟩ := List.mem_map.1 hu
    exact hrow r hr i (List.mem_range.1 hi)
  have hxcol : x < ((columns dw (rows.map fun row => resample1d row dw)).map fun col => resample1d col dh).length := by
    rw [List.length_map, length_columns]
    exact hx
  rw [resample, samplePos_columns hxcol hy, List.getElem_map]
  obtain ⟨hne, hall⟩ := hcol _ (List.getElem_mem (by rw [length_columns]; exact hx))
  exact resample1d_const hne hall dh _ (getD_mem (by rw [length_resample1d]; exact hy))

/-- A plane whose source samples are all of one value is so after resampling. -/
theorem samplePos_resample_samples {f : FormatRun} {m : Memory} {id : PlaneId} {v dw dh x y : Nat}
    (hw : 0 < planeSize id f.w) (hh : 0 < planeSize id f.h)
    (hv : ∀ x < planeSize id f.w, ∀ y < planeSize id f.h, f.sample m id x y = v) (hx : x < dw) (hy : y < dh) :
    samplePos (resample (f.samples m id) dw dh) x y = v := by
  refine samplePos_resample_const ?_ (fun r hr => ?_) hx hy
  · simp [FormatRun.samples]
    omega
  · obtain ⟨j, hj, rfl⟩ := List.mem_map.1 hr
    refine ⟨by simp; omega, fun u hu => ?_⟩
    obtain ⟨i, hi, rfl⟩ := List.mem_map.1 hu
    exact hv i (List.mem_range.1 hi) j (List.mem_range.1 hj)

/-- At equal sizes a sample of the resampled plane is the source's. -/
theorem samplePos_resample_same {f : FormatRun} {m : Memory} {id : PlaneId} {x y : Nat} (hx : x < planeSize id f.w)
    (hy : y < planeSize id f.h) :
    samplePos (resample (f.samples m id) (planeSize id f.w) (planeSize id f.h)) x y = f.sample m id x y := by
  have hrows : (f.samples m id).length = planeSize id f.h := by simp [FormatRun.samples]
  rw [← hrows, resample_same samples_rows, samplePos_samples hx hy]

/-! ### The whole picture -/

theorem pixelAddr_eq (s : State) (x r : Nat) : pixelAddr s x r = (pixelCell s x r : Int) := by
  simp [pixelAddr, pixelCell]

/-- A pixel is a halfword of the output buffer that exists. -/
theorem pixelCell_accessible {s : State} (h : rgbSound s) {x r : Nat} (hx : x < (fmtRun s).dw) (hr : r < (fmtRun s).dh) :
    accessible s (pixelAddr s x r) 2 := by
  obtain ⟨-, -, hend, hdst, hstride⟩ := h
  have hrow := Nat.mul_le_mul_right s.regF.fmtDstStride.toNat (show r ≤ (fmtRun s).dh - 1 by omega)
  have hpar := Nat.mul_mod r s.regF.fmtDstStride.toNat 2
  rw [hstride, Nat.mul_zero, Nat.zero_mod] at hpar
  rw [pixelAddr_eq, accessible_nat, pixelCell]
  omega

/-- Two pixels of the output buffer share no byte. -/
theorem pixelCell_inj {s : State} (h : rgbSound s) {x r x' r' : Nat} (hx : x < (fmtRun s).dw) (hx' : x' < (fmtRun s).dw)
    {i j : Nat} (hi : i < 2) (hj : j < 2) (e : pixelCell s x r + i = pixelCell s x' r' + j) :
    (x = x' ∧ r = r') ∧ i = j := by
  obtain ⟨-, hst, -⟩ := h
  obtain ⟨hp, hij⟩ := cell_inj (p := (x, r)) (q := (x', r')) hst (by decide) hx hx' hi hj e
  exact ⟨Prod.mk.inj hp, hij⟩

theorem ofInt16_rgb555 (tb : TableSource) (y cb cr : Nat) :
    ((BitVec.ofInt 16 (rgb555 tb y cb cr)).toNat : Int) = rgb555 tb y cb cr := by
  have h := rgb555_range tb y cb cr
  rw [BitVec.toNat_ofInt]
  omega

theorem exec_convertRgb555_of_sound {s : State} (h : rgbSound s) (sel : Bool) :
    exec (.convertRgb555 sel) s = endCommand { s with fmtPath := fmtPathOf s }
      (if sel && fmtPathOf s = .direct then rgbSelective (fmtRun s) { s with fmtPath := fmtPathOf s }
        else rgbWhole (fmtRun s) { s with fmtPath := fmtPathOf s }) := by
  rw [exec_convertRgb555, rgbChecks_eq_ok.2 ⟨h, rfl⟩]
  rfl

/-- The pixel a whole conversion stores at a column and an output row (R300). -/
def wholePixel (s : State) (p : Nat × Nat) : Int :=
  pixelAt s.params.tables (resample ((fmtRun s).samples s.mem .y) (fmtRun s).dw (fmtRun s).dh)
    (resample ((fmtRun s).samples s.mem .cb) ((fmtRun s).dw / 2) ((fmtRun s).dh / 2))
    (resample ((fmtRun s).samples s.mem .cr) ((fmtRun s).dw / 2) ((fmtRun s).dh / 2)) p.1 ((fmtRun s).dh - 1 - p.2)

/-- The memory a whole conversion leaves: `v` is the pixel of column x of output row r. -/
def pixelsWritten (s : State) (v : Nat × Nat → Int) : Memory :=
  s.mem.writeAll ((grid (fmtRun s).dw (fmtRun s).dh).flatMap fun p => placed (pixelCell s p.1 p.2) (halfBytes (v p)))

theorem rgbWhole_ok {s : State} (h : rgbSound s) :
    rgbWhole (fmtRun s) s = .ok { s with mem := pixelsWritten s (wholePixel s) } := by
  rw [rgbWhole, checkThenStore_eq_ok]
  refine ⟨fun p hp => ?_, ?_⟩
  · obtain ⟨q, hq, rfl⟩ := List.mem_map.1 hp
    obtain ⟨hx, hr⟩ := mem_grid.1 hq
    exact pixelCell_accessible h hx hr
  · rw [pixelsWritten, itemBytes, List.flatMap_map]
    simp only [pixelAddr_eq, Int.toNat_natCast]
    rfl

theorem read_pixelsWritten {s : State} (hw : s.mem.wf) (v : Nat × Nat → Int) {a : Nat}
    (ha : ∀ x < (fmtRun s).dw, ∀ r < (fmtRun s).dh, a ≠ pixelCell s x r ∧ a ≠ pixelCell s x r + 1) :
    (pixelsWritten s v).read a = s.mem.read a :=
  read_halves_of_ne hw v fun p hp => ha p.1 (mem_grid.1 hp).1 p.2 (mem_grid.1 hp).2

theorem readLE_pixelsWritten {s : State} (hw : s.mem.wf) (h : rgbSound s) (v : Nat × Nat → Int) {x r : Nat}
    (hx : x < (fmtRun s).dw) (hr : r < (fmtRun s).dh) :
    (pixelsWritten s v).readLE (pixelCell s x r) 2 = (BitVec.ofInt 16 (v (x, r))).toNat := by
  refine readLE_halves hw (grid_nodup _ _) (f := fun p => pixelCell s p.1 p.2) v (fun p hp q hq i hi j hj e => ?_)
    (p := (x, r)) (mem_grid.2 ⟨hx, hr⟩)
  obtain ⟨hpq, hij⟩ := pixelCell_inj h (mem_grid.1 hp).1 (mem_grid.1 hq).1 hi hj e
  exact ⟨Prod.ext hpq.1 hpq.2, hij⟩

theorem fmtPathOf_direct {s : State} (h : fmtPathOf s = .direct) :
    (fmtRun s).dw = (fmtRun s).w ∧ (fmtRun s).dh = (fmtRun s).h := by
  unfold fmtPathOf scalePath at h
  split at h
  · assumption
  · split at h
    · cases h
    · split at h <;> cases h

/-- With no scaling a pixel is that of the source position. -/
theorem pixelAt_same {f : FormatRun} (tb : TableSource) (m : Memory) (hdw : f.dw = f.w) (hdh : f.dh = f.h)
    (hw : f.w % 2 = 0) (hh : f.h % 2 = 0) {x y : Nat} (hx : x < f.w) (hy : y < f.h) :
    pixelAt tb (resample (f.samples m .y) f.dw f.dh) (resample (f.samples m .cb) (f.dw / 2) (f.dh / 2))
      (resample (f.samples m .cr) (f.dw / 2) (f.dh / 2)) x y = f.pixel tb m x y := by
  have hy0 := samplePos_resample_same (f := f) (m := m) (id := .y) (x := x) (y := y) hx hy
  have hcb := samplePos_resample_same (f := f) (m := m) (id := .cb) (x := x / 2) (y := y / 2) (by show _ < f.w / 2; omega)
    (by show _ < f.h / 2; omega)
  have hcr := samplePos_resample_same (f := f) (m := m) (id := .cr) (x := x / 2) (y := y / 2) (by show _ < f.w / 2; omega)
    (by show _ < f.h / 2; omega)
  simp only [planeSize] at hy0 hcb hcr
  rw [pixelAt, FormatRun.pixel, hdw, hdh, hy0, hcb, hcr]

/-- A whole conversion ends with OK in the state with the pixels stored. -/
theorem exec_whole {s : State} (h : rgbSound s) {sel : Bool} (hsel : sel = true → fmtPathOf s ≠ .direct) :
    exec (.convertRgb555 sel) s =
      .next { ended s with fmtPath := fmtPathOf s, mem := pixelsWritten s (wholePixel s) } := by
  have hcond : (sel && decide (fmtPathOf s = .direct)) = false := by
    cases sel <;> simp_all
  have hwhole := rgbWhole_ok (s := { s with fmtPath := fmtPathOf s }) h
  rw [exec_convertRgb555_of_sound h, hcond]
  exact (congrArg (endCommand _) hwhole).trans rfl

/-- Settles O46. -/
theorem rgb555ConvertsTheWholePicture : Obligations.Rgb555ConvertsTheWholePicture := by
  intro sel s
  dsimp only
  intro hw h hsel
  refine ⟨_, exec_whole h hsel, rfl, fun a ha => read_pixelsWritten hw _ ha, fun x hx r hr => ⟨?_, fun hd => ?_⟩⟩
  · exact (congrArg Nat.cast (readLE_pixelsWritten hw h _ hx hr)).trans (ofInt16_rgb555 _ _ _ _)
  · obtain ⟨hdw, hdh⟩ := fmtPathOf_direct hd
    obtain ⟨⟨-, -, hgw, hgh, -⟩, -⟩ := h
    rw [← hdh]
    exact pixelAt_same _ _ hdw hdh hgw.2.1 hgh.2.1 (by omega) (by omega)

end Sys2Proof.Proofs
end

section
/-! The selective update of CONVERT_RGB555, and a picture of 128 everywhere (43_formatter.md R306, R308). -/

namespace Sys2Proof.Proofs

open Sys2Proof.Machine Sys2Proof.Safety Sys2Proof.Config

/-! ### The dirty regions -/

/-- A flattened list has no duplicate when a key of each entry names the list it comes from. -/
theorem nodup_flatMap_of_key {α β : Type} {l : List α} {f : α → List β} (key : β → α) (hl : l.Nodup)
    (hf : ∀ a ∈ l, (f a).Nodup) (hkey : ∀ a ∈ l, ∀ b ∈ f a, key b = a) : (l.flatMap f).Nodup := by
  refine List.nodup_flatMap.2 ⟨hf, hl.imp_of_mem fun {a b} ha hb hne => ?_⟩
  exact List.disjoint_left.2 fun c hca hcb => hne ((hkey a ha c hca).symm.trans (hkey b hb c hcb))

/-- The positions of one 8x8 region of a macroblock, if it is dirty. -/
def regionPositions (mb : Nat × Nat) (flags b : Nat) : List (Nat × Nat) :=
  if bit flags b then (grid 8 8).map fun p => (16 * mb.1 + 8 * (b % 2) + p.1, 16 * mb.2 + 8 * (b / 2) + p.2) else []

theorem mem_regionPositions {mb : Nat × Nat} {flags b : Nat} (hb : b < 4) {p : Nat × Nat} :
    p ∈ regionPositions mb flags b ↔
      (p.1 / 16, p.2 / 16) = mb ∧ b = 2 * (p.2 / 8 % 2) + p.1 / 8 % 2 ∧ bit flags b = true := by
  obtain ⟨x, y⟩ := p
  obtain ⟨c, r⟩ := mb
  unfold regionPositions
  split
  · next hbit =>
    simp only [hbit, and_true, List.mem_map, Prod.mk.injEq]
    constructor
    · rintro ⟨q, hq, hx, hy⟩
      obtain ⟨h1, h2⟩ := mem_grid.1 hq
      omega
    · rintro ⟨⟨hx, hy⟩, hb'⟩
      exact ⟨(x % 8, y % 8), mem_grid.2 ⟨Nat.mod_lt _ (by decide), Nat.mod_lt _ (by decide)⟩, by simp only; omega,
        by simp only; omega⟩
  · next hbit => simp [hbit]

theorem regionPositions_nodup (mb : Nat × Nat) (flags b : Nat) : (regionPositions mb flags b).Nodup := by
  unfold regionPositions
  split
  · refine (grid_nodup 8 8).map fun p q e => ?_
    obtain ⟨h1, h2⟩ := Prod.mk.inj e
    exact Prod.ext (by omega) (by omega)
  · exact List.nodup_nil

theorem dirtyPositions_eq (mw mh : Nat) (mask : List Nat) : dirtyPositions mw mh mask =
    (grid mw mh).flatMap fun mb => (List.range 4).flatMap fun b =>
      regionPositions mb (mask.getD (mw * mb.2 + mb.1) 0) b := rfl

theorem mem_dirtyPositions {mw mh : Nat} {mask : List Nat} {p : Nat × Nat} :
    p ∈ dirtyPositions mw mh mask ↔ p.1 / 16 < mw ∧ p.2 / 16 < mh ∧
      bit (mask.getD (mw * (p.2 / 16) + p.1 / 16) 0) (2 * (p.2 / 8 % 2) + p.1 / 8 % 2) = true := by
  simp only [dirtyPositions_eq, List.mem_flatMap]
  constructor
  · rintro ⟨mb, hmb, b, hb, hp⟩
    obtain ⟨rfl, rfl, hbit⟩ := (mem_regionPositions (List.mem_range.1 hb)).1 hp
    obtain ⟨hx, hy⟩ := mem_grid.1 hmb
    exact ⟨hx, hy, hbit⟩
  · rintro ⟨hx, hy, hbit⟩
    have hb : 2 * (p.2 / 8 % 2) + p.1 / 8 % 2 < 4 := by omega
    exact ⟨(p.1 / 16, p.2 / 16), mem_grid.2 ⟨hx, hy⟩, _, List.mem_range.2 hb, (mem_regionPositions hb).2 ⟨rfl, rfl, hbit⟩⟩

theorem dirtyPositions_nodup (mw mh : Nat) (mask : List Nat) : (dirtyPositions mw mh mask).Nodup := by
  rw [dirtyPositions_eq]
  refine nodup_flatMap_of_key (fun p => (p.1 / 16, p.2 / 16)) (grid_nodup mw mh) (fun mb _ => ?_) fun mb _ p hp => ?_
  · refine nodup_flatMap_of_key (fun p => 2 * (p.2 / 8 % 2) + p.1 / 8 % 2) List.nodup_range
      (fun b _ => regionPositions_nodup _ _ _) fun b hb p hp => ?_
    exact ((mem_regionPositions (List.mem_range.1 hb)).1 hp).2.1.symm
  · obtain ⟨b, hb, hp⟩ := List.mem_flatMap.1 hp
    exact ((mem_regionPositions (List.mem_range.1 hb)).1 hp).1

/-- The mask bytes of a state, by macroblock rows (30_encoding.md R126). -/
def maskBytes (s : State) : List Nat :=
  (grid ((fmtRun s).w / 16) ((fmtRun s).h / 16)).map fun mb => (s.mem.read (maskCell s mb.1 mb.2)).toNat

/-- The positions a selective update converts, in its order. -/
def dirtyList (s : State) : List (Nat × Nat) := dirtyPositions ((fmtRun s).w / 16) ((fmtRun s).h / 16) (maskBytes s)

theorem mem_dirtyList {s : State} (hw : (fmtRun s).w % 16 = 0) (hh : (fmtRun s).h % 16 = 0) {p : Nat × Nat} :
    p ∈ dirtyList s ↔ p.1 < (fmtRun s).w ∧ p.2 < (fmtRun s).h ∧ dirtyAt s p.1 p.2 = true := by
  have hx : p.1 / 16 < (fmtRun s).w / 16 ↔ p.1 < (fmtRun s).w := by omega
  have hy : p.2 / 16 < (fmtRun s).h / 16 ↔ p.2 < (fmtRun s).h := by omega
  rw [dirtyList, mem_dirtyPositions, hx, hy]
  refine and_congr_right fun h1 => and_congr_right fun h2 => ?_
  rw [maskBytes, List.getD_eq_getElem?_getD, List.getElem?_map, getElem?_grid (hx.2 h1) (hy.2 h2)]
  rfl

/-! ### What a selective update stores -/

/-- The stores of a selective update, each with the pixel it reads when its turn comes (R306). -/
def dirtyItems (s : State) : List (Int × (Memory → List Byte)) :=
  (dirtyList s).map fun p => (pixelAddr s p.1 ((fmtRun s).h - 1 - p.2),
    fun m => halfBytes ((fmtRun s).pixel s.params.tables m p.1 p.2))

theorem maskCell_cast (s : State) (mb : Nat × Nat) :
    (s.regF.fmtMask.toNat : Int) + (mb.2 * s.regF.fmtMaskPitch.toNat + mb.1) * s.regF.fmtMaskStep.toNat =
      (maskCell s mb.1 mb.2 : Nat) := by
  simp [maskCell]

theorem rgbSelective_eq_ok {s t : State} :
    rgbSelective (fmtRun s) s = .ok t ↔ ((fmtRun s).w % 16 = 0 ∧ (fmtRun s).h % 16 = 0) ∧
      (∀ p ∈ grid ((fmtRun s).w / 16) ((fmtRun s).h / 16), maskCell s p.1 p.2 + 1 ≤ s.params.memSize) ∧
      (∀ p ∈ dirtyItems s, accessible s p.1 2) ∧ t = { s with mem := copyItems (dirtyItems s) s.mem } := by
  simp only [rgbSelective, maskCell_cast, Checks.bind_eq_ok, raiseIf_eq_ok, not_or, not_not]
  constructor
  · rintro ⟨-, hsize, mask, hmask, h⟩
    obtain ⟨hin, rfl⟩ := memReadAll_bytes.1 hmask
    obtain ⟨hacc, ht⟩ := checkThenCopy_eq_ok.1 h
    exact ⟨hsize, hin, hacc, ht⟩
  · rintro ⟨hsize, hin, hacc, ht⟩
    exact ⟨(), hsize, maskBytes s, memReadAll_bytes.2 ⟨hin, rfl⟩, checkThenCopy_eq_ok.2 ⟨hacc, ht⟩⟩

/-- The address of a dirty pixel: a pixel of the target, at the flipped row. -/
theorem mem_dirtyItems {s : State} (hw : (fmtRun s).w % 16 = 0) (hh : (fmtRun s).h % 16 = 0)
    {q : Int × (Memory → List Byte)} (hq : q ∈ dirtyItems s) :
    ∃ x < (fmtRun s).w, ∃ r < (fmtRun s).h, dirtyAt s x ((fmtRun s).h - 1 - r) = true ∧ q.1 = (pixelCell s x r : Int) ∧
      q.2 = fun m => halfBytes ((fmtRun s).pixel s.params.tables m x ((fmtRun s).h - 1 - r)) := by
  obtain ⟨p, hp, rfl⟩ := List.mem_map.1 hq
  obtain ⟨hx, hy, hdirty⟩ := (mem_dirtyList hw hh).1 hp
  have hflip : (fmtRun s).h - 1 - ((fmtRun s).h - 1 - p.2) = p.2 := by omega
  exact ⟨p.1, hx, (fmtRun s).h - 1 - p.2, by omega, by rw [hflip]; exact hdirty, pixelAddr_eq _ _ _, by rw [hflip]⟩

theorem mem_placed_half {a : Nat} {v : Int} {q : Nat × Byte} (h : q ∈ placed a (halfBytes v)) : q.1 = a ∨ q.1 = a + 1 := by
  have hlen : (halfBytes v).length = 2 := rfl
  have := placed_range h
  omega

/-- A selective update leaves every byte that is not of a dirty pixel. -/
theorem read_dirtyItems {s : State} (hmem : s.mem.wf) (hw : (fmtRun s).w % 16 = 0) (hh : (fmtRun s).h % 16 = 0) {a : Nat}
    (ha : ∀ x < (fmtRun s).w, ∀ r < (fmtRun s).h, dirtyAt s x ((fmtRun s).h - 1 - r) = true →
      a ≠ pixelCell s x r ∧ a ≠ pixelCell s x r + 1) :
    (copyItems (dirtyItems s) s.mem).read a = s.mem.read a := by
  refine read_copyItems hmem fun p hp k _ q hq => ?_
  obtain ⟨x, hx, r, hr, hdirty, hp1, hp2⟩ := mem_dirtyItems hw hh hp
  rw [hp1, hp2, Int.toNat_natCast] at hq
  obtain ⟨h0, h1⟩ := ha x hx r hr hdirty
  rcases mem_placed_half hq with e | e <;> rw [e]
  · exact h0
  · exact h1

/-- A pixel read from a memory that agrees on the source is the same. -/
theorem pixel_congr {f : FormatRun} {tb : TableSource} {m k : Memory} (h : ∀ a ∈ sourceCells f, k.read a = m.read a)
    (hw : f.w % 2 = 0) (hh : f.h % 2 = 0) {x y : Nat} (hx : x < f.w) (hy : y < f.h) :
    f.pixel tb k x y = f.pixel tb m x y := by
  have hx2 : x / 2 < f.w / 2 := by omega
  have hy2 : y / 2 < f.h / 2 := by omega
  rw [FormatRun.pixel, FormatRun.pixel, sample_congr h (id := .y) hx hy, sample_congr h (id := .cb) hx2 hy2,
    sample_congr h (id := .cr) hx2 hy2]

/-- Where the target lies apart from the source each dirty pixel is that of its source position. -/
theorem readLE_dirtyItems {s : State} (hmem : s.mem.wf) (h : rgbSound s) (hpath : fmtPathOf s = .direct)
    (hw : (fmtRun s).w % 16 = 0) (hh : (fmtRun s).h % 16 = 0)
    (happart : ∀ a ∈ sourceCells (fmtRun s), ∀ x < (fmtRun s).w, ∀ r < (fmtRun s).h,
      a ≠ pixelCell s x r ∧ a ≠ pixelCell s x r + 1) {x r : Nat} (hx : x < (fmtRun s).w) (hr : r < (fmtRun s).h)
    (hdirty : dirtyAt s x ((fmtRun s).h - 1 - r) = true) :
    ((copyItems (dirtyItems s) s.mem).readLE (pixelCell s x r) 2 : Int) =
      (fmtRun s).pixel s.params.tables s.mem x ((fmtRun s).h - 1 - r) := by
  obtain ⟨hdw, hdh⟩ := fmtPathOf_direct hpath
  have hflip : ∀ y < (fmtRun s).h, (fmtRun s).h - 1 - ((fmtRun s).h - 1 - y) = y := fun y hy => by omega
  have hwrite : copyItems (dirtyItems s) s.mem = s.mem.writeAll ((dirtyList s).flatMap fun p =>
      placed (pixelCell s p.1 ((fmtRun s).h - 1 - p.2)) (halfBytes ((fmtRun s).pixel s.params.tables s.mem p.1 p.2))) := by
    rw [copyItems_eq_writeAll hmem fun a =>
      ∃ x < (fmtRun s).w, ∃ r < (fmtRun s).h, a = pixelCell s x r ∨ a = pixelCell s x r + 1]
    · rw [dirtyItems, List.flatMap_map]
      simp only [pixelAddr_eq, Int.toNat_natCast]
    · intro p hp k _ q hq
      obtain ⟨x, hx, r, hr, -, hp1, hp2⟩ := mem_dirtyItems hw hh hp
      rw [hp1, hp2, Int.toNat_natCast] at hq
      exact ⟨x, hx, r, hr, mem_placed_half hq⟩
    · intro p hp k _ hk
      obtain ⟨x, hx, r, hr, -, -, hp2⟩ := mem_dirtyItems hw hh hp
      rw [hp2]
      refine congrArg halfBytes (pixel_congr (fun a ha => hk a ?_) (by omega) (by omega) hx (by omega))
      rintro ⟨x', hx', r', hr', e⟩
      obtain ⟨h0, h1⟩ := happart a ha x' hx' r' hr'
      exact e.elim h0 h1
  have hp : (x, (fmtRun s).h - 1 - r) ∈ dirtyList s := (mem_dirtyList hw hh).2 ⟨hx, by simp only; omega, hdirty⟩
  have hread := readLE_halves hmem (dirtyPositions_nodup _ _ _ : (dirtyList s).Nodup)
    (f := fun p => pixelCell s p.1 ((fmtRun s).h - 1 - p.2))
    (fun p => (fmtRun s).pixel s.params.tables s.mem p.1 p.2) (fun p hp q hq i hi j hj e => ?_) hp
  · rw [hwrite]
    simp only [hflip r hr] at hread
    exact (congrArg Nat.cast hread).trans (ofInt16_rgb555 _ _ _ _)
  · obtain ⟨hpx, hpy, -⟩ := (mem_dirtyList hw hh).1 hp
    obtain ⟨hqx, hqy, -⟩ := (mem_dirtyList hw hh).1 hq
    obtain ⟨⟨h1, h2⟩, hij⟩ := pixelCell_inj h (by omega) (by omega) hi hj e
    exact ⟨Prod.ext h1 (by omega), hij⟩

theorem exec_selective {s t : State} (h : rgbSound s) (hpath : fmtPathOf s = .direct)
    (ht : rgbSelective (fmtRun s) s = .ok t) :
    exec (.convertRgb555 true) s = .next { ended s with fmtPath := .direct, mem := t.mem } := by
  have hsel : rgbSelective (fmtRun s) { s with fmtPath := .direct } = .ok { s with fmtPath := .direct, mem := t.mem } := by
    obtain ⟨hsize, hmask, hacc, rfl⟩ := rgbSelective_eq_ok.1 ht
    exact (rgbSelective_eq_ok (s := { s with fmtPath := .direct })).2 ⟨hsize, hmask, hacc, rfl⟩
  rw [exec_convertRgb555_of_sound h, hpath]
  exact (congrArg (endCommand _) hsel).trans rfl

/-- Settles O47. -/
theorem selectiveUpdateConvertsDirtyRegions : Obligations.SelectiveUpdateConvertsDirtyRegions := by
  intro s
  dsimp only
  intro hmem h hpath hw hh hmask
  obtain ⟨hdw, hdh⟩ := fmtPathOf_direct hpath
  have hsel : rgbSelective (fmtRun s) s = .ok { s with mem := copyItems (dirtyItems s) s.mem } := by
    refine rgbSelective_eq_ok.2 ⟨⟨hw, hh⟩, fun p hp => ?_, fun p hp => ?_, rfl⟩
    · obtain ⟨hx, hy⟩ := mem_grid.1 hp
      exact hmask p.1 hx p.2 hy
    · obtain ⟨x, hx, r, hr, -, hp1, -⟩ := mem_dirtyItems hw hh hp
      rw [hp1, ← pixelAddr_eq]
      exact pixelCell_accessible h (by omega) (by omega)
  exact ⟨_, exec_selective h hpath hsel, rfl, fun a ha => read_dirtyItems hmem hw hh ha, fun happart x hx r hr hdirty =>
    readLE_dirtyItems hmem h hpath hw hh happart hx hr hdirty⟩

/-! ### Gray -/

/-- Every sample of a gray source is 128, its chroma too where the picture has none. -/
theorem sample_gray {f : FormatRun} {m : Memory} (h : ∀ a ∈ sourceCells f, m.read a = 128) {id : PlaneId} {x y : Nat}
    (hx : x < planeSize id f.w) (hy : y < planeSize id f.h) : f.sample m id x y = 128 := by
  rw [FormatRun.sample]
  split
  · next hid =>
    have hplane : id ∈ planesInUse f.color := by
      cases id <;> cases hc : f.color <;> simp_all [planesInUse]
    rw [h _ (List.mem_flatMap.2 ⟨id, hplane, List.mem_map.2 ⟨(x, y), mem_grid.2 ⟨hx, hy⟩, rfl⟩⟩)]
    rfl
  · rfl

theorem pixel_gray {f : FormatRun} {m : Memory} (tb : TableSource) (h : ∀ a ∈ sourceCells f, m.read a = 128)
    (hw : f.w % 2 = 0) (hh : f.h % 2 = 0) {x y : Nat} (hx : x < f.w) (hy : y < f.h) :
    f.pixel tb m x y = rgb555 tb 128 128 128 := by
  have hx2 : x / 2 < f.w / 2 := by omega
  have hy2 : y / 2 < f.h / 2 := by omega
  rw [FormatRun.pixel, sample_gray h (id := .y) hx hy, sample_gray h (id := .cb) hx2 hy2, sample_gray h (id := .cr) hx2 hy2]

theorem wholePixel_gray {s : State} (h : rgbSound s) (hgray : ∀ a ∈ sourceCells (fmtRun s), s.mem.read a = 128)
    {x r : Nat} (hx : x < (fmtRun s).dw) (hr : r < (fmtRun s).dh) :
    wholePixel s (x, r) = rgb555 s.params.tables 128 128 128 := by
  obtain ⟨⟨-, -, hw, hh, hdw, hdh, -⟩, -⟩ := h
  have hpos : ∀ id, 0 < planeSize id (fmtRun s).w ∧ 0 < planeSize id (fmtRun s).h := fun id => by
    cases id <;> simp only [planeSize] <;> omega
  have hplane : ∀ id dw dh x y, x < dw → y < dh → samplePos (resample ((fmtRun s).samples s.mem id) dw dh) x y = 128 :=
    fun id dw dh x y hx hy => samplePos_resample_samples (hpos id).1 (hpos id).2
      (fun x hx y hy => sample_gray hgray hx hy) hx hy
  rw [wholePixel, pixelAt, hplane .y _ _ _ _ hx (by simp only; omega),
    hplane .cb _ _ _ _ (by simp only; omega) (by simp only; omega),
    hplane .cr _ _ _ _ (by simp only; omega) (by simp only; omega)]

/-- Settles O48. -/
theorem grayPictureConvertsToOneValue : Obligations.GrayPictureConvertsToOneValue := by
  intro sel s
  dsimp only
  intro hmem h hgray
  refine ⟨fun ht => ?_, ?_⟩
  · rw [ht]
    decide
  by_cases hcond : sel = true ∧ fmtPathOf s = .direct
  · obtain ⟨rfl, hpath⟩ := hcond
    cases hs : rgbSelective (fmtRun s) { s with fmtPath := .direct } with
    | ok u =>
      obtain ⟨⟨hw, hh⟩, hmask, hacc, -⟩ := (rgbSelective_eq_ok (s := { s with fmtPath := .direct })).1 hs
      have hs' : rgbSelective (fmtRun s) s = .ok { s with mem := copyItems (dirtyItems s) s.mem } :=
        rgbSelective_eq_ok.2 ⟨⟨hw, hh⟩, hmask, hacc, rfl⟩
      refine ⟨_, exec_selective h hpath hs', fun hno => ?_, fun _ _ _ happart x hx r hr hdirty => ?_⟩
      · simp [hpath] at hno
      · exact (readLE_dirtyItems hmem h hpath hw hh happart hx hr hdirty).trans
          (pixel_gray _ hgray (by omega) (by omega) hx (by omega))
    | error e =>
      have hexec : exec (.convertRgb555 true) s = .next (raise e { s with fmtPath := .direct }) := by
        rw [exec_convertRgb555_of_sound h, hpath]
        exact congrArg (endCommand _) hs
      refine ⟨_, hexec, fun hno => ?_, fun _ _ hok => ?_⟩
      · simp [hpath] at hno
      · cases hok
  · have hsel : sel = true → fmtPathOf s ≠ .direct := fun hs hp => hcond ⟨hs, hp⟩
    refine ⟨_, exec_whole h hsel, fun _ x hx r hr => ?_, fun hs hp => absurd ⟨hs, hp⟩ hcond⟩
    exact (congrArg Nat.cast (readLE_pixelsWritten hmem h _ hx hr)).trans
      ((ofInt16_rgb555 _ _ _ _).trans (wholePixel_gray h hgray hx hr))

end Sys2Proof.Proofs
end

section
/-! CONVERT_YUY2 and CONVERT_YVU9 (43_formatter.md R293, R310, R314). -/

namespace Sys2Proof.Proofs

open Sys2Proof.Machine Sys2Proof.Safety Sys2Proof.Config

/-! ### Bytes copied one at a time -/

/-- One-byte items stored in order, none of them at a byte that an item reads: what each address then holds. -/
theorem read_copyBytes {α : Type} {m : Memory} (hw : m.wf) {l : List α} {addr : α → Nat} {v : α → Memory → Byte}
    (hnodup : (l.map addr).Nodup)
    (hv : ∀ p ∈ l, ∀ k : Memory, k.wf → (∀ a, a ∉ l.map addr → k.read a = m.read a) → v p k = v p m) {p : α} (hp : p ∈ l) :
    (copyItems (l.map fun p => ((addr p : Int), fun k => [v p k])) m).read (addr p) = v p m := by
  have hwrite : copyItems (l.map fun p => ((addr p : Int), fun k => [v p k])) m =
      m.writeAll (l.map fun p => (addr p, v p m)) := by
    rw [copyItems_eq_writeAll hw (· ∈ l.map addr), List.flatMap_map]
    · simp only [Int.toNat_natCast, placed_one]
      rw [← List.flatMap_pure_eq_map]
      rfl
    · intro q hq k _ b hb
      obtain ⟨r, hr, rfl⟩ := List.mem_map.1 hq
      simp only [Int.toNat_natCast, placed_one, List.mem_singleton] at hb
      rw [hb]
      exact List.mem_map_of_mem hr
    · intro q hq k hk hread
      obtain ⟨r, hr, rfl⟩ := List.mem_map.1 hq
      exact congrArg (fun b => [b]) (hv r hr k hk hread)
  rw [hwrite]
  exact Memory.read_writeAll_map hw hnodup hp

/-- One-byte items leave every other byte. -/
theorem read_copyBytes_of_notMem {α : Type} {m : Memory} (hw : m.wf) {l : List α} {addr : α → Nat} {v : α → Memory → Byte}
    {a : Nat} (ha : a ∉ l.map addr) :
    (copyItems (l.map fun p => ((addr p : Int), fun k => [v p k])) m).read a = m.read a := by
  refine read_copyItems hw fun q hq k _ b hb => ?_
  obtain ⟨r, hr, rfl⟩ := List.mem_map.1 hq
  simp only [Int.toNat_natCast, placed_one, List.mem_singleton] at hb
  rw [hb]
  rintro rfl
  exact ha (List.mem_map_of_mem hr)

theorem sample_le (f : FormatRun) (m : Memory) (id : PlaneId) (x y : Nat) : f.sample m id x y ≤ 255 := by
  unfold FormatRun.sample
  split
  · exact Nat.le_of_lt_succ (m.read _).isLt
  · decide

theorem sampleByte_sample (f : FormatRun) (m : Memory) (id : PlaneId) (x y : Nat) :
    (sampleByte (f.sample m id x y)).toNat = f.sample m id x y := by
  have hle := sample_le f m id x y
  exact_mod_cast sampleByte_toNat (v := (f.sample m id x y : Int)) (by omega) (by omega)

/-! ### CONVERT_YUY2 -/

/-- Byte j of the pixel pair at a place: the plane and the sample it holds (R310). -/
def yuy2Sample (f : FormatRun) (m : Memory) (p : Nat × Nat) (j : Nat) : Nat :=
  let row := f.h - 1 - p.2
  match j with
  | 0 => f.sample m .y (2 * p.1) row
  | 1 => f.sample m .cb p.1 (row / 2)
  | 2 => f.sample m .y (2 * p.1 + 1) row
  | _ => f.sample m .cr p.1 (row / 2)

/-- The bytes of the target in the order they are stored: a place of the grid of pixel pairs, and a byte of the pair. -/
def yuy2Bytes (f : FormatRun) : List ((Nat × Nat) × Nat) :=
  (grid (f.w / 2) f.h).flatMap fun p => (List.range 4).map fun j => (p, j)

theorem mem_yuy2Bytes {f : FormatRun} {p : Nat × Nat} {j : Nat} :
    (p, j) ∈ yuy2Bytes f ↔ (p.1 < f.w / 2 ∧ p.2 < f.h) ∧ j < 4 := by
  simp [yuy2Bytes, mem_grid]

/-- The address of a byte of the target (R310). -/
def yuy2Addr (s : State) (q : (Nat × Nat) × Nat) : Nat :=
  cell s.regF.fmtDst.toNat s.regF.fmtDstStride.toNat 4 q.1 + q.2

theorem yuy2Addr_nodup {s : State} {f : FormatRun} (hst : 2 * f.w ≤ s.regF.fmtDstStride.toNat) :
    ((yuy2Bytes f).map (yuy2Addr s)).Nodup := by
  have hnodup : (yuy2Bytes f).Nodup := nodup_flatMap_of_key Prod.fst (grid_nodup _ _)
    (fun p _ => List.nodup_range.map fun i j e => (Prod.mk.inj e).2) fun p _ q hq => by
      obtain ⟨j, -, rfl⟩ := List.mem_map.1 hq
      rfl
  refine hnodup.map_on fun q hq r hr e => ?_
  obtain ⟨⟨hqx, -⟩, hqj⟩ := mem_yuy2Bytes.1 hq
  obtain ⟨⟨hrx, -⟩, hrj⟩ := mem_yuy2Bytes.1 hr
  obtain ⟨h1, h2⟩ := cell_inj (n := f.w / 2) (by omega) (by decide) hqx hrx hqj hrj e
  exact Prod.ext h1 h2

/-- The bytes of a pair fill four of its row. -/
theorem yuy2Addr_row {s : State} {f : FormatRun} {q : (Nat × Nat) × Nat} (hq : q ∈ yuy2Bytes f) :
    ∃ r < f.h, ∃ j < 2 * f.w, yuy2Addr s q = s.regF.fmtDst.toNat + r * s.regF.fmtDstStride.toNat + j := by
  obtain ⟨⟨hx, hr⟩, hj⟩ := mem_yuy2Bytes.1 hq
  exact ⟨q.1.2, hr, 4 * q.1.1 + q.2, by omega, by rw [yuy2Addr, cell]; omega⟩

/-- The four stores of each pair, as the model writes them, are those of its bytes in order. -/
theorem yuy2Items_eq (s : State) (f : FormatRun) :
    ((grid (f.w / 2) f.h).flatMap fun p =>
      let row := f.h - 1 - p.2
      let a : Int := s.regF.fmtDst.toNat + p.2 * s.regF.fmtDstStride.toNat + 4 * p.1
      [(a, fun m : Memory => [sampleByte (f.sample m .y (2 * p.1) row)]),
       (a + 1, fun m => [sampleByte (f.sample m .cb p.1 (row / 2))]),
       (a + 2, fun m => [sampleByte (f.sample m .y (2 * p.1 + 1) row)]),
       (a + 3, fun m => [sampleByte (f.sample m .cr p.1 (row / 2))])]) =
      (yuy2Bytes f).map fun q => ((yuy2Addr s q : Int), fun m => [sampleByte (yuy2Sample f m q.1 q.2)]) := by
  rw [yuy2Bytes, List.map_flatMap]
  simp [List.range_succ, yuy2Addr, cell, yuy2Sample]

/-- The samples of a pair, byte by byte. -/
theorem yuy2Sample_bytes (f : FormatRun) (m : Memory) (p : Nat × Nat) :
    yuy2Sample f m p 0 = f.sample m .y (2 * p.1) (f.h - 1 - p.2) ∧
    yuy2Sample f m p 1 = f.sample m .cb p.1 ((f.h - 1 - p.2) / 2) ∧
    yuy2Sample f m p 2 = f.sample m .y (2 * p.1 + 1) (f.h - 1 - p.2) ∧
    yuy2Sample f m p 3 = f.sample m .cr p.1 ((f.h - 1 - p.2) / 2) := ⟨rfl, rfl, rfl, rfl⟩

/-- A byte of the target is apart from what it is read from. -/
theorem yuy2Sample_congr {f : FormatRun} {m k : Memory} (h : ∀ a ∈ sourceCells f, k.read a = m.read a) (hh : f.h % 2 = 0)
    {p : Nat × Nat} (hx : p.1 < f.w / 2) (hy : p.2 < f.h) (j : Nat) : yuy2Sample f k p j = yuy2Sample f m p j := by
  have hchroma : f.h - 1 - p.2 < f.h ∧ (f.h - 1 - p.2) / 2 < f.h / 2 := by omega
  unfold yuy2Sample
  split
  · exact sample_congr h (id := .y) (by show _ < f.w; omega) hchroma.1
  · exact sample_congr h (id := .cb) hx hchroma.2
  · exact sample_congr h (id := .y) (by show _ < f.w; omega) hchroma.1
  · exact sample_congr h (id := .cr) hx hchroma.2

theorem yuy2Body_size {s : State} (h : formatSound s) (hsize : (fmtRun s).dw ≠ (fmtRun s).w ∨ (fmtRun s).dh ≠ (fmtRun s).h) :
    yuy2Body s = .error ⟨.fmtArg, BitVec.ofNat 32 ((fmtRun s).dw + (fmtRun s).dh * 2 ^ 16)⟩ := by
  rw [yuy2Body, formatChecks_eq_ok.2 ⟨h, rfl⟩, Checks.ok_bind]
  dsimp only
  rw [raiseIf_of hsize, Checks.error_bind, ← trunc32_natCast]
  push_cast
  rfl

/-- The memory CONVERT_YUY2 leaves. -/
@[irreducible] def yuy2Written (s : State) : Memory :=
  copyItems ((yuy2Bytes (fmtRun s)).map fun q =>
    ((yuy2Addr s q : Int), fun m => [sampleByte (yuy2Sample (fmtRun s) m q.1 q.2)])) s.mem

theorem yuy2Body_ok {s : State} (h : formatSound s) (hdw : (fmtRun s).dw = (fmtRun s).w) (hdh : (fmtRun s).dh = (fmtRun s).h)
    (hst : 2 * (fmtRun s).w ≤ s.regF.fmtDstStride.toNat)
    (hend : s.regF.fmtDst.toNat + ((fmtRun s).h - 1) * s.regF.fmtDstStride.toNat + 2 * (fmtRun s).w ≤ s.params.memSize) :
    yuy2Body s = .ok { s with mem := yuy2Written s } := by
  rw [yuy2Body, formatChecks_eq_ok.2 ⟨h, rfl⟩, Checks.ok_bind]
  dsimp only
  rw [raiseIf_of_not (by omega), Checks.ok_bind, raiseIf_of_not (by omega), Checks.ok_bind, checkOutput,
    raiseIf_of_not (by omega), Checks.ok_bind, yuy2Items_eq, checkThenCopy_eq_ok]
  refine ⟨fun p hp => ?_, by rw [yuy2Written]⟩
  obtain ⟨q, hq, rfl⟩ := List.mem_map.1 hp
  obtain ⟨r, hr, j, hj, e⟩ := yuy2Addr_row (s := s) hq
  have hrow := Nat.mul_le_mul_right s.regF.fmtDstStride.toNat (show r ≤ (fmtRun s).h - 1 by omega)
  rw [accessible_one, e]
  omega

theorem read_yuy2Written_of_ne {s : State} (hw : s.mem.wf) {a : Nat}
    (ha : ∀ r < (fmtRun s).h, ∀ j < 2 * (fmtRun s).w,
      a ≠ s.regF.fmtDst.toNat + r * s.regF.fmtDstStride.toNat + j) : (yuy2Written s).read a = s.mem.read a := by
  rw [yuy2Written, read_copyBytes_of_notMem (addr := yuy2Addr s)
    (v := fun q m => sampleByte (yuy2Sample (fmtRun s) m q.1 q.2)) hw]
  intro hmem
  obtain ⟨q, hq, rfl⟩ := List.mem_map.1 hmem
  obtain ⟨r, hr, j, hj, e⟩ := yuy2Addr_row (s := s) hq
  exact ha r hr j hj e

/-- Where the target lies apart from the source, each byte of a pair holds its sample. -/
theorem read_yuy2Written {s : State} (hw : s.mem.wf) (hh : (fmtRun s).h % 2 = 0)
    (hst : 2 * (fmtRun s).w ≤ s.regF.fmtDstStride.toNat)
    (happart : ∀ a ∈ sourceCells (fmtRun s), ∀ r < (fmtRun s).h, ∀ j < 2 * (fmtRun s).w,
      a ≠ s.regF.fmtDst.toNat + r * s.regF.fmtDstStride.toNat + j) {r k j : Nat} (hr : r < (fmtRun s).h)
    (hk : k < (fmtRun s).w / 2) (hj : j < 4) {id : PlaneId} {x y : Nat}
    (hsample : yuy2Sample (fmtRun s) s.mem (k, r) j = (fmtRun s).sample s.mem id x y) :
    ((yuy2Written s).read (s.regF.fmtDst.toNat + r * s.regF.fmtDstStride.toNat + 4 * k + j)).toNat =
      (fmtRun s).sample s.mem id x y := by
  have hread : (yuy2Written s).read (yuy2Addr s ((k, r), j)) = sampleByte (yuy2Sample (fmtRun s) s.mem (k, r) j) := by
    rw [yuy2Written, read_copyBytes (addr := yuy2Addr s) (v := fun q m => sampleByte (yuy2Sample (fmtRun s) m q.1 q.2)) hw
      (yuy2Addr_nodup hst) ?_ (mem_yuy2Bytes.2 ⟨⟨hk, hr⟩, hj⟩)]
    intro q hq m _ hm
    obtain ⟨⟨hx, hy⟩, -⟩ := mem_yuy2Bytes.1 hq
    rw [yuy2Sample_congr (fun a ha => hm a fun hmem => ?_) hh hx hy]
    obtain ⟨b, hb, rfl⟩ := List.mem_map.1 hmem
    obtain ⟨r', hr', j', hj', e⟩ := yuy2Addr_row (s := s) hb
    exact happart _ ha r' hr' j' hj' e
  have haddr : s.regF.fmtDst.toNat + r * s.regF.fmtDstStride.toNat + 4 * k + j = yuy2Addr s ((k, r), j) := rfl
  rw [haddr, hread, hsample, sampleByte_sample]

/-- Settles O49. -/
theorem yuy2RepacksPixelPairs : Obligations.Yuy2RepacksPixelPairs := by
  intro s
  dsimp only
  intro hw h
  refine ⟨fun hsize => ?_, fun hdw hdh hst hend => ⟨{ ended s with mem := yuy2Written s }, ?_, rfl,
    fun a ha => read_yuy2Written_of_ne hw ha, fun happart r hr k hk => ?_⟩⟩
  · rw [exec_of_body rfl, yuy2Body_size h hsize, endCommand_error]
  · rw [exec_of_body rfl, yuy2Body_ok h hdw hdh hst hend, endCommand_ok, finish_blended]
  · obtain ⟨-, -, -, ⟨-, hh, -⟩, -⟩ := h
    obtain ⟨h0, h1, h2, h3⟩ := yuy2Sample_bytes (fmtRun s) s.mem (k, r)
    exact ⟨read_yuy2Written hw hh hst happart hr hk (j := 0) (by decide) h0,
      read_yuy2Written hw hh hst happart hr hk (by decide) h1, read_yuy2Written hw hh hst happart hr hk (by decide) h2,
      read_yuy2Written hw hh hst happart hr hk (by decide) h3⟩

/-! ### CONVERT_YVU9 -/

/-- The bytes of the target in the order they are stored: the luma plane, then the decimated Cr and Cb planes (R314). -/
def yvu9Bytes (f : FormatRun) : List (PlaneId × (Nat × Nat)) :=
  (grid f.w f.h).map (PlaneId.y, ·) ++ (grid (f.w / 4) (f.h / 4)).map (PlaneId.cr, ·) ++
    (grid (f.w / 4) (f.h / 4)).map (PlaneId.cb, ·)

/-- The address of a byte of the target. -/
def yvu9Addr (s : State) (q : PlaneId × (Nat × Nat)) : Nat :=
  let f := fmtRun s
  match q.1 with
  | .y => cell s.regF.fmtDst.toNat f.w 1 q.2
  | .cr => cell (s.regF.fmtDst.toNat + f.w * f.h) (f.w / 4) 1 q.2
  | .cb => cell (s.regF.fmtDst.toNat + f.w * f.h + f.w / 4 * (f.h / 4)) (f.w / 4) 1 q.2

/-- The sample a byte of the target holds: luma flipped, every second chroma sample of every second row flipped. -/
def yvu9Sample (f : FormatRun) (m : Memory) (q : PlaneId × (Nat × Nat)) : Nat :=
  match q.1 with
  | .y => f.sample m .y q.2.1 (f.h - 1 - q.2.2)
  | id => f.sample m id (2 * q.2.1) (f.h / 2 - 1 - 2 * q.2.2)

theorem yvu9Sample_y (f : FormatRun) (m : Memory) (p : Nat × Nat) :
    yvu9Sample f m (.y, p) = f.sample m .y p.1 (f.h - 1 - p.2) := rfl

theorem yvu9Sample_cr (f : FormatRun) (m : Memory) (p : Nat × Nat) :
    yvu9Sample f m (.cr, p) = f.sample m .cr (2 * p.1) (f.h / 2 - 1 - 2 * p.2) := rfl

theorem yvu9Sample_cb (f : FormatRun) (m : Memory) (p : Nat × Nat) :
    yvu9Sample f m (.cb, p) = f.sample m .cb (2 * p.1) (f.h / 2 - 1 - 2 * p.2) := rfl

theorem mem_yvu9Bytes {f : FormatRun} {id : PlaneId} {p : Nat × Nat} :
    (id, p) ∈ yvu9Bytes f ↔ (id = .y ∧ p.1 < f.w ∧ p.2 < f.h) ∨ (id ≠ .y ∧ p.1 < f.w / 4 ∧ p.2 < f.h / 4) := by
  cases id <;> simp [yvu9Bytes, mem_grid]

/-- A cell of a contiguous plane lies inside it. -/
theorem cell_lt_of_contiguous {top w h : Nat} {p : Nat × Nat} (hx : p.1 < w) (hy : p.2 < h) :
    top ≤ cell top w 1 p ∧ cell top w 1 p < top + w * h := by
  have hrow := Nat.mul_le_mul_right w (show p.2 + 1 ≤ h from hy)
  rw [Nat.add_mul, Nat.mul_comm h w] at hrow
  unfold cell
  omega

/-- Where the byte of each plane lies. -/
theorem yvu9Addr_range {s : State} {q : PlaneId × (Nat × Nat)} (hq : q ∈ yvu9Bytes (fmtRun s)) :
    let dst := s.regF.fmtDst.toNat
    let n := (fmtRun s).w * (fmtRun s).h
    let c := (fmtRun s).w / 4 * ((fmtRun s).h / 4)
    (q.1 = .y ∧ dst ≤ yvu9Addr s q ∧ yvu9Addr s q < dst + n) ∨
      (q.1 = .cr ∧ dst + n ≤ yvu9Addr s q ∧ yvu9Addr s q < dst + n + c) ∨
      (q.1 = .cb ∧ dst + n + c ≤ yvu9Addr s q ∧ yvu9Addr s q < dst + n + c + c) := by
  obtain ⟨id, p⟩ := q
  rcases mem_yvu9Bytes.1 hq with ⟨rfl, hx, hy⟩ | ⟨hne, hx, hy⟩
  · exact .inl ⟨rfl, cell_lt_of_contiguous hx hy⟩
  · cases id with
    | y => exact absurd rfl hne
    | cr => exact .inr (.inl ⟨rfl, cell_lt_of_contiguous hx hy⟩)
    | cb => exact .inr (.inr ⟨rfl, cell_lt_of_contiguous hx hy⟩)

theorem yvu9Addr_nodup (s : State) : ((yvu9Bytes (fmtRun s)).map (yvu9Addr s)).Nodup := by
  have hpair : ∀ id : PlaneId, Function.Injective (fun p : Nat × Nat => (id, p)) := fun id p q e => (Prod.mk.inj e).2
  have hnodup : (yvu9Bytes (fmtRun s)).Nodup := by
    have hne : ∀ {id id' : PlaneId} {l k : List (Nat × Nat)}, id ≠ id' → List.Disjoint (l.map (id, ·)) (k.map (id', ·)) :=
      fun hne => List.disjoint_left.2 fun q hq hq' => by
        obtain ⟨p, -, rfl⟩ := List.mem_map.1 hq
        obtain ⟨p', -, e⟩ := List.mem_map.1 hq'
        exact hne (Prod.mk.inj e).1.symm
    refine (((grid_nodup _ _).map (hpair _)).append ((grid_nodup _ _).map (hpair _)) (hne (by decide))).append
      ((grid_nodup _ _).map (hpair _)) ?_
    exact List.disjoint_append_left.2 ⟨hne (by decide), hne (by decide)⟩
  refine hnodup.map_on fun q hq r hr e => ?_
  have hqr := yvu9Addr_range hq
  have hrr := yvu9Addr_range hr
  dsimp only at hqr hrr
  have hid : q.1 = r.1 := by
    rcases hqr with ⟨hq1, hqlo, hqhi⟩ | ⟨hq1, hqlo, hqhi⟩ | ⟨hq1, hqlo, hqhi⟩
    · have hr1 : r.1 = .y := by
        rcases hrr with ⟨hr1, -⟩ | ⟨-, hrlo, -⟩ | ⟨-, hrlo, -⟩
        · exact hr1
        · omega
        · omega
      rw [hq1, hr1]
    · have hr1 : r.1 = .cr := by
        rcases hrr with ⟨-, -, hrhi⟩ | ⟨hr1, -⟩ | ⟨-, hrlo, -⟩
        · omega
        · exact hr1
        · omega
      rw [hq1, hr1]
    · have hr1 : r.1 = .cb := by
        rcases hrr with ⟨-, -, hrhi⟩ | ⟨-, -, hrhi⟩ | ⟨hr1, -⟩
        · omega
        · omega
        · exact hr1
      rw [hq1, hr1]
  obtain ⟨id, p⟩ := q
  obtain ⟨id', p'⟩ := r
  obtain rfl : id = id' := hid
  refine Prod.ext rfl ?_
  have hcell : ∀ {top stride}, p.1 < stride → p'.1 < stride → cell top stride 1 p = cell top stride 1 p' → p = p' :=
    fun {top stride} hx hx' e => (cell_inj (n := stride) (i := 0) (j := 0) (Nat.one_mul stride).le (by decide) hx hx'
      (by decide) (by decide) (congrArg (· + 0) e)).1
  rcases mem_yvu9Bytes.1 hq with ⟨rfl, hx, -⟩ | ⟨hne, hx, -⟩ <;> rcases mem_yvu9Bytes.1 hr with ⟨h, hx', -⟩ | ⟨h, hx', -⟩
  · exact hcell hx hx' e
  · exact absurd rfl h
  · exact absurd h hne
  · cases id with
    | y => exact absurd rfl hne
    | cr => exact hcell hx hx' e
    | cb => exact hcell hx hx' e

theorem yvu9Sample_congr {f : FormatRun} {m k : Memory} (h : ∀ a ∈ sourceCells f, k.read a = m.read a)
    {q : PlaneId × (Nat × Nat)} (hq : q ∈ yvu9Bytes f) : yvu9Sample f k q = yvu9Sample f m q := by
  obtain ⟨id, p⟩ := q
  rcases mem_yvu9Bytes.1 hq with ⟨rfl, hx, hy⟩ | ⟨hne, hx, hy⟩
  · exact sample_congr h (id := .y) hx (by show _ < f.h; omega)
  · have hchroma : 2 * p.1 < f.w / 2 ∧ f.h / 2 - 1 - 2 * p.2 < f.h / 2 := by omega
    cases id with
    | y => exact absurd rfl hne
    | cr => exact sample_congr h (id := .cr) hchroma.1 hchroma.2
    | cb => exact sample_congr h (id := .cb) hchroma.1 hchroma.2

theorem sampleByte_yvu9Sample (f : FormatRun) (m : Memory) (q : PlaneId × (Nat × Nat)) :
    (sampleByte (yvu9Sample f m q)).toNat = yvu9Sample f m q := by
  unfold yvu9Sample
  split <;> exact sampleByte_sample _ _ _ _ _

/-- The memory CONVERT_YVU9 leaves. -/
@[irreducible] def yvu9Written (s : State) : Memory :=
  copyItems ((yvu9Bytes (fmtRun s)).map fun q =>
    ((yvu9Addr s q : Int), fun m => [sampleByte (yvu9Sample (fmtRun s) m q)])) s.mem

theorem yvu9Body_ok {s : State} (h : formatSound s) (hdw : (fmtRun s).dw = (fmtRun s).w) (hdh : (fmtRun s).dh = (fmtRun s).h)
    (hw : (fmtRun s).w % 4 = 0) (hh : (fmtRun s).h % 4 = 0) (hst : s.regF.fmtDstStride.toNat = (fmtRun s).w)
    (hend : s.regF.fmtDst.toNat + (fmtRun s).w * (fmtRun s).h + 2 * ((fmtRun s).w / 4 * ((fmtRun s).h / 4)) ≤
      s.params.memSize) :
    yvu9Body s = .ok { s with mem := yvu9Written s } := by
  rw [yvu9Body, formatChecks_eq_ok.2 ⟨h, rfl⟩, Checks.ok_bind]
  dsimp only
  rw [raiseIf_of_not (by omega), Checks.ok_bind, raiseIf_of_not (by omega), Checks.ok_bind, raiseIf_of_not (by omega),
    Checks.ok_bind, checkOutput, raiseIf_of_not (by omega), Checks.ok_bind]
  have hitems : (((grid (fmtRun s).w (fmtRun s).h).map fun p =>
        ((s.regF.fmtDst.toNat : Int) + p.2 * (fmtRun s).w + p.1,
          fun m : Memory => [sampleByte ((fmtRun s).sample m .y p.1 ((fmtRun s).h - 1 - p.2))]))
      ++ yvu9Chroma (fmtRun s) (s.regF.fmtDst.toNat + (fmtRun s).w * (fmtRun s).h) .cr
      ++ yvu9Chroma (fmtRun s)
        (s.regF.fmtDst.toNat + (fmtRun s).w * (fmtRun s).h + (fmtRun s).w / 4 * ((fmtRun s).h / 4)) .cb) =
      (yvu9Bytes (fmtRun s)).map fun q => ((yvu9Addr s q : Int), fun m => [sampleByte (yvu9Sample (fmtRun s) m q)]) := by
    rw [yvu9Bytes, List.map_append, List.map_append, List.map_map, List.map_map, List.map_map]
    refine congrArg₂ _ (congrArg₂ _ ?_ ?_) ?_ <;>
      exact List.map_congr_left fun p _ => Prod.ext (by simp [yvu9Addr, cell]) rfl
  rw [hitems, checkThenCopy_eq_ok]
  refine ⟨fun p hp => ?_, by rw [yvu9Written]⟩
  obtain ⟨q, hq, rfl⟩ := List.mem_map.1 hp
  have hrange := yvu9Addr_range hq
  dsimp only at hrange
  rw [accessible_one]
  omega

theorem read_yvu9Written {s : State} (hw : s.mem.wf)
    (happart : ∀ a ∈ sourceCells (fmtRun s), a < s.regF.fmtDst.toNat ∨
      s.regF.fmtDst.toNat + (fmtRun s).w * (fmtRun s).h + 2 * ((fmtRun s).w / 4 * ((fmtRun s).h / 4)) ≤ a)
    {q : PlaneId × (Nat × Nat)} (hq : q ∈ yvu9Bytes (fmtRun s)) :
    (yvu9Written s).read (yvu9Addr s q) = sampleByte (yvu9Sample (fmtRun s) s.mem q) := by
  rw [yvu9Written, read_copyBytes (addr := yvu9Addr s) (v := fun q m => sampleByte (yvu9Sample (fmtRun s) m q)) hw
    (yvu9Addr_nodup s) ?_ hq]
  intro r hr m _ hm
  rw [yvu9Sample_congr (fun a ha => hm a fun hmem => ?_) hr]
  obtain ⟨b, hb, rfl⟩ := List.mem_map.1 hmem
  have hrange := yvu9Addr_range hb
  dsimp only at hrange
  have := happart _ ha
  omega

/-- Settles O50. -/
theorem yvu9WritesThreeContiguousPlanes : Obligations.Yvu9WritesThreeContiguousPlanes := by
  intro s
  dsimp only
  intro hmem h hdw hdh hw hh hst hend
  refine ⟨{ ended s with mem := yvu9Written s }, ?_, rfl, fun a ha => ?_, fun happart => ?_⟩
  · rw [exec_of_body rfl, yvu9Body_ok h hdw hdh hw hh hst hend, endCommand_ok, finish_blended]
  · show (yvu9Written s).read a = _
    rw [yvu9Written, read_copyBytes_of_notMem (addr := yvu9Addr s)
      (v := fun q m => sampleByte (yvu9Sample (fmtRun s) m q)) hmem]
    intro hin
    obtain ⟨q, hq, rfl⟩ := List.mem_map.1 hin
    have hrange := yvu9Addr_range hq
    dsimp only at hrange
    omega
  · have hread : ∀ q ∈ yvu9Bytes (fmtRun s), ∀ a, a = yvu9Addr s q →
        ((yvu9Written s).read a).toNat = yvu9Sample (fmtRun s) s.mem q := fun q hq a ha => by
      rw [ha, read_yvu9Written hmem happart hq, sampleByte_yvu9Sample]
    refine ⟨fun x hx r hr => ?_, fun x hx r hr => ⟨?_, ?_⟩⟩
    · rw [← yvu9Sample_y (fmtRun s) s.mem (x, r)]
      exact hread (.y, (x, r)) (mem_yvu9Bytes.2 (.inl ⟨rfl, hx, hr⟩)) _ (by simp [yvu9Addr, cell])
    · rw [← yvu9Sample_cr (fmtRun s) s.mem (x, r)]
      exact hread (.cr, (x, r)) (mem_yvu9Bytes.2 (.inr ⟨by decide, hx, hr⟩)) _ (by simp [yvu9Addr, cell])
    · rw [← yvu9Sample_cb (fmtRun s) s.mem (x, r)]
      exact hread (.cb, (x, r)) (mem_yvu9Bytes.2 (.inr ⟨by decide, hx, hr⟩)) _ (by simp only [yvu9Addr, cell]; omega)

end Sys2Proof.Proofs
end

section
/-! The start of DECODE_GOB, the walk of the cursor, and CONCEAL_GOB (42_dispatcher.md R232, R240, R244, R270). -/

namespace Sys2Proof.Proofs

open Sys2Proof.Machine Sys2Proof.Safety Sys2Proof.Config

/-! ### DECODE_GOB -/

/-- Settles O51. -/
theorem decodeGobEntersItsLoop : Obligations.DecodeGobEntersItsLoop := by
  intro s
  refine ⟨fun h => ?_, fun h => ?_⟩
  · show execDecodeGob s = _
    rw [execDecodeGob, startChecks_eq_ok.2 ⟨h, rfl⟩]
    dsimp only
    rw [enterGob_eq]
    rfl
  · cases hc : startChecks false s with
    | ok c => exact absurd (startChecks_eq_ok.1 hc).1 h
    | error e =>
      refine ⟨e, ?_⟩
      show execDecodeGob s = _
      rw [execDecodeGob, hc]

/-! ### The walk -/

/-- The cursor n macroblocks into a GOB (R244). -/
def cursorAt (g : GobDescr) (ck : Checkpoint) (n : Nat) : Checkpoint :=
  { ck with
    loop := BitVec.ofNat 32 n
    col := BitVec.ofNat 32 (g.firstCol + n % g.mbPerRow)
    mbNum := BitVec.ofNat 32 ((g.firstRow + n / g.mbPerRow) * g.rowStride + (g.firstCol + n % g.mbPerRow)) }

theorem valid_columns {g : GobDescr} (hv : g.valid = true) :
    1 ≤ g.mbPerRow ∧ g.firstCol + g.mbPerRow ≤ g.rowStride := by
  simp only [GobDescr.valid, Bool.and_eq_true, decide_eq_true_eq] at hv
  omega

theorem advance_cursorAt {g : GobDescr} (hv : g.valid = true) (hs : g.rowStride < 2 ^ 16) (ck : Checkpoint) (n : Nat) :
    advance g (cursorAt g ck n) = cursorAt g ck (n + 1) := by
  obtain ⟨hpos, hcols⟩ := valid_columns hv
  have hmod := Nat.mod_lt n hpos
  have hcol : (BitVec.ofNat 32 (g.firstCol + n % g.mbPerRow) + 1 = BitVec.ofNat 32 (g.firstCol + g.mbPerRow)) ↔
      n % g.mbPerRow + 1 = g.mbPerRow := by
    rw [← BitVec.toNat_inj, BitVec.toNat_add, BitVec.toNat_ofNat, BitVec.toNat_ofNat]
    show (_ + 1) % _ = _ ↔ _
    omega
  have hn := Nat.div_add_mod n g.mbPerRow
  have hstep : ∀ k : Nat, BitVec.ofNat 32 k + 1 = BitVec.ofNat 32 (k + 1) := fun k => (BitVec.ofNat_add k 1).symm
  by_cases hlast : n % g.mbPerRow + 1 = g.mbPerRow
  · obtain ⟨hdiv, hmod'⟩ : (n + 1) / g.mbPerRow = n / g.mbPerRow + 1 ∧ (n + 1) % g.mbPerRow = 0 :=
      (Nat.div_mod_unique hpos).2 ⟨by rw [Nat.mul_add]; omega, hpos⟩
    have hnum : BitVec.ofNat 32 ((g.firstRow + n / g.mbPerRow) * g.rowStride + (g.firstCol + n % g.mbPerRow)) + 1 +
        BitVec.ofNat 32 g.rowStride - BitVec.ofNat 32 g.mbPerRow =
          BitVec.ofNat 32 ((g.firstRow + (n / g.mbPerRow + 1)) * g.rowStride + g.firstCol) := by
      rw [sub_eq_iff_eq_add, ← BitVec.ofNat_add, show (1 : Word) = BitVec.ofNat 32 1 from rfl, ← BitVec.ofNat_add,
        ← BitVec.ofNat_add]
      congr 1
      rw [← Nat.add_assoc g.firstRow, Nat.add_mul _ 1]
      omega
    rw [advance]
    rw [if_pos (show (cursorAt g ck n).col + 1 = _ from hcol.2 hlast)]
    simp only [cursorAt, hdiv, hmod', hnum, hstep n, Nat.add_zero]
  · obtain ⟨hdiv, hmod'⟩ : (n + 1) / g.mbPerRow = n / g.mbPerRow ∧ (n + 1) % g.mbPerRow = n % g.mbPerRow + 1 :=
      (Nat.div_mod_unique hpos).2 ⟨by omega, by omega⟩
    rw [advance]
    rw [if_neg (show ¬(cursorAt g ck n).col + 1 = _ from mt hcol.1 hlast)]
    simp only [cursorAt, hdiv, hmod', hstep, ← Nat.add_assoc]

theorem advanceBy_gobStart {g : GobDescr} (hv : g.valid = true) (hs : g.rowStride < 2 ^ 16) (ck : Checkpoint) (n : Nat) :
    advanceBy g n (gobStart g ck) = cursorAt g ck n := by
  induction n with
  | zero => simp [advanceBy, gobStart, cursorAt]
  | succ n ih => rw [advanceBy_succ, ih, advance_cursorAt hv hs]

/-- While the macroblock number fits 32 bits the cursor names the descriptor of its place in the grid. -/
theorem cursorMb_cursorAt {c : GobRun} (hv : c.gob.valid = true) (hs : c.gob.rowStride < 2 ^ 16) (s : State)
    {n : Nat} (hfits : (c.gob.firstRow + n / c.gob.mbPerRow + 1) * c.gob.rowStride ≤ 2 ^ 32) :
    cursorMb c { s with ck := cursorAt c.gob s.ck n } =
      { run := c
        d := s.regD.mbBase.toNat + 128 *
          ((c.gob.firstRow + n / c.gob.mbPerRow) * c.gob.rowStride + (c.gob.firstCol + n % c.gob.mbPerRow))
        col := c.gob.firstCol + n % c.gob.mbPerRow
        row := c.gob.firstRow + n / c.gob.mbPerRow } := by
  obtain ⟨hpos, hcols⟩ := valid_columns hv
  have hmod := Nat.mod_lt n hpos
  rw [Nat.add_mul, Nat.one_mul] at hfits
  have hnum : (BitVec.ofNat 32 ((c.gob.firstRow + n / c.gob.mbPerRow) * c.gob.rowStride +
      (c.gob.firstCol + n % c.gob.mbPerRow))).toNat =
        (c.gob.firstRow + n / c.gob.mbPerRow) * c.gob.rowStride + (c.gob.firstCol + n % c.gob.mbPerRow) := by
    rw [BitVec.toNat_ofNat]
    exact Nat.mod_eq_of_lt (by omega)
  have hcol : (BitVec.ofNat 32 (c.gob.firstCol + n % c.gob.mbPerRow)).toNat = c.gob.firstCol + n % c.gob.mbPerRow := by
    rw [BitVec.toNat_ofNat]
    omega
  have hrow : ((c.gob.firstRow + n / c.gob.mbPerRow) * c.gob.rowStride + (c.gob.firstCol + n % c.gob.mbPerRow)) /
      c.gob.rowStride = c.gob.firstRow + n / c.gob.mbPerRow :=
    ((Nat.div_mod_unique (c := c.gob.firstCol + n % c.gob.mbPerRow) (by omega)).2
      ⟨by rw [Nat.mul_comm c.gob.rowStride]; omega, by omega⟩).1
  simp only [cursorMb, cursorAt, hnum, hcol, hrow, mbAddr]

/-- Settles O52. -/
theorem cursorWalksTheGobInRasterOrder : Obligations.CursorWalksTheGobInRasterOrder := by
  intro c s n hv hs
  have hwalk := advanceBy_gobStart hv hs s.ck n
  dsimp only
  rw [hwalk]
  exact ⟨rfl, fun hfits => cursorMb_cursorAt hv hs s hfits⟩

/-! ### CONCEAL_GOB -/

/-- The cursor a concealment goes on from (R270). -/
def concealStart (s : State) : Checkpoint := if s.ck.valid then s.ck else gobStart (gobAt s) s.ck

theorem enterConceal_eq (s : State) : enterConceal (gobRun true s) s = { s with ck := concealStart s } := by
  unfold enterConceal concealStart
  cases s.ck.valid <;> rfl

theorem concealMbs_run {c : GobRun} {s : State} {n : Nat} {ck : Checkpoint} {m : Mb} (h : m ∈ concealMbs c s n ck) :
    m.run = c := mbsFrom_run (mbsFrom_eq_concealMbs c s n ck ▸ h)

/-- With the start checks passed a macroblock that fits and has its descriptor can be concealed. -/
theorem concealable_of_start {s : State} (h : startSound true s) {m : Mb} (hrun : m.run = gobRun true s) (hd : m.d % 4 = 0)
    (hend : m.d + 12 ≤ s.params.memSize) (hfit : fits (gobRun true s) (unitSize s) m.col m.row) : concealable s m := by
  obtain ⟨-, -, -, -, -, -, -, hnew, hold, -⟩ := h
  refine ⟨hd, hend, hrun ▸ hfit, fun id hid => ?_, fun hg id hid => ?_⟩
  · rw [hrun] at hid ⊢
    exact ⟨hnew id hid, hfit id hid⟩
  · rw [hrun] at hid hg ⊢
    obtain ⟨hsound, hw, hh⟩ := hold hg id hid
    obtain ⟨hfw, hfh⟩ := hfit id hid
    exact ⟨hsound, hfw.trans hw.ge, hfh.trans hh.ge⟩

/-- What CONCEAL_GOB leaves once its loop is over. -/
theorem exec_concealGob_of_loop {s u : State} (h : startSound true s)
    (hu : concealLoop (gobRun true s) ((gobAt s).mbCount - (concealStart s).loop.toNat)
      { s with ck := concealStart s } = .ok u) :
    exec .concealGob s = .next (finish .ok (clearAicc (setCkValid false u))) := by
  show execConcealGob s = _
  rw [execConcealGob, startChecks_eq_ok.2 ⟨h, rfl⟩]
  dsimp only
  rw [enterConceal_eq]
  have hloop : concealLoop (gobRun true s) ((gobRun true s).gob.mbCount - (concealStart s).loop.toNat)
      { s with ck := concealStart s } = .ok u := hu
  rw [hloop]

theorem finish_concealed (s : State) (m : Memory) (ck : Checkpoint) (st : Stats) :
    finish .ok (clearAicc (setCkValid false { s with mem := m, ck := ck, stats := st })) =
      { ended s with
        mem := m
        ck := { ck with valid := false }
        stats := st
        aicc := s.aicc.map fun e => e.map fun x => { x with valid := false } } := rfl

/-- Settles O53. -/
theorem concealGobCompletes : Obligations.ConcealGobCompletes := by
  intro s
  dsimp only
  intro hw h hms
  obtain ⟨v, hv, hstate, hframe, -⟩ := concealLoop_ok (c := gobRun true s) (s := s)
    ((gobAt s).mbCount - (concealStart s).loop.toNat) (u := { s with ck := concealStart s }) rfl hw fun m hm =>
      concealable_of_start h (concealMbs_run hm) (hms m hm).1 (hms m hm).2.1 (hms m hm).2.2
  refine ⟨_, exec_concealGob_of_loop h hv, ?_, hframe⟩
  exact (congrArg (fun u => finish .ok (clearAicc (setCkValid false u))) hstate).trans (finish_concealed s v.mem _ _)

/-- Settles O54. -/
theorem concealmentReproducesTheReference : Obligations.ConcealmentReproducesTheReference := by
  intro s
  dsimp only
  intro hw h hms hnodup happart
  obtain ⟨v, hv, -, -, hread⟩ := concealLoop_ok (c := gobRun true s) (s := s)
    ((gobAt s).mbCount - (concealStart s).loop.toNat) (u := { s with ck := concealStart s }) rfl hw fun m hm =>
      concealable_of_start h (concealMbs_run hm) (hms m hm).1 (hms m hm).2.1 (hms m hm).2.2
  refine ⟨_, exec_concealGob_of_loop h hv, rfl, fun m hm => ?_⟩
  have hdone := hread hnodup happart m hm
  rw [concealedIn, concealMbs_run hm] at hdone
  exact hdone

end Sys2Proof.Proofs
end

section
/-! The handlers of the macroblock types run in the loop of DECODE_GOB: what each leaves of the state, and the samples it
stores (42_dispatcher.md R248 to R266). -/

namespace Sys2Proof.Proofs

open Sys2Proof.Machine Sys2Proof.Safety Sys2Proof.Config

/-! ### A handler that completes -/

/-- A sample the handler stores is no byte of the descriptor (70_reset_and_hazards.md R382). -/
theorem sample_ne_scratch {s : State} {m : Mb} (hm : mbSound s m) {a : Nat} (ha : mbBytes s m a) : a ≠ m.d + 11 := by
  rintro rfl
  exact mbSound_apart hm (by omega) (by omega) ha

theorem newCell_mbBytes {s : State} {m : Mb} {id : PlaneId} {x y : Nat} (hid : id ∈ planesInUse m.run.color)
    (hx : x < planeSize id (unitSize s)) (hy : y < planeSize id (unitSize s)) :
    mbBytes s m (mbCell m (unitSize s) m.run.newPic id x y) := .inl (mbCell_mem hid hx hy)

theorem bCell_mbBytes {s : State} {m : Mb} (hB : m.run.useB = true) {id : PlaneId} {x y : Nat}
    (hid : id ∈ planesInUse m.run.color) (hx : x < planeSize id (unitSize s)) (hy : y < planeSize id (unitSize s)) :
    mbBytes s m (mbCell m (unitSize s) m.run.bPic id x y) := .inr ⟨hB, mbCell_mem hid hx hy⟩

/-- What a type tag leaves whose handler completes in w, the state within the macroblock but for AICC: the samples of
the handler, SCRATCH, and the end of the macroblock. -/
structure TagEnds (s : State) (c : GobRun) (m : Mb) (skip : Bool) (cost : Nat) (v : State) (aicc : List AicEntry)
    (t : State) : Prop where
  state : t = mbEnd c cost { s with
    mem := t.mem, acc := v.acc, lastCase := v.lastCase, rrubuf := v.rrubuf, aicc := aicc }
  read : ∀ a, a ≠ m.d + 11 → t.mem.read a = v.mem.read a
  frame : ∀ a, ¬mbStores s m a → t.mem.read a = s.mem.read a
  scratch : t.mem.read (m.d + 11) = if skip = true ∧ c.geomFail = false ∧ word s (m.d + 12) = 0 then 0x00 else 0x0F

theorem tagEnds_of_handler {s v : State} {c : GobRun} {aic skip : Bool} {cost : Nat} {aicc : List AicEntry}
    {handler : Mb → State → Partial (State × Nat)} (hr : s.run = .gob c) (hm : mbSound s (cursorMb c s))
    (hh : handler (cursorMb c s) s = .ok ({ v with aicc := aicc }, cost)) (hv : Within (cursorMb c s) aic s v) :
    ∃ t, runTag skip handler s = .next t ∧ TagEnds s c (cursorMb c s) skip cost v aicc t := by
  obtain ⟨t, ht, hstate, hread, hscratch⟩ := settle_ok (c := c) (skip := skip) (cost := cost)
    (w := { v with aicc := aicc }) hm hv rfl rfl
  refine ⟨t, ?_, ?_, hread, fun a ha => ?_, hscratch⟩
  · rw [runTag, hr]
    dsimp only
    rw [hh, ht]
  · refine hstate.trans (congrArg (mbEnd c cost) ?_)
    exact (congrArg (fun u : State => { u with mem := t.mem, aicc := aicc }) hv.rest).trans rfl
  · have hne : a ≠ (cursorMb c s).d + 11 := fun e => ha (.inr (.inr e))
    rw [hread a hne]
    exact hv.read a fun hb => ha (hb.elim .inl fun h => .inr (.inl h))

section
variable {s v t : State} {c : GobRun} {m : Mb} {skip : Bool} {cost : Nat} {aicc : List AicEntry}

theorem TagEnds.arrays (h : TagEnds s c m skip cost v aicc t) :
    t.acc = v.acc ∧ t.lastCase = v.lastCase ∧ t.rrubuf = v.rrubuf ∧ t.aicc = aicc := by
  obtain ⟨-, hacc, hcase, hrru, haicc, -⟩ := mbEnd_fields c cost { s with
    mem := t.mem, acc := v.acc, lastCase := v.lastCase, rrubuf := v.rrubuf, aicc := aicc }
  rw [← h.state] at hacc hcase hrru haicc
  exact ⟨hacc, hcase, hrru, haicc⟩

/-- The state after a tag in terms of its own arrays. -/
theorem TagEnds.own (h : TagEnds s c m skip cost v aicc t) :
    t = mbEnd c cost { s with
      mem := t.mem, acc := t.acc, lastCase := t.lastCase, rrubuf := t.rrubuf, aicc := aicc } := by
  obtain ⟨hacc, hcase, hrru, -⟩ := h.arrays
  rw [hacc, hcase, hrru]
  exact h.state

/-- The samples a handler left are those the macroblock ends with. -/
theorem TagEnds.read_sample (h : TagEnds s c m skip cost v aicc t) (hm : mbSound s m) {a : Nat} (ha : mbBytes s m a) :
    t.mem.read a = v.mem.read a := h.read a (sample_ne_scratch hm ha)

end

/-! ### SKIP -/

/-- Settles O55. -/
theorem mbSkipCompletes : Obligations.MbSkipCompletes := by
  intro s c
  dsimp only
  intro hr hw hm
  obtain ⟨v, hh, hv, honly, hnormal, hreduced⟩ := skipHandler_ok hw hm
  obtain ⟨t, ht, hend⟩ := tagEnds_of_handler (skip := true) hr hm hh hv
  refine ⟨t, ht, ?state, hend.frame, ?scratch, fun hrru hnodup hB id hid x hx y hy => ?normal,
    fun hrru hnodup id hid x hx y hy => ?reduced⟩
  case state =>
    have hstate := hend.state
    rw [honly] at hstate
    exact hstate
  case scratch => simpa using hend.scratch
  case normal =>
    have hu : unitSize s = 16 := unitSize_16 hrru
    obtain ⟨hnew, hb⟩ := hnormal hrru hnodup hB id hid x hx y hy
    have hnew' := hend.read_sample hm (newCell_mbBytes hid (hu ▸ hx) (hu ▸ hy))
    rw [hu] at hnew'
    refine ⟨hnew'.trans hnew, fun huse hg => ?_⟩
    have hb' := hend.read_sample hm (bCell_mbBytes huse hid (hu ▸ hx) (hu ▸ hy))
    rw [hu] at hb'
    exact hb'.trans ((hb huse hg).trans hnew'.symm)
  case reduced =>
    have hu : unitSize s = 32 := unitSize_32 hrru
    have hnew' := hend.read_sample hm (newCell_mbBytes hid (hu ▸ hx) (hu ▸ hy))
    rw [hu] at hnew'
    exact hnew'.trans (hreduced hrru hnodup id hid x hx y hy)

/-! ### INTER -/

/-- The three INTER types, with the motion compensation each asks for (R250 to R252). -/
theorem exec_inter {q : Instr × McKind}
    (hq : q ∈ [(Instr.mbInter, McKind.inter), (.mbInterQ, .inter), (.mbInter4v, .inter4v)]) (s : State) :
    exec q.1 s = runTag false (interHandler q.2) s ∧ q.2 ≠ .bidir := by
  simp only [List.mem_cons, List.not_mem_nil, or_false] at hq
  rcases hq with rfl | rfl | rfl <;> exact ⟨rfl, by decide⟩

theorem exists_interKind {i : Instr} (hi : i ∈ [Instr.mbInter, .mbInterQ, .mbInter4v]) :
    ∃ kind, (i, kind) ∈ [(Instr.mbInter, McKind.inter), (.mbInterQ, .inter), (.mbInter4v, .inter4v)] := by
  simp only [List.mem_cons, List.not_mem_nil, or_false] at hi
  rcases hi with rfl | rfl | rfl <;> simp

theorem clearAiccColumn_eq {m : Mb} {s v : State} (h : Within m false s v) (col : Nat) :
    clearAiccColumn col v = { v with aicc := columnCleared s.aicc col } := by
  rw [clearAiccColumn, h.aicc_eq]
  rfl

/-- An INTER macroblock runs to its end. -/
theorem inter_ends {s : State} {c : GobRun} {q : Instr × McKind}
    (hq : q ∈ [(Instr.mbInter, McKind.inter), (.mbInterQ, .inter), (.mbInter4v, .inter4v)]) (hr : s.run = .gob c)
    (hw : s.mem.wf) (hm : mbSound s (cursorMb c s))
    (hb : ∀ n ∈ blocksInUse c.color, codedOf s (cursorMb c s) n = true →
      mbBlockSound s (cursorMb c s) n (quantOf s (cursorMb c s))) (hB : bBlocksSound s (cursorMb c s)) :
    ∃ t v, exec q.1 s = .next t ∧ Within (cursorMb c s) false s v ∧
      TagEnds s c (cursorMb c s) false (mbCost s.modeRru (overlapOf s (cursorMb c s))) v
        (columnCleared s.aicc (cursorMb c s).col) t ∧
      (s.modeRru = false → samplesLeft s (cursorMb c s) (interSample s (cursorMb c s) q.2) v) ∧
      (s.modeRru = true → (mbSamples (cursorMb c s) 32 c.newPic).Nodup →
        ∀ id ∈ planesInUse c.color, ∀ x < planeSize id 32, ∀ y < planeSize id 32,
          v.mem.read (mbCell (cursorMb c s) 32 c.newPic id x y) =
            sampleByte (clip255 ((unitPrediction s (cursorMb c s) q.2 id x y).toNat +
              upSample (unitResidual s (cursorMb c s) false id) (planeSize id 16) x y))) := by
  obtain ⟨hexec, hkind⟩ := exec_inter hq s
  obtain ⟨v, hh, hv, hnormal, hreduced⟩ := interHandler_ok hw hm hkind hb hB
  rw [clearAiccColumn_eq hv] at hh
  obtain ⟨t, ht, hend⟩ := tagEnds_of_handler (skip := false) hr hm hh hv
  exact ⟨t, v, hexec.trans ht, hv, hend, hnormal, hreduced⟩

/-- Settles O56. -/
theorem mbInterCompletes : Obligations.MbInterCompletes := by
  intro s c i hi
  dsimp only
  intro hr hw hm hb hB
  obtain ⟨kind, hq⟩ := exists_interKind hi
  obtain ⟨t, v, ht, hv, hend, -⟩ := inter_ends hq hr hw hm hb hB
  exact ⟨t, ht, hend.own, fun hrru => hend.arrays.2.2.1.trans (hv.rru hrru), hend.frame, by simpa using hend.scratch⟩

/-- The samples of NEW and B at the end of a macroblock at normal resolution. -/
theorem TagEnds.samples {s v t : State} {c : GobRun} {m : Mb} {skip : Bool} {cost : Nat} {aicc : List AicEntry}
    (h : TagEnds s c m skip cost v aicc t) (hm : mbSound s m) (hrru : s.modeRru = false)
    {sample : PlaneId → Nat → Nat → Byte} (hleft : samplesLeft s m sample v) : samplesLeft s m sample t := by
  have hu : unitSize s = 16 := unitSize_16 hrru
  intro hnodup happart id hid x hx y hy
  obtain ⟨hnew, hb⟩ := hleft hnodup happart id hid x hx y hy
  have hnew' := h.read_sample hm (newCell_mbBytes hid (hu ▸ hx) (hu ▸ hy))
  rw [hu] at hnew'
  refine ⟨hnew'.trans hnew, fun huse hbnodup => ?_⟩
  have hb' := h.read_sample hm (bCell_mbBytes huse hid (hu ▸ hx) (hu ▸ hy))
  rw [hu] at hb'
  exact hb'.trans (hb huse hbnodup)

/-- Settles O57. -/
theorem interSampleIsPredictionPlusResidual : Obligations.InterSampleIsPredictionPlusResidual := by
  intro s c q hq
  dsimp only
  intro hr hw hm hrru hb hB hnodup happart
  obtain ⟨t, v, ht, -, hend, hnormal, -⟩ := inter_ends hq hr hw hm hb hB
  refine ⟨t, ht, fun id hid x hx y hy => ⟨rfl, ?_⟩⟩
  exact hend.samples hm hrru (hnormal hrru) hnodup happart id hid x hx y hy

/-! ### INTRA -/

theorem exec_intra {i : Instr} (hi : i ∈ [Instr.mbIntra, .mbIntraQ]) (s : State) :
    exec i s = runTag false intraHandler s := by
  simp only [List.mem_cons, List.not_mem_nil, or_false] at hi
  rcases hi with rfl | rfl <;> rfl

/-- AICC after an INTRA macroblock: with advanced intra what its blocks wrote, its column cleared otherwise (R253). -/
def intraAicc (s : State) (m : Mb) : List AicEntry :=
  if s.modeAic && !s.modeRru then aicAfter s m (blocksInUse m.run.color).length else columnCleared s.aicc m.col

/-- An INTRA macroblock runs to its end. -/
theorem intra_ends {s : State} {c : GobRun} {i : Instr} (hi : i ∈ [Instr.mbIntra, .mbIntraQ]) (hr : s.run = .gob c)
    (hw : s.mem.wf) (hm : mbSound s (cursorMb c s))
    (hb : ∀ n ∈ blocksInUse c.color, mbBlockSound s (cursorMb c s) n (quantOf s (cursorMb c s)))
    (hB : bBlocksSound s (cursorMb c s))
    (ha : (s.modeAic && !s.modeRru) = true → aicModeOf s (cursorMb c s) ≤ 2 ∧ (cursorMb c s).col < s.params.aicCols) :
    ∃ t v, exec i s = .next t ∧ Within (cursorMb c s) (s.modeAic && !s.modeRru) s v ∧
      TagEnds s c (cursorMb c s) false (mbCost s.modeRru (s.modeRru && overlapOf s (cursorMb c s))) v
        (intraAicc s (cursorMb c s)) t ∧
      (∀ k, k ≠ (cursorMb c s).col → (intraAicc s (cursorMb c s))[k]? = s.aicc[k]?) ∧
      (s.modeRru = false → samplesLeft s (cursorMb c s) (intraSample s (cursorMb c s)) v) ∧
      (s.modeRru = true → (mbSamples (cursorMb c s) 32 c.newPic).Nodup →
        ∀ id ∈ planesInUse c.color, ∀ x < planeSize id 32, ∀ y < planeSize id 32,
          v.mem.read (mbCell (cursorMb c s) 32 c.newPic id x y) =
            sampleByte (clip255 (upSample (unitResidual s (cursorMb c s) true id) (planeSize id 16) x y))) := by
  obtain ⟨v, w, hh, hv, hwv, haicc, hnormal, hreduced⟩ := intraHandler_ok hw hm hb hB ha
  have hw' : w = { v with aicc := intraAicc s (cursorMb c s) } ∧
      ∀ k, k ≠ (cursorMb c s).col → (intraAicc s (cursorMb c s))[k]? = s.aicc[k]? := by
    unfold intraAicc
    cases haic : s.modeAic && !s.modeRru with
    | true =>
      rw [haic] at hwv hv
      rw [hwv, if_pos rfl, ← haicc haic]
      exact ⟨rfl, fun k hk => hv.aicc k (.inr hk)⟩
    | false =>
      rw [haic] at hwv hv
      rw [hwv, if_neg (by simp), clearAiccColumn_eq hv]
      exact ⟨rfl, fun k hk => by simp [columnCleared, Ne.symm hk]⟩
  rw [hw'.1] at hh
  obtain ⟨t, ht, hend⟩ := tagEnds_of_handler (skip := false) hr hm hh hv
  exact ⟨t, v, (exec_intra hi s).trans ht, hv, hend, hw'.2, hnormal, hreduced⟩

theorem intraSample_plain {s : State} (h : s.modeAic = false) (m : Mb) (id : PlaneId) (x y : Nat) :
    intraSample s m id x y =
      sampleByte (clip255 (blockResidual s m (blockAt id x y) (quantOf s m) (x % 8) (y % 8))) := by
  simp [intraSample, h]

/-- Settles O58. -/
theorem mbIntraCompletes : Obligations.MbIntraCompletes := by
  intro s c i hi
  dsimp only
  intro hr hw hm hb hB ha
  obtain ⟨t, v, ht, hv, hend, hothers, hnormal, -⟩ := intra_ends hi hr hw hm hb hB ha
  obtain ⟨-, -, hrrubuf, haicc⟩ := hend.arrays
  refine ⟨t, ht, hend.own, fun k hk => ?_, fun hrru => hrrubuf.trans (hv.rru hrru), hend.frame, by simpa using hend.scratch,
    fun hrru hnodup happart id hid x hx y hy => ?_⟩
  · rw [haicc]
    exact hothers k hk
  · obtain ⟨hnew, hbpic⟩ := hend.samples hm hrru (hnormal hrru) hnodup happart id hid x hx y hy
    exact ⟨hnew, fun haic => intraSample_plain haic _ id x y, hbpic⟩

/-! ### Reduced resolution -/

/-- Settles O59. -/
theorem reducedResolutionUnitAddsUpsampledResidual : Obligations.ReducedResolutionUnitAddsUpsampledResidual := by
  intro s c q hq
  dsimp only
  intro hr hw hm hrru hb hnodup
  have hu : unitSize s = 32 := unitSize_32 hrru
  have hB : bBlocksSound s (cursorMb c s) := fun htakes => by simp [takesB_unit hm hrru] at htakes
  have hread : ∀ {v t cost aicc}, TagEnds s c (cursorMb c s) false cost v aicc t → ∀ id ∈ planesInUse c.color,
      ∀ x < planeSize id 32, ∀ y < planeSize id 32, t.mem.read (mbCell (cursorMb c s) 32 c.newPic id x y) =
        v.mem.read (mbCell (cursorMb c s) 32 c.newPic id x y) := fun hend id hid x hx y hy => by
    have h := hend.read_sample hm (newCell_mbBytes hid (hu ▸ hx) (hu ▸ hy))
    rw [hu] at h
    exact h
  obtain ⟨i, kind⟩ := q
  cases kind with
  | some kind =>
    have hinter : (i, kind) ∈ [(Instr.mbInter, McKind.inter), (.mbInterQ, .inter), (.mbInter4v, .inter4v)] := by
      simpa using hq
    obtain ⟨t, v, ht, -, hend, -, hreduced⟩ := inter_ends hinter hr hw hm (fun n hn hc => hb n hn (.inr hc)) hB
    exact ⟨t, ht, fun id hid x hx y hy => (hread hend id hid x hx y hy).trans (hreduced hrru hnodup id hid x hx y hy)⟩
  | none =>
    have hintra : i ∈ [Instr.mbIntra, .mbIntraQ] := by simpa using hq
    obtain ⟨t, v, ht, -, hend, -, -, hreduced⟩ := intra_ends hintra hr hw hm (fun n hn => hb n hn (.inl rfl)) hB
      (fun h => by simp [hrru] at h)
    refine ⟨t, ht, fun id hid x hx y hy => ?_⟩
    rw [zero_add]
    exact (hread hend id hid x hx y hy).trans (hreduced hrru hnodup id hid x hx y hy)

end Sys2Proof.Proofs
end
